-- ==== Sys2Proof/Word.lean ====
section
/-! DEFINITION. The words of the part: a byte, a line time value, a sequence number, a wrapping
32-bit tally. Differences that read them as signed numbers stand in Machine/Bits.lean. -/

namespace Sys2Proof

/-- A byte of a record, a frame or a body (R1, R175, R178). -/
abbrev Byte := BitVec 8

/-- A line time value: an unsigned 48-bit count of 8 ns ticks that wraps (R12). -/
abbrev Time := BitVec 48

/-- A sequence number of a frame, 16 bits, wrapping (R62). -/
abbrev Seq := BitVec 16

/-- A 32-bit count that wraps: a link tally (R20), a port tally (R33), the interval number (R109). -/
abbrev Tally := BitVec 32

end Sys2Proof
end

