-- ==== Sys2Proof/Config.lean ====
section
/-! DEFINITION. The sizes that fix the shape of the state ("Fixed numbers" of spec/00_scope.md) and the
index types made from them. The manual leaves no result open, so there is no free value here. -/

namespace Sys2Proof

/-- A stream index, 0..255 (R24). -/
abbrev StreamIx := Fin 256

/-- An ingress port number, 0..23 (R4). -/
abbrev PortNo := Fin 24

/-- An alarm profile index, 0..7 (R132). -/
abbrev ProfileIx := Fin 8

/-- The three query ports, one for each master (R174). -/
inductive Port where
  | board
  | line
  | service
  deriving DecidableEq, Repr

end Sys2Proof
end

