-- ==== Sys2Proof/Syntax.lean ====
section
/-! DEFINITION. The commands of the part: one constructor for each row of spec/opcode_table.json, with
the operands its rule names. A command names an event that reaches the part; Machine/ gives it its
meaning. -/

namespace Sys2Proof

/-- The disposition of a descriptor that is not malformed (R4). -/
inductive Disposition where
  | forwarded
  | discarded
  | corrupt
  deriving DecidableEq, Repr

/-- A descriptor that is not malformed, with its five fields as received (R4). -/
structure Descriptor where
  disposition : Disposition
  ingressPort : PortNo
  flowKey : BitVec 32
  seq : Seq
  stamp : Time
  deriving DecidableEq, Repr

/-- The rows of spec/opcode_table.json.

Operands that the rows share:
* `takings` (TICK_RECORD, DESC_RECORD): the streams of which one due expiry each is taken, in this
  order, after an advance and before the new line time is offered to the Staging Unit. R69, R71 and
  R90 let an advance's expiries and an apply be taken in either order (log 5). Every other expiry of
  the advance is taken by its own row.
* `frame` (the three SPI rows): the whole bytes the master sent while SPI_CS_N was low (R175).
* `late` (the three SPI rows): the reply slot was still PENDING when SPI_CS_N fell and became READY
  before the end of byte 0 (R175, R177; log 12).
* `port` (the catalogue's commands and their steps): the query port that runs the command. The
  arguments stand in the running command, as the frame's parse left them (R181; log 8). -/
inductive Instr where
  /-- RESET_N is taken low (R197). -/
  | resetNAssert
  /-- RESET_N is released with the strap levels given (R185, R197). -/
  | resetNRelease (perm1 perm0 : Bool)
  /-- The hunt in DOWN finds a SYNC record (R6). -/
  | syncDetected
  /-- A record is framed and its check tested in ALIGNING (R7). -/
  | alignmentRecord (good : Bool)
  /-- The link watchdog reaches 1 ms (R7, R11). -/
  | watchdogExpiry
  /-- A record with a bad check, or a framing fault (R3, R9). -/
  | badRecord
  /-- A good SYNC record (R9). -/
  | syncRecord
  /-- A good record that is malformed (R10). -/
  | malformedRecord
  /-- A good TICK record (R15). -/
  | tickRecord (stamp : Time) (takings : List StreamIx)
  /-- A good DESC record that is not malformed (R16). -/
  | descRecord (d : Descriptor) (takings : List StreamIx)
  /-- A good QUERY record with its body (R18). -/
  | queryRecord (body : List Byte)
  /-- The last byte of a REPLY record has been sent (R19, R180). -/
  | replyRecordSent
  /-- The slot miss of a TRACKING or RECOVERING stream (R74). -/
  | slotMiss (stream : StreamIx)
  /-- The slot miss of an UNANCHORED stream (R75). -/
  | unanchoredSlotMiss (stream : StreamIx)
  /-- The hold expiry of one OUTSTANDING slot (R61, R78). -/
  | holdExpiry (stream : StreamIx) (seq : Seq)
  /-- The catch-up of a SILENT stream (R77). -/
  | silentCatchUp (stream : StreamIx)
  /-- The catch-up of a stream while HALTED (R88). -/
  | haltedCatchUp (stream : StreamIx)
  /-- A complete SPI COMMAND frame (R175, R176). -/
  | boardCommandFrame (frame : List Byte) (late : Bool)
  /-- An SPI FETCH frame (R177). -/
  | boardFetchFrame (frame : List Byte) (late : Bool)
  /-- A partial, bad-length or bad-type SPI frame (R175). -/
  | boardFrameDiscarded (frame : List Byte) (late : Bool)
  /-- A character on SVC_RXD (R178). -/
  | serviceCharacter (char : Byte) (framingError : Bool)
  /-- A break on SVC_RXD (R178). -/
  | serviceBreak
  /-- 10 ms pass between two characters of a partial frame (R178). -/
  | serviceCharacterTimeout
  /-- The last byte of a service frame has been sent (R179). -/
  | serviceReplySent
  /-- GET_STATUS runs (R187). -/
  | getStatus (port : Port)
  /-- GET_STREAM runs (R188). -/
  | getStream (port : Port)
  /-- GET_PORT_TALLIES runs (R189). -/
  | getPortTallies (port : Port)
  /-- GET_LINK runs (R190). -/
  | getLink (port : Port)
  /-- GET_PROFILE runs (R191). -/
  | getProfile (port : Port)
  /-- STAGE_READ runs (R163). -/
  | stageRead (port : Port)
  /-- LATCH runs (R193). -/
  | latch (port : Port)
  /-- GET_LATCHED runs (R194). -/
  | getLatched (port : Port)
  /-- POP_EVENTS runs (R143). -/
  | popEvents (port : Port)
  /-- GET_NOTICES runs (R147). -/
  | getNotices (port : Port)
  /-- CLEAR_NOTICES runs (R146). -/
  | clearNotices (port : Port)
  /-- SET_NOTICE_ENABLE runs (R152). -/
  | setNoticeEnable (port : Port)
  /-- ACK_LAMP runs (R149). -/
  | ackLamp (port : Port)
  /-- INJECT runs (R103). -/
  | inject (port : Port)
  /-- CLOSE_INTERVAL runs (R120). -/
  | closeInterval (port : Port)
  /-- SET_REPORT_MODE runs (R119). -/
  | setReportMode (port : Port)
  /-- CLEAR_TOTALS is checked and its clear begins (R126). -/
  | clearTotals (port : Port)
  /-- The next stream of a CLEAR_TOTALS is cleared (R126, R127). -/
  | clearTotalsStreamStep (port : Port)
  /-- STAGE_DEFINE runs (R156). -/
  | stageDefine (port : Port)
  /-- STAGE_REMOVE runs (R156). -/
  | stageRemove (port : Port)
  /-- STAGE_DROP runs (R158). -/
  | stageDrop (port : Port)
  /-- STAGE_DISCARD runs (R159). -/
  | stageDiscard (port : Port)
  /-- STAGE_ARM runs (R160). -/
  | stageArm (port : Port)
  /-- STAGE_DISARM runs (R161). -/
  | stageDisarm (port : Port)
  /-- APPLY runs (R162). -/
  | apply (port : Port)
  /-- SET_PROFILE is checked and replaces its profile (R133). -/
  | setProfile (port : Port)
  /-- The next stream that names a replaced profile is re-evaluated (R134). -/
  | profileReevaluation (port : Port)
  /-- HALT runs (R64, R195). -/
  | halt (port : Port)
  /-- RUN runs (R65, R195). -/
  | run (port : Port)
  /-- SET_TOTAL_MODE runs (R114). -/
  | setTotalMode (port : Port)
  /-- RESET_DEVICE runs (R196). -/
  | resetDevice (port : Port)
  /-- 10 ms pass with the board RESET_DEVICE reply unfetched (R196). -/
  | resetFetchTimeout
  /-- The interval timer reaches its period (R118). -/
  | intervalTimerExpiry
  /-- The sweep visits its next stream (R122). -/
  | sweepVisit
  /-- The abandonment timer reaches 60 s (R167). -/
  | abandonmentTimerExpiry
  /-- The CHANGEOVER pin changes to the level given (R165). -/
  | changeoverPinChange (level : Bool)
  /-- The pin has held the other level for 1 us (R165, R166). -/
  | changeoverFilterExpiry
  /-- An IDLE record has been sent (R19). -/
  | idleRecordSent
  deriving DecidableEq, Repr

end Sys2Proof
end

