-- ==== Sys2Proof/Machine/Types.lean ====
section
/-! DEFINITION. The records of the part that its state is made of: stream definitions, slot records,
tally fields, profiles, alarm events, staging entries, stream copies, parsed commands. Plain data. -/

namespace Sys2Proof.Machine

/-! ### Tap link -/

/-- The link state (R5). -/
inductive LinkState where
  | down
  | aligning
  | up
  deriving DecidableEq, Repr

/-- What a waiting or begun reply answers. `command` is the reply of the port's command in progress,
`reset` that of a RESET_DEVICE (R196), `busy` a BUSY answer (R19, R179), `leftover` a reply begun
before a reset and still being sent (R196): its end changes no command state. -/
inductive ReplyOrigin where
  | command
  | reset
  | busy
  | leftover
  deriving DecidableEq, Repr

/-- A reply body in a transmit queue (R19, R179). -/
structure TxReply where
  body : List Byte
  origin : ReplyOrigin
  deriving DecidableEq, Repr

/-- What the tap link transmitter is sending (R19); `silent` while RESET_N is low (R197). -/
inductive TapSending where
  | silent
  | idle
  | reply (r : TxReply)
  deriving DecidableEq, Repr

/-! ### Stream table -/

/-- An installed stream definition: the twelve fields of R21. -/
structure Definition where
  key : BitVec 32
  mask : BitVec 32
  pathA : PortNo
  /-- Absent for a single-path stream (R23). -/
  pathB : Option PortNo
  /-- P, in ticks. -/
  period : Nat
  /-- φ, in ticks. -/
  phase : Nat
  /-- τ, in ticks. -/
  tolerance : Nat
  /-- H, in periods. -/
  hold : Nat
  /-- J. -/
  jump : Nat
  profile : ProfileIx
  keepTallies : Bool
  /-- Absent, or 1..16 characters (R23). -/
  label : Option (List Byte)
  deriving DecidableEq, Repr

/-- A definition as a command body carries it, before the check of R22 (R184). -/
structure DefinitionArg where
  key : BitVec 32
  mask : BitVec 32
  pathA : Nat
  pathB : Option Nat
  period : Nat
  phase : Nat
  tolerance : Nat
  hold : Nat
  jump : Nat
  profile : Nat
  keepTallies : Nat
  label : List Byte
  deriving DecidableEq, Repr

/-- The six tallies of an ingress port (R33). -/
structure PortTallies where
  forwarded : Tally
  discarded : Tally
  corrupt : Tally
  unclassified : Tally
  unscheduled : Tally
  ignored : Tally
  deriving DecidableEq, Repr

/-! ### Sequence accounting -/

/-- A path of an arrival (R32). -/
inductive Path where
  | a
  | b
  deriving DecidableEq, Repr

/-- The paths a RECEIVED slot was seen on (R37). -/
inductive Paths where
  | onlyA
  | onlyB
  | both
  deriving DecidableEq, Repr

/-- Why a slot is OUTSTANDING (R37). -/
inductive Cause where
  | gap
  | miss
  deriving DecidableEq, Repr

/-- The state of a slot record with the fields present in it (R37). -/
inductive SlotState where
  | outstanding (due : Time) (cause : Cause)
  | received (paths : Paths)
  | dropped
  deriving DecidableEq, Repr

/-- A slot record (R37). -/
structure Slot where
  seq : Seq
  state : SlotState
  deriving DecidableEq, Repr

/-- The engine run state (R35). -/
inductive RunState where
  | running
  | halted
  deriving DecidableEq, Repr

/-- A stream's health (R91). -/
inductive Health where
  | off
  | unanchored
  | tracking
  | silent
  | recovering
  deriving DecidableEq, Repr

/-! ### Tallies -/

/-- The sixteen fields of a tally record, in the order of R108. -/
inductive Field where
  | onTime
  | late
  | reordered
  | dropped
  | droppedForced
  | droppedInjected
  | duplicate
  | redundant
  | stale
  | tooLate
  | seqBreak
  | pathAMiss
  | pathBMiss
  | silentSlots
  | flushed
  | discardedHere
  deriving DecidableEq, Repr

/-- One post to the Tally Store: a field and a count (R110). -/
structure Post where
  field : Field
  count : Nat
  deriving DecidableEq, Repr

/-- The lateness statistics of an interval, all three present together (R115). -/
structure Lateness where
  latMin : Int
  latMax : Int
  latLast : Int
  deriving DecidableEq, Repr

/-- A last-interval record (R123). -/
structure IntervalRecord where
  intervalNumber : Tally
  closeTime : Time
  values : Vector Nat 16
  /-- lat_min and lat_max, present together. -/
  lat : Option (Int × Int)
  health : Health
  deriving DecidableEq, Repr

/-- A total mode (R112). -/
inductive TotalMode where
  | hold
  | wrap
  deriving DecidableEq, Repr

/-- The report mode; AUTO carries its period in seconds (R118). -/
inductive ReportMode where
  | auto (seconds : Nat)
  | manual
  deriving DecidableEq, Repr

/-! ### Alarms -/

/-- The alarm classes, in class order (R137). -/
inductive AlarmClass where
  | drop
  | late
  | reorder
  | path
  | silent
  deriving DecidableEq, Repr

/-- The five alarm states of a stream, true for active (R135). -/
structure AlarmStates where
  drop : Bool
  late : Bool
  reorder : Bool
  path : Bool
  silent : Bool
  deriving DecidableEq, Repr

/-- A routing: a subset of LAMP, IRQ, LINE_FLAG (R132). -/
structure Route where
  lamp : Bool
  irq : Bool
  lineFlag : Bool
  deriving DecidableEq, Repr

/-- The edge mode of a profile (R132). -/
inductive EdgeMode where
  | assertOnly
  | both
  deriving DecidableEq, Repr

/-- An alarm profile (R132). -/
structure Profile where
  dropThreshold : Nat
  lateThreshold : Nat
  reorderThreshold : Nat
  pathThreshold : Nat
  silentDeclare : Nat
  silentClear : Nat
  edgeMode : EdgeMode
  routeDrop : Route
  routeLate : Route
  routeReorder : Route
  routePath : Route
  routeSilent : Route
  deriving DecidableEq, Repr

/-- A profile as SET_PROFILE carries it, its edge mode still a code (R184). -/
structure ProfileArg where
  dropThreshold : Nat
  lateThreshold : Nat
  reorderThreshold : Nat
  pathThreshold : Nat
  silentDeclare : Byte
  silentClear : Byte
  edgeMode : Nat
  routeDrop : Route
  routeLate : Route
  routeReorder : Route
  routePath : Route
  routeSilent : Route
  deriving DecidableEq, Repr

/-- The edge of an alarm event (R139). -/
inductive Edge where
  | assert
  | deassert
  deriving DecidableEq, Repr

/-- An alarm event (R139). -/
structure Event where
  stream : StreamIx
  cls : AlarmClass
  edge : Edge
  lineTime : Time
  value : Nat
  deriving DecidableEq, Repr

/-- A port's event queue, oldest first, with its lost count (R141). -/
structure EventQueue where
  records : List Event
  lost : Nat
  deriving DecidableEq, Repr

/-- The twelve notices, in bit order (R144). -/
inductive Notice where
  | alarm
  | queueLost
  | interval
  | applied
  | triggerEmpty
  | strobeUnused
  | abandoned
  | linkDown
  | linkUp
  | timeStep
  | terminal
  | engine
  deriving DecidableEq, Repr

/-- One item for each query port. -/
structure PerPort (α : Type) where
  board : α
  line : α
  service : α
  deriving DecidableEq, Repr

/-! ### A stream -/

/-- Everything the blocks hold for one stream: SCL's entry (R24), SAE's context (R35), SLT's cursor
(R67), HTR's state (R91), TST's record (R109), ACP's states and the stream's shares of ACP's two
counts (R135, R148, R150). `taking` is the model's own. -/
structure Stream where
  definition : Option Definition
  /-- E, the next expected sequence number. -/
  expected : Seq
  /-- The history window, lowest position first. -/
  window : List Slot
  staleCount : Nat
  /-- C, the slot cursor. -/
  cursor : Time
  /-- The last advance's taking of the stream's expiries has begun and is not known to have ended (R71, log 5,
  log 27). -/
  taking : Bool
  health : Health
  /-- The consecutive-miss count. -/
  misses : Nat
  /-- The recovery count. -/
  recovery : Nat
  /-- The test-loss-pending flag. -/
  testLoss : Bool
  totals : Vector Nat 16
  terminal : Vector Bool 16
  interval : Vector Nat 16
  lateness : Option Lateness
  lastInterval : Option IntervalRecord
  clearGen : BitVec 8
  alarms : AlarmStates
  lampShare : Nat
  lineShare : Nat
  deriving DecidableEq, Repr

/-- A copy of a stream in a latch bank (R192). -/
structure StreamCopy where
  stream : StreamIx
  definition : Option Definition
  health : Health
  expected : Seq
  outstanding : Nat
  alarms : AlarmStates
  clearGen : BitVec 8
  totals : Vector Nat 16
  terminal : Vector Bool 16
  interval : Vector Nat 16
  lateness : Option Lateness
  lastInterval : Option IntervalRecord
  deriving DecidableEq, Repr

/-! ### Staging -/

/-- The staging state (R153). -/
inductive StagingState where
  | empty
  | opened
  | armed
  deriving DecidableEq, Repr

/-- A staging entry (R154). -/
inductive StageEntry where
  | define (stream : StreamIx) (d : Definition)
  | remove (stream : StreamIx)
  deriving DecidableEq, Repr

/-- A trigger source (R153). -/
inductive TriggerSource where
  | command
  | atTime
  | strobe
  deriving DecidableEq, Repr

/-! ### Commands -/

/-- A parsed command with its arguments, in the order of the catalogue (R186). Arguments keep every
value their bytes can carry; each command's own rule checks them. -/
inductive Command where
  | getStatus
  | getStream (index : Nat)
  | getPortTallies (port : Nat)
  | getLink
  | getProfile (index : Nat)
  | stageRead (first : Nat)
  | latch (first last : Nat)
  | getLatched (slot : Nat)
  | popEvents (n : Nat)
  | getNotices
  | clearNotices (mask : BitVec 16)
  | setNoticeEnable (mask : BitVec 16)
  | ackLamp
  | inject (index : Nat)
  | closeInterval
  | setReportMode (mode period : Nat)
  | clearTotals (first last : Nat)
  | stageDefine (index : Nat) (d : DefinitionArg)
  | stageRemove (index : Nat)
  | stageDrop (index : Nat)
  | stageDiscard
  | stageArm (source : Nat) (time : Time)
  | stageDisarm
  | apply
  | setProfile (index : Nat) (p : ProfileArg)
  | halt
  | run
  | setTotalMode (mode : Nat) (positions : List Nat)
  | resetDevice
  deriving DecidableEq, Repr

/-- How far a running command has come. CLEAR_TOTALS and SET_PROFILE work stream by stream (R127,
R134); every other command is done in one row. -/
inductive Work where
  /-- Taken and parsed, not yet run. -/
  | start (c : Command)
  /-- CLEAR_TOTALS: `next` is cleared next; the reply names `first` and the clamped `last`. -/
  | clearing (first next last : StreamIx)
  /-- SET_PROFILE: streams from `next` on that name `profile` are still to be re-evaluated; the reply
  carries the record as it stood before. -/
  | reevaluating (profile : ProfileIx) (next : Nat) (before : Profile)
  deriving DecidableEq, Repr

/-- The command a port runs, with its tag (R181). -/
structure Running where
  tag : Byte
  work : Work
  deriving DecidableEq, Repr

/-- The command state of the line and service ports (R174). -/
inductive CmdState where
  | idle
  | running (r : Running)
  | replying
  deriving DecidableEq, Repr

/-- The board port's reply slot (R176). `isReset` marks the reply of a RESET_DEVICE (R196). -/
inductive ReplySlot where
  | none
  | pending (r : Running)
  | ready (reply : List Byte) (isReset : Bool)
  deriving DecidableEq, Repr

/-- The service receiver (R178): hunting, or a partial frame with its bytes from the start byte on and
the REFCLK periods since its last character. -/
inductive ServiceRx where
  | hunting
  | partialFrame (bytes : List Byte) (gap : Nat)
  deriving DecidableEq, Repr

end Sys2Proof.Machine
end

