-- ==== Sys2Proof/Machine/State.lean ====
section
/-! DEFINITION. The state of the part, block by block, and its values at reset. -/

namespace Sys2Proof.Machine

/-- Nothing the manual describes stops the part: every bad input ends in a count, a discard or a status
code (R3, R9, R10, R175, R178, R182). So there is no fault, and no row raises one. -/
inductive Fault where
  deriving DecidableEq, Repr

/-- The one refusal the host's form asks for. -/
inductive Refusal where
  /-- Raised by an arm of exec that gives its row no meaning yet. Safe: the model stops. No arm of the
  present exec raises it. -/
  | notModelled (mnemonic : String)
  deriving DecidableEq, Repr

/-- What a row answers. -/
abbrev Result (σ : Type) := Host.Outcome σ Fault Refusal

/-- The Tap Link Receiver (R5, R12, R19, R20). A running timer counts REFCLK periods; `none` is
stopped. -/
structure Link where
  state : LinkState
  goodCount : Nat
  badCount : Nat
  watchdog : Option Nat
  timeLoaded : Bool
  /-- T. -/
  lineTime : Time
  /-- The partial record: the bytes of a record being received; in DOWN, the last bytes of the hunt. -/
  rxBytes : List Byte
  txQueue : List TxReply
  sending : TapSending
  goodRecords : Tally
  badCheck : Tally
  malformed : Tally
  behind : Tally
  timeSteps : Tally
  linkDowns : Tally
  deriving DecidableEq, Repr

/-- The part-wide items of the Tally Store (R109). -/
structure TallyStore where
  totalModes : Vector TotalMode 16
  reportMode : ReportMode
  intervalTimer : Option Nat
  intervalNumber : Tally
  /-- Idle, or under way with the next stream to visit. -/
  sweep : Option StreamIx
  deriving DecidableEq, Repr

/-- The part-wide items of the Alarm Comparator (R132, R141, R144, R148, R150, R151). -/
structure AlarmComparator where
  profiles : Vector Profile 8
  lampLatch : Bool
  /-- The count of active alarms routed to LAMP. -/
  lampCount : Nat
  /-- The count of active alarms routed to LINE_FLAG. -/
  lineCount : Nat
  queues : PerPort EventQueue
  summaries : PerPort (BitVec 16)
  boardEnable : BitVec 16
  deriving DecidableEq, Repr

/-- The Staging Unit (R153). -/
structure Staging where
  state : StagingState
  entries : List StageEntry
  holder : Option Port
  source : Option TriggerSource
  armTime : Option Time
  timer : Option Nat
  /-- The accepted level of the CHANGEOVER filter, true for high. -/
  accepted : Bool
  /-- REFCLK periods for which the pin has held the other level. -/
  held : Nat
  deriving DecidableEq, Repr

/-- The board port (R174, R176). `fetchWait` counts REFCLK periods since a RESET_DEVICE reply was put in
the slot (R196); `lastSdo` is what the last frame returned on SPI_SDO (log 13). -/
structure BoardPort where
  slot : ReplySlot
  held : Option (List Byte)
  fetchWait : Option Nat
  lastSdo : List Byte
  deriving DecidableEq, Repr

/-- The line port (R174, R180). -/
structure LinePort where
  cmd : CmdState
  discardMark : Bool
  deriving DecidableEq, Repr

/-- The service port (R174, R178, R179). `lastFrame` is the last frame finished on SVC_TXD (log 13). -/
structure ServicePort where
  rx : ServiceRx
  cmd : CmdState
  txQueue : List TxReply
  sending : Option TxReply
  lastFrame : List Byte
  deriving DecidableEq, Repr

/-- The state of the part. -/
structure State where
  /-- RESET_N is low (R197). -/
  resetLow : Bool
  link : Link
  /-- The schedule valid flag (R25). -/
  scheduleValid : Bool
  portTallies : Vector PortTallies 24
  /-- The engine run state (R35). -/
  engine : RunState
  streams : Vector Stream 256
  tst : TallyStore
  acp : AlarmComparator
  staging : Staging
  /-- The level on the CHANGEOVER pin, true for high (R165, log 10). -/
  changeoverPin : Bool
  /-- The permission plan (R185). -/
  plan : Fin 4
  resetPending : Bool
  board : BoardPort
  linePort : LinePort
  service : ServicePort
  /-- The latch banks (R192). -/
  banks : PerPort (List StreamCopy)
  /-- The last record finished on TAP_TX (log 13). -/
  lastTapRecord : List Byte
  /-- The commands waiting, first in, first out: the model's own field. -/
  pending : List Instr
  deriving DecidableEq, Repr

/-! ### Reset values -/

/-- R135. -/
def AlarmStates.clear : AlarmStates := ⟨false, false, false, false, false⟩

/-- A stream after a reset (R24, R35, R67, R91, R109, R135). -/
def Stream.reset : Stream where
  definition := none
  expected := 0
  window := []
  staleCount := 0
  cursor := 0
  taking := false
  health := .off
  misses := 0
  recovery := 0
  testLoss := false
  totals := Vector.replicate 16 0
  terminal := Vector.replicate 16 false
  interval := Vector.replicate 16 0
  lateness := none
  lastInterval := none
  clearGen := 0
  alarms := AlarmStates.clear
  lampShare := 0
  lineShare := 0

/-- The empty routing. -/
def Route.none : Route := ⟨false, false, false⟩

/-- A profile after a reset (R132). -/
def Profile.reset : Profile where
  dropThreshold := 0
  lateThreshold := 0
  reorderThreshold := 0
  pathThreshold := 0
  silentDeclare := 8
  silentClear := 4
  edgeMode := .assertOnly
  routeDrop := Route.none
  routeLate := Route.none
  routeReorder := Route.none
  routePath := Route.none
  routeSilent := ⟨true, false, false⟩

/-- The same item for each port. -/
def PerPort.all {α : Type} (x : α) : PerPort α := ⟨x, x, x⟩

/-- The tap link after a reset; `sending` is what the transmitter has begun (R5, R12, R20). -/
def Link.reset (sending : TapSending) : Link where
  state := .down
  goodCount := 0
  badCount := 0
  watchdog := none
  timeLoaded := false
  lineTime := 0
  rxBytes := []
  txQueue := []
  sending := sending
  goodRecords := 0
  badCheck := 0
  malformed := 0
  behind := 0
  timeSteps := 0
  linkDowns := 0

/-- R109. -/
def TallyStore.reset : TallyStore where
  totalModes := Vector.replicate 16 .hold
  reportMode := .auto 60
  intervalTimer := some 0
  intervalNumber := 0
  sweep := none

/-- R132, R141, R144, R148, R150, R151. -/
def AlarmComparator.reset : AlarmComparator where
  profiles := Vector.replicate 8 Profile.reset
  lampLatch := false
  lampCount := 0
  lineCount := 0
  queues := PerPort.all ⟨[], 0⟩
  summaries := PerPort.all 0
  boardEnable := 0

/-- R153. -/
def Staging.reset : Staging where
  state := .empty
  entries := []
  holder := none
  source := none
  armTime := none
  timer := none
  accepted := true
  held := 0

/-- The part right after the release of RESET_N, every block at its power-on reset value. The strap
levels (plan 0) and the CHANGEOVER level (high) are inputs the manual leaves to the board: DESIGN CHOICE
(log 10). -/
def State.reset : State where
  resetLow := false
  link := Link.reset .idle
  scheduleValid := false
  portTallies := Vector.replicate 24 ⟨0, 0, 0, 0, 0, 0⟩
  engine := .running
  streams := Vector.replicate 256 Stream.reset
  tst := TallyStore.reset
  acp := AlarmComparator.reset
  staging := Staging.reset
  changeoverPin := true
  plan := 0
  resetPending := false
  board := ⟨.none, none, none, []⟩
  linePort := ⟨.idle, false⟩
  service := ⟨.hunting, .idle, [], none, []⟩
  banks := PerPort.all []
  lastTapRecord := []
  pending := []

end Sys2Proof.Machine
end

