-- ==== Sys2Proof/Machine/Limits.lean ====
section
/-! DEFINITION. The numbers the manual fixes: limits, periods, durations in REFCLK periods (25 MHz, so
25 periods are 1 us). -/

namespace Sys2Proof.Machine

/-- The time step limit, 100 ms in ticks (R15, R17). -/
abbrev stepLimit : Int := 12500000

/-- The link watchdog: 1 ms (R7, R11). -/
abbrev watchdogLimit : Nat := 25000

/-- A second of REFCLK (R118). -/
abbrev refclkPerSecond : Nat := 25000000

/-- The abandonment timer: 60 s (R167). -/
abbrev abandonmentLimit : Nat := 1500000000

/-- The CHANGEOVER filter: 1 us (R165). -/
abbrev filterLimit : Nat := 25

/-- The longest time between two characters of a service frame: 10 ms (R178). -/
abbrev characterGapLimit : Nat := 250000

/-- The wait for the fetch of a board RESET_DEVICE reply: 10 ms (R196). -/
abbrev fetchWaitLimit : Nat := 250000

/-- Good records that take the link from ALIGNING to UP (R7). -/
abbrev alignmentGoal : Nat := 4

/-- Bad records in a row that take the link DOWN (R9). -/
abbrev badLimit : Nat := 4

/-- Places for BUSY replies in a transmit queue (R19, R179). -/
abbrev busyPlaces : Nat := 3

/-- Sequence numbers a history window spans (R36). -/
abbrev windowSpan : Nat := 32

/-- The most OUTSTANDING slots of a window (R41). -/
abbrev outstandingCap : Nat := 8

/-- Stale arrivals in a row counted as STALE (R54). -/
abbrev staleLimit : Nat := 3

/-- The top of an interval tally (R111). -/
abbrev intervalTop : Nat := 65535

/-- The top of a total (R112). -/
abbrev totalTop : Nat := 4294967295

/-- The top of a port's lost count (R142). -/
abbrev lostTop : Nat := 255

/-- The places of an event queue (R142). -/
abbrev queuePlaces : Nat := 32

/-- The places of the staging list (R154). -/
abbrev stagePlaces : Nat := 32

/-- The most records one POP_EVENTS removes (R143). -/
abbrev popMax : Nat := 8

/-- The most copies a latch bank holds (R192). -/
abbrev bankPlaces : Nat := 32

/-- The most entries a STAGE_READ returns (R163). -/
abbrev stageReadMax : Nat := 4

/-- The longest body (R181). -/
abbrev bodyMax : Nat := 250

end Sys2Proof.Machine
end

