-- ==== Sys2Proof/Machine/Bits.lean ====
section
/-! DEFINITION. Signed differences of line times and sequence numbers, bytes most significant first, and
the CRC-16 of records and service frames. -/

namespace Sys2Proof.Machine

/-- a − b for two line times: modulo 2^48, read as a signed 48-bit number ("Time comparison",
spec/00_scope.md; R15, R72, R87). -/
def timeDiff (a b : Time) : Int := (a - b).toInt

/-- A line time moved by a whole number of ticks, modulo 2^48 (R67). -/
def timeShift (t : Time) (ticks : Int) : Time := t + BitVec.ofInt 48 ticks

/-- The distance of s from e: modulo 65,536, read as signed in −32,768..32,767 (R62). -/
def seqDist (s e : Seq) : Int := (s - e).toInt

/-- The quotient rounded toward positive infinity, for a positive divisor (R80, R84). -/
def ceilDiv (d p : Int) : Int := -((-d) / p)

/-- The n low bytes of v, most significant first (R1, R183). -/
def bytesBE : Nat → Nat → List Byte
  | 0, _ => []
  | n + 1, v => BitVec.ofNat 8 (v / 256 ^ n) :: bytesBE n v

/-- The unsigned number whose bytes are given most significant first (R1, R183). -/
def natBE (bs : List Byte) : Nat := bs.foldl (fun v b => v * 256 + b.toNat) 0

/-- A flag as one byte: 0 clear or no, 1 set or yes (R183). -/
def flagByte (b : Bool) : Byte := if b then 1 else 0

/-- A signed 32-bit value as four bytes, two's complement (R183). -/
def lateBytes (v : Int) : List Byte := bytesBE 4 (BitVec.ofInt 32 v).toNat

/-- One shift of the CRC register: x^16 + x^12 + x^5 + 1 (R2). -/
def crcShift (r : BitVec 16) : BitVec 16 :=
  if r.msb then (r <<< 1) ^^^ 0x1021 else r <<< 1

/-- n shifts of the CRC register. -/
def crcShifts : Nat → BitVec 16 → BitVec 16
  | 0, r => r
  | n + 1, r => crcShifts n (crcShift r)

/-- One byte taken into the CRC, most significant bit first (R2). -/
def crcByte (r : BitVec 16) (b : Byte) : BitVec 16 :=
  crcShifts 8 (r ^^^ (b.zeroExtend 16 <<< 8))

/-- The CRC-16 of a run of bytes: the register starts at 0xFFFF and is not inverted (R2). -/
def crc16 (bs : List Byte) : BitVec 16 := bs.foldl crcByte 0xFFFF

/-- The check of a run of bytes, high byte first (R2). -/
def checkBytes (bs : List Byte) : List Byte := bytesBE 2 (crc16 bs).toNat

/-- A run of bytes with its check added (R1, R2, R178). -/
def withCheck (bs : List Byte) : List Byte := bs ++ checkBytes bs

/-- The last two bytes are the check of the bytes before them (R2, R178). -/
def checkGood (bs : List Byte) : Bool :=
  bs.drop (bs.length - 2) == checkBytes (bs.take (bs.length - 2))

end Sys2Proof.Machine
end

