-- ==== Sys2Proof/Machine/Ops.lean ====
section
/-! DEFINITION. The named operations over the stream table, the per-port items and the REFCLK timers. -/

namespace Sys2Proof.Machine

/-! ### Streams -/

/-- The 256 stream indices, ascending. -/
def allStreams : List StreamIx := List.finRange 256

/-- What the blocks hold for stream i. -/
def State.stream (s : State) (i : StreamIx) : Stream := s.streams[i]

/-- Stream i replaced. -/
def State.setStream (s : State) (i : StreamIx) (x : Stream) : State :=
  { s with streams := s.streams.set i x }

/-- Stream i changed by f. -/
def State.updStream (s : State) (i : StreamIx) (f : Stream → Stream) : State :=
  s.setStream i (f (s.stream i))

/-- The work f on every stream in turn, in ascending index. -/
def State.eachStream (s : State) (f : StreamIx → State → State) : State :=
  allStreams.foldl (fun t i => f i t) s

/-- The work f on every stream whose health is not OFF, in ascending index (R64, R95). -/
def State.eachLive (s : State) (f : StreamIx → State → State) : State :=
  s.eachStream fun i t => if (t.stream i).health = .off then t else f i t

/-- The profile the stream's active definition names, read at the moment of use (R27, R132). -/
def State.profileOf (s : State) (x : Stream) : Option Profile :=
  x.definition.map fun d => s.acp.profiles[d.profile]

/-- A definition with path_b is a paired stream (R21). -/
def Stream.paired (x : Stream) : Bool :=
  match x.definition with
  | some d => d.pathB.isSome
  | none => false

/-! ### Tally fields -/

/-- A field's position 0..15 in the order of R108. -/
def Field.pos : Field → Fin 16
  | .onTime => 0
  | .late => 1
  | .reordered => 2
  | .dropped => 3
  | .droppedForced => 4
  | .droppedInjected => 5
  | .duplicate => 6
  | .redundant => 7
  | .stale => 8
  | .tooLate => 9
  | .seqBreak => 10
  | .pathAMiss => 11
  | .pathBMiss => 12
  | .silentSlots => 13
  | .flushed => 14
  | .discardedHere => 15

/-- The interval tally of a field. -/
def Stream.tally (x : Stream) (f : Field) : Nat := x.interval[f.pos]

/-- The total of a field. -/
def Stream.total (x : Stream) (f : Field) : Nat := x.totals[f.pos]

/-- The terminal flag of a field. -/
def Stream.flag (x : Stream) (f : Field) : Bool := x.terminal[f.pos]

/-! ### Per-port items -/

/-- The item of a port. -/
def PerPort.get {α : Type} (x : PerPort α) : Port → α
  | .board => x.board
  | .line => x.line
  | .service => x.service

/-- The item of a port replaced. -/
def PerPort.set {α : Type} (x : PerPort α) (p : Port) (v : α) : PerPort α :=
  match p with
  | .board => { x with board := v }
  | .line => { x with line := v }
  | .service => { x with service := v }

/-! ### Time -/

/-- n REFCLK periods pass on a timer: a running one counts up to its limit, where it stands until its
expiry is taken (log 3). -/
def timerAfter (limit n : Nat) (t : Option Nat) : Option Nat := t.map fun k => min (k + n) limit

/-- The period of the interval timer in REFCLK periods (R118). -/
def TallyStore.timerLimit (t : TallyStore) : Nat :=
  match t.reportMode with
  | .auto sec => sec * refclkPerSecond
  | .manual => 0

/-- The gap of a partial service frame after n more REFCLK periods (R178). -/
def ServiceRx.after (n : Nat) : ServiceRx → ServiceRx
  | .hunting => .hunting
  | .partialFrame bs gap => .partialFrame bs (min (gap + n) characterGapLimit)

/-- The pin holds the level that is not the accepted one (R165). -/
def State.filterRunning (s : State) : Bool := s.changeoverPin != s.staging.accepted

/-- n REFCLK periods pass: every running timer of the part counts them (R118, R165, R167, R178, R196,
R7). Nothing else happens at a REFCLK period. -/
def State.elapse (s : State) (n : Nat) : State :=
  { s with
    link := { s.link with watchdog := timerAfter watchdogLimit n s.link.watchdog }
    tst := { s.tst with intervalTimer := timerAfter s.tst.timerLimit n s.tst.intervalTimer }
    staging := { s.staging with
      timer := timerAfter abandonmentLimit n s.staging.timer
      held := if s.filterRunning then min (s.staging.held + n) filterLimit else s.staging.held }
    service := { s.service with rx := s.service.rx.after n }
    board := { s.board with fetchWait := timerAfter fetchWaitLimit n s.board.fetchWait } }

/-- A row of the part's own, or an input that reaches it: taken unless RESET_N is low, for then the part
holds its power-on reset values and takes no input (R197). -/
def live (s t : State) : Result State := .next (if s.resetLow then s else t)

end Sys2Proof.Machine
end

