-- ==== Sys2Proof/Machine/Flags.lean ====
section
/-! DEFINITION. The notice summaries, the board notice enable, the lamp and the three output pins. -/

namespace Sys2Proof.Machine

/-- A notice's bit in a summary (R144). -/
def Notice.bit : Notice → Nat
  | .alarm => 0
  | .queueLost => 1
  | .interval => 2
  | .applied => 3
  | .triggerEmpty => 4
  | .strobeUnused => 5
  | .abandoned => 6
  | .linkDown => 7
  | .linkUp => 8
  | .timeStep => 9
  | .terminal => 10
  | .engine => 11

/-- The summary that holds this notice alone. -/
def Notice.word (n : Notice) : BitVec 16 := 1#16 <<< n.bit

/-- A summary word holds a notice (R144). -/
def noticeSet (w : BitVec 16) (n : Notice) : Bool := w.getLsbD n.bit

/-- A notice set in one port's summary; one already set stays set (R145). -/
def State.postTo (s : State) (n : Notice) (p : Port) : State :=
  { s with acp := { s.acp with
      summaries := s.acp.summaries.set p (s.acp.summaries.get p ||| n.word) } }

/-- A notice posted to all three ports, as one step (R145). -/
def State.post (s : State) (n : Notice) : State :=
  { s with acp := { s.acp with
      summaries := ⟨s.acp.summaries.board ||| n.word, s.acp.summaries.line ||| n.word,
        s.acp.summaries.service ||| n.word⟩ } }

/-- Bits 12..15, which no summary holds (R144). -/
abbrev reservedNotices : BitVec 16 := 0xF000

/-- ATTN_LAMP is high (R148, R197). -/
def State.attnLamp (s : State) : Bool := s.acp.lampLatch

/-- LINE_FLAG is high (R150). -/
def State.lineFlag (s : State) : Bool := 0 < s.acp.lineCount

/-- BOARD_IRQ_N is driven low: a notice is set in the board summary and in the enable (R151). -/
def State.boardIrqAsserted (s : State) : Bool := s.acp.summaries.board &&& s.acp.boardEnable != 0

end Sys2Proof.Machine
end

