-- ==== Sys2Proof/Machine/Alarms.lean ====
section
/-! DEFINITION. The Alarm Comparator: conditions, evaluation of a stream, alarm events, event queues, the
lamp latch and LINE_FLAG counts (R135 to R142, R148, R150). -/

namespace Sys2Proof.Machine

/-- The state of a class. -/
def AlarmStates.get (a : AlarmStates) : AlarmClass → Bool
  | .drop => a.drop
  | .late => a.late
  | .reorder => a.reorder
  | .path => a.path
  | .silent => a.silent

/-- The state of a class replaced. -/
def AlarmStates.set (a : AlarmStates) (c : AlarmClass) (v : Bool) : AlarmStates :=
  match c with
  | .drop => { a with drop := v }
  | .late => { a with late := v }
  | .reorder => { a with reorder := v }
  | .path => { a with path := v }
  | .silent => { a with silent := v }

/-- The classes, in class order (R137). -/
def AlarmClass.inOrder : List AlarmClass := [.drop, .late, .reorder, .path, .silent]

/-- The four threshold classes, in class order (R122). -/
def AlarmClass.thresholds : List AlarmClass := [.drop, .late, .reorder, .path]

/-- The routing of a class (R132). -/
def Profile.route (p : Profile) : AlarmClass → Route
  | .drop => p.routeDrop
  | .late => p.routeLate
  | .reorder => p.routeReorder
  | .path => p.routePath
  | .silent => p.routeSilent

/-- The threshold of a class; the SILENT class has none. -/
def Profile.threshold (p : Profile) : AlarmClass → Nat
  | .drop => p.dropThreshold
  | .late => p.lateThreshold
  | .reorder => p.reorderThreshold
  | .path => p.pathThreshold
  | .silent => 0

/-- The quantity a class's condition compares, and the value of its events (R135, R139). -/
def Stream.alarmValue (x : Stream) : AlarmClass → Nat
  | .drop => x.tally .dropped
  | .late => x.tally .late
  | .reorder => x.tally .reordered
  | .path => x.tally .pathAMiss + x.tally .pathBMiss
  | .silent => x.misses

/-- The condition of a class for a stream that is not OFF (R135). -/
def alarmCondition (p : Profile) (x : Stream) (c : AlarmClass) : Bool :=
  match c with
  | .silent => x.health == .silent || x.health == .recovering
  | _ => p.threshold c != 0 && decide (p.threshold c ≤ x.alarmValue c)

/-- The condition an evaluation finds: inactive for an OFF stream, else by the governing profile (R135,
R137). A stream that is not OFF has a definition and so a governing profile (R24). -/
def conditionFound (gov : Option Profile) (x : Stream) (c : AlarmClass) : Bool :=
  match gov with
  | some p => x.health != .off && alarmCondition p x c
  | none => false

/-! ### Events -/

/-- The effect of a push on one queue (R142). -/
def EventQueue.push (q : EventQueue) (e : Event) : EventQueue :=
  if q.records.length < queuePlaces then { q with records := q.records ++ [e] }
  else { q with lost := min (q.lost + 1) lostTop }

/-- A record pushed into one port's queue; a loss sets QUEUE_LOST in that port's summary (R142). -/
def State.pushEvent (s : State) (e : Event) (p : Port) : State :=
  let q := s.acp.queues.get p
  let t := { s with acp := { s.acp with queues := s.acp.queues.set p (q.push e) } }
  if q.records.length < queuePlaces then t else t.postTo .queueLost p

/-- An alarm event: three pushes, ALARM to the line and service ports, and to the board port if the class
is routed to IRQ (R140). -/
def State.emit (s : State) (e : Event) (irq : Bool) : State :=
  let t := ((s.pushEvent e .board).pushEvent e .line).pushEvent e .service
  let t := (t.postTo .alarm .line).postTo .alarm .service
  if irq then t.postTo .alarm .board else t

/-- Whether an edge makes an event under the governing profile's edge mode (R140). -/
def edgeMakesEvent (p : Profile) : Edge → Bool
  | .assert => true
  | .deassert => p.edgeMode == .both

/-- The edge of one class of stream i, whose state already holds its new value (R137, R140). -/
def State.takeEdge (s : State) (i : StreamIx) (gov : Option Profile) (c : AlarmClass) : State :=
  let x := s.stream i
  let edge : Edge := if x.alarms.get c then .assert else .deassert
  match gov with
  | some p =>
    if edgeMakesEvent p edge then
      s.emit ⟨i, c, edge, s.link.lineTime, x.alarmValue c⟩ (p.route c).irq
    else s
  | none => s

/-! ### Evaluation -/

/-- The number of active alarms of a stream whose routing satisfies r (R148, R150). -/
def routedCount (gov : Option Profile) (a : AlarmStates) (r : Route → Bool) : Nat :=
  match gov with
  | some p => (AlarmClass.inOrder.filter fun c => a.get c && r (p.route c)).length
  | none => 0

/-- Step 4 of an evaluation: the stream's shares of the two counts are computed again, the counts follow,
and the lamp latch is set while a LAMP-routed alarm is active (R137, R148, R150). -/
def State.settleOutputs (s : State) (i : StreamIx) (gov : Option Profile) : State :=
  let x := s.stream i
  let lamp := routedCount gov x.alarms (·.lamp)
  let line := routedCount gov x.alarms (·.lineFlag)
  let lampCount := s.acp.lampCount - x.lampShare + lamp
  let t := s.setStream i { x with lampShare := lamp, lineShare := line }
  { t with acp := { t.acp with
      lampCount := lampCount
      lineCount := s.acp.lineCount - x.lineShare + line
      lampLatch := s.acp.lampLatch || decide (0 < lampCount) } }

/-- The classes of a request whose condition differs from the state held, in class order. -/
def changedClasses (gov : Option Profile) (x : Stream) (classes : List AlarmClass) : List AlarmClass :=
  classes.filter fun c => conditionFound gov x c != x.alarms.get c

/-- The alarm states with each changed class at its condition. -/
def newStates (gov : Option Profile) (x : Stream) (classes : List AlarmClass) : AlarmStates :=
  classes.foldl (fun a c => a.set c (conditionFound gov x c)) x.alarms

/-- An evaluation of stream i for the classes named, under the governing profile: one step (R137). -/
def State.evaluate (s : State) (i : StreamIx) (classes : List AlarmClass) (gov : Option Profile) : State :=
  let x := s.stream i
  let changed := changedClasses gov x classes
  let t := s.setStream i { x with alarms := newStates gov x classes }
  (changed.foldl (fun t c => t.takeEdge i gov c) t).settleOutputs i gov

/-- An evaluation of all five classes under the profile the stream's definition names (R136, R137). -/
def State.evaluateAll (s : State) (i : StreamIx) : State :=
  s.evaluate i AlarmClass.inOrder (s.profileOf (s.stream i))

end Sys2Proof.Machine
end

