-- ==== Sys2Proof/Machine/Tallies.lean ====
section
/-! DEFINITION. The Tally Store: posts and their arithmetic, groups of posts, lateness statistics, clears,
the sweep and its visits (R108 to R130). -/

namespace Sys2Proof.Machine

/-! ### Posts -/

/-- A total after a post that takes it to `sum` (R112). -/
def totalAfter (m : TotalMode) (sum : Nat) : Nat :=
  match m with
  | .hold => min sum totalTop
  | .wrap => sum % (totalTop + 1)

/-- One post taken by a stream's record: interval tally, total and terminal flag together (R110, R111,
R112). -/
def Stream.addPost (modes : Vector TotalMode 16) (x : Stream) (p : Post) : Stream :=
  let k := p.field.pos
  let sum := x.totals[k] + p.count
  { x with
    interval := x.interval.set k (min (x.interval[k] + p.count) intervalTop)
    totals := x.totals.set k (totalAfter modes[k] sum)
    terminal := if totalTop ≤ sum then x.terminal.set k true else x.terminal }

/-- A lateness clamped to the signed 32-bit range (R115). -/
def clampLateness (l : Int) : Int := max (-2147483648) (min l 2147483647)

/-- The lateness statistics after one more lateness (R115). -/
def latenessAfter (old : Option Lateness) (l : Int) : Lateness :=
  let v := clampLateness l
  match old with
  | none => ⟨v, v, v⟩
  | some t => ⟨min t.latMin v, max t.latMax v, v⟩

/-- A group of posts, with the lateness posted in it, if any (R110, R115). -/
structure Group where
  posts : List Post
  lateness : Option Int
  deriving DecidableEq, Repr

/-- A stream's record after a whole group (R110). -/
def Stream.addGroup (modes : Vector TotalMode 16) (x : Stream) (g : Group) : Stream :=
  let y := g.posts.foldl (Stream.addPost modes) x
  match g.lateness with
  | none => y
  | some l => { y with lateness := some (latenessAfter y.lateness l) }

/-- A group taken by the Tally Store: the record changes, and a terminal flag that goes from clear to set
posts TERMINAL (R112). The alarms are not evaluated here. -/
def State.takePosts (s : State) (i : StreamIx) (g : Group) : State :=
  let x := s.stream i
  let y := x.addGroup s.tst.totalModes g
  let t := s.setStream i y
  if y.terminal = x.terminal then t else t.post .terminal

/-- A group taken, and the stream evaluated if an interval tally changed (R110, R136). -/
def State.postGroup (s : State) (i : StreamIx) (g : Group) : State :=
  let t := s.takePosts i g
  if (t.stream i).interval = (s.stream i).interval then t else t.evaluateAll i

/-- One count of a field. -/
def one (f : Field) : Post := ⟨f, 1⟩

/-! ### Clears -/

/-- A stream's totals cleared: totals 0, terminal flags clear, clear generation raised (R117, R126). -/
def Stream.clearTotals (x : Stream) : Stream :=
  { x with
    totals := Vector.replicate 16 0
    terminal := Vector.replicate 16 false
    clearGen := x.clearGen + 1 }

/-- A stream's record cleared at the apply of a DEFINE with keep_tallies no (R128). -/
def Stream.clearTallies (x : Stream) : Stream :=
  { x.clearTotals with
    interval := Vector.replicate 16 0
    lateness := none
    lastInterval := none }

/-! ### The sweep -/

/-- The begin of a sweep (R121). -/
def State.beginSweep (s : State) : State :=
  { s with tst := { s.tst with
      intervalNumber := s.tst.intervalNumber + 1
      intervalTimer := match s.tst.reportMode with
        | .auto _ => some 0
        | .manual => s.tst.intervalTimer
      sweep := some 0 } }

/-- A close request: it begins a sweep when none is under way (R120). -/
def State.closeRequest (s : State) : State :=
  match s.tst.sweep with
  | none => s.beginSweep
  | some _ => s

/-- The last-interval record a visit writes (R122, R123). -/
def Stream.closingRecord (x : Stream) (number : Tally) (t : Time) : IntervalRecord where
  intervalNumber := number
  closeTime := t
  values := x.interval
  lat := x.lateness.map fun l => (l.latMin, l.latMax)
  health := x.health

/-- A stream after its visit: the record written, the interval tallies and statistics emptied (R122). -/
def Stream.closeInterval (x : Stream) (number : Tally) (t : Time) : Stream :=
  { x with
    lastInterval := some (x.closingRecord number t)
    interval := Vector.replicate 16 0
    lateness := none }

/-- The end of a sweep (R125). -/
def State.endSweep (s : State) : State :=
  { s with tst := { s.tst with sweep := none } }.post .interval

/-- The sweep moved past stream i (R122, R125). -/
def State.moveSweep (s : State) (i : StreamIx) : State :=
  if h : i.val + 1 < 256 then { s with tst := { s.tst with sweep := some ⟨i.val + 1, h⟩ } }
  else s.endSweep

/-- The visit of stream i: its threshold alarms are evaluated on the zeroed tallies (R122). -/
def State.visit (s : State) (i : StreamIx) : State :=
  let t := s.updStream i fun x => x.closeInterval s.tst.intervalNumber s.link.lineTime
  (t.evaluate i AlarmClass.thresholds (t.profileOf (t.stream i))).moveSweep i

/-- SWEEP_VISIT (R122, R125): the next stream of the sweep is visited. With no sweep under way there is no
visit (log 4). -/
def execSweepVisit (s : State) : Result State :=
  live s <| match s.tst.sweep with
    | some i => s.visit i
    | none => s

/-- INTERVAL_TIMER_EXPIRY (R118, R120): the REFCLK time to the timer's period passes (log 3), and the
expiry is a close request. A stopped timer does not expire. -/
def execIntervalTimerExpiry (s : State) : Result State :=
  live s <| match s.tst.intervalTimer with
    | some k => (s.elapse (s.tst.timerLimit - k)).closeRequest
    | none => s

end Sys2Proof.Machine
end

