-- ==== Sys2Proof/Machine/Sequence.lean ====
section
/-! DEFINITION. The Sequence Accounting Engine's work on one stream's context: the history window, steps of
E, finalizing clears, flushes, and the case of an arrival (R35 to R62). -/

namespace Sys2Proof.Machine

/-- A slot is awaited (R37). -/
def Slot.isOutstanding (s : Slot) : Bool :=
  match s.state with
  | .outstanding _ _ => true
  | _ => false

/-- The outstanding count of a window (R35). -/
def outstandingCount (w : List Slot) : Nat := (w.filter Slot.isOutstanding).length

/-- The outstanding count of a stream, read from its window (R35). -/
def Stream.outstanding (x : Stream) : Nat := outstandingCount x.window

/-- The slot record of a sequence number, or absent (R36). -/
def slotAt (w : List Slot) (q : Seq) : Option Slot := w.find? fun s => s.seq == q

/-- The slot of a sequence number given a new state. -/
def setSlot (w : List Slot) (q : Seq) (st : SlotState) : List Slot :=
  w.map fun s => if s.seq = q then { s with state := st } else s

/-- The lowest OUTSTANDING slot made DROPPED (R41). -/
def dropLowest : List Slot → List Slot
  | [] => []
  | s :: w => if s.isOutstanding then { s with state := .dropped } :: w else s :: dropLowest w

/-- A path as the paths of a slot just received (R37). -/
def Path.single : Path → Paths
  | .a => .onlyA
  | .b => .onlyB

/-- The slot was seen on this path (R52). -/
def Paths.has : Paths → Path → Bool
  | .onlyA, .a => true
  | .onlyB, .b => true
  | .both, _ => true
  | _, _ => false

/-- The posts of a forced drop (R38). -/
def forcedDrop : List Post := [one .dropped, one .droppedForced]

/-- The posts of an injected drop (R38). -/
def injectedDrop : List Post := [one .dropped, one .droppedInjected]

/-- The path miss of a slot seen on one path of a paired stream (R40, R42). -/
def pathMiss (paired : Bool) (p : Paths) : List Post :=
  match paired, p with
  | true, .onlyA => [one .pathBMiss]
  | true, .onlyB => [one .pathAMiss]
  | _, _ => []

/-- The posts of a slot that leaves the window at a step of E (R40). -/
def exitPosts (paired : Bool) (s : Slot) : List Post :=
  match s.state with
  | .outstanding _ _ => forcedDrop
  | .received p => pathMiss paired p
  | .dropped => []

/-- The posts of a slot taken by a finalizing clear (R42). -/
def clearPosts (paired : Bool) (s : Slot) : List Post :=
  match s.state with
  | .outstanding _ _ => [one .dropped]
  | .received p => pathMiss paired p
  | .dropped => []

/-- The window and posts of a slot's entry: a slot that enters OUTSTANDING while 8 are OUTSTANDING first
has the lowest of them dropped, forced (R41). -/
def enterSlot (w : List Slot) (s : Slot) : List Slot × List Post :=
  if s.isOutstanding && decide (outstandingCap ≤ outstandingCount w) then
    (dropLowest w ++ [s], forcedDrop)
  else (w ++ [s], [])

/-- One step of E, with the state of the slot for the sequence number passed (R39): E advances, the slot
now 33 below E leaves, the passed slot enters. -/
def stepE (x : Stream) (st : SlotState) : Stream × List Post :=
  let e := x.expected + 1
  let leaving := x.window.filter fun s => s.seq == e - 33
  let staying := x.window.filter fun s => s.seq != e - 33
  let entered := enterSlot staying ⟨x.expected, st⟩
  ({ x with expected := e, window := entered.1 },
    leaving.flatMap (exitPosts x.paired) ++ entered.2)

/-- The gap slots of an accepted jump: n steps, the first with this due, each next one P later (R49). -/
def gapSteps (x : Stream) (due : Time) (p : Int) : Nat → Stream × List Post
  | 0 => (x, [])
  | n + 1 =>
    let y := stepE x (.outstanding due .gap)
    let z := gapSteps y.1 (timeShift due p) p n
    (z.1, y.2 ++ z.2)

/-- A finalizing clear: the stream with its window emptied, and the posts in ascending order (R42). -/
def finalizingClear (x : Stream) : Stream × List Post :=
  ({ x with window := [], staleCount := 0 }, x.window.flatMap (clearPosts x.paired))

/-- A stream with its window emptied by a flush (R43). -/
def Stream.emptied (x : Stream) : Stream := { x with window := [], staleCount := 0 }

/-- The post of a flush: the slots it found OUTSTANDING (R43, R110). -/
def flushPosts (x : Stream) : List Post :=
  if x.outstanding = 0 then [] else [⟨.flushed, x.outstanding⟩]

/-- A flush whose evaluation is left to the step it is part of (R170, R171). -/
def State.flushQuiet (s : State) (i : StreamIx) : State :=
  (s.updStream i Stream.emptied).takePosts i ⟨flushPosts (s.stream i), none⟩

/-- A flush of stream i (R43). -/
def State.flush (s : State) (i : StreamIx) : State :=
  (s.updStream i Stream.emptied).postGroup i ⟨flushPosts (s.stream i), none⟩

/-! ### The case of an arrival -/

/-- What an arrival is (R46 to R54). -/
inductive ArrivalCase where
  | anchor
  | inOrder
  | jump (d : Nat)
  | resync
  | awaited (due : Time) (cause : Cause)
  | duplicate
  | redundant
  | tooLate
  | stale
  deriving DecidableEq, Repr

/-- A stale arrival, or the fourth in a row, which starts a resync (R54). -/
def staleCase (x : Stream) : ArrivalCase := if x.staleCount < staleLimit then .stale else .resync

/-- The case of an arrival by the slot at its position (R47). -/
def slotCase (x : Stream) (p : Path) (slot : Option Slot) : ArrivalCase :=
  match slot with
  | none => staleCase x
  | some s =>
    match s.state with
    | .outstanding due cause => .awaited due cause
    | .received ps => if ps.has p then .duplicate else .redundant
    | .dropped => .tooLate

/-- The case of an arrival of path p and sequence number q (R46, R47, R62). -/
def arrivalCase (j : Nat) (x : Stream) (p : Path) (q : Seq) : ArrivalCase :=
  if x.health = .unanchored ∨ x.health = .silent then .anchor
  else
    let d := seqDist q x.expected
    if d = 0 then .inOrder
    else if 0 < d ∧ d ≤ j then .jump d.toNat
    else if j < d then .resync
    else if -(windowSpan : Int) ≤ d then slotCase x p (slotAt x.window q)
    else staleCase x

/-- The anchor due for a stamp: the latest grid instant whose tolerance the frame has not passed (R80). -/
def anchorDue (d : Definition) (c a : Time) : Time :=
  timeShift c (ceilDiv (a - c - BitVec.ofNat 48 d.tolerance).toInt d.period * d.period)

/-- The due instant of a verdict arrival, by its case (R82); the other cases have none. -/
def caseDue (d : Definition) (x : Stream) (a : Time) : ArrivalCase → Option Time
  | .anchor => some (anchorDue d x.cursor a)
  | .resync => some (anchorDue d x.cursor a)
  | .inOrder => some x.cursor
  | .jump n => some (timeShift x.cursor (n * d.period))
  | .awaited due _ => some due
  | .duplicate => none
  | .redundant => none
  | .tooLate => none
  | .stale => none

/-- The verdict class of a verdict arrival with lateness l (R46, R48, R49, R51). -/
def verdictField (d : Definition) (c : ArrivalCase) (l : Int) : Field :=
  match c with
  | .anchor => .onTime
  | .resync => .onTime
  | .awaited _ .gap => if l ≤ d.tolerance then .reordered else .late
  | _ => if l ≤ d.tolerance then .onTime else .late

/-- The anchor of an arrival on an empty window: E set to S, one step, the cursor at due + P (R46, R80). -/
def anchorAt (d : Definition) (x : Stream) (q : Seq) (due : Time) (st : SlotState) : Stream × List Post :=
  let y := stepE { x with expected := q } st
  ({ y.1 with cursor := timeShift due d.period, staleCount := 0 }, y.2)

/-- The stream after a verdict arrival's change of window, E, cursor and stale count, and the posts that
change makes before the arrival's own (R46, R48 to R51, R55 to R58). `st` is RECEIVED on the arrival's
path, or DROPPED when it was converted. -/
def placeArrival (d : Definition) (x : Stream) (c : ArrivalCase) (q : Seq) (due : Time) (st : SlotState) :
    Stream × List Post :=
  match c with
  | .anchor => anchorAt d x q due st
  | .resync =>
    let y := finalizingClear x
    let z := anchorAt d y.1 q due st
    (z.1, one .seqBreak :: y.2 ++ z.2)
  | .inOrder =>
    let y := stepE x st
    ({ y.1 with cursor := timeShift x.cursor d.period, staleCount := 0 }, y.2)
  | .jump n =>
    let y := gapSteps x x.cursor d.period n
    let z := stepE y.1 st
    ({ z.1 with cursor := timeShift x.cursor ((n + 1) * d.period), staleCount := 0 }, y.2 ++ z.2)
  | .awaited _ _ => ({ x with window := setSlot x.window q st, staleCount := 0 }, [])
  | _ => (x, [])

/-- The stream after an arrival that is no verdict arrival (R52, R53, R54). -/
def placeAnomaly (x : Stream) (c : ArrivalCase) (q : Seq) : Stream :=
  match c with
  | .redundant => { x with window := setSlot x.window q (.received .both) }
  | .stale => { x with staleCount := x.staleCount + 1 }
  | _ => x

/-- The field of an arrival that is no verdict arrival (R57). -/
def anomalyPosts : ArrivalCase → List Post
  | .duplicate => [one .duplicate]
  | .redundant => [one .redundant]
  | .tooLate => [one .tooLate]
  | .stale => [one .stale]
  | _ => []

end Sys2Proof.Machine
end

