-- ==== Sys2Proof/Machine/Expiry.lean ====
section
/-! DEFINITION. The Slot Timer and the Health Tracker: slot misses, hold expiries, catch-ups, re-bases,
health changes, and the order in which one stream's expiries are taken (R67 to R102). -/

namespace Sys2Proof.Machine

/-! ### Health -/

/-- A stream made UNANCHORED with both counts 0 (R93, R95). -/
def Stream.unanchored (x : Stream) : Stream := { x with health := .unanchored, misses := 0, recovery := 0 }

/-- Stream i made UNANCHORED at a link loss, a time step or a HALT; a change of health is evaluated (R95,
R102). -/
def State.makeUnanchored (s : State) (i : StreamIx) : State :=
  let t := s.updStream i Stream.unanchored
  if (s.stream i).health = .unanchored then t else t.evaluateAll i

/-- Every stream that is not OFF is flushed and made UNANCHORED (R11, R17, R64, R95). The manual gives the
ascending order for HALT; for a link loss and a time step it is the model's (log 7). -/
def State.flushAll (s : State) : State :=
  s.eachLive fun i t => (t.flush i).makeUnanchored i

/-- The count step of a verdict arrival (R97): `clear` is the profile's silent_clear. -/
def Stream.countVerdict (x : Stream) (clear : Nat) : Stream :=
  match x.health with
  | .off => { x with misses := 0 }
  | .unanchored => { x with misses := 0, health := .tracking }
  | .tracking => { x with misses := 0 }
  | .silent =>
    if clear ≤ 1 then { x with misses := 0, health := .tracking }
    else { x with misses := 0, health := .recovering, recovery := 1 }
  | .recovering =>
    if clear ≤ x.recovery + 1 then { x with misses := 0, health := .tracking, recovery := 0 }
    else { x with misses := 0, recovery := x.recovery + 1 }

/-- Step 6 of an arrival: the Health Tracker takes the verdict arrival, and a change of health is evaluated
(R56, R97, R102). -/
def State.countVerdict (s : State) (i : StreamIx) : State :=
  match s.profileOf (s.stream i) with
  | some p =>
    let t := s.updStream i fun x => x.countVerdict p.silentClear
    if (t.stream i).health = (s.stream i).health then t else t.evaluateAll i
  | none => s

/-! ### Slot misses -/

/-- How far line time t lies past the end of the tolerance of the slot due at c: t − c − τ as a signed
48-bit difference. The slot miss is due when it is above 0 (R72, R77). -/
def pastMiss (d : Definition) (c t : Time) : Int := (t - c - BitVec.ofNat 48 d.tolerance).toInt

/-- How far line time t lies past a slot's hold instant, due + τ + H·P (R72). -/
def pastHold (d : Definition) (due t : Time) : Int :=
  (t - due - BitVec.ofNat 48 (d.tolerance + d.hold * d.period)).toInt

/-- The stream and the posts of a slot miss in TRACKING or RECOVERING, before the Health Tracker takes it:
E steps with an OUTSTANDING slot of cause MISS and the cursor moves on (R59, R74). -/
def missStep (d : Definition) (x : Stream) : Stream × List Post :=
  let y := stepE x (.outstanding x.cursor .miss)
  ({ y.1 with cursor := timeShift x.cursor d.period }, y.2)

/-- The Health Tracker's counts at that miss (R99, steps 1 and 2). -/
def Stream.countMiss (x : Stream) : Stream :=
  { x with
    misses := x.misses + 1
    recovery := if x.health = .recovering then 0 else x.recovery }

/-- The slot miss of a TRACKING or RECOVERING stream (R59, R74, R99). The posts of the step and of the
finalizing clear it may cause are one group, since one expiry taken whole is one group (R110, log 6). -/
def State.slotMiss (s : State) (i : StreamIx) (d : Definition) (p : Profile) : State :=
  let m := missStep d (s.stream i)
  let x := m.1.countMiss
  if p.silentDeclare ≤ x.misses then
    let c := finalizingClear x
    ((s.setStream i { c.1 with health := .silent, recovery := 0 }).postGroup i
      ⟨m.2 ++ c.2, none⟩).evaluateAll i
  else (s.setStream i x).postGroup i ⟨m.2, none⟩

/-- The slot miss of an UNANCHORED stream (R75, R98). -/
def State.unanchoredMiss (s : State) (i : StreamIx) (d : Definition) (p : Profile) : State :=
  let x := s.stream i
  let y := { x with cursor := timeShift x.cursor d.period, misses := x.misses + 1 }
  if p.silentDeclare ≤ y.misses then (s.setStream i { y with health := .silent }).evaluateAll i
  else s.setStream i y

/-- The number of slot instants a catch-up passes (R77, R88). -/
def catchUpCount (d : Definition) (c t : Time) : Nat := ((pastMiss d c t - 1) / d.period + 1).toNat

/-- The cursor after a catch-up (R77, R88). -/
def catchUpCursor (d : Definition) (c t : Time) : Time := timeShift c (catchUpCount d c t * d.period)

/-- The catch-up of a SILENT stream (R77). -/
def State.silentCatchUp (s : State) (i : StreamIx) (d : Definition) : State :=
  let c := (s.stream i).cursor
  let n := catchUpCount d c s.link.lineTime
  (s.updStream i fun x => { x with cursor := catchUpCursor d c s.link.lineTime }).postGroup i
    ⟨[⟨.silentSlots, n⟩], none⟩

/-- The catch-up of a stream while HALTED: nothing is counted (R88). -/
def State.haltedCatchUp (s : State) (i : StreamIx) (d : Definition) : State :=
  s.updStream i fun x => { x with cursor := catchUpCursor d x.cursor s.link.lineTime }

/-- A hold expiry: the slot, if OUTSTANDING in the window, is finalized as a plain drop (R61, R78). -/
def State.holdExpiry (s : State) (i : StreamIx) (q : Seq) : State :=
  match slotAt (s.stream i).window q with
  | some slot =>
    if slot.isOutstanding then
      (s.updStream i fun x => { x with window := setSlot x.window q .dropped }).postGroup i
        ⟨[one .dropped], none⟩
    else s
  | none => s

/-! ### Pending expiries -/

/-- A pending expiry of a stream (R72). -/
inductive Expiry where
  | miss
  | hold (q : Seq)
  deriving DecidableEq, Repr

/-- The hold expiries of a window, in ascending sequence order, each with how far it is past (R72). -/
def holdExpiries (d : Definition) (t : Time) (w : List Slot) : List (Expiry × Int) :=
  w.filterMap fun s =>
    match s.state with
    | .outstanding due _ => some (.hold s.seq, pastHold d due t)
    | _ => none

/-- The pending expiries of a stream, each with how far line time is past its instant. Hold expiries come
before the slot miss, in ascending sequence order (R72, R73). -/
def pendingExpiries (d : Definition) (t : Time) (x : Stream) : List (Expiry × Int) :=
  holdExpiries d t x.window ++ [(.miss, pastMiss d x.cursor t)]

/-- The due expiry with the earliest instant, the first listed where instants are shared (R73). An earlier
instant is one that line time is further past. -/
def earliestDue : List (Expiry × Int) → Option (Expiry × Int)
  | [] => none
  | e :: rest =>
    match earliestDue rest with
    | none => if 0 < e.2 then some e else none
    | some f => if 0 < e.2 ∧ f.2 ≤ e.2 then some e else some f

/-- The expiry of stream i that is taken next at line time as it stands; none for an OFF stream (R71, R73,
R90). -/
def State.nextExpiry (s : State) (i : StreamIx) : Option Expiry :=
  let x := s.stream i
  if x.health = .off then none
  else match x.definition with
    | some d => (earliestDue (pendingExpiries d s.link.lineTime x)).map (·.1)
    | none => none

/-- One expiry of stream i taken whole (R73, R76, R88). -/
def State.takeExpiry (s : State) (i : StreamIx) (e : Expiry) : State :=
  let x := s.stream i
  match x.definition, s.profileOf x with
  | some d, some p =>
    match e with
    | .hold q => s.holdExpiry i q
    | .miss =>
      if s.engine = .halted then s.haltedCatchUp i d
      else match x.health with
        | .off => s
        | .unanchored => s.unanchoredMiss i d p
        | .tracking => s.slotMiss i d p
        | .recovering => s.slotMiss i d p
        | .silent => s.silentCatchUp i d
  | _, _ => s

/-- One due expiry of stream i taken, if it has one. -/
def State.takeOne (s : State) (i : StreamIx) : State :=
  match s.nextExpiry i with
  | some e => s.takeExpiry i e
  | none => s

/-- Up to n due expiries of stream i taken, one after another, each on the pending set read afresh (R73). -/
def State.takeUpTo (s : State) (i : StreamIx) : Nat → State
  | 0 => s
  | n + 1 =>
    match s.nextExpiry i with
    | some e => (s.takeExpiry i e).takeUpTo i n
    | none => s

/-- A bound on the expiries one taking can hold: at most 255 misses before SILENT, a hold expiry for each
slot in the window and for each miss, and one catch-up (R76). -/
def expiryBound (x : Stream) : Nat := 2 * 256 + x.window.length + 2

/-- The taking of stream i's expiries up to line time, until none is due (R71, R73). -/
def State.takeAll (s : State) (i : StreamIx) : State := s.takeUpTo i (expiryBound (s.stream i))

/-- Line time runs: the link is UP with time loaded. Otherwise it stands frozen, and no expiry is taken (R12,
R86). -/
def State.timeRuns (s : State) : Bool := s.link.state == .up && s.link.timeLoaded

/-- A stream at an advance: its taking begins, unless it is OFF (R15, R71, R90). -/
def Stream.taken (x : Stream) : Stream := { x with taking := x.health != .off }

/-- The hand-over of a new line time to the Slot Timer: the taking of every stream that is not OFF begins
(R71). -/
def State.beginTakings (s : State) : State := { s with streams := s.streams.map Stream.taken }

/-- The end of the taking of stream i. What falls due at line time as it stands from then on, an anchor's miss
instant that line time has passed already, waits for the next taking (R71, R86, log 23). -/
def State.endTaking (s : State) (i : StreamIx) : State :=
  s.updStream i fun x => { x with taking := false }

/-- What rows have left of the last advance's taking of stream i, taken whole (R71, R73). -/
def State.finishTaking (s : State) (i : StreamIx) : State :=
  if (s.stream i).taking then (s.takeAll i).endTaking i else s

/-- The takings of the last advance finished, stream by stream: an advance's expiries have all been taken
before the next stamp is handled (R15, R86, R89) and before the link is lost (R86, log 27). -/
def State.takeRest (s : State) : State :=
  if s.timeRuns then s.eachLive fun i t => t.finishTaking i else s

/-- The expiry of a row is taken within the last advance's taking of its stream, while line time runs, when it
is the one the stream takes next; otherwise it is no event and the row does nothing (R71, R86, log 4, log 5). -/
def State.takeIfNext (s : State) (i : StreamIx) (e : Expiry) (here : Bool) : State :=
  if s.timeRuns ∧ (s.stream i).taking ∧ here ∧ s.nextExpiry i = some e then s.takeExpiry i e else s

/-! ### Re-base -/

/-- A cursor re-based to line time t (R84). -/
def rebasedCursor (d : Definition) (c t : Time) : Time :=
  timeShift c (ceilDiv (pastMiss d c t) d.period * d.period)

/-- The cursor of stream i re-based to line time as it stands (R84). -/
def State.rebase (s : State) (i : StreamIx) : State :=
  s.updStream i fun x =>
    match x.definition with
    | some d => { x with cursor := rebasedCursor d x.cursor s.link.lineTime }
    | none => x

/-- The cursors of every stream that is not OFF re-based (R85). -/
def State.rebaseAll (s : State) : State := s.eachLive fun i t => t.rebase i

/-! ### The rows -/

/-- SLOT_MISS (R74). -/
def execSlotMiss (i : StreamIx) (s : State) : Result State :=
  let h := (s.stream i).health
  live s <| s.takeIfNext i .miss (s.engine == .running && (h == .tracking || h == .recovering))

/-- UNANCHORED_SLOT_MISS (R75). -/
def execUnanchoredSlotMiss (i : StreamIx) (s : State) : Result State :=
  live s <| s.takeIfNext i .miss (s.engine == .running && (s.stream i).health == .unanchored)

/-- HOLD_EXPIRY (R61, R78). -/
def execHoldExpiry (i : StreamIx) (q : Seq) (s : State) : Result State :=
  live s <| s.takeIfNext i (.hold q) true

/-- SILENT_CATCH_UP (R77). -/
def execSilentCatchUp (i : StreamIx) (s : State) : Result State :=
  live s <| s.takeIfNext i .miss (s.engine == .running && (s.stream i).health == .silent)

/-- HALTED_CATCH_UP (R88). -/
def execHaltedCatchUp (i : StreamIx) (s : State) : Result State :=
  live s <| s.takeIfNext i .miss (s.engine == .halted)

end Sys2Proof.Machine
end

