-- ==== Sys2Proof/Machine/Arrival.lean ====
section
/-! DEFINITION. Arrivals and the Stream Classifier: the handling of a descriptor (R26, R28 to R34, R46 to
R58, R104). -/

namespace Sys2Proof.Machine

/-! ### Arrivals -/

/-- A verdict arrival of stream i in case c with its due instant: offered to the Health Tracker, placed,
posted, counted (R56, R57, R96, R104). -/
def State.takeVerdict (s : State) (i : StreamIx) (d : Definition) (c : ArrivalCase) (p : Path) (q : Seq)
    (a due : Time) : State :=
  let x := s.stream i
  let l := timeDiff a due
  let placed := placeArrival d { x with testLoss := false } c q due
    (if x.testLoss then .dropped else .received p.single)
  let own : Group :=
    if x.testLoss then ⟨placed.2 ++ injectedDrop, none⟩
    else ⟨placed.2 ++ [one (verdictField d c l)], some l⟩
  ((s.setStream i placed.1).postGroup i own).countVerdict i

/-- An arrival judged, its stream's expiries already taken (R47 to R57). -/
def State.judgeArrival (s : State) (i : StreamIx) (d : Definition) (p : Path) (q : Seq) (a : Time) : State :=
  let x := s.stream i
  let c := arrivalCase d.jump x p q
  match caseDue d x a c with
  | some due => s.takeVerdict i d c p q a due
  | none => (s.setStream i (placeAnomaly x c q)).postGroup i ⟨anomalyPosts c, none⟩

/-- An arrival of stream i: its expiries up to line time are taken, which leaves the last advance none to take,
then it is judged (R47, R56, R71). -/
def State.arrive (s : State) (i : StreamIx) (p : Path) (q : Seq) (a : Time) : State :=
  let t := (s.takeAll i).endTaking i
  match (t.stream i).definition with
  | some d => t.judgeArrival i d p q a
  | none => t

/-! ### Classification -/

/-- A definition matches a flow key under its mask and names the port (R29). -/
def Definition.matchesFlow (d : Definition) (key : BitVec 32) (port : PortNo) : Bool :=
  key &&& d.mask == d.key &&& d.mask && (port == d.pathA || some port == d.pathB)

/-- The entry of stream i is defined and matches (R29). -/
def State.entryMatches (s : State) (key : BitVec 32) (port : PortNo) (i : StreamIx) : Bool :=
  match (s.stream i).definition with
  | some d => d.matchesFlow key port
  | none => false

/-- The search: the first entry in ascending index that matches (R29). -/
def State.findStream (s : State) (key : BitVec 32) (port : PortNo) : Option StreamIx :=
  allStreams.find? (s.entryMatches key port)

/-- The tallies of one ingress port changed. -/
def State.updPort (s : State) (port : PortNo) (f : PortTallies → PortTallies) : State :=
  { s with portTallies := s.portTallies.set port (f s.portTallies[port]) }

/-- The path of a matched descriptor (R32). -/
def Definition.pathOf (d : Definition) (port : PortNo) : Path := if port = d.pathA then .a else .b

/-- A descriptor matched to stream i: an arrival, or a discard of the fabric (R31, R32). -/
def State.matched (s : State) (i : StreamIx) (d : Descriptor) : State :=
  match d.disposition with
  | .discarded =>
    (s.updPort d.ingressPort fun t => { t with discarded := t.discarded + 1 }).postGroup i
      ⟨[one .discardedHere], none⟩
  | _ =>
    let t := s.updPort d.ingressPort fun t => { t with forwarded := t.forwarded + 1 }
    match (s.stream i).definition with
    | some def' => t.arrive i (def'.pathOf d.ingressPort) d.seq d.stamp
    | none => t

/-- The Stream Classifier's handling of a descriptor: the three tests, then the search (R28, R30). -/
def State.classify (s : State) (d : Descriptor) : State :=
  if s.engine = .halted then
    s.updPort d.ingressPort fun t => { t with ignored := t.ignored + 1 }
  else if d.disposition = .corrupt then
    s.updPort d.ingressPort fun t => { t with corrupt := t.corrupt + 1 }
  else if s.scheduleValid = false then
    s.updPort d.ingressPort fun t => { t with unscheduled := t.unscheduled + 1 }
  else match s.findStream d.flowKey d.ingressPort with
    | some i => s.matched i d
    | none => s.updPort d.ingressPort fun t => { t with unclassified := t.unclassified + 1 }

end Sys2Proof.Machine
end

