-- ==== Sys2Proof/Machine/Encode.lean ====
section
/-! DEFINITION. The byte forms of results: codes, definitions, profiles, alarm events, stream copies (R182,
R183, R184, R194). -/

namespace Sys2Proof.Machine

/-- The status of a reply (R182). -/
inductive Status where
  | ok
  | denied
  | badCommand
  | badArgument
  | badDefinition
  | busy
  | stageHeld
  | stageFull
  | armed
  | notArmed
  | empty
  | alarmActive
  | notHalted
  | emptySlot
  deriving DecidableEq, Repr

/-- R182. -/
def Status.code : Status → Byte
  | .ok => 0x00
  | .denied => 0x01
  | .badCommand => 0x02
  | .badArgument => 0x03
  | .badDefinition => 0x04
  | .busy => 0x05
  | .stageHeld => 0x06
  | .stageFull => 0x07
  | .armed => 0x08
  | .notArmed => 0x09
  | .empty => 0x0A
  | .alarmActive => 0x0B
  | .notHalted => 0x0C
  | .emptySlot => 0x0D

/-- A reply body: tag, status, results (R181). -/
def replyBody (tag : Byte) (st : Status) (results : List Byte) : List Byte := tag :: st.code :: results

/-- The code of an absent state or mode (R183). -/
def absentCode : Byte := 0xFF

/-- R183. -/
def Health.code : Health → Byte
  | .off => 0
  | .unanchored => 1
  | .tracking => 2
  | .silent => 3
  | .recovering => 4

/-- R183. -/
def LinkState.code : LinkState → Byte
  | .down => 0
  | .aligning => 1
  | .up => 2

/-- R183. -/
def RunState.code : RunState → Byte
  | .running => 0
  | .halted => 1

/-- R183. -/
def StagingState.code : StagingState → Byte
  | .empty => 0
  | .opened => 1
  | .armed => 2

/-- R183. -/
def Port.code : Port → Byte
  | .board => 0
  | .line => 1
  | .service => 2

/-- R183. -/
def TriggerSource.code : TriggerSource → Byte
  | .command => 0
  | .atTime => 1
  | .strobe => 2

/-- R183. -/
def ReportMode.code : ReportMode → Byte
  | .auto _ => 0
  | .manual => 1

/-- The report period in seconds, 0 in MANUAL (R119). -/
def ReportMode.period : ReportMode → Nat
  | .auto p => p
  | .manual => 0

/-- R183. -/
def TotalMode.code : TotalMode → Byte
  | .hold => 0
  | .wrap => 1

/-- R183. -/
def EdgeMode.code : EdgeMode → Byte
  | .assertOnly => 0
  | .both => 1

/-- R183. -/
def AlarmClass.code : AlarmClass → Byte
  | .drop => 0
  | .late => 1
  | .reorder => 2
  | .path => 3
  | .silent => 4

/-- R183. -/
def Edge.code : Edge → Byte
  | .assert => 0
  | .deassert => 1

/-- A code that may be absent (R183). -/
def optCode {α : Type} (code : α → Byte) : Option α → Byte
  | some x => code x
  | none => absentCode

/-- A line time, 6 bytes (R183). -/
def timeBytes (t : Time) : List Byte := bytesBE 6 t.toNat

/-- A line time that may be absent, then sent as zeros (R183). -/
def optTimeBytes (t : Option Time) : List Byte := timeBytes (t.getD 0)

/-- A 32-bit tally (R183). -/
def tallyBytes (t : Tally) : List Byte := bytesBE 4 t.toNat

/-- A notice word (R183). -/
def wordBytes (w : BitVec 16) : List Byte := bytesBE 2 w.toNat

/-- The five alarm states in one byte, bit 0 for DROP (R183). -/
def AlarmStates.byte (a : AlarmStates) : Byte :=
  BitVec.ofNat 8 (a.drop.toNat + 2 * a.late.toNat + 4 * a.reorder.toNat + 8 * a.path.toNat
    + 16 * a.silent.toNat)

/-- The terminal flags as a number, bit i for the field at position i of R108 (R183). -/
def flagsWord (fs : List Bool) : Nat := fs.foldr (fun b n => b.toNat + 2 * n) 0

/-- A definition in 27 + L bytes (R184). -/
def Definition.bytes (d : Definition) : List Byte :=
  let lab := d.label.getD []
  bytesBE 4 d.key.toNat ++ bytesBE 4 d.mask.toNat ++ bytesBE 1 d.pathA
    ++ (match d.pathB with
      | some b => bytesBE 1 b
      | none => [absentCode])
    ++ bytesBE 4 d.period ++ bytesBE 4 d.phase ++ bytesBE 4 d.tolerance
    ++ bytesBE 1 d.hold ++ bytesBE 1 d.jump ++ bytesBE 1 d.profile
    ++ [flagByte d.keepTallies] ++ bytesBE 1 lab.length ++ lab

/-- A presence flag, then the definition when present (R184). -/
def optDefinitionBytes : Option Definition → List Byte
  | some d => flagByte true :: d.bytes
  | none => [flagByte false]

/-- A routing byte (R184). -/
def Route.byte (r : Route) : Byte :=
  BitVec.ofNat 8 (r.lamp.toNat + 2 * r.irq.toNat + 4 * r.lineFlag.toNat)

/-- A profile in 16 bytes (R184). -/
def Profile.bytes (p : Profile) : List Byte :=
  bytesBE 2 p.dropThreshold ++ bytesBE 2 p.lateThreshold ++ bytesBE 2 p.reorderThreshold
    ++ bytesBE 2 p.pathThreshold ++ bytesBE 1 p.silentDeclare ++ bytesBE 1 p.silentClear
    ++ [p.edgeMode.code, p.routeDrop.byte, p.routeLate.byte, p.routeReorder.byte, p.routePath.byte,
      p.routeSilent.byte]

/-- An alarm event in 13 bytes (R184). -/
def Event.bytes (e : Event) : List Byte :=
  bytesBE 2 e.stream ++ [e.cls.code, e.edge.code] ++ timeBytes e.lineTime ++ bytesBE 3 e.value

/-- A staging entry: kind, index and, for DEFINE, its definition (R163). -/
def StageEntry.bytes : StageEntry → List Byte
  | .define i d => 0 :: bytesBE 2 i ++ d.bytes
  | .remove i => 1 :: bytesBE 2 i

/-- The lateness statistics: presence flag, then the three values, zeros when absent (R194, log 15). -/
def latenessBytes : Option Lateness → List Byte
  | some l => flagByte true :: (lateBytes l.latMin ++ lateBytes l.latMax ++ lateBytes l.latLast)
  | none => flagByte false :: bytesBE 12 0

/-- lat_min and lat_max of a last-interval record, zeros when absent (R194, log 15). -/
def latPairBytes : Option (Int × Int) → List Byte
  | some l => flagByte true :: (lateBytes l.1 ++ lateBytes l.2)
  | none => flagByte false :: bytesBE 8 0

/-- The last-interval record with its presence flag, zeros when absent (R194, log 15). -/
def recordBytes : Option IntervalRecord → List Byte
  | some r => flagByte true :: (tallyBytes r.intervalNumber ++ timeBytes r.closeTime
      ++ r.values.toList.flatMap (bytesBE 2) ++ latPairBytes r.lat ++ [r.health.code])
  | none => flagByte false :: bytesBE 52 0

/-- A stream copy as GET_LATCHED sends it (R194). -/
def StreamCopy.bytes (c : StreamCopy) : List Byte :=
  bytesBE 2 c.stream ++ [c.health.code] ++ bytesBE 2 c.expected.toNat ++ bytesBE 1 c.outstanding
    ++ [c.alarms.byte, c.clearGen] ++ bytesBE 2 (flagsWord c.terminal.toList)
    ++ c.totals.toList.flatMap (bytesBE 4) ++ c.interval.toList.flatMap (bytesBE 2)
    ++ latenessBytes c.lateness ++ recordBytes c.lastInterval ++ optDefinitionBytes c.definition

/-- A BUSY answer: the frame's tag, or 0x00 for a body of one byte (R179; for the line port log 16). -/
def busyBody : List Byte → List Byte
  | _ :: tag :: _ => replyBody tag .busy []
  | _ => replyBody 0x00 .busy []

end Sys2Proof.Machine
end

