-- ==== Sys2Proof/Machine/Operands.lean ====
section
/-! DEFINITION. Command bodies: their layout, the permission plan, the parse of R181, and the range checks
of a definition (R22) and of a profile (R133). -/

namespace Sys2Proof.Machine

/-! ### Permissions -/

/-- The permissions (R185). -/
inductive Permission where
  | read
  | ack
  | test
  | report
  | schedule
  | control
  deriving DecidableEq, Repr

/-- What a port may do under a plan (R185). -/
def allowed (plan : Fin 4) (p : Port) (r : Permission) : Bool :=
  match plan, p with
  | 0, .service => r == .read || r == .ack || r == .test || r == .report
  | 0, _ => true
  | 1, .board => true
  | 1, _ => r == .read || r == .ack
  | 2, _ => true
  | 3, .board => r == .read || r == .ack || r == .report || r == .control
  | 3, .line => true
  | 3, .service => r == .read

/-- The permission a command number needs, none for a number not in the catalogue (R186). -/
def permissionOf (number : Nat) : Option Permission :=
  if 0x01 ≤ number ∧ number ≤ 0x0C then some .read
  else if number = 0x10 then some .ack
  else if number = 0x18 then some .test
  else if 0x20 ≤ number ∧ number ≤ 0x22 then some .report
  else if 0x30 ≤ number ∧ number ≤ 0x37 then some .schedule
  else if number = 0x40 ∨ number = 0x41 ∨ number = 0x42 ∨ number = 0x4F then some .control
  else none

/-! ### Argument layouts -/

/-- A definition as a STAGE_DEFINE body carries it after its index (R184): 27 bytes and a label whose
length the 27th byte gives, or none where the lengths disagree. -/
def parseDefinition (bs : List Byte) : Option DefinitionArg :=
  let at' (n k : Nat) : Nat := natBE ((bs.drop n).take k)
  if 27 ≤ bs.length ∧ bs.length = 27 + at' 26 1 then
    some
      { key := BitVec.ofNat 32 (at' 0 4)
        mask := BitVec.ofNat 32 (at' 4 4)
        pathA := at' 8 1
        pathB := if at' 9 1 = 0xFF then none else some (at' 9 1)
        period := at' 10 4
        phase := at' 14 4
        tolerance := at' 18 4
        hold := at' 22 1
        jump := at' 23 1
        profile := at' 24 1
        keepTallies := at' 25 1
        label := bs.drop 27 }
  else none

/-- A routing byte; bits 3..7 are ignored (R184). -/
def parseRoute (b : Byte) : Route := ⟨b.getLsbD 0, b.getLsbD 1, b.getLsbD 2⟩

/-- A profile's 16 bytes (R184). -/
def parseProfile : List Byte → Option ProfileArg
  | [d1, d0, l1, l0, r1, r0, p1, p0, declare', clear', mode, rd, rl, rr, rp, rs] =>
    some
      { dropThreshold := natBE [d1, d0]
        lateThreshold := natBE [l1, l0]
        reorderThreshold := natBE [r1, r0]
        pathThreshold := natBE [p1, p0]
        silentDeclare := declare'
        silentClear := clear'
        edgeMode := mode.toNat
        routeDrop := parseRoute rd
        routeLate := parseRoute rl
        routeReorder := parseRoute rr
        routePath := parseRoute rp
        routeSilent := parseRoute rs }
  | _ => none

/-- No arguments (R186). -/
def parseNone (c : Command) : List Byte → Option Command
  | [] => some c
  | _ => none

/-- One byte: a port, a profile index, a position, a slot or a count (R183, R186). -/
def parseByte (c : Nat → Command) : List Byte → Option Command
  | [a] => some (c a.toNat)
  | _ => none

/-- A stream index (R183, R186). -/
def parseIndex (c : Nat → Command) : List Byte → Option Command
  | [a, b] => some (c (natBE [a, b]))
  | _ => none

/-- A notice mask (R183, R186). -/
def parseMask (c : BitVec 16 → Command) : List Byte → Option Command
  | [a, b] => some (c (a ++ b))
  | _ => none

/-- The first and the last of a range of streams (R183, R186). -/
def parseRange (c : Nat → Nat → Command) : List Byte → Option Command
  | [a, b, x, y] => some (c (natBE [a, b]) (natBE [x, y]))
  | _ => none

/-- A report mode and its period (R183, R186). -/
def parseReportMode : List Byte → Option Command
  | [m, a, b] => some (.setReportMode m.toNat (natBE [a, b]))
  | _ => none

/-- A stream index and a definition (R184, R186). -/
def parseStageDefine : List Byte → Option Command
  | a :: b :: rest => (parseDefinition rest).map (.stageDefine (natBE [a, b]))
  | _ => none

/-- A trigger source and an arm time (R183, R186). -/
def parseStageArm : List Byte → Option Command
  | [c, t5, t4, t3, t2, t1, t0] => some (.stageArm c.toNat (t5 ++ t4 ++ t3 ++ t2 ++ t1 ++ t0))
  | _ => none

/-- A profile index and a profile (R184, R186). -/
def parseSetProfile : List Byte → Option Command
  | i :: rest => (parseProfile rest).map (.setProfile i.toNat)
  | _ => none

/-- A total mode and 0 to 32 field positions (R181, R186). -/
def parseTotalMode : List Byte → Option Command
  | m :: rest => if rest.length ≤ 32 then some (.setTotalMode m.toNat (rest.map BitVec.toNat)) else none
  | _ => none

/-- The arguments of a command whose number is in the catalogue; none where the length is not the one the
command needs (R181, check 4; R186). -/
def parseArguments (number : Nat) : List Byte → Option Command :=
  match number with
  | 0x01 => parseNone .getStatus
  | 0x02 => parseIndex .getStream
  | 0x03 => parseByte .getPortTallies
  | 0x04 => parseNone .getLink
  | 0x05 => parseByte .getProfile
  | 0x06 => parseByte .stageRead
  | 0x07 => parseRange .latch
  | 0x08 => parseByte .getLatched
  | 0x09 => parseByte .popEvents
  | 0x0A => parseNone .getNotices
  | 0x0B => parseMask .clearNotices
  | 0x0C => parseMask .setNoticeEnable
  | 0x10 => parseNone .ackLamp
  | 0x18 => parseIndex .inject
  | 0x20 => parseNone .closeInterval
  | 0x21 => parseReportMode
  | 0x22 => parseRange .clearTotals
  | 0x30 => parseStageDefine
  | 0x31 => parseIndex .stageRemove
  | 0x32 => parseIndex .stageDrop
  | 0x33 => parseNone .stageDiscard
  | 0x34 => parseStageArm
  | 0x35 => parseNone .stageDisarm
  | 0x36 => parseNone .apply
  | 0x37 => parseSetProfile
  | 0x40 => parseNone .halt
  | 0x41 => parseNone .run
  | 0x42 => parseTotalMode
  | 0x4F => parseNone .resetDevice
  | _ => fun _ => none

/-- What the parse of a body answers: the command to run with its tag, or the reply that refuses it. -/
inductive Parsed where
  | command (tag : Byte) (c : Command)
  | refusal (reply : List Byte)
  deriving DecidableEq, Repr

/-- The parse of a command body, with the checks of R181 in their order. -/
def parseBody (plan : Fin 4) (p : Port) (body : List Byte) : Parsed :=
  match body with
  | number :: tag :: args =>
    match permissionOf number.toNat with
    | none => .refusal (replyBody tag .badCommand [])
    | some perm =>
      if allowed plan p perm then
        match parseArguments number.toNat args with
        | some c => .command tag c
        | none => .refusal (replyBody tag .badCommand [])
      else .refusal (replyBody tag .denied [])
  | _ => .refusal (replyBody 0x00 .badCommand [])

/-! ### Range checks -/

/-- A character a label may hold (R22, field 12). -/
def labelChar (b : Byte) : Bool := decide (0x20 ≤ b.toNat ∧ b.toNat ≤ 0x7E)

/-- The number of the first field of a definition that fails its check, none for a valid one (R22). -/
def DefinitionArg.firstBad (d : DefinitionArg) : Option Nat :=
  if 23 < d.pathA then some 3
  else if d.pathB.any (fun b => decide (23 < b) || b == d.pathA) then some 4
  else if d.period < 1250 ∨ 125000000 < d.period then some 5
  else if d.period - 1 < d.phase then some 6
  else if d.period - 1 < d.tolerance then some 7
  else if d.hold = 0 ∨ 16 < d.hold then some 8
  else if d.jump = 0 ∨ 32 < d.jump then some 9
  else if 7 < d.profile then some 10
  else if 1 < d.keepTallies then some 11
  else if 16 < d.label.length ∨ d.label.any (fun c => !labelChar c) then some 12
  else none

/-- A port number read from a number below 24. -/
def portOf (n : Nat) : PortNo := Fin.ofNat 24 n

/-- The definition a valid argument stands for; a label of 0 characters is held as absent (R23). -/
def DefinitionArg.toDefinition (d : DefinitionArg) : Definition where
  key := d.key
  mask := d.mask
  pathA := portOf d.pathA
  pathB := d.pathB.map portOf
  period := d.period
  phase := d.phase
  tolerance := d.tolerance
  hold := d.hold
  jump := d.jump
  profile := Fin.ofNat 8 d.profile
  keepTallies := d.keepTallies == 1
  label := if d.label = [] then none else some d.label

/-- A profile argument that R133 refuses: a zero count or an unknown edge mode code. -/
def ProfileArg.bad (p : ProfileArg) : Bool :=
  p.silentDeclare == 0 || p.silentClear == 0 || decide (1 < p.edgeMode)

/-- The profile a valid argument stands for (R132, R183). -/
def ProfileArg.toProfile (p : ProfileArg) : Profile where
  dropThreshold := p.dropThreshold
  lateThreshold := p.lateThreshold
  reorderThreshold := p.reorderThreshold
  pathThreshold := p.pathThreshold
  silentDeclare := p.silentDeclare.toNat
  silentClear := p.silentClear.toNat
  edgeMode := if p.edgeMode = 0 then .assertOnly else .both
  routeDrop := p.routeDrop
  routeLate := p.routeLate
  routeReorder := p.routeReorder
  routePath := p.routePath
  routeSilent := p.routeSilent

/-- A trigger source by its code (R183). -/
def triggerOf : Nat → Option TriggerSource
  | 0 => some .command
  | 1 => some .atTime
  | 2 => some .strobe
  | _ => none

/-- A total mode by its code (R183). -/
def totalModeOf : Nat → Option TotalMode
  | 0 => some .hold
  | 1 => some .wrap
  | _ => none

/-- A stream index, if it is one (R24). -/
def streamOf (n : Nat) : Option StreamIx := if h : n < 256 then some ⟨n, h⟩ else none

end Sys2Proof.Machine
end

