-- ==== Sys2Proof/Machine/Apply.lean ====
section
/-! DEFINITION. The Staging Unit's triggers and the apply (R26, R164 to R173), its timer and its filter. -/

namespace Sys2Proof.Machine

/-! ### The apply -/

/-- A stream after steps 3 and 4 of a DEFINE entry: UNANCHORED, counts 0, flag clear, cursor at T_apply + φ
(R69, R93, R170). -/
def Stream.defined (d : Definition) (t : Time) (x : Stream) : Stream :=
  { x.unanchored with testLoss := false, cursor := timeShift t d.phase }

/-- The step of a DEFINE entry for stream i at T_apply = t (R170). -/
def State.applyDefine (s : State) (i : StreamIx) (d : Definition) (t : Time) : State :=
  let installed := s.updStream i fun x => { x with definition := some d }
  let flushed := installed.flushQuiet i
  let reset := flushed.updStream i (Stream.defined d t)
  let kept := if d.keepTallies then reset else reset.updStream i Stream.clearTallies
  kept.evaluateAll i

/-- A stream after step 1 of a REMOVE entry: its entry empty, OFF, counts 0, flag clear, no expiry of it left to
take (R90, R94, R171). -/
def Stream.removed (x : Stream) : Stream :=
  { x with definition := none, taking := false, health := .off, misses := 0, recovery := 0, testLoss := false }

/-- The step of a REMOVE entry for stream i: nothing for an empty entry; otherwise the stream is made OFF,
flushed, and its alarms deassert under the removed definition's profile (R138, R171). -/
def State.applyRemove (s : State) (i : StreamIx) : State :=
  match (s.stream i).definition with
  | none => s
  | some _ =>
    let gov := s.profileOf (s.stream i)
    ((s.updStream i Stream.removed).flushQuiet i).evaluate i AlarmClass.inOrder gov

/-- The step of one entry (R169). -/
def State.applyEntry (t : Time) (s : State) : StageEntry → State
  | .define i d => s.applyDefine i d t
  | .remove i => s.applyRemove i

/-- The staging unit emptied: EMPTY, no entries, no holder, trigger or arm time, the timer stopped. -/
def Staging.emptied (u : Staging) : Staging :=
  { u with state := .empty, entries := [], holder := none, source := none, armTime := none, timer := none }

/-- The list emptied (R159, R167, R172). -/
def State.emptyStaging (s : State) : State := { s with staging := s.staging.emptied }

/-- The end of an apply (R172, steps 1 to 3). -/
def State.applyEnd (s : State) : State :=
  ({ s with scheduleValid := true }.emptyStaging).post .applied

/-- The apply of the list at T_apply = t, whole, in list order (R169, R172). -/
def State.applyList (s : State) (t : Time) : State :=
  (s.staging.entries.foldl (State.applyEntry t) s).applyEnd

/-! ### Triggers -/

/-- The line time offer of T as it stands: a list armed AT_TIME applies once T − A, read as signed 48-bit,
is 0 or more (R164). -/
def State.offer (s : State) : State :=
  match s.staging.state, s.staging.source, s.staging.armTime with
  | .armed, some .atTime, some a => if 0 ≤ timeDiff s.link.lineTime a then s.applyList s.link.lineTime else s
  | _, _, _ => s

/-- A CHANGEOVER edge (R166). -/
def State.changeoverEdge (s : State) : State :=
  match s.staging.state, s.staging.source with
  | .empty, _ => s.post .triggerEmpty
  | .armed, some .strobe => s.applyList s.link.lineTime
  | _, _ => s.post .strobeUnused

/-- CHANGEOVER_PIN_CHANGE (R165): the level on the pin; the filter's count starts again from 0. While
RESET_N is low the wire may move and the filter takes no input (R197). -/
def execChangeoverPinChange (level : Bool) (s : State) : Result State :=
  .next <| if level = s.changeoverPin then s
    else if s.resetLow then { s with changeoverPin := level }
    else { s with changeoverPin := level, staging := { s.staging with held := 0 } }

/-- CHANGEOVER_FILTER_EXPIRY (R165, R166): the rest of the 1 us passes (log 3) and the accepted level
becomes the pin's. From low to high it is a CHANGEOVER edge. With the pin at the accepted level there is no
expiry (log 4). -/
def execChangeoverFilterExpiry (s : State) : Result State :=
  live s <|
    if s.filterRunning then
      let t := s.elapse (filterLimit - s.staging.held)
      let u := { t with staging := { t.staging with accepted := s.changeoverPin, held := 0 } }
      if s.changeoverPin then u.changeoverEdge else u
    else s

/-- ABANDONMENT_TIMER_EXPIRY (R167): the REFCLK time to 60 s passes (log 3) and the OPEN list is discarded.
The timer runs only while the list is OPEN. -/
def execAbandonmentTimerExpiry (s : State) : Result State :=
  live s <| match s.staging.timer with
    | some k => ((s.elapse (abandonmentLimit - k)).emptyStaging).post .abandoned
    | none => s

end Sys2Proof.Machine
end

