-- ==== Sys2Proof/Machine/Ports.lean ====
section
/-! DEFINITION. The query ports: taking a command, producing its reply, the transmit queues, the device
reset, and the rows of the board, line and service transports (R19, R174 to R181, R196). -/

namespace Sys2Proof.Machine

/-! ### Reset -/

/-- What the transmitter had begun, as it stands after a RESET_DEVICE reset: it is sent to its last byte
and answers no command any more (R196). -/
def TxReply.leftover (r : TxReply) : TxReply := { r with origin := .leftover }

/-- The same for the tap link transmitter. -/
def TapSending.leftover : TapSending → TapSending
  | .silent => .silent
  | .idle => .idle
  | .reply r => .reply r.leftover

/-- The reset of RESET_DEVICE: every block at its reset values; the plan, the records and frames begun, and
the level on CHANGEOVER stand (R185, R196). -/
def State.deviceReset (s : State) : State :=
  { State.reset with
    resetLow := s.resetLow
    link := Link.reset s.link.sending.leftover
    changeoverPin := s.changeoverPin
    plan := s.plan
    board := ⟨.none, none, none, s.board.lastSdo⟩
    service := ⟨.hunting, .idle, [], s.service.sending.map TxReply.leftover, s.service.lastFrame⟩
    lastTapRecord := s.lastTapRecord
    pending := s.pending }

/-! ### Transmit queues -/

/-- BUSY replies waiting in a queue. -/
def busyWaiting (q : List TxReply) : Nat := (q.filter fun r => r.origin == .busy).length

/-- A BUSY reply joins a queue, or is discarded where its three places are full (R19, R179). -/
def joinBusy (q : List TxReply) (body : List Byte) : List TxReply :=
  if busyWaiting q < busyPlaces then q ++ [⟨busyBody body, .busy⟩] else q

/-- The service transmitter begins the oldest waiting frame when it sends none (R179, log 9). -/
def ServicePort.kick (v : ServicePort) : ServicePort :=
  match v.sending, v.txQueue with
  | none, r :: rest => { v with sending := some r, txQueue := rest }
  | _, _ => v

/-- A service reply joins the transmit queue. -/
def ServicePort.join (v : ServicePort) (r : TxReply) : ServicePort :=
  { v with txQueue := v.txQueue ++ [r] }.kick

/-- The tap link transmitter's next record: the oldest waiting reply while the link is UP, else IDLE
(R19). -/
def Link.beginNext (l : Link) : Link :=
  match l.state, l.txQueue with
  | .up, r :: rest => { l with sending := .reply r, txQueue := rest }
  | _, _ => { l with sending := .idle }

/-! ### Taking a command and producing its reply -/

/-- The command a port runs (R174). -/
def State.runningOf (s : State) : Port → Option Running
  | .board =>
    match s.board.slot with
    | .pending r => some r
    | _ => none
  | .line =>
    match s.linePort.cmd with
    | .running r => some r
    | _ => none
  | .service =>
    match s.service.cmd with
    | .running r => some r
    | _ => none

/-- The running command of a port replaced: the same command, further on. -/
def State.setRunning (s : State) (p : Port) (r : Running) : State :=
  match p with
  | .board => { s with board := { s.board with slot := .pending r } }
  | .line => { s with linePort := { s.linePort with cmd := .running r } }
  | .service => { s with service := { s.service with cmd := .running r } }

/-- Reset pending: a held command is discarded, and from here on the ports take no command (R196). -/
def State.beginReset (s : State) : State :=
  { s with resetPending := true, board := { s.board with held := none } }

/-- A port takes command c: it runs it from here on, and the taking of a RESET_DEVICE sets reset pending (R174,
R196). -/
def State.startCommand (s : State) (p : Port) (tag : Byte) (c : Command) : State :=
  let t := s.setRunning p ⟨tag, .start c⟩
  if c = .resetDevice then t.beginReset else t

/-- The board port takes a body as its command; a refusal at the parse is its reply (R176, R181). -/
def State.takeBoard (s : State) (body : List Byte) : State :=
  match parseBody s.plan .board body with
  | .command tag c => s.startCommand .board tag c
  | .refusal r => { s with board := { s.board with slot := .ready r false } }

/-- The board port's reply: put in the slot, or displaced by the held command, which is then taken
(R176). -/
def State.answerBoard (s : State) (reply : List Byte) (isReset : Bool) : State :=
  match s.board.held with
  | some body => { s with board := { s.board with held := none } }.takeBoard body
  | none =>
    { s with board := { s.board with
        slot := .ready reply isReset
        fetchWait := if isReset then some 0 else s.board.fetchWait } }

/-- The line port's reply: handed to the tap link, or discarded under a discard mark (R180). A discarded
RESET_DEVICE reply makes the reset (R196). -/
def State.answerLine (s : State) (reply : List Byte) (isReset : Bool) : State :=
  if s.linePort.discardMark then
    let t := { s with linePort := ⟨.idle, false⟩ }
    if isReset then t.deviceReset else t
  else
    { s with
      linePort := { s.linePort with cmd := .replying }
      link := { s.link with
        txQueue := s.link.txQueue ++ [⟨reply, if isReset then .reset else .command⟩] } }

/-- The service port's reply joins its transmit queue (R179). -/
def State.answerService (s : State) (reply : List Byte) (isReset : Bool) : State :=
  { s with service :=
      { s.service with cmd := .replying }.join ⟨reply, if isReset then .reset else .command⟩ }

/-- The reply of a port's command (R174). -/
def State.answer (s : State) (p : Port) (reply : List Byte) (isReset : Bool) : State :=
  match p with
  | .board => s.answerBoard reply isReset
  | .line => s.answerLine reply isReset
  | .service => s.answerService reply isReset

/-- The line port takes a body as its command (R180, R181). -/
def State.takeLine (s : State) (body : List Byte) : State :=
  match parseBody s.plan .line body with
  | .command tag c => s.startCommand .line tag c
  | .refusal r => s.answerLine r false

/-- The service port takes a body as its command (R179, R181). -/
def State.takeService (s : State) (body : List Byte) : State :=
  match parseBody s.plan .service body with
  | .command tag c => s.startCommand .service tag c
  | .refusal r => s.answerService r false

/-! ### Board port -/

/-- What the bytes of an SPI frame are (R175, R177). -/
inductive SpiFrame where
  | command (body : List Byte)
  | fetch
  | discarded
  deriving DecidableEq, Repr

/-- A frame by its whole bytes: type 0x01 with a length 1..250 and that many body bytes is a complete
COMMAND frame, type 0x02 a FETCH frame, everything else is discarded (R175). -/
def spiFrame : List Byte → SpiFrame
  | 0x01#8 :: n :: rest =>
    if 1 ≤ n.toNat ∧ n.toNat ≤ bodyMax ∧ n.toNat ≤ rest.length then .command (rest.take n.toNat)
    else .discarded
  | 0x02#8 :: _ => .fetch
  | _ => .discarded

/-- The reply slot code (R177). -/
def ReplySlot.code : ReplySlot → Byte
  | .none => 0x40
  | .pending _ => 0x0E
  | .ready _ _ => 0x80

/-- The slot code as it stood when SPI_CS_N fell: PENDING if the reply came during byte 0 (log 12). -/
def ReplySlot.codeAtFall (slot : ReplySlot) (late : Bool) : Byte :=
  match slot, late with
  | .ready _ _, true => 0x0E
  | _, _ => slot.code

/-- The first n bytes returned on SPI_SDO, zeros beyond what is given. -/
def sdoBytes (n : Nat) (bs : List Byte) : List Byte := (bs ++ List.replicate n 0x00).take n

/-- What a FETCH frame returns after byte 0: the slot code and, when READY, the length and the reply
(R177). -/
def ReplySlot.fetched (slot : ReplySlot) : List Byte :=
  match slot with
  | .ready reply _ => slot.code :: bytesBE 1 reply.length ++ reply
  | _ => [slot.code]

/-- The bytes returned on SPI_SDO in a frame (R175, R177). -/
def State.sdoOf (s : State) (frame : List Byte) (late : Bool) : List Byte :=
  sdoBytes frame.length (s.board.slot.codeAtFall late ::
    match spiFrame frame with
    | .fetch => s.board.slot.fetched
    | _ => [])

/-- A complete COMMAND frame's body, taken, held or in place of a held one (R176); discarded while a reset
is pending (R196). -/
def State.boardBody (s : State) (body : List Byte) : State :=
  if s.resetPending then s
  else match s.board.slot with
    | .none => s.takeBoard body
    | .ready _ _ => s.takeBoard body
    | .pending _ => { s with board := { s.board with held := some body } }

/-- A FETCH frame of n whole bytes: a READY reply read to byte n+2 is fetched, and the slot becomes NONE
(R177). The fetch of a RESET_DEVICE reply makes the reset (R196). -/
def State.boardFetch (s : State) (n : Nat) : State :=
  match s.board.slot with
  | .ready reply isReset =>
    if reply.length + 3 ≤ n then
      let t := { s with board := { s.board with slot := .none, fetchWait := none } }
      if isReset then t.deviceReset else t
    else s
  | _ => s

/-- An SPI frame, by its bytes. -/
def State.boardFrame (s : State) (frame : List Byte) (late : Bool) : State :=
  let t := { s with board := { s.board with lastSdo := s.sdoOf frame late } }
  match spiFrame frame with
  | .command body => t.boardBody body
  | .fetch => t.boardFetch frame.length
  | .discarded => t

/-- BOARD_COMMAND_FRAME (R175, R176). -/
def execBoardCommandFrame (frame : List Byte) (late : Bool) (s : State) : Result State :=
  live s (s.boardFrame frame late)

/-- BOARD_FETCH_FRAME (R177). -/
def execBoardFetchFrame (frame : List Byte) (late : Bool) (s : State) : Result State :=
  live s (s.boardFrame frame late)

/-- BOARD_FRAME_DISCARDED (R175). -/
def execBoardFrameDiscarded (frame : List Byte) (late : Bool) (s : State) : Result State :=
  live s (s.boardFrame frame late)

/-- RESET_FETCH_TIMEOUT (R196): the rest of the 10 ms passes (log 3), and the reset is made with the reply
unfetched. -/
def execResetFetchTimeout (s : State) : Result State :=
  live s <| match s.board.fetchWait with
    | some k => (s.elapse (fetchWaitLimit - k)).deviceReset
    | none => s

/-! ### Service port -/

/-- A service frame around a reply body (R178). -/
def serviceFrame (body : List Byte) : List Byte := withCheck (0xA5 :: bytesBE 1 body.length ++ body)

/-- A complete service frame's body: taken, or answered BUSY while a command is in flight (R179); discarded
while a reset is pending (R196). -/
def State.serviceBody (s : State) (body : List Byte) : State :=
  if s.resetPending then s
  else match s.service.cmd with
    | .idle => s.takeService body
    | _ => { s with service := { s.service with txQueue := joinBusy s.service.txQueue body }.kick }

/-- The service receiver with its state replaced. -/
def State.setRx (s : State) (rx : ServiceRx) : State := { s with service := { s.service with rx := rx } }

/-- A good character after the bytes of a partial frame (R178): the length byte is checked, the last check
byte completes or discards the frame. -/
def State.serviceNext (s : State) (bytes : List Byte) (c : Byte) : State :=
  let all := bytes ++ [c]
  match all with
  | [_, n] =>
    if n = 0 ∨ bodyMax < n.toNat then s.setRx .hunting else s.setRx (.partialFrame all 0)
  | _ :: n :: _ =>
    if all.length < n.toNat + 4 then s.setRx (.partialFrame all 0)
    else if checkGood all then (s.setRx .hunting).serviceBody ((all.drop 2).take n.toNat)
    else s.setRx .hunting
  | _ => s.setRx (.partialFrame all 0)

/-- SERVICE_CHARACTER (R178). -/
def execServiceCharacter (c : Byte) (framingError : Bool) (s : State) : Result State :=
  live s <| match s.service.rx with
    | .hunting => if c = 0xA5 ∧ framingError = false then s.setRx (.partialFrame [c] 0) else s
    | .partialFrame bytes _ => if framingError then s.setRx .hunting else s.serviceNext bytes c

/-- SERVICE_BREAK (R178): a partial frame is discarded; in the hunting state it is ignored. -/
def execServiceBreak (s : State) : Result State := live s (s.setRx .hunting)

/-- SERVICE_CHARACTER_TIMEOUT (R178): the rest of the 10 ms passes (log 3) and a partial frame is
discarded. -/
def execServiceCharacterTimeout (s : State) : Result State :=
  live s <| match s.service.rx with
    | .hunting => s
    | .partialFrame _ gap => (s.elapse (characterGapLimit - gap)).setRx .hunting

/-- The end of a service frame: the next waiting frame begins; the end of the command's reply makes the
port IDLE (R179), that of a RESET_DEVICE reply makes the reset (R196). -/
def State.serviceSent (s : State) (r : TxReply) : State :=
  let v := { s.service with sending := none, lastFrame := serviceFrame r.body }
  match r.origin with
  | .command => { s with service := { v with cmd := .idle }.kick }
  | .reset => { s with service := v }.deviceReset
  | .busy => { s with service := v.kick }
  | .leftover => { s with service := v.kick }

/-- SERVICE_REPLY_SENT (R179). -/
def execServiceReplySent (s : State) : Result State :=
  live s <| match s.service.sending with
    | some r => s.serviceSent r
    | none => s

/-! ### Line port and the tap link transmitter -/

/-- A QUERY body delivered to the line port: taken, or answered BUSY (R180); discarded while a reset is
pending (R196). -/
def State.lineBody (s : State) (body : List Byte) : State :=
  if s.resetPending then s
  else match s.linePort.cmd with
    | .idle => s.takeLine body
    | _ => { s with link := { s.link with txQueue := joinBusy s.link.txQueue body } }

/-- The waiting replies discarded at entry to DOWN, and what the line port does about its command (R11,
R180, R196). -/
def State.lineLinkLost (s : State) : State :=
  let waiting := s.link.txQueue
  let t := { s with link := { s.link with txQueue := [] } }
  if waiting.any (fun r => r.origin == .reset) then t.deviceReset
  else match s.linePort.cmd with
    | .idle => t
    | .running _ => { t with linePort := { t.linePort with discardMark := true } }
    | .replying =>
      if waiting.any (fun r => r.origin == .command) then
        { t with linePort := { t.linePort with cmd := .idle } }
      else t

/-- A REPLY record around a reply body (R1, R19). -/
def replyRecord (body : List Byte) : List Byte := withCheck (0xA9 :: bytesBE 1 body.length ++ body)

/-- The IDLE record (R1, R2). -/
def idleRecord : List Byte := withCheck [0x0F]

/-- The end of a REPLY record: the command's reply makes the line port IDLE (R180), a RESET_DEVICE reply
makes the reset (R196); the transmitter goes on (R19). -/
def State.tapReplySent (s : State) (r : TxReply) : State :=
  let t := { s with lastTapRecord := replyRecord r.body }
  match r.origin with
  | .command => { t with linePort := { t.linePort with cmd := .idle }, link := t.link.beginNext }
  | .reset => { t with link := { t.link with sending := .idle } }.deviceReset
  | .busy => { t with link := t.link.beginNext }
  | .leftover => { t with link := t.link.beginNext }

/-- REPLY_RECORD_SENT (R19, R180). -/
def execReplyRecordSent (s : State) : Result State :=
  live s <| match s.link.sending with
    | .reply r => s.tapReplySent r
    | _ => s

/-- IDLE_RECORD_SENT (R19). -/
def execIdleRecordSent (s : State) : Result State :=
  live s <| match s.link.sending with
    | .idle => { s with lastTapRecord := idleRecord, link := s.link.beginNext }
    | _ => s

end Sys2Proof.Machine
end

