-- ==== Sys2Proof/Machine/LinkRows.lean ====
section
/-! DEFINITION. The rows of the tap link's receive side and of RESET_N: link state, stamps, records (R3,
R5 to R18, R20, R197). -/

namespace Sys2Proof.Machine

/-! ### Link state -/

/-- The SYNC record that ends the hunt (R6). -/
def State.syncFound (s : State) : State :=
  { s with link := { s.link with
      state := .aligning, goodCount := 0, badCount := 0, watchdog := some 0, rxBytes := [] } }

/-- A good alignment record; the fourth makes the link UP (R7, R8). -/
def State.alignGood (s : State) : State :=
  let l := { s.link with goodCount := s.link.goodCount + 1, watchdog := some 0, rxBytes := [] }
  if l.goodCount = alignmentGoal then
    { s with link := { l with state := .up, badCount := 0, timeLoaded := false } }
  else { s with link := l }

/-- A bad alignment record (R7). -/
def State.alignBad (s : State) : State :=
  { s with link := { s.link with goodCount := 0, rxBytes := [] } }

/-- What a good record does to the link in UP (R9). -/
def State.goodRecord (s : State) : State :=
  { s with link := { s.link with
      badCount := 0, watchdog := some 0, rxBytes := [], goodRecords := s.link.goodRecords + 1 } }

/-- Steps 1 to 5 of the entry to DOWN from UP (R11). -/
def State.leaveUp (s : State) : State :=
  { s with link := { s.link with
      state := .down, goodCount := 0, badCount := 0, watchdog := none, rxBytes := []
      linkDowns := s.link.linkDowns + 1 } }.post .linkDown

/-- The entry to DOWN from UP, once the takings of the last advance are finished (R11, R86). -/
def State.linkDown (s : State) : State := s.takeRest.leaveUp.flushAll.lineLinkLost

/-- A bad record in UP; the fourth in a row takes the link DOWN (R9). -/
def State.badInUp (s : State) : State :=
  let l := { s.link with
    badCheck := s.link.badCheck + 1, badCount := s.link.badCount + 1, rxBytes := [] }
  let t := { s with link := l }
  if l.badCount = badLimit then t.linkDown else t

/-- A bad record by link state: lost in DOWN, an alignment record in ALIGNING (R6, R7, R9). -/
def State.badTaken (s : State) : State :=
  match s.link.state with
  | .down => s
  | .aligning => s.alignBad
  | .up => s.badInUp

/-- A good record by link state: lost in DOWN, an alignment record in ALIGNING, and in UP acted on by
`up` (R6, R7, R9). -/
def State.goodTaken (s : State) (up : State → State) : State :=
  match s.link.state with
  | .down => s
  | .aligning => s.alignGood
  | .up => up s.goodRecord

/-! ### Line time -/

/-- Line time set to t. -/
def State.setTime (s : State) (t : Time) : State := { s with link := { s.link with lineTime := t } }

/-- The load at link-up (R14). -/
def State.loadTime (s : State) (a : Time) : State :=
  let t := { s with link := { s.link with lineTime := a, timeLoaded := true } }
  (t.post .linkUp).rebaseAll.offer

/-- An advance: every stream's taking begins, the expiries named are taken, then the new line time is offered
(R15, R71, log 5). -/
def State.advance (s : State) (a : Time) (takings : List StreamIx) : State :=
  (takings.foldl State.takeOne (s.setTime a).beginTakings).offer

/-- A behind stamp (R15). -/
def State.behindStamp (s : State) : State :=
  { s with link := { s.link with behind := s.link.behind + 1 } }

/-- A time step (R17). -/
def State.timeStep (s : State) (a : Time) : State :=
  let t := { s with link := { s.link with lineTime := a, timeSteps := s.link.timeSteps + 1 } }
  (t.post .timeStep).flushAll.rebaseAll.offer

/-- A stamp compared with line time (R15). -/
def State.compareStamp (s : State) (a : Time) (takings : List StreamIx) : State :=
  let d := timeDiff a s.link.lineTime
  if d = 0 then s
  else if 0 < d ∧ d ≤ stepLimit then s.advance a takings
  else if -stepLimit ≤ d ∧ d < 0 then s.behindStamp
  else s.timeStep a

/-- Line time handling of a stamp (R13, R14, R15): a stamp that is compared finds the takings
of the last advance finished (log 27). -/
def State.handleStamp (s : State) (a : Time) (takings : List StreamIx) : State :=
  if s.link.timeLoaded then s.takeRest.compareStamp a takings else s.loadTime a

/-! ### The rows -/

/-- SYNC_DETECTED (R6). Outside DOWN there is no hunt (log 4). -/
def execSyncDetected (s : State) : Result State :=
  live s <| match s.link.state with
    | .down => s.syncFound
    | _ => s

/-- ALIGNMENT_RECORD (R7, R8). Outside ALIGNING no record is one (log 4). -/
def execAlignmentRecord (good : Bool) (s : State) : Result State :=
  live s <| match s.link.state with
    | .aligning => if good then s.alignGood else s.alignBad
    | _ => s

/-- WATCHDOG_EXPIRY (R7, R11): the rest of the 1 ms passes (log 3). From ALIGNING the link returns to DOWN
silently (log 14), from UP it enters DOWN. A stopped watchdog does not expire. -/
def execWatchdogExpiry (s : State) : Result State :=
  live s <| match s.link.watchdog with
    | none => s
    | some k =>
      let t := s.elapse (watchdogLimit - k)
      match t.link.state with
      | .down => t
      | .aligning => { t with link := { t.link with state := .down, watchdog := none, rxBytes := [] } }
      | .up => t.linkDown

/-- BAD_RECORD (R9). -/
def execBadRecord (s : State) : Result State := live s s.badTaken

/-- SYNC_RECORD (R9). In DOWN a good SYNC record is what the hunt finds (R6). -/
def execSyncRecord (s : State) : Result State :=
  live s <| match s.link.state with
    | .down => s.syncFound
    | _ => s.goodTaken id

/-- MALFORMED_RECORD (R10). -/
def execMalformedRecord (s : State) : Result State :=
  live s <| s.goodTaken fun t =>
    { t with link := { t.link with malformed := t.link.malformed + 1 } }

/-- TICK_RECORD (R15). -/
def execTickRecord (stamp : Time) (takings : List StreamIx) (s : State) : Result State :=
  live s <| s.goodTaken fun t => t.handleStamp stamp takings

/-- DESC_RECORD (R16): the stamp first, then the Stream Classifier. -/
def execDescRecord (d : Descriptor) (takings : List StreamIx) (s : State) : Result State :=
  live s <| s.goodTaken fun t => (t.handleStamp d.stamp takings).classify d

/-- A QUERY's length byte is one that R1 gives; any other is a framing fault (R3). -/
def queryLengthGood (body : List Byte) : Bool := decide (1 ≤ body.length ∧ body.length ≤ bodyMax)

/-- QUERY_RECORD (R18). -/
def execQueryRecord (body : List Byte) (s : State) : Result State :=
  live s <| if queryLengthGood body then s.goodTaken fun t => t.lineBody body else s.badTaken

/-! ### RESET_N -/

/-- RESET_N_ASSERT (R197): every block at its power-on reset values, nothing sent. The plan stands until
the straps are sampled; the CHANGEOVER wire is no state of the part's making (log 11). -/
def execResetNAssert (s : State) : Result State :=
  .next { State.reset with
    resetLow := true
    link := Link.reset .silent
    changeoverPin := s.changeoverPin
    plan := s.plan
    pending := s.pending }

/-- The permission plan the straps give: PERM1 x 2 + PERM0 (R185). -/
def planOf (perm1 perm0 : Bool) : Fin 4 :=
  match perm1, perm0 with
  | false, false => 0
  | false, true => 1
  | true, false => 2
  | true, true => 3

/-- RESET_N_RELEASE (R185, R197). With RESET_N high there is nothing to release (log 4). -/
def execResetNRelease (perm1 perm0 : Bool) (s : State) : Result State :=
  .next <| if s.resetLow then
      { s with resetLow := false, plan := planOf perm1 perm0, link := { s.link with sending := .idle } }
    else s

end Sys2Proof.Machine
end

