-- ==== Sys2Proof/Machine/ReadCommands.lean ====
section
/-! DEFINITION. The read commands of the catalogue and the latch banks (R163, R187 to R194, R143, R147).
Each runs the command its port has taken; where the port runs another or none, the row is not a step of the
part and does nothing (log 4, log 8). -/

namespace Sys2Proof.Machine

/-- The command a port has taken and not yet begun, with its tag (R181). -/
def State.started (s : State) (p : Port) : Option (Byte × Command) :=
  match s.runningOf p with
  | some ⟨tag, .start c⟩ => some (tag, c)
  | _ => none

/-- A reply of the port's command, not that of a RESET_DEVICE (R181). -/
def State.reply (s : State) (p : Port) (tag : Byte) (st : Status) (results : List Byte) : State :=
  s.answer p (replyBody tag st results) false

/-! ### Part, stream, port, link, profile -/

/-- The results of GET_STATUS (R187). -/
def State.statusBytes (s : State) (p : Port) : List Byte :=
  [s.engine.code, flagByte s.scheduleValid, s.link.state.code, flagByte s.link.timeLoaded]
    ++ timeBytes s.link.lineTime ++ tallyBytes s.tst.intervalNumber
    ++ [flagByte s.tst.sweep.isSome, s.staging.state.code, optCode Port.code s.staging.holder,
      optCode TriggerSource.code s.staging.source]
    ++ optTimeBytes s.staging.armTime ++ [s.tst.reportMode.code]
    ++ bytesBE 2 s.tst.reportMode.period
    ++ [flagByte s.acp.lampLatch, flagByte s.lineFlag, BitVec.ofNat 8 s.plan]
    ++ wordBytes (s.acp.summaries.get p)

/-- GET_STATUS (R187). -/
def execGetStatus (p : Port) (s : State) : Result State :=
  live s <| match s.started p with
    | some (tag, .getStatus) => s.reply p tag .ok (s.statusBytes p)
    | _ => s

/-- The results of GET_STREAM for stream i (R188). -/
def State.streamBytes (s : State) (i : StreamIx) : List Byte :=
  let x := s.stream i
  bytesBE 2 i ++ [x.health.code] ++ bytesBE 2 x.expected.toNat ++ bytesBE 1 x.outstanding
    ++ bytesBE 1 x.misses ++ bytesBE 1 x.recovery ++ [flagByte x.testLoss]
    ++ optDefinitionBytes x.definition

/-- GET_STREAM (R188). -/
def execGetStream (p : Port) (s : State) : Result State :=
  live s <| match s.started p with
    | some (tag, .getStream index) =>
      match streamOf index with
      | none => s.reply p tag .badArgument []
      | some i => s.reply p tag .ok (s.streamBytes i)
    | _ => s

/-- The six tallies of a port, in the order of R189. -/
def PortTallies.bytes (t : PortTallies) : List Byte :=
  tallyBytes t.forwarded ++ tallyBytes t.discarded ++ tallyBytes t.corrupt ++ tallyBytes t.unclassified
    ++ tallyBytes t.unscheduled ++ tallyBytes t.ignored

/-- GET_PORT_TALLIES (R189). -/
def execGetPortTallies (p : Port) (s : State) : Result State :=
  live s <| match s.started p with
    | some (tag, .getPortTallies n) =>
      if h : n < 24 then s.reply p tag .ok (bytesBE 1 n ++ (s.portTallies[n]'h).bytes)
      else s.reply p tag .badArgument []
    | _ => s

/-- The results of GET_LINK (R190). -/
def Link.bytes (l : Link) : List Byte :=
  [l.state.code, flagByte l.timeLoaded] ++ timeBytes l.lineTime ++ tallyBytes l.goodRecords
    ++ tallyBytes l.badCheck ++ tallyBytes l.malformed ++ tallyBytes l.behind ++ tallyBytes l.timeSteps
    ++ tallyBytes l.linkDowns

/-- GET_LINK (R190). -/
def execGetLink (p : Port) (s : State) : Result State :=
  live s <| match s.started p with
    | some (tag, .getLink) => s.reply p tag .ok s.link.bytes
    | _ => s

/-- GET_PROFILE (R191). -/
def execGetProfile (p : Port) (s : State) : Result State :=
  live s <| match s.started p with
    | some (tag, .getProfile index) =>
      if h : index < 8 then
        s.reply p tag .ok (bytesBE 1 index ++ (s.acp.profiles[index]'h).bytes)
      else s.reply p tag .badArgument []
    | _ => s

/-- The results of STAGE_READ from position `first` (R163). -/
def Staging.bytes (u : Staging) (first : Nat) : List Byte :=
  [u.state.code, optCode Port.code u.holder, optCode TriggerSource.code u.source]
    ++ optTimeBytes u.armTime ++ bytesBE 1 u.entries.length
    ++ ((u.entries.drop first).take stageReadMax).flatMap StageEntry.bytes

/-- STAGE_READ (R163). -/
def execStageRead (p : Port) (s : State) : Result State :=
  live s <| match s.started p with
    | some (tag, .stageRead first) =>
      if first < stagePlaces then s.reply p tag .ok (s.staging.bytes first)
      else s.reply p tag .badArgument []
    | _ => s

/-! ### Latch banks -/

/-- A copy of stream i (R192). -/
def State.copyOf (s : State) (i : StreamIx) : StreamCopy :=
  let x := s.stream i
  { stream := i, definition := x.definition, health := x.health, expected := x.expected,
    outstanding := x.outstanding, alarms := x.alarms, clearGen := x.clearGen, totals := x.totals,
    terminal := x.terminal, interval := x.interval, lateness := x.lateness,
    lastInterval := x.lastInterval }

/-- The streams first..last, ascending. -/
def streamRange (first last : Nat) : List StreamIx :=
  allStreams.filter fun i => decide (first ≤ i.val ∧ i.val ≤ last)

/-- The last stream of a LATCH after the clamp (R193). -/
def latchLast (first last : Nat) : Nat := min last (min 255 (first + 31))

/-- LATCH (R193). -/
def execLatch (p : Port) (s : State) : Result State :=
  live s <| match s.started p with
    | some (tag, .latch first last) =>
      let top := latchLast first last
      if 255 < first ∨ top < first then s.reply p tag .badArgument []
      else
        let t := { s with banks := s.banks.set p ((streamRange first top).map s.copyOf) }
        t.reply p tag .ok (bytesBE 2 first ++ bytesBE 2 top ++ bytesBE 1 (top - first + 1))
    | _ => s

/-- GET_LATCHED (R194). -/
def execGetLatched (p : Port) (s : State) : Result State :=
  live s <| match s.started p with
    | some (tag, .getLatched slot) =>
      match (s.banks.get p)[slot]? with
      | none => s.reply p tag .emptySlot []
      | some c => s.reply p tag .ok c.bytes
    | _ => s

/-! ### Events and notices -/

/-- The number of records a POP_EVENTS asks for after the clamp (R143). -/
def popCount (n : Nat) : Nat := max 1 (min n popMax)

/-- POP_EVENTS (R143, R184). -/
def execPopEvents (p : Port) (s : State) : Result State :=
  live s <| match s.started p with
    | some (tag, .popEvents n) =>
      let q := s.acp.queues.get p
      let popped := q.records.take (popCount n)
      let rest := q.records.drop (popCount n)
      let t := { s with acp := { s.acp with queues := s.acp.queues.set p ⟨rest, 0⟩ } }
      t.reply p tag .ok (bytesBE 1 popped.length ++ bytesBE 1 rest.length ++ bytesBE 1 q.lost
        ++ popped.flatMap Event.bytes)
    | _ => s

/-- GET_NOTICES (R147). -/
def execGetNotices (p : Port) (s : State) : Result State :=
  live s <| match s.started p with
    | some (tag, .getNotices) =>
      let q := s.acp.queues.get p
      s.reply p tag .ok (wordBytes (s.acp.summaries.get p) ++ bytesBE 1 q.records.length
        ++ bytesBE 1 q.lost ++ wordBytes s.acp.boardEnable)
    | _ => s

end Sys2Proof.Machine
end

