-- ==== Sys2Proof/Machine/ControlCommands.lean ====
section
/-! DEFINITION. The commands that act on notices, the lamp, a test flag, intervals, totals, profiles, the
engine and the part (R64, R65, R103, R114, R119, R120, R126, R133, R134, R146, R149, R152, R195, R196). -/

namespace Sys2Proof.Machine

/-! ### Notices and the lamp -/

/-- CLEAR_NOTICES (R146). -/
def execClearNotices (p : Port) (s : State) : Result State :=
  live s <| match s.started p with
    | some (tag, .clearNotices mask) =>
      if mask &&& reservedNotices = 0 then
        let after := s.acp.summaries.get p &&& ~~~mask
        let t := { s with acp := { s.acp with summaries := s.acp.summaries.set p after } }
        t.reply p tag .ok (wordBytes after)
      else s.reply p tag .badArgument []
    | _ => s

/-- SET_NOTICE_ENABLE (R152). -/
def execSetNoticeEnable (p : Port) (s : State) : Result State :=
  live s <| match s.started p with
    | some (tag, .setNoticeEnable mask) =>
      if p ≠ .board then s.reply p tag .badCommand []
      else if mask &&& reservedNotices = 0 then
        let t := { s with acp := { s.acp with boardEnable := mask } }
        t.reply p tag .ok (wordBytes s.acp.boardEnable)
      else s.reply p tag .badArgument []
    | _ => s

/-- ACK_LAMP (R149). -/
def execAckLamp (p : Port) (s : State) : Result State :=
  live s <| match s.started p with
    | some (tag, .ackLamp) =>
      if s.acp.lampCount = 0 then
        let t := { s with acp := { s.acp with lampLatch := false } }
        t.reply p tag .ok [flagByte s.acp.lampLatch]
      else s.reply p tag .alarmActive (bytesBE 2 s.acp.lampCount)
    | _ => s

/-! ### Test injection -/

/-- INJECT (R103). -/
def execInject (p : Port) (s : State) : Result State :=
  live s <| match s.started p with
    | some (tag, .inject index) =>
      match streamOf index with
      | none => s.reply p tag .badArgument []
      | some i =>
        if (s.stream i).health = .off then s.reply p tag .badArgument []
        else
          (s.updStream i fun x => { x with testLoss := true }).reply p tag .ok
            [flagByte (s.stream i).testLoss]
    | _ => s

/-! ### Intervals and totals -/

/-- CLOSE_INTERVAL (R120). -/
def execCloseInterval (p : Port) (s : State) : Result State :=
  live s <| match s.started p with
    | some (tag, .closeInterval) =>
      match s.tst.sweep with
      | some _ => s.reply p tag .busy []
      | none =>
        let t := s.beginSweep
        t.reply p tag .ok (tallyBytes t.tst.intervalNumber)
    | _ => s

/-- The report mode of an argument, none where R119 refuses it. -/
def reportModeOf (mode period : Nat) : Option ReportMode :=
  match mode with
  | 0 => if 1 ≤ period ∧ period ≤ 3600 then some (.auto period) else none
  | 1 => some .manual
  | _ => none

/-- The report mode set, with the timer restarted in AUTO and stopped in MANUAL (R118, R119). -/
def State.setReportMode (s : State) (m : ReportMode) : State :=
  { s with tst := { s.tst with
      reportMode := m
      intervalTimer := match m with
        | .auto _ => some 0
        | .manual => none } }

/-- SET_REPORT_MODE (R119). -/
def execSetReportMode (p : Port) (s : State) : Result State :=
  live s <| match s.started p with
    | some (tag, .setReportMode mode period) =>
      match reportModeOf mode period with
      | none => s.reply p tag .badArgument []
      | some m =>
        (s.setReportMode m).reply p tag .ok
          (s.tst.reportMode.code :: bytesBE 2 s.tst.reportMode.period)
    | _ => s

/-- CLEAR_TOTALS: the check and the begin of the clear; its steps and its reply follow (R126, R127). -/
def execClearTotals (p : Port) (s : State) : Result State :=
  live s <| match s.started p with
    | some (tag, .clearTotals first last) =>
      match streamOf first with
      | none => s.reply p tag .badArgument []
      | some i =>
        if min last 255 < first then s.reply p tag .badArgument []
        else s.setRunning p ⟨tag, .clearing i i (Fin.ofNat 256 (min last 255))⟩
    | _ => s

/-- CLEAR_TOTALS_STREAM_STEP (R126, R127): one stream is cleared; the reply follows the last. -/
def execClearTotalsStreamStep (p : Port) (s : State) : Result State :=
  live s <| match s.runningOf p with
    | some ⟨tag, .clearing first next last⟩ =>
      let t := s.updStream next Stream.clearTotals
      if next < last then t.setRunning p ⟨tag, .clearing first (next + 1) last⟩
      else t.reply p tag .ok (bytesBE 2 first ++ bytesBE 2 last)
    | _ => s

/-- The total modes with the fields at these positions set to m (R114). -/
def modesAfter (modes : Vector TotalMode 16) (m : TotalMode) (positions : List Nat) :
    Vector TotalMode 16 :=
  positions.foldl (fun v k => v.setIfInBounds k m) modes

/-- SET_TOTAL_MODE (R114). -/
def execSetTotalMode (p : Port) (s : State) : Result State :=
  live s <| match s.started p with
    | some (tag, .setTotalMode mode positions) =>
      if s.engine = .running then s.reply p tag .notHalted []
      else if positions.any (fun k => decide (15 < k)) then s.reply p tag .badArgument []
      else match totalModeOf mode with
        | none => s.reply p tag .badArgument []
        | some m =>
          let modes := modesAfter s.tst.totalModes m positions
          let t := { s with tst := { s.tst with totalModes := modes } }
          t.reply p tag .ok (modes.toList.map TotalMode.code)
    | _ => s

/-! ### Profiles -/

/-- Stream i is not OFF and its active definition names profile k (R134). -/
def State.namesProfile (s : State) (k : ProfileIx) (i : StreamIx) : Bool :=
  (s.stream i).health != .off && (s.stream i).definition.any fun d => d.profile == k

/-- The lowest stream from `low` on that names profile k (R134). -/
def State.nextNaming (s : State) (k : ProfileIx) (low : Nat) : Option StreamIx :=
  allStreams.find? fun i => decide (low ≤ i.val) && s.namesProfile k i

/-- What is left of a SET_PROFILE: the re-evaluation of the next stream, or the reply with the record as
it stood before (R133, R134, log 20). -/
def State.goOnReevaluating (s : State) (p : Port) (tag : Byte) (k : ProfileIx) (low : Nat)
    (before : Profile) : State :=
  match s.nextNaming k low with
  | some _ => s.setRunning p ⟨tag, .reevaluating k low before⟩
  | none => s.reply p tag .ok before.bytes

/-- SET_PROFILE: the checks and the replacement; the re-evaluations and the reply follow (R133, R134). -/
def execSetProfile (p : Port) (s : State) : Result State :=
  live s <| match s.started p with
    | some (tag, .setProfile index arg) =>
      if h : index < 8 then
        if arg.bad then s.reply p tag .badArgument []
        else
          let k : ProfileIx := ⟨index, h⟩
          let t := { s with acp := { s.acp with profiles := s.acp.profiles.set k arg.toProfile } }
          t.goOnReevaluating p tag k 0 s.acp.profiles[k]
      else s.reply p tag .badArgument []
    | _ => s

/-- PROFILE_REEVALUATION (R134): the next stream that names the profile is re-evaluated; the reply follows
the last. -/
def execProfileReevaluation (p : Port) (s : State) : Result State :=
  live s <| match s.runningOf p with
    | some ⟨tag, .reevaluating k low before⟩ =>
      match s.nextNaming k low with
      | some i => (s.evaluateAll i).goOnReevaluating p tag k (i.val + 1) before
      | none => s.reply p tag .ok before.bytes
    | _ => s

/-! ### Engine and part -/

/-- The engine halted: RUNNING becomes HALTED and every stream not OFF is flushed and made UNANCHORED
(R64). -/
def State.haltEngine (s : State) : State :=
  match s.engine with
  | .running => { s with engine := .halted }.flushAll
  | .halted => s

/-- HALT (R64, R195). -/
def execHalt (p : Port) (s : State) : Result State :=
  live s <| match s.started p with
    | some (tag, .halt) => (s.haltEngine.post .engine).reply p tag .ok [s.engine.code]
    | _ => s

/-- RUN (R65, R195). -/
def execRun (p : Port) (s : State) : Result State :=
  live s <| match s.started p with
    | some (tag, .run) => ({ s with engine := .running }.post .engine).reply p tag .ok [s.engine.code]
    | _ => s

/-- RESET_DEVICE (R196): the reply OK, with reset pending as its taking has set it. The reset is made when the
reply has been handed over. -/
def execResetDevice (p : Port) (s : State) : Result State :=
  live s <| match s.started p with
    | some (tag, .resetDevice) =>
      s.beginReset.answer p (replyBody tag .ok []) true
    | _ => s

end Sys2Proof.Machine
end

