-- ==== Sys2Proof/Machine/StagingCommands.lean ====
section
/-! DEFINITION. The staging commands (R155 to R162, R167). -/

namespace Sys2Proof.Machine

/-- The index of an entry (R154). -/
def StageEntry.index : StageEntry → StreamIx
  | .define i _ => i
  | .remove i => i

/-- The code of an entry's kind (R183). -/
def StageEntry.code : StageEntry → Byte
  | .define _ _ => 0
  | .remove _ => 1

/-- The position on the list of the entry for stream i (R154). -/
def stagePosition (entries : List StageEntry) (i : StreamIx) : Option Nat :=
  entries.findIdx? fun e => e.index == i

/-- The list with entry e staged: in the place of the entry for its index, or as the newest (R157). -/
def stagePlaced (entries : List StageEntry) (e : StageEntry) : List StageEntry :=
  match stagePosition entries e.index with
  | some k => entries.set k e
  | none => entries ++ [e]

/-- The port holds the list (R155). -/
def State.holds (s : State) (p : Port) : Bool := s.staging.holder == some p

/-- A staging command from the holder while OPEN restarts the abandonment timer, whatever its reply
(R167). -/
def State.touch (s : State) (p : Port) : State :=
  if s.staging.state = .opened ∧ s.holds p then
    { s with staging := { s.staging with timer := some 0 } }
  else s

/-- An entry staged by port p: the list is OPEN with p as holder and the timer starts from 0 (R156,
R157). -/
def State.placeEntry (s : State) (p : Port) (e : StageEntry) : State :=
  { s with staging := { s.staging with
      state := .opened
      entries := stagePlaced s.staging.entries e
      holder := some p
      timer := some 0 } }

/-- An entry that has passed checks 1 to 4 of R156. -/
def State.stageChecked (s : State) (p : Port) (tag : Byte) (e : StageEntry) : State :=
  let old := stagePosition s.staging.entries e.index
  if old = none ∧ stagePlaces ≤ s.staging.entries.length then s.reply p tag .stageFull []
  else
    let t := s.placeEntry p e
    t.reply p tag .ok (bytesBE 1 (old.getD s.staging.entries.length)
      ++ bytesBE 1 t.staging.entries.length ++ [flagByte old.isSome])

/-- STAGE_DEFINE and STAGE_REMOVE (R156): `firstBad` is the field of the definition that fails R22, `mk`
makes the entry for a stream. The field's number is sent in one byte (log 28). -/
def State.stage (s : State) (p : Port) (tag : Byte) (index : Nat) (firstBad : Option Nat)
    (mk : StreamIx → StageEntry) : State :=
  let t := s.touch p
  if s.staging.state = .armed then t.reply p tag .armed []
  else if s.staging.state = .opened ∧ s.holds p = false then t.reply p tag .stageHeld []
  else match streamOf index with
    | none => t.reply p tag .badArgument []
    | some i =>
      match firstBad with
      | some field => t.reply p tag .badDefinition (bytesBE 1 field)
      | none => t.stageChecked p tag (mk i)

/-- STAGE_DEFINE (R156, R157). -/
def execStageDefine (p : Port) (s : State) : Result State :=
  live s <| match s.started p with
    | some (tag, .stageDefine index d) =>
      s.stage p tag index d.firstBad fun i => .define i d.toDefinition
    | _ => s

/-- STAGE_REMOVE (R156, R157). -/
def execStageRemove (p : Port) (s : State) : Result State :=
  live s <| match s.started p with
    | some (tag, .stageRemove index) => s.stage p tag index none fun i => .remove i
    | _ => s

/-- The list without the entry at position k; a list then empty has no holder (R158). -/
def State.dropEntry (s : State) (k : Nat) : State :=
  let entries := s.staging.entries.eraseIdx k
  if entries = [] then s.emptyStaging
  else { s with staging := { s.staging with entries := entries } }

/-- The entry of an index of STAGE_DROP, with its position (R158). -/
def Staging.lookup (u : Staging) (index : Nat) : Option (Nat × StageEntry) :=
  match streamOf index with
  | none => none
  | some i =>
    match stagePosition u.entries i with
    | none => none
    | some k => u.entries[k]?.map fun e => (k, e)

/-- STAGE_DROP (R158). -/
def execStageDrop (p : Port) (s : State) : Result State :=
  live s <| match s.started p with
    | some (tag, .stageDrop index) =>
      let t := s.touch p
      if s.staging.state = .empty then t.reply p tag .empty []
      else if s.holds p = false then t.reply p tag .stageHeld []
      else if s.staging.state = .armed then t.reply p tag .armed []
      else match s.staging.lookup index with
        | none => t.reply p tag .badArgument []
        | some (k, e) =>
          let u := t.dropEntry k
          u.reply p tag .ok (e.code :: bytesBE 1 u.staging.entries.length)
    | _ => s

/-- STAGE_DISCARD (R159). -/
def execStageDiscard (p : Port) (s : State) : Result State :=
  live s <| match s.started p with
    | some (tag, .stageDiscard) =>
      if s.staging.state = .empty then s.reply p tag .empty []
      else if s.holds p = false then s.reply p tag .stageHeld []
      else s.emptyStaging.reply p tag .ok (bytesBE 1 s.staging.entries.length)
    | _ => s

/-- The list armed (R160). -/
def State.arm (s : State) (source : TriggerSource) (time : Time) : State :=
  { s with staging := { s.staging with
      state := .armed
      source := some source
      armTime := match source with
        | .atTime => some time
        | _ => none
      timer := none } }

/-- STAGE_ARM (R160). -/
def execStageArm (p : Port) (s : State) : Result State :=
  live s <| match s.started p with
    | some (tag, .stageArm code time) =>
      let t := s.touch p
      if s.staging.state = .empty then t.reply p tag .empty []
      else if s.holds p = false then t.reply p tag .stageHeld []
      else if s.staging.state = .armed then t.reply p tag .armed []
      else match triggerOf code with
        | none => t.reply p tag .badArgument []
        | some source =>
          let u := t.arm source time
          u.reply p tag .ok (source.code :: optTimeBytes u.staging.armTime
            ++ timeBytes s.link.lineTime)
    | _ => s

/-- The list back to OPEN (R161). -/
def State.disarm (s : State) : State :=
  { s with staging := { s.staging with
      state := .opened, source := none, armTime := none, timer := some 0 } }

/-- STAGE_DISARM (R161). -/
def execStageDisarm (p : Port) (s : State) : Result State :=
  live s <| match s.started p with
    | some (tag, .stageDisarm) =>
      let t := s.touch p
      if s.staging.state = .empty then t.reply p tag .empty []
      else if s.holds p = false then t.reply p tag .stageHeld []
      else if s.staging.state = .opened then t.reply p tag .notArmed []
      else
        t.disarm.reply p tag .ok (optCode TriggerSource.code s.staging.source
          :: optTimeBytes s.staging.armTime)
    | _ => s

/-- APPLY (R162, R172). -/
def execApply (p : Port) (s : State) : Result State :=
  live s <| match s.started p with
    | some (tag, .apply) =>
      let t := s.touch p
      if s.staging.state = .empty then (s.post .triggerEmpty).reply p tag .empty []
      else if s.staging.state = .opened ∨ s.staging.source ≠ some .command then
        t.reply p tag .notArmed []
      else if s.holds p = false then t.reply p tag .stageHeld []
      else (s.applyList s.link.lineTime).reply p tag .ok (timeBytes s.link.lineTime
        ++ bytesBE 1 s.staging.entries.length)
    | _ => s

end Sys2Proof.Machine
end

