-- ==== Sys2Proof/Machine/Dispatch.lean ====
section
/-! DEFINITION. What each row does to everything but the queue. -/

namespace Sys2Proof.Machine

/-- The effect of a command. -/
def exec (i : Instr) (s : State) : Host.Outcome State Fault Refusal :=
  match i with
  | .resetNAssert => Sys2Proof.Machine.execResetNAssert s
  | .resetNRelease perm1 perm0 => Sys2Proof.Machine.execResetNRelease perm1 perm0 s
  | .syncDetected => Sys2Proof.Machine.execSyncDetected s
  | .alignmentRecord good => Sys2Proof.Machine.execAlignmentRecord good s
  | .watchdogExpiry => Sys2Proof.Machine.execWatchdogExpiry s
  | .badRecord => Sys2Proof.Machine.execBadRecord s
  | .syncRecord => Sys2Proof.Machine.execSyncRecord s
  | .malformedRecord => Sys2Proof.Machine.execMalformedRecord s
  | .tickRecord stamp takings => Sys2Proof.Machine.execTickRecord stamp takings s
  | .descRecord d takings => Sys2Proof.Machine.execDescRecord d takings s
  | .queryRecord body => Sys2Proof.Machine.execQueryRecord body s
  | .replyRecordSent => Sys2Proof.Machine.execReplyRecordSent s
  | .slotMiss stream => Sys2Proof.Machine.execSlotMiss stream s
  | .unanchoredSlotMiss stream => Sys2Proof.Machine.execUnanchoredSlotMiss stream s
  | .holdExpiry stream seq => Sys2Proof.Machine.execHoldExpiry stream seq s
  | .silentCatchUp stream => Sys2Proof.Machine.execSilentCatchUp stream s
  | .haltedCatchUp stream => Sys2Proof.Machine.execHaltedCatchUp stream s
  | .boardCommandFrame frame late => Sys2Proof.Machine.execBoardCommandFrame frame late s
  | .boardFetchFrame frame late => Sys2Proof.Machine.execBoardFetchFrame frame late s
  | .boardFrameDiscarded frame late => Sys2Proof.Machine.execBoardFrameDiscarded frame late s
  | .serviceCharacter char framingError => Sys2Proof.Machine.execServiceCharacter char framingError s
  | .serviceBreak => Sys2Proof.Machine.execServiceBreak s
  | .serviceCharacterTimeout => Sys2Proof.Machine.execServiceCharacterTimeout s
  | .serviceReplySent => Sys2Proof.Machine.execServiceReplySent s
  | .getStatus port => Sys2Proof.Machine.execGetStatus port s
  | .getStream port => Sys2Proof.Machine.execGetStream port s
  | .getPortTallies port => Sys2Proof.Machine.execGetPortTallies port s
  | .getLink port => Sys2Proof.Machine.execGetLink port s
  | .getProfile port => Sys2Proof.Machine.execGetProfile port s
  | .stageRead port => Sys2Proof.Machine.execStageRead port s
  | .latch port => Sys2Proof.Machine.execLatch port s
  | .getLatched port => Sys2Proof.Machine.execGetLatched port s
  | .popEvents port => Sys2Proof.Machine.execPopEvents port s
  | .getNotices port => Sys2Proof.Machine.execGetNotices port s
  | .clearNotices port => Sys2Proof.Machine.execClearNotices port s
  | .setNoticeEnable port => Sys2Proof.Machine.execSetNoticeEnable port s
  | .ackLamp port => Sys2Proof.Machine.execAckLamp port s
  | .inject port => Sys2Proof.Machine.execInject port s
  | .closeInterval port => Sys2Proof.Machine.execCloseInterval port s
  | .setReportMode port => Sys2Proof.Machine.execSetReportMode port s
  | .clearTotals port => Sys2Proof.Machine.execClearTotals port s
  | .clearTotalsStreamStep port => Sys2Proof.Machine.execClearTotalsStreamStep port s
  | .stageDefine port => Sys2Proof.Machine.execStageDefine port s
  | .stageRemove port => Sys2Proof.Machine.execStageRemove port s
  | .stageDrop port => Sys2Proof.Machine.execStageDrop port s
  | .stageDiscard port => Sys2Proof.Machine.execStageDiscard port s
  | .stageArm port => Sys2Proof.Machine.execStageArm port s
  | .stageDisarm port => Sys2Proof.Machine.execStageDisarm port s
  | .apply port => Sys2Proof.Machine.execApply port s
  | .setProfile port => Sys2Proof.Machine.execSetProfile port s
  | .profileReevaluation port => Sys2Proof.Machine.execProfileReevaluation port s
  | .halt port => Sys2Proof.Machine.execHalt port s
  | .run port => Sys2Proof.Machine.execRun port s
  | .setTotalMode port => Sys2Proof.Machine.execSetTotalMode port s
  | .resetDevice port => Sys2Proof.Machine.execResetDevice port s
  | .resetFetchTimeout => Sys2Proof.Machine.execResetFetchTimeout s
  | .intervalTimerExpiry => Sys2Proof.Machine.execIntervalTimerExpiry s
  | .sweepVisit => Sys2Proof.Machine.execSweepVisit s
  | .abandonmentTimerExpiry => Sys2Proof.Machine.execAbandonmentTimerExpiry s
  | .changeoverPinChange level => Sys2Proof.Machine.execChangeoverPinChange level s
  | .changeoverFilterExpiry => Sys2Proof.Machine.execChangeoverFilterExpiry s
  | .idleRecordSent => Sys2Proof.Machine.execIdleRecordSent s

end Sys2Proof.Machine
end

