-- ==== Sys2Proof/Machine/Step.lean ====
section
/-! DEFINITION. One step of the part: the command at the front of the queue, or one REFCLK period. -/

namespace Sys2Proof.Machine

/-- One REFCLK period with nothing commanded: the running timers count it, unless RESET_N is low (R197,
log 2). -/
def State.tick (s : State) : State := if s.resetLow then s else s.elapse 1

/-- The command at the front is run on the rest of the queue; an empty queue lets one REFCLK period
pass. -/
def step (s : State) : Host.Outcome State Fault Refusal :=
  match s.pending with
  | [] => .next s.tick
  | c :: rest => exec c { s with pending := rest }

/-- The command a table word spells put at the front of the queue. -/
def State.withFetchWord (s : State) (nbits w : Nat) : State :=
  match decodeTableWord nbits w with
  | some c => { s with pending := c :: s.pending }
  | none => s

end Sys2Proof.Machine
end

