-- ==== Sys2Proof/Machine/Wire.lean ====
section
/-! DEFINITION. The tap link's bytes: framing, the hunt, and the record row each record is (R1 to R4, R6,
R7, R9, R10). -/

namespace Sys2Proof.Machine

/-! ### Records the fabric sends -/

/-- The SYNC record (R1, R2). -/
def syncBytes : List Byte := withCheck [0x3C]

/-- A TICK record (R1). -/
def tickBytes (stamp : Time) : List Byte := withCheck (0x72 :: bytesBE 6 stamp.toNat)

/-- A QUERY record (R1). -/
def queryBytes (body : List Byte) : List Byte := withCheck (0x9A :: bytesBE 1 body.length ++ body)

/-- A disposition's code (R4). -/
def dispositionCode : Disposition → Nat
  | .forwarded => 0
  | .discarded => 1
  | .corrupt => 2

/-- A DESC record (R4). -/
def descBytes (d : Descriptor) : List Byte :=
  withCheck (0xD1 :: bytesBE 1 (dispositionCode d.disposition * 32 + d.ingressPort)
    ++ bytesBE 4 d.flowKey.toNat ++ bytesBE 2 d.seq.toNat ++ bytesBE 6 d.stamp.toNat)

/-! ### Framing -/

/-- The disposition of a code (R4). -/
def dispositionOf : Nat → Option Disposition
  | 0 => some .forwarded
  | 1 => some .discarded
  | 2 => some .corrupt
  | _ => none

/-- The descriptor of a DESC record's bytes, none where it is malformed (R4, R10). -/
def parseDesc (bs : List Byte) : Option Descriptor :=
  let at' (n k : Nat) : Nat := natBE ((bs.drop n).take k)
  match dispositionOf (at' 1 1 / 32) with
  | none => none
  | some disposition =>
    if h : at' 1 1 % 32 < 24 then
      some
        { disposition := disposition
          ingressPort := ⟨at' 1 1 % 32, h⟩
          flowKey := BitVec.ofNat 32 (at' 2 4)
          seq := BitVec.ofNat 16 (at' 6 2)
          stamp := BitVec.ofNat 48 (at' 8 6) }
    else none

/-- How far a record has come. -/
inductive Framing where
  | incomplete
  | fault
  | whole (good : Bool)
  deriving DecidableEq, Repr

/-- A record of n bytes in all, of which these have come. -/
def framedBy (n : Nat) (bs : List Byte) : Framing :=
  if bs.length < n then .incomplete else .whole (checkGood bs)

/-- The framing of the bytes since the last record (R1, R3). -/
def frameRecord (bs : List Byte) : Framing :=
  match bs with
  | [] => .incomplete
  | kind :: rest =>
    if kind = 0x3C ∨ kind = 0x0F then framedBy 3 bs
    else if kind = 0xD1 then framedBy 16 bs
    else if kind = 0x72 then framedBy 9 bs
    else if kind = 0x9A ∨ kind = 0xA9 then
      match rest with
      | [] => .incomplete
      | n :: _ => if n = 0 ∨ bodyMax < n.toNat then .fault else framedBy (n.toNat + 4) bs
    else .fault

/-- The row of a good record in UP, by its kind (R9, R10). No expiry is named: each is a row of its own. -/
def goodRow (bs : List Byte) : Instr :=
  match bs with
  | 0x3C#8 :: _ => .syncRecord
  | 0x72#8 :: rest => .tickRecord (BitVec.ofNat 48 (natBE (rest.take 6))) []
  | 0x9A#8 :: n :: rest => .queryRecord (rest.take n.toNat)
  | 0xD1#8 :: _ =>
    match parseDesc bs with
    | some d => .descRecord d []
    | none => .malformedRecord
  | _ => .malformedRecord

/-- The row of a framed record, by link state (R7, R9). -/
def recordRow (state : LinkState) (bs : List Byte) (good : Bool) : Instr :=
  match state with
  | .up => if good then goodRow bs else .badRecord
  | _ => .alignmentRecord good

/-- The bytes of the partial record replaced. -/
def State.setRxBytes (s : State) (bs : List Byte) : State :=
  { s with link := { s.link with rxBytes := bs } }

/-- One byte received on the tap link. In DOWN the last three bytes are tried as a SYNC record (R6);
otherwise the byte joins the partial record, and a record that is then whole, or a framing fault, is its
row (R3). -/
def State.tapByte (s : State) (b : Byte) : Result State :=
  let bs := s.link.rxBytes ++ [b]
  if s.resetLow then .next s
  else if s.link.state = .down then
    if bs.drop (bs.length - 3) = syncBytes then exec .syncDetected s
    else .next (s.setRxBytes (bs.drop (bs.length - 2)))
  else match frameRecord bs with
    | .incomplete => .next (s.setRxBytes bs)
    | .fault => exec (recordRow s.link.state bs false) s
    | .whole good => exec (recordRow s.link.state bs good) s

/-- A run of bytes received on the tap link, one after another. -/
def State.tapBytes (s : State) : List Byte → Result State
  | [] => .next s
  | b :: bs =>
    match s.tapByte b with
    | .next t => t.tapBytes bs
    | .fault f => .fault f
    | .refused r => .refused r

end Sys2Proof.Machine
end

