-- ==== Sys2Proof/WellFormed.lean ====
section
/-! DEFINITION. Which operands a row may carry: those that the event it names can have. The meanings are
total; on operands outside this the row does what its bytes are. -/

namespace Sys2Proof

/-- The bytes of an SPI row are of the row's kind (R175), and a QUERY body has a length R1 gives. Every
other operand is well formed by its type. -/
def Instr.wf : Instr → Bool
  | .queryRecord body => decide (1 ≤ body.length ∧ body.length ≤ Machine.bodyMax)
  | .boardCommandFrame frame _ =>
    match Machine.spiFrame frame with
    | .command _ => true
    | _ => false
  | .boardFetchFrame frame _ => Machine.spiFrame frame == .fetch
  | .boardFrameDiscarded frame _ => Machine.spiFrame frame == .discarded
  | _ => true

end Sys2Proof
end

