-- ==== Sys2Proof/Safety.lean ====
section
/-! DEFINITION. What statements about the part speak of: what a row leaves as it was, and the bounds its
state keeps. -/

namespace Sys2Proof.Machine

/-! ### What a row leaves as it was -/

/-- From s to t nothing changed but streams, the event queues, the notice summaries, the lamp latch and the
two counts of the Alarm Comparator. -/
def onlyAccounts (s t : State) : Prop :=
  t = { s with
    streams := t.streams
    acp := { t.acp with profiles := s.acp.profiles, boardEnable := s.acp.boardEnable } }

/-- Of the streams, none but i changed. -/
def onlyStream (i : StreamIx) (s t : State) : Prop := ∀ j, j ≠ i → t.stream j = s.stream j

/-- From s to t nothing changed but the command port p's own reply side: the board's slot and held
command, with reset pending if the held one is a RESET_DEVICE that is taken (R196), the line port's state and
the replies waiting for the tap link, the service port. -/
def onlyPort (p : Port) (s t : State) : Prop :=
  match p with
  | .board => t = { s with board := t.board, resetPending := t.resetPending }
  | .line =>
    t = { s with linePort := t.linePort, link := { s.link with txQueue := t.link.txQueue } }
  | .service => t = { s with service := t.service }

/-- The command that port p takes with this body is a RESET_DEVICE (R181, R196). -/
def takesReset (plan : Fin 4) (p : Port) (body : List Byte) : Bool :=
  match parseBody plan p body with
  | .command _ c => c == .resetDevice
  | .refusal _ => false

/-- Stream x became y but for its alarm states and its shares of the two counts. -/
def Stream.sameButAlarms (x y : Stream) : Prop :=
  y = { x with alarms := y.alarms, lampShare := y.lampShare, lineShare := y.lineShare }

/-- RESET_N is high and port p has taken command c with this tag (R174, R181). -/
def State.runs (s : State) (p : Port) (tag : Byte) (c : Command) : Prop :=
  s.resetLow = false ∧ s.started p = some (tag, c)

/-- Notice n stands in all three summaries of t, and no bit of a summary was cleared since s (R145). -/
def postedToAll (n : Notice) (s t : State) : Prop :=
  ∀ p, noticeSet (t.acp.summaries.get p) n = true
    ∧ ∀ m, noticeSet (s.acp.summaries.get p) m = true → noticeSet (t.acp.summaries.get p) m = true

/-- The posts of a flush that finds n slots OUTSTANDING (R43). -/
def flushedPosts (n : Nat) : List Post := if n = 0 then [] else [⟨.flushed, n⟩]

/-- A stream as a flush with the change to UNANCHORED leaves it, but for its alarms: the window emptied,
its OUTSTANDING slots counted as flushed, both counts 0; E, the cursor, the flag and the definition stand
(R43, R95). -/
def Stream.restarted (modes : Vector TotalMode 16) (x : Stream) : Stream :=
  { x.addGroup modes ⟨flushedPosts (x.window.filter Slot.isOutstanding).length, none⟩ with
    window := [], staleCount := 0, health := .unanchored, misses := 0, recovery := 0 }

/-- The health and the counts of a stream after the count of a verdict arrival, `clear` being the governing
profile's silent_clear (R97, R100). -/
def Stream.afterVerdict (clear : Nat) (x : Stream) : Stream :=
  { x with
    misses := 0
    health := if x.health = .silent ∧ 1 < clear ∨ x.health = .recovering ∧ x.recovery + 1 < clear
      then .recovering else .tracking
    recovery := if x.health = .silent ∧ 1 < clear then 1
      else if x.health = .recovering then (if x.recovery + 1 < clear then x.recovery + 1 else 0)
      else x.recovery }

/-- The state of the slot of a verdict arrival on path p: RECEIVED, or DROPPED under a pending test loss (R37,
R56, R104). -/
def Stream.slotTaken (x : Stream) (p : Path) : SlotState :=
  if x.testLoss then .dropped else .received (match p with
    | .a => .onlyA
    | .b => .onlyB)

/-- The group of a verdict arrival: the posts of its steps, then its verdict with its lateness, or under a
pending test loss an injected drop with none (R56, R57, R104). -/
def Stream.verdictPosts (x : Stream) (before : List Post) (verdict : Field) (late : Int) : Group :=
  if x.testLoss then ⟨before ++ [⟨.dropped, 1⟩, ⟨.droppedInjected, 1⟩], none⟩
  else ⟨before ++ [⟨verdict, 1⟩], some late⟩

/-- A window whose OUTSTANDING slots but for the last eight have been dropped (R41). -/
def lastEight : List Slot → List Slot
  | [] => []
  | s :: w =>
    (if s.isOutstanding ∧ 8 ≤ (w.filter Slot.isOutstanding).length then ⟨s.seq, .dropped⟩ else s)
      :: lastEight w

/-- The path miss of a slot RECEIVED on one path of a paired stream that leaves the window (R40, R42). -/
def missedPath (paired : Bool) (s : Slot) : List Post :=
  match paired, s.state with
  | true, .received .onlyA => [⟨.pathBMiss, 1⟩]
  | true, .received .onlyB => [⟨.pathAMiss, 1⟩]
  | _, _ => []

/-- k is the quotient of n by p rounded toward positive infinity, for a positive p (R80, R84). -/
def roundedUp (n p k : Int) : Prop := (k - 1) * p < n ∧ n ≤ k * p

/-- Cursor c' is cursor c moved by D / P whole periods, rounded up, where D is how far line time t lies past the
tolerance of c: the earliest instant of the grid whose tolerance t has not passed (R84). -/
def rebasedOnto (d : Definition) (t c c' : Time) : Prop :=
  (∃ k : Int, roundedUp (t - c - BitVec.ofNat 48 d.tolerance).toInt d.period k
      ∧ c' = c + BitVec.ofInt 48 (k * d.period))
    ∧ (t - c' - BitVec.ofNat 48 d.tolerance).toInt ≤ 0
    ∧ -(d.period : Int) < (t - c' - BitVec.ofNat 48 d.tolerance).toInt

/-- The anchor due of a frame stamped a is cursor c moved by D / P whole periods, rounded up, where D is how far
the stamp lies past the tolerance of c; the lateness lies in τ − P < L ≤ τ (R46, R80). -/
def anchoredOn (d : Definition) (c a due : Time) : Prop :=
  (∃ k : Int, roundedUp (a - c - BitVec.ofNat 48 d.tolerance).toInt d.period k
      ∧ due = c + BitVec.ofInt 48 (k * d.period))
    ∧ (d.tolerance : Int) - d.period < (a - due).toInt ∧ (a - due).toInt ≤ d.tolerance

/-- What the loss of the link leaves of the line port's state (R180). -/
def LinePort.linkLost (l : LinePort) (waiting : List TxReply) : LinePort :=
  match l.cmd with
  | .idle => l
  | .running _ => { l with discardMark := true }
  | .replying => if waiting.any (fun r => r.origin == .command) then { l with cmd := .idle } else l

/-- State t is what the entry to DOWN from UP makes of s when no reply of a RESET_DEVICE waits (R11). -/
structure State.linkLost (s t : State) : Prop where
  frame : t = { s with
    link := t.link, streams := t.streams, linePort := t.linePort
    acp := { t.acp with profiles := s.acp.profiles, boardEnable := s.acp.boardEnable } }
  link : t.link = { s.link with
    state := .down, goodCount := 0, badCount := 0, watchdog := none, rxBytes := [], txQueue := []
    linkDowns := s.link.linkDowns + 1 }
  posted : postedToAll .linkDown s t
  worked : t = { State.flushAll (State.post { s with
    link := { t.link with txQueue := s.link.txQueue } } .linkDown) with
      link := t.link, linePort := t.linePort }
  off : ∀ i, (s.stream i).health = .off → t.stream i = s.stream i
  on : ∀ i, (s.stream i).health ≠ .off →
    ((s.stream i).restarted s.tst.totalModes).sameButAlarms (t.stream i)
  line : t.linePort = s.linePort.linkLost s.link.txQueue

/-- State t is what the reset of a RESET_DEVICE makes of s: every block at its reset values, but for the
plan, the CHANGEOVER wire and what the transmitters have begun (R185, R196). -/
def State.deviceResetTo (s t : State) : Prop :=
  t = { State.reset with
    resetLow := s.resetLow
    link := Link.reset t.link.sending
    changeoverPin := s.changeoverPin
    plan := s.plan
    board := ⟨.none, none, none, t.board.lastSdo⟩
    service := ⟨.hunting, .idle, [], t.service.sending, t.service.lastFrame⟩
    lastTapRecord := t.lastTapRecord
    pending := s.pending }

/-! ### Bounds of a stream -/

/-- A definition that R22 accepts; its ports and its profile are in range by their types. -/
def Definition.valid (d : Definition) : Prop :=
  d.pathB ≠ some d.pathA ∧ 1250 ≤ d.period ∧ d.period ≤ 125000000 ∧ d.phase < d.period
    ∧ d.tolerance < d.period ∧ 1 ≤ d.hold ∧ d.hold ≤ 16 ∧ 1 ≤ d.jump ∧ d.jump ≤ 32
    ∧ ∀ l, d.label = some l → 1 ≤ l.length ∧ l.length ≤ 16 ∧ ∀ c ∈ l, labelChar c = true

/-- How far a sequence number lies below E (R36). -/
def below (e q : Seq) : Nat := (e - q).toNat

/-- A history window as R36 and R41 bound it: its slots lie in E−32..E−1, in ascending order and so on
distinct numbers, and at most 8 are OUTSTANDING. -/
def windowKept (e : Seq) (w : List Slot) : Prop :=
  (∀ a ∈ w, 1 ≤ below e a.seq ∧ below e a.seq ≤ windowSpan)
    ∧ w.Pairwise (fun a b => below e b.seq < below e a.seq) ∧ outstandingCount w ≤ outstandingCap

/-- The table, the health and the window of a stream go together (R22, R24, R35, R36, R41, R107). -/
structure Stream.contextKept (x : Stream) : Prop where
  defined : x.health = .off ↔ x.definition = none
  valid : ∀ d, x.definition = some d → d.valid
  window : windowKept x.expected x.window
  unheld : x.health = .off ∨ x.health = .unanchored ∨ x.health = .silent → x.window = []
  stale : x.staleCount ≤ staleLimit
  off : x.health = .off → x.misses = 0 ∧ x.recovery = 0 ∧ x.testLoss = false
  recovery : x.recovery ≠ 0 → x.health = .recovering
  quiet : x.health = .off → x.alarms = AlarmStates.clear

/-- The SILENT alarm of a stream is active exactly while its health reads SILENT or RECOVERING (R135, R136). -/
def Stream.silentKept (x : Stream) : Prop :=
  x.alarms.silent = true ↔ x.health = .silent ∨ x.health = .recovering

/-- The alarm states of stream x, not OFF, are their conditions under profile p (R135). -/
structure Stream.alarmsFollow (p : Profile) (x : Stream) : Prop where
  drop : x.alarms.drop = true ↔ p.dropThreshold ≠ 0 ∧ p.dropThreshold ≤ x.tally .dropped
  late : x.alarms.late = true ↔ p.lateThreshold ≠ 0 ∧ p.lateThreshold ≤ x.tally .late
  reorder : x.alarms.reorder = true ↔ p.reorderThreshold ≠ 0 ∧ p.reorderThreshold ≤ x.tally .reordered
  path : x.alarms.path = true ↔
    p.pathThreshold ≠ 0 ∧ p.pathThreshold ≤ x.tally .pathAMiss + x.tally .pathBMiss
  silent : x.alarms.silent = true ↔ x.health = .silent ∨ x.health = .recovering

/-- The shares of stream x count its active alarms by their routing under profile p (R148, R150). -/
structure Stream.sharesFollow (p : Profile) (x : Stream) : Prop where
  lamp : x.lampShare = (x.alarms.drop && p.routeDrop.lamp).toNat + (x.alarms.late && p.routeLate.lamp).toNat
    + (x.alarms.reorder && p.routeReorder.lamp).toNat + (x.alarms.path && p.routePath.lamp).toNat
    + (x.alarms.silent && p.routeSilent.lamp).toNat
  line : x.lineShare = (x.alarms.drop && p.routeDrop.lineFlag).toNat
    + (x.alarms.late && p.routeLate.lineFlag).toNat + (x.alarms.reorder && p.routeReorder.lineFlag).toNat
    + (x.alarms.path && p.routePath.lineFlag).toNat + (x.alarms.silent && p.routeSilent.lineFlag).toNat

/-- From s to t the evaluation of stream i moved the two counts with the stream's shares, and the lamp latch was
set if a LAMP-routed alarm is then active, never cleared (R148, R150). -/
def outputsSettled (i : StreamIx) (s t : State) : Prop :=
  t.acp.lampCount = s.acp.lampCount - (s.stream i).lampShare + (t.stream i).lampShare
    ∧ t.acp.lineCount = s.acp.lineCount - (s.stream i).lineShare + (t.stream i).lineShare
    ∧ (t.acp.lampLatch = true ↔ s.acp.lampLatch = true ∨ 0 < t.acp.lampCount)

/-- The tally record of a stream is in its bounds (R109, R111, R112, R115). -/
structure Stream.talliesKept (x : Stream) : Prop where
  interval : ∀ f : Fin 16, x.interval[f] ≤ intervalTop
  totals : ∀ f : Fin 16, x.totals[f] ≤ totalTop
  flagged : ∀ f : Fin 16, x.totals[f] = totalTop → x.terminal[f] = true
  forced : x.tally .droppedForced ≤ x.tally .dropped
  injected : x.tally .droppedInjected ≤ x.tally .dropped
  lateness : ∀ l, x.lateness = some l →
    -2147483648 ≤ l.latMin ∧ l.latMin ≤ l.latLast ∧ l.latLast ≤ l.latMax ∧ l.latMax ≤ 2147483647

/-- Every stream's context is kept. -/
def contextsKept (s : State) : Prop := ∀ i, (s.stream i).contextKept

/-- Every stream's SILENT alarm goes with its health. -/
def silentsKept (s : State) : Prop := ∀ i, (s.stream i).silentKept

/-- Every stream's tally record is kept. -/
def talliesKept (s : State) : Prop := ∀ i, (s.stream i).talliesKept

/-! ### Bounds of the Staging Unit -/

/-- The staging state goes with its list, holder, source, arm time and timer (R153). -/
def Staging.shapeKept (u : Staging) : Prop :=
  match u.state with
  | .empty => u.entries = [] ∧ u.holder = none ∧ u.source = none ∧ u.armTime = none ∧ u.timer = none
  | .opened => u.entries ≠ [] ∧ u.holder.isSome ∧ u.source = none ∧ u.armTime = none ∧ u.timer.isSome
  | .armed =>
    u.entries ≠ [] ∧ u.holder.isSome ∧ u.source.isSome ∧ (u.armTime.isSome ↔ u.source = some .atTime)
      ∧ u.timer = none

/-- The definition of an entry is one R22 accepts (R154). -/
def StageEntry.valid : StageEntry → Prop
  | .define _ d => d.valid
  | .remove _ => True

/-- The Staging Unit is in its bounds (R153, R154, R165, R167). -/
structure Staging.kept (u : Staging) : Prop where
  shape : u.shapeKept
  places : u.entries.length ≤ stagePlaces
  distinct : (u.entries.map StageEntry.index).Nodup
  valid : ∀ e ∈ u.entries, e.valid
  timer : ∀ k, u.timer = some k → k ≤ abandonmentLimit
  filter : u.held ≤ filterLimit

/-! ### Bounds of the Alarm Comparator -/

/-- Event queues, lost counts and notice words are in their bounds (R142, R144, R151). -/
def noticesKept (s : State) : Prop :=
  (∀ p, (s.acp.queues.get p).records.length ≤ queuePlaces ∧ (s.acp.queues.get p).lost ≤ lostTop
      ∧ s.acp.summaries.get p &&& reservedNotices = 0)
    ∧ s.acp.boardEnable &&& reservedNotices = 0

/-- The counts of active alarms routed to LAMP and to LINE_FLAG are the sums of the streams' shares, and
the lamp latch is set while the first is above 0 (R148, R150). -/
def outputsKept (s : State) : Prop :=
  s.acp.lampCount = ∑ i, (s.stream i).lampShare ∧ s.acp.lineCount = ∑ i, (s.stream i).lineShare
    ∧ (s.acp.lampCount ≠ 0 → s.acp.lampLatch = true)

/-- The fields of a profile that have a range of their own (R132, R133). -/
def Profile.valid (p : Profile) : Prop :=
  1 ≤ p.silentDeclare ∧ p.silentDeclare ≤ 255 ∧ 1 ≤ p.silentClear ∧ p.silentClear ≤ 255

/-- Profiles are valid and every consecutive-miss count and recovery count fits a byte (R91, R132). -/
def countsKept (s : State) : Prop :=
  (∀ k : ProfileIx, s.acp.profiles[k].valid)
    ∧ ∀ i, (s.stream i).misses ≤ 255 ∧ ((s.stream i).health ≠ .silent → (s.stream i).misses ≤ 254)
      ∧ (s.stream i).recovery ≤ 254

/-! ### Bounds of the ports -/

/-- A board command is held only while another runs, no transmit queue holds more than three BUSY replies,
and no bank more than 32 copies (R19, R176, R179, R192). -/
structure portsKept (s : State) : Prop where
  held : s.board.held ≠ none → ∃ r, s.board.slot = .pending r
  lineBusy : busyWaiting s.link.txQueue ≤ busyPlaces
  serviceBusy : busyWaiting s.service.txQueue ≤ busyPlaces
  banks : ∀ p, (s.banks.get p).length ≤ bankPlaces

end Sys2Proof.Machine
end

