-- ==== Sys2Proof/Certificates/Slice0/Obligations.lean ====
section
/-! DEFINITION. The statements about the part. A hypothesis `s.resetLow = false` says RESET_N is high; `s.runs p
tag c` says besides that port p has taken command c. -/

open Sys2Proof Sys2Proof.Machine

/-! ### The queue and the clock -/

/-- A step with a command at the front of the queue is that command's effect on the rest (log 1). -/
def Obligations.StepRunsTheFrontCommand : Prop :=
  ∀ (c : Instr) (s : State), step { s with pending := c :: s.pending } = exec c s

/-- n REFCLK periods are counted by each running timer, up to its limit, and by nothing else. A step on an empty
queue lets one period pass; with RESET_N low nothing changes. The model's choice (log 2, log 3). -/
def Obligations.EmptyQueueLetsOnePeriodPass : Prop :=
  let counted (n : Nat) (s : State) : State :=
    { s with
      link := { s.link with watchdog := s.link.watchdog.map fun k => min (k + n) 25000 }
      tst := { s.tst with intervalTimer := s.tst.intervalTimer.map fun k =>
          match s.tst.reportMode with
          | .auto sec => min (k + n) (sec * 25000000)
          | .manual => 0 }
      staging := { s.staging with
        timer := s.staging.timer.map fun k => min (k + n) 1500000000
        held := if s.changeoverPin = s.staging.accepted then s.staging.held
          else min (s.staging.held + n) 25 }
      service := { s.service with rx :=
        match s.service.rx with
        | .hunting => .hunting
        | .partialFrame bs gap => .partialFrame bs (min (gap + n) 250000) }
      board := { s.board with fetchWait := s.board.fetchWait.map fun k => min (k + n) 250000 } }
  (∀ (s : State) (n : Nat), s.elapse n = counted n s)
    ∧ ∀ s : State, s.pending = [] → step s = .next (if s.resetLow then s else counted 1 s)

/-- Every command answers a next state in every state, and leaves the queue as it was. It says totality, no
command's effect: the queue is log 1, and that a command has no effect where its event cannot happen is log
4. -/
def Obligations.EveryCommandCompletes : Prop :=
  ∀ (c : Instr) (s : State), ∃ t, exec c s = .next t ∧ t.pending = s.pending

/-! ### Reset -/

/-- RESET_N low puts every block at its reset values and takes no input; its release samples the straps.
That the plan and the CHANGEOVER wire stand while it is low is the model's reading (log 11). -/
def Obligations.ResetPinRows : Prop :=
  (∀ sending, Link.reset sending = { State.reset.link with sending := sending })
    ∧ (∀ s : State, exec .resetNAssert s = .next { State.reset with
      resetLow := true, link := Link.reset .silent, changeoverPin := s.changeoverPin, plan := s.plan
      pending := s.pending })
    ∧ (∀ (s : State) (perm1 perm0 : Bool), s.resetLow = true →
      ∃ plan : Fin 4, plan.val = perm1.toNat * 2 + perm0.toNat
        ∧ exec (.resetNRelease perm1 perm0) s = .next { s with
          resetLow := false, plan := plan, link := { s.link with sending := .idle } })
    ∧ ∀ (s : State) (c : Instr), s.resetLow = true → c ≠ .resetNAssert →
      (∀ perm1 perm0, c ≠ .resetNRelease perm1 perm0) → (∀ level, c ≠ .changeoverPinChange level) →
      exec c s = .next s

/-- The state after reset has the values the chapters give for it. The plan and the pin levels, which they
do not give, are left out (log 10). -/
def Obligations.ResetStateHasTheSpecValues : Prop :=
  let s := State.reset
  (s.link.state = .down ∧ s.link.goodCount = 0 ∧ s.link.badCount = 0 ∧ s.link.watchdog = none
      ∧ s.link.timeLoaded = false ∧ s.link.rxBytes = [] ∧ s.link.txQueue = [] ∧ s.link.lineTime = 0
      ∧ s.link.goodRecords = 0 ∧ s.link.badCheck = 0 ∧ s.link.malformed = 0 ∧ s.link.behind = 0
      ∧ s.link.timeSteps = 0 ∧ s.link.linkDowns = 0)
    ∧ (s.scheduleValid = false ∧ s.engine = .running ∧ s.resetPending = false)
    ∧ (∀ p : PortNo, s.portTallies[p] = ⟨0, 0, 0, 0, 0, 0⟩)
    ∧ (∀ i, (s.stream i).definition = none ∧ (s.stream i).expected = 0 ∧ (s.stream i).window = []
      ∧ (s.stream i).staleCount = 0 ∧ (s.stream i).cursor = 0 ∧ (s.stream i).health = .off
      ∧ (s.stream i).misses = 0 ∧ (s.stream i).recovery = 0 ∧ (s.stream i).testLoss = false
      ∧ (∀ f : Fin 16, (s.stream i).totals[f] = 0 ∧ (s.stream i).terminal[f] = false
        ∧ (s.stream i).interval[f] = 0)
      ∧ (s.stream i).lateness = none ∧ (s.stream i).lastInterval = none ∧ (s.stream i).clearGen = 0
      ∧ (s.stream i).alarms = ⟨false, false, false, false, false⟩)
    ∧ ((∀ f : Fin 16, s.tst.totalModes[f] = .hold) ∧ s.tst.reportMode = .auto 60
      ∧ s.tst.intervalTimer = some 0 ∧ s.tst.intervalNumber = 0 ∧ s.tst.sweep = none)
    ∧ (∀ k : ProfileIx, s.acp.profiles[k] =
      { dropThreshold := 0, lateThreshold := 0, reorderThreshold := 0, pathThreshold := 0
        silentDeclare := 8, silentClear := 4, edgeMode := .assertOnly
        routeDrop := ⟨false, false, false⟩, routeLate := ⟨false, false, false⟩
        routeReorder := ⟨false, false, false⟩, routePath := ⟨false, false, false⟩
        routeSilent := ⟨true, false, false⟩ })
    ∧ (s.acp.lampLatch = false ∧ s.acp.lineCount = 0 ∧ s.acp.boardEnable = 0)
    ∧ (∀ p, s.acp.queues.get p = ⟨[], 0⟩ ∧ s.acp.summaries.get p = 0 ∧ s.banks.get p = [])
    ∧ (s.staging.state = .empty ∧ s.staging.entries = [] ∧ s.staging.holder = none
      ∧ s.staging.source = none ∧ s.staging.armTime = none ∧ s.staging.timer = none
      ∧ s.staging.accepted = true ∧ s.staging.held = 0)
    ∧ s.board.slot = .none ∧ s.board.held = none ∧ s.linePort = ⟨.idle, false⟩
    ∧ s.service.rx = .hunting ∧ s.service.cmd = .idle ∧ s.service.txQueue = []

/-- The reset of RESET_DEVICE is made when its reply has been handed over, by each of six ways: fetched from the
board slot, left there for 10 ms, sent as a REPLY record, discarded at the link's entry to DOWN, discarded under
a discard mark, sent as a service frame (R196). What was begun on a transmitter goes on as a leftover (log 21);
an expiry's row lets the rest of its wait pass (log 3). -/
def Obligations.HandedOverResetReplyResets : Prop :=
  ∀ s : State, s.resetLow = false →
    let begun (r : TxReply) : TxReply := ⟨r.body, .leftover⟩
    let record : TapSending := match s.link.sending with
      | .reply r => .reply (begun r)
      | other => other
    (∀ reply frame late, s.board.slot = .ready reply true → spiFrame frame = .fetch →
      reply.length + 3 ≤ frame.length →
      ∃ t, exec (.boardFetchFrame frame late) s = .next t ∧ s.deviceResetTo t
        ∧ t.link.sending = record
        ∧ t.service.sending = s.service.sending.map begun)
    ∧ (∀ k, s.board.fetchWait = some k →
      ∃ t, exec .resetFetchTimeout s = .next t ∧ s.deviceResetTo t
        ∧ t.link.sending = record
        ∧ t.service.sending = s.service.sending.map begun)
    ∧ (∀ body, s.link.sending = .reply ⟨body, .reset⟩ →
      ∃ t, exec .replyRecordSent s = .next t ∧ s.deviceResetTo t ∧ t.link.sending = .idle
        ∧ t.service.sending = s.service.sending.map begun)
    ∧ (∀ body, s.service.sending = some ⟨body, .reset⟩ →
      ∃ t, exec .serviceReplySent s = .next t ∧ s.deviceResetTo t
        ∧ t.link.sending = record ∧ t.service.sending = none)
    ∧ (∀ c, (c = .badRecord ∧ s.link.badCount + 1 = 4
          ∨ c = .watchdogExpiry ∧ ∃ k, s.link.watchdog = some k) →
      s.link.state = .up → (∃ r ∈ s.link.txQueue, r.origin = .reset) →
      ∃ t, exec c s = .next t ∧ s.deviceResetTo t
        ∧ t.link.sending = record
        ∧ t.service.sending = s.service.sending.map begun)
    ∧ ∀ tag, s.runs .line tag .resetDevice → s.linePort.discardMark = true →
      ∃ t, exec (.resetDevice .line) s = .next t ∧ s.deviceResetTo t
        ∧ t.link.sending = record
        ∧ t.service.sending = s.service.sending.map begun

/-! ### The tap link -/

/-- A SYNC record ends the hunt; in ALIGNING every good record counts toward four, a bad one sets the count
to 0, and the fourth makes the link UP; in DOWN no other record has an effect (R6, R7, R8, log 4). When the
watchdog expires in ALIGNING it is stopped with the good-record count standing (log 14), the rest of its 1 ms
having passed (log 3). -/
def Obligations.HuntAndAlignment : Prop :=
  ∀ s : State, s.resetLow = false →
    (s.link.state = .down → ∀ c, c = .syncDetected ∨ c = .syncRecord →
      exec c s = .next { s with link := { s.link with
        state := .aligning, goodCount := 0, badCount := 0, watchdog := some 0, rxBytes := [] } })
    ∧ (s.link.state = .down → ∀ c, c = .badRecord ∨ c = .malformedRecord
        ∨ (∃ a ks, c = .tickRecord a ks) ∨ (∃ d ks, c = .descRecord d ks) ∨ (∃ b, c = .queryRecord b) →
      exec c s = .next s)
    ∧ (s.link.state = .aligning → ∀ c, c = .alignmentRecord true ∨ c = .syncRecord ∨ c = .malformedRecord
        ∨ (∃ a ks, c = .tickRecord a ks) ∨ (∃ d ks, c = .descRecord d ks)
        ∨ (∃ b, c = .queryRecord b ∧ 1 ≤ b.length ∧ b.length ≤ 250) →
      exec c s = .next { s with link :=
        if s.link.goodCount + 1 = 4 then
          { s.link with
            state := .up, goodCount := 4, badCount := 0, watchdog := some 0, timeLoaded := false
            rxBytes := [] }
        else
          { s.link with goodCount := s.link.goodCount + 1, watchdog := some 0, rxBytes := [] } })
    ∧ (s.link.state = .aligning → ∀ c, c = .alignmentRecord false ∨ c = .badRecord
        ∨ (∃ b, c = .queryRecord b ∧ (b.length = 0 ∨ 250 < b.length)) →
      exec c s = .next { s with link := { s.link with goodCount := 0, rxBytes := [] } })
    ∧ ∀ k, s.link.state = .aligning → s.link.watchdog = some k →
      exec .watchdogExpiry s = .next { s.elapse (25000 - k) with
        link := { s.link with state := .down, watchdog := none, rxBytes := [] } }

/-- In UP a good record restarts the watchdog and counts; a malformed one counts besides; a bad one below
the fourth in a row counts and is discarded (R9, R10). -/
def Obligations.RecordsInUp : Prop :=
  ∀ s : State, s.resetLow = false → s.link.state = .up →
    exec .syncRecord s = .next { s with link := { s.link with
        badCount := 0, watchdog := some 0, rxBytes := [], goodRecords := s.link.goodRecords + 1 } }
    ∧ exec .malformedRecord s = .next { s with link := { s.link with
        badCount := 0, watchdog := some 0, rxBytes := [], goodRecords := s.link.goodRecords + 1
        malformed := s.link.malformed + 1 } }
    ∧ (s.link.badCount + 1 ≠ 4 → exec .badRecord s = .next { s with link := { s.link with
        badCheck := s.link.badCheck + 1, badCount := s.link.badCount + 1, rxBytes := [] } })

/-- The fourth bad record in a row, and 1 ms without a good record, take the link from UP to DOWN, and every
stream that is not OFF is flushed, its OUTSTANDING slots counted, and made UNANCHORED (R11, R43, R95), once the
takings of the last advance are finished (R86, log 27). The ascending order of the streams and the evaluation
after each piece of work are the model's (log 7, log 25). The two cases differ in the tally of the bad record and
in the REFCLK time that passes (log 3). -/
def Obligations.LinkLeavesUp : Prop :=
  ∀ s : State, s.resetLow = false → s.link.state = .up →
    (∀ r ∈ s.link.txQueue, r.origin ≠ .reset) →
    (s.link.badCount + 1 = 4 → ∃ t, exec .badRecord s = .next t
      ∧ (State.takeRest { s with link := { s.link with
        badCheck := s.link.badCheck + 1, badCount := 4, rxBytes := [] } }).linkLost t)
    ∧ ∀ k, s.link.watchdog = some k → ∃ t, exec .watchdogExpiry s = .next t
      ∧ (s.elapse (25000 - k)).takeRest.linkLost t

/-- While line time is loaded, a TICK stamp finds the takings of the last advance finished (log 27). Equal
to line time it holds it; up to 100 ms behind, it is counted as behind; up to 100 ms ahead, it becomes line
time, the taking of every stream that is not OFF begins, and it is offered to the Staging Unit after the
expiries named by the row are taken (R15, R71, R164, log 5). -/
def Obligations.TickAgainstLineTime : Prop :=
  ∀ (s : State) (a : Time) (ks : List StreamIx), s.resetLow = false → s.link.state = .up →
    s.link.timeLoaded = true →
    let good : Link := { s.link with
      badCount := 0, watchdog := some 0, rxBytes := [], goodRecords := s.link.goodRecords + 1 }
    let v : State := State.takeRest { s with link := good }
    let d : Int := (a - s.link.lineTime).toInt
    v.link = good
    ∧ (d = 0 → exec (.tickRecord a ks) s = .next v)
    ∧ (-12500000 ≤ d → d < 0 → exec (.tickRecord a ks) s = .next { v with
        link := { good with behind := s.link.behind + 1 } })
    ∧ (0 < d → d ≤ 12500000 →
      let taken := ks.foldl State.takeOne { v with
        link := { good with lineTime := a }
        streams := v.streams.map fun x => { x with taking := x.health != .off } }
      exec (.tickRecord a ks) s = .next
        (match s.staging.state, s.staging.source, s.staging.armTime with
          | .armed, some .atTime, some armed =>
            if 0 ≤ (a - armed).toInt then taken.applyList a else taken
          | _, _, _ => taken))

/-- The first stamp after entry to UP loads line time, and a stamp more than 100 ms away steps it: the notice is
posted, the cursors are re-based, and a step first restarts every stream, whose taking of the last advance is
finished (R14, R17, R43, R84, R85, log 27). The ascending order of the streams and the evaluation after each piece
of work are the model's (log 7, log 25). The new line time is then offered to the Staging Unit: a list armed AT_TIME
whose arm time it has reached applies (R164). -/
def Obligations.LoadAndTimeStep : Prop :=
  ∀ (s : State) (a : Time) (ks : List StreamIx), s.resetLow = false → s.link.state = .up →
    contextsKept s →
    let good : Link := { s.link with
      badCount := 0, watchdog := some 0, rxBytes := [], goodRecords := s.link.goodRecords + 1 }
    let offered (u : State) : State :=
      match s.staging.state, s.staging.source, s.staging.armTime with
      | .armed, some .atTime, some armed => if 0 ≤ (a - armed).toInt then u.applyList a else u
      | _, _, _ => u
    (s.link.timeLoaded = false → ∃ t, exec (.tickRecord a ks) s = .next (offered t)
      ∧ t.link = { good with lineTime := a, timeLoaded := true }
      ∧ onlyAccounts { s with link := t.link } t ∧ postedToAll .linkUp s t
      ∧ t.acp = (s.post .linkUp).acp
      ∧ (∀ i, (s.stream i).definition = none → t.stream i = s.stream i)
      ∧ ∀ i d, (s.stream i).definition = some d →
        t.stream i = { s.stream i with cursor := (t.stream i).cursor }
          ∧ rebasedOnto d a (s.stream i).cursor (t.stream i).cursor)
    ∧ (s.link.timeLoaded = true →
      (a - s.link.lineTime).toInt < -12500000 ∨ 12500000 < (a - s.link.lineTime).toInt →
      let v : State := State.takeRest { s with link := good }
      ∃ t, exec (.tickRecord a ks) s = .next (offered t)
      ∧ t.link = { good with lineTime := a, timeSteps := s.link.timeSteps + 1 }
      ∧ onlyAccounts { s with link := t.link } t ∧ postedToAll .timeStep s t
      ∧ t.acp = (State.flushAll (State.post { v with link := t.link } .timeStep)).acp
      ∧ (∀ i, (s.stream i).definition = none → t.stream i = s.stream i)
      ∧ ∀ i d, (s.stream i).definition = some d →
        Stream.sameButAlarms
            { (v.stream i).restarted s.tst.totalModes with cursor := (t.stream i).cursor } (t.stream i)
          ∧ rebasedOnto d a (v.stream i).cursor (t.stream i).cursor)

/-! ### Descriptors -/

/-- A DESC record does with its stamp what a TICK record does, and then hands its descriptor to the Stream
Classifier (R16). -/
def Obligations.DescHandlesStampThenDescriptor : Prop :=
  ∀ (s : State) (d : Descriptor) (ks : List StreamIx), s.resetLow = false → s.link.state = .up →
    ∃ u, exec (.tickRecord d.stamp ks) s = .next u ∧ exec (.descRecord d ks) s = .next (u.classify d)

/-- The three tests of a descriptor in their order, each counted in one tally of its port; then the search,
which takes the first entry, in ascending index, whose key agrees with the flow key in every bit the mask
holds and whose paths name the ingress port; a descriptor that matches none is counted (R28, R29, R30). -/
def Obligations.DescriptorTestsAndSearch : Prop :=
  ∀ (s : State) (d : Descriptor),
    let old := s.portTallies[d.ingressPort]
    let counted (t : PortTallies) : State := { s with portTallies := s.portTallies.set d.ingressPort t }
    let agrees (i : StreamIx) : Prop := ∃ e, (s.stream i).definition = some e
      ∧ (∀ b, b < 32 → e.mask.getLsbD b = true → d.flowKey.getLsbD b = e.key.getLsbD b)
      ∧ (d.ingressPort = e.pathA ∨ some d.ingressPort = e.pathB)
    (s.engine = .halted → s.classify d = counted { old with ignored := old.ignored + 1 })
    ∧ (s.engine = .running → d.disposition = .corrupt →
      s.classify d = counted { old with corrupt := old.corrupt + 1 })
    ∧ (s.engine = .running → d.disposition ≠ .corrupt → s.scheduleValid = false →
      s.classify d = counted { old with unscheduled := old.unscheduled + 1 })
    ∧ (s.engine = .running → d.disposition ≠ .corrupt → s.scheduleValid = true →
      (∀ i, ¬agrees i) → s.classify d = counted { old with unclassified := old.unclassified + 1 })
    ∧ (∀ i, s.findStream d.flowKey d.ingressPort = some i ↔ agrees i ∧ ∀ j, j < i → ¬agrees j)

/-- A DISCARDED descriptor that matches a stream counts discarded on its port and discarded_here on the
stream, and changes nothing of its sequence, cursor or health (R31). A FORWARDED one counts forwarded, has
the stream's expiries taken and is judged with its path (R32, R47, R71). That its row ends the last advance's
taking of the stream, the field taking, is the model's (log 5, log 23). -/
def Obligations.MatchedDescriptors : Prop :=
  ∀ (s : State) (d : Descriptor) (i : StreamIx) (e : Definition), s.engine = .running →
    s.scheduleValid = true → s.findStream d.flowKey d.ingressPort = some i →
    (s.stream i).definition = some e →
    let old := s.portTallies[d.ingressPort]
    (d.disposition = .discarded →
      (s.classify d).portTallies =
          s.portTallies.set d.ingressPort { old with discarded := old.discarded + 1 }
        ∧ Stream.sameButAlarms
          ((s.stream i).addGroup s.tst.totalModes ⟨[⟨.discardedHere, 1⟩], none⟩) ((s.classify d).stream i)
        ∧ onlyStream i s (s.classify d)
        ∧ onlyAccounts { s with portTallies := (s.classify d).portTallies } (s.classify d)
        ∧ (let tallies := s.portTallies.set d.ingressPort { old with discarded := old.discarded + 1 }
          s.classify d =
            State.postGroup { s with portTallies := tallies } i ⟨[⟨.discardedHere, 1⟩], none⟩))
    ∧ (d.disposition = .forwarded →
      let tallies := s.portTallies.set d.ingressPort { old with forwarded := old.forwarded + 1 }
      let u : State := State.takeAll { s with portTallies := tallies } i
      s.classify d = State.judgeArrival (u.setStream i { u.stream i with taking := false })
        i e (if d.ingressPort = e.pathA then .a else .b) d.seq d.stamp)

/-! ### Arrivals -/

/-- An in-order arrival of a TRACKING or RECOVERING stream takes one step of E and is ON_TIME or LATE by its
lateness against the cursor, or is converted by a pending test loss (R39, R40, R48, R56, R57, R97, R104). -/
def Obligations.InOrderArrival : Prop :=
  ∀ (s : State) (i : StreamIx) (d : Definition) (p : Machine.Path) (q : Seq) (a : Time),
    let x := s.stream i
    x.definition = some d → x.health = .tracking ∨ x.health = .recovering → x.expected = q →
    let late : Int := (a - x.cursor).toInt
    let t := s.judgeArrival i d p q a
    let placed : Stream := { x with
      expected := q + 1
      window := x.window.filter (fun w => w.seq != q - 32) ++ [⟨q, x.slotTaken p⟩]
      cursor := x.cursor + BitVec.ofNat 48 d.period
      staleCount := 0
      testLoss := false }
    let exits := (x.window.filter fun w => w.seq == q - 32).flatMap fun w =>
      if w.isOutstanding then [⟨.dropped, 1⟩, ⟨.droppedForced, 1⟩] else missedPath x.paired w
    let own := x.verdictPosts exits (if late ≤ d.tolerance then .onTime else .late) late
    Stream.sameButAlarms
        (Stream.afterVerdict s.acp.profiles[d.profile].silentClear (placed.addGroup s.tst.totalModes own))
        (t.stream i)
      ∧ t = State.countVerdict ((s.setStream i placed).postGroup i own) i
      ∧ onlyAccounts s t ∧ onlyStream i s t

/-- An accepted jump of n makes n gap slots, each OUTSTANDING with its due, and the slot of the frame: E and the
cursor move on by n + 1 slots. Of the slots then in the window the last eight OUTSTANDING stay so; every other
slot that was awaited is a forced drop, by the cap or at its exit, and the slots that leave seen on one path
give their path miss. The frame is ON_TIME or LATE by its lateness against its own due (R40, R41, R49, R57,
R58, R70, R97, R104). -/
def Obligations.AcceptedJump : Prop :=
  ∀ (s : State) (i : StreamIx) (d : Definition) (p : Machine.Path) (a : Time) (n : Nat),
    let x := s.stream i
    x.definition = some d → x.contextKept → x.health = .tracking ∨ x.health = .recovering →
    1 ≤ n → n ≤ d.jump →
    let q : Seq := x.expected + BitVec.ofNat 16 n
    let t := s.judgeArrival i d p q a
    let late : Int := (a - (x.cursor + BitVec.ofNat 48 (n * d.period))).toInt
    let gap (k : Nat) : Slot := ⟨x.expected + BitVec.ofNat 16 k,
      .outstanding (x.cursor + BitVec.ofNat 48 (k * d.period)) .gap⟩
    let inside : List Slot := x.window.filter (fun v => decide (below x.expected v.seq + n ≤ 31))
      ++ ((List.range n).filter fun k => decide (n ≤ k + 31)).map gap
    let awaited (w : List Slot) : Nat := (w.filter Slot.isOutstanding).length
    let placed : Stream := { x with
      expected := q + 1
      window := lastEight inside ++ [⟨q, x.slotTaken p⟩]
      cursor := x.cursor + BitVec.ofNat 48 ((n + 1) * d.period)
      staleCount := 0
      testLoss := false }
    let own (posts : List Post) : Group :=
      x.verdictPosts posts (if late ≤ d.tolerance then .onTime else .late) late
    (∃ posts : List Post,
      posts.Perm ((List.replicate (awaited x.window + n - awaited (lastEight inside))
            [⟨.dropped, 1⟩, ⟨.droppedForced, 1⟩]).flatten
          ++ (x.window.filter fun v => decide (31 < below x.expected v.seq + n)).flatMap
            (missedPath x.paired))
        ∧ Stream.sameButAlarms
          (Stream.afterVerdict s.acp.profiles[d.profile].silentClear
            (placed.addGroup s.tst.totalModes (own posts)))
          (t.stream i)
        ∧ t = State.countVerdict ((s.setStream i placed).postGroup i (own posts)) i)
      ∧ (∀ k, k < n → n ≤ k + 8 → gap k ∈ lastEight inside)
      ∧ (∀ k, k + 8 < n → n ≤ k + 31 → ⟨(gap k).seq, .dropped⟩ ∈ lastEight inside)
      ∧ onlyAccounts s t ∧ onlyStream i s t

/-- The first arrival of an UNANCHORED or SILENT stream anchors it ON_TIME, or converted by a pending test
loss: its due is the cursor moved by D / P whole periods, rounded up, the latest grid instant whose
tolerance it has not passed (R46, R56, R80, R97, R104). -/
def Obligations.AnchoringArrival : Prop :=
  ∀ (s : State) (i : StreamIx) (d : Definition) (p : Machine.Path) (q : Seq) (a : Time),
    let x := s.stream i
    x.definition = some d → x.contextKept → x.health = .unanchored ∨ x.health = .silent →
    let t := s.judgeArrival i d p q a
    ∃ due : Time, anchoredOn d x.cursor a due
      ∧ (let placed : Stream := { x with
          expected := q + 1, window := [⟨q, x.slotTaken p⟩]
          cursor := due + BitVec.ofNat 48 d.period, staleCount := 0, testLoss := false }
        let own := x.verdictPosts [] .onTime (a - due).toInt
        Stream.sameButAlarms
          (Stream.afterVerdict s.acp.profiles[d.profile].silentClear (placed.addGroup s.tst.totalModes own))
          (t.stream i)
        ∧ t = State.countVerdict ((s.setStream i placed).postGroup i own) i)
      ∧ onlyAccounts s t ∧ onlyStream i s t

/-- A stale arrival of a TRACKING or RECOVERING stream is counted up to the third in a row; the fourth, and a
jump past the stream's limit, break the sequence: a finalizing clear and an anchor, ON_TIME or converted by a
pending test loss (R42, R50, R54, R56, R104). -/
def Obligations.StaleArrivalsAndResync : Prop :=
  ∀ (s : State) (i : StreamIx) (d : Definition) (p : Machine.Path) (q : Seq) (a : Time),
    let x := s.stream i
    x.definition = some d → x.contextKept → x.health = .tracking ∨ x.health = .recovering →
    let dist : Int := (q - x.expected).toInt
    let stale := dist < -32 ∨ (-32 ≤ dist ∧ dist < 0 ∧ ∀ w ∈ x.window, w.seq ≠ q)
    let cleared (w : Slot) : List Post := if w.isOutstanding then [⟨.dropped, 1⟩] else missedPath x.paired w
    let t := s.judgeArrival i d p q a
    (stale → x.staleCount < 3 →
      let counted : Stream := { x with staleCount := x.staleCount + 1 }
      (counted.addGroup s.tst.totalModes ⟨[⟨.stale, 1⟩], none⟩).sameButAlarms (t.stream i)
        ∧ t = (s.setStream i counted).postGroup i ⟨[⟨.stale, 1⟩], none⟩)
    ∧ (stale ∧ x.staleCount = 3 ∨ (d.jump : Int) < dist →
      ∃ due : Time, anchoredOn d x.cursor a due
        ∧ let placed : Stream := { x with
            expected := q + 1, window := [⟨q, x.slotTaken p⟩]
            cursor := due + BitVec.ofNat 48 d.period, staleCount := 0, testLoss := false }
          let own := x.verdictPosts (⟨.seqBreak, 1⟩ :: x.window.flatMap cleared) .onTime (a - due).toInt
          Stream.sameButAlarms
            (Stream.afterVerdict s.acp.profiles[d.profile].silentClear
              (placed.addGroup s.tst.totalModes own))
            (t.stream i)
          ∧ t = State.countVerdict ((s.setStream i placed).postGroup i own) i)
    ∧ onlyAccounts s t ∧ onlyStream i s t

/-- An arrival of a TRACKING or RECOVERING stream for a slot in the window: an OUTSTANDING one is judged by its
due and cause, or converted by a pending test loss; a RECEIVED one is a duplicate or the other path's copy, a
DROPPED one is too late (R51, R52, R53, R56, R104). -/
def Obligations.ArrivalsForWindowSlots : Prop :=
  ∀ (s : State) (i : StreamIx) (d : Definition) (p : Machine.Path) (w : Slot) (a : Time),
    let x := s.stream i
    x.definition = some d → x.contextKept → x.health = .tracking ∨ x.health = .recovering →
    w ∈ x.window →
    let t := s.judgeArrival i d p w.seq a
    let placed (st : SlotState) : List Slot :=
      x.window.map fun v => if v.seq = w.seq then ⟨v.seq, st⟩ else v
    let seen (ps : Paths) : Prop := ps = .both ∨ ps = .onlyA ∧ p = .a ∨ ps = .onlyB ∧ p = .b
    let became (y : Stream) (g : Group) : Prop :=
      Stream.sameButAlarms (Stream.addGroup s.tst.totalModes y g) (t.stream i)
        ∧ t = (s.setStream i y).postGroup i g
    (∀ due cause, w.state = .outstanding due cause →
      let late : Int := (a - due).toInt
      let verdict : Field := if late ≤ d.tolerance then (if cause = .gap then .reordered else .onTime)
        else .late
      let y : Stream := { x with window := placed (x.slotTaken p), staleCount := 0, testLoss := false }
      let own := x.verdictPosts [] verdict late
      Stream.sameButAlarms
        (Stream.afterVerdict s.acp.profiles[d.profile].silentClear (y.addGroup s.tst.totalModes own))
        (t.stream i)
      ∧ t = State.countVerdict ((s.setStream i y).postGroup i own) i)
    ∧ (∀ ps, w.state = .received ps → seen ps → became x ⟨[⟨.duplicate, 1⟩], none⟩)
    ∧ (∀ ps, w.state = .received ps → ¬seen ps →
      became { x with window := placed (.received .both) } ⟨[⟨.redundant, 1⟩], none⟩)
    ∧ (w.state = .dropped → became x ⟨[⟨.tooLate, 1⟩], none⟩)
    ∧ onlyAccounts s t ∧ onlyStream i s t

/-- A pending test loss converts one verdict arrival, whichever its case (an anchor from UNANCHORED or
SILENT, in order, a jump, an awaited slot, a resync): its slot is DROPPED, its group ends in an injected
drop in place of the verdict, no lateness is posted, the flag is clear, and E, the cursor and the health are
as without the loss. Any other arrival leaves the flag set (R56, R104). -/
def Obligations.TestLossConvertsOneArrival : Prop :=
  ∀ (s : State) (i : StreamIx) (d : Definition) (p : Machine.Path) (q : Seq) (a : Time),
    let x := s.stream i
    x.definition = some d → x.contextKept → x.testLoss = true →
    let dist : Int := (q - x.expected).toInt
    let inside := -32 ≤ dist ∧ dist < 0
    let stale := dist < -32 ∨ (inside ∧ ∀ w ∈ x.window, w.seq ≠ q)
    let verdict : Prop := x.health = .unanchored ∨ x.health = .silent ∨ 0 ≤ dist
      ∨ (stale ∧ x.staleCount = 3)
      ∨ (inside ∧ ∃ w ∈ x.window, w.seq = q ∧ w.isOutstanding = true)
    let t := s.judgeArrival i d p q a
    let y := t.stream i
    let z := (State.judgeArrival (s.setStream i { x with testLoss := false }) i d p q a).stream i
    (verdict →
      y.testLoss = false ∧ y.lateness = x.lateness
        ∧ y.window = z.window.map (fun w => if w.seq = q then ⟨q, .dropped⟩ else w)
        ∧ y.expected = z.expected ∧ y.cursor = z.cursor ∧ y.staleCount = z.staleCount
        ∧ y.health = z.health ∧ y.misses = z.misses ∧ y.recovery = z.recovery
        ∧ ∃ (before : List Post) (f : Field) (l : Int), (f = .onTime ∨ f = .late ∨ f = .reordered)
          ∧ (let g := x.addGroup s.tst.totalModes ⟨before ++ [⟨f, 1⟩], some l⟩
            z.interval = g.interval ∧ z.totals = g.totals ∧ z.terminal = g.terminal
              ∧ z.lateness = g.lateness)
          ∧ (let g := x.addGroup s.tst.totalModes
              ⟨before ++ [⟨.dropped, 1⟩, ⟨.droppedInjected, 1⟩], none⟩
            y.interval = g.interval ∧ y.totals = g.totals ∧ y.terminal = g.terminal))
    ∧ (x.health ≠ .unanchored ∧ x.health ≠ .silent ∧ dist < 0 ∧ ¬(stale ∧ x.staleCount = 3)
        ∧ ¬(inside ∧ ∃ w ∈ x.window, w.seq = q ∧ w.isOutstanding = true) →
      y.testLoss = true)
    ∧ (x.health = .tracking → x.expected = q →
      Stream.sameButAlarms
        (Stream.addGroup s.tst.totalModes
          { x with
            expected := q + 1
            window := x.window.filter (fun w => w.seq != q - 32) ++ [⟨q, .dropped⟩]
            cursor := x.cursor + BitVec.ofNat 48 d.period
            staleCount := 0, misses := 0, testLoss := false }
          ⟨((x.window.filter fun w => w.seq == q - 32).flatMap fun w =>
              if w.isOutstanding then [⟨.dropped, 1⟩, ⟨.droppedForced, 1⟩] else missedPath x.paired w)
            ++ [⟨.dropped, 1⟩, ⟨.droppedInjected, 1⟩], none⟩) y)
    ∧ (x.health = .unanchored ∨ x.health = .silent →
      ∃ due : Time, anchoredOn d x.cursor a due
        ∧ Stream.sameButAlarms
          (Stream.afterVerdict s.acp.profiles[d.profile].silentClear (Stream.addGroup s.tst.totalModes
            { x with
              expected := q + 1, window := [⟨q, .dropped⟩]
              cursor := due + BitVec.ofNat 48 d.period, staleCount := 0, testLoss := false }
            ⟨[⟨.dropped, 1⟩, ⟨.droppedInjected, 1⟩], none⟩)) y)
    ∧ onlyAccounts s t ∧ onlyStream i s t

/-- The Health Tracker's count of a verdict arrival (R97, R100): misses 0, and the health moves by the
governing profile's silent_clear; a change of health has the stream evaluated (R102). -/
def Obligations.VerdictArrivalMovesHealth : Prop :=
  ∀ (s : State) (i : StreamIx) (d : Definition),
    let x := s.stream i
    x.definition = some d →
    let clear := s.acp.profiles[d.profile].silentClear
    let y := (s.countVerdict i).stream i
    y.misses = 0
      ∧ (x.health = .unanchored → y.health = .tracking ∧ y.recovery = x.recovery)
      ∧ (x.health = .tracking → y.health = .tracking ∧ y.recovery = x.recovery)
      ∧ (x.health = .silent → clear ≤ 1 → y.health = .tracking ∧ y.recovery = x.recovery)
      ∧ (x.health = .silent → 1 < clear → y.health = .recovering ∧ y.recovery = 1)
      ∧ (x.health = .recovering → clear ≤ x.recovery + 1 → y.health = .tracking ∧ y.recovery = 0)
      ∧ (x.health = .recovering → x.recovery + 1 < clear →
        y.health = .recovering ∧ y.recovery = x.recovery + 1)
      ∧ onlyAccounts s (s.countVerdict i) ∧ onlyStream i s (s.countVerdict i)
      ∧ (x.health ≠ .off →
        let z := Stream.afterVerdict clear x
        s.countVerdict i =
          if z.health = x.health then s.setStream i z else (s.setStream i z).evaluateAll i)

/-! ### Tallies -/

/-- The sixteen fields have the positions 0 to 15 of R108's table. A post of n to one field: the interval tally
saturates at 65,535, the total holds or wraps by its mode, the terminal flag is set when the sum reaches the top,
and the other fields stand. The lateness statistics take the lateness clamped to the signed 32-bit range. A group
is its posts, one after another, and its lateness if it carries one. A group that sets a terminal flag posts
TERMINAL to the three ports, any other posts no notice; a group that changed an interval tally has the stream
evaluated (R108, R110, R111, R112, R115, R116). -/
def Obligations.PostAndLatenessArithmetic : Prop :=
  let pos : Field → Fin 16
    | .onTime => 0
    | .late => 1
    | .reordered => 2
    | .dropped => 3
    | .droppedForced => 4
    | .droppedInjected => 5
    | .duplicate => 6
    | .redundant => 7
    | .stale => 8
    | .tooLate => 9
    | .seqBreak => 10
    | .pathAMiss => 11
    | .pathBMiss => 12
    | .silentSlots => 13
    | .flushed => 14
    | .discardedHere => 15
  (∀ (x : Stream) (f : Field), f.pos = pos f ∧ x.tally f = x.interval[pos f] ∧ x.total f = x.totals[pos f]
      ∧ x.flag f = x.terminal[pos f])
  ∧ (∀ (s : State) (i : StreamIx) (x : Stream), s.stream i = s.streams[i]
      ∧ s.setStream i x = { s with streams := s.streams.set i x })
  ∧
  (∀ (modes : Vector TotalMode 16) (x : Stream) (f : Field) (n : Nat),
    let y := x.addPost modes ⟨f, n⟩
    y.tally f = min (x.tally f + n) 65535
      ∧ (modes[f.pos] = .hold → y.total f = min (x.total f + n) 4294967295)
      ∧ (modes[f.pos] = .wrap → y.total f = (x.total f + n) % 2 ^ 32)
      ∧ (y.flag f = true ↔ x.flag f = true ∨ 4294967295 ≤ x.total f + n)
      ∧ (∀ g, g ≠ f → y.tally g = x.tally g ∧ y.total g = x.total g ∧ y.flag g = x.flag g)
      ∧ y = { x with interval := y.interval, totals := y.totals, terminal := y.terminal })
    ∧ (∀ (modes : Vector TotalMode 16) (x : Stream) (g : Group),
      let y := g.posts.foldl (Stream.addPost modes) x
      (g.lateness = none → x.addGroup modes g = y)
      ∧ ∀ l, g.lateness = some l →
        x.addGroup modes g = { y with lateness := some (latenessAfter x.lateness l) })
    ∧ (∀ (s : State) (i : StreamIx) (g : Group),
      let x := s.stream i
      let y := x.addGroup s.tst.totalModes g
      let t : State := s.setStream i y
      let u : State := if y.terminal ≠ x.terminal
        then { t with acp := { t.acp with summaries := ⟨s.acp.summaries.board ||| 1024#16,
          s.acp.summaries.line ||| 1024#16, s.acp.summaries.service ||| 1024#16⟩ } }
        else t
      s.takePosts i g = u
        ∧ s.postGroup i g = if y.interval = x.interval then u else u.evaluateAll i)
    ∧ ∀ (old : Option Lateness) (l v : Int),
      (v = if l < -2147483648 then -2147483648 else if 2147483647 < l then 2147483647 else l) →
      (old = none → latenessAfter old l = ⟨v, v, v⟩)
      ∧ ∀ st, old = some st → latenessAfter old l =
        ⟨if v < st.latMin then v else st.latMin, if st.latMax < v then v else st.latMax, v⟩

/-! ### The slot timer -/

/-- The expiry taken next is a due one of the earliest instant; where instants are shared, a hold expiry comes
before the slot miss, and hold expiries come in the order of the window, which ascends (R36); none is taken
when none is due (R72, R73). -/
def Obligations.EarliestExpiryIsTakenFirst : Prop :=
  ∀ (s : State) (i : StreamIx) (d : Definition),
    let x := s.stream i
    x.definition = some d → x.health ≠ .off →
    let pending := pendingExpiries d s.link.lineTime x
    (s.nextExpiry i = none ↔ ∀ e ∈ pending, e.2 ≤ 0)
    ∧ (∀ e, s.nextExpiry i = some e ↔ ∃ (k : Nat) (past : Int), pending[k]? = some (e, past) ∧ 0 < past
      ∧ (∀ f ∈ pending, f.2 ≤ past) ∧ ∀ (j : Nat) (f : Expiry × Int), j < k → pending[j]? = some f →
        f.2 < past)
    ∧ ∃ holds : List (Expiry × Int),
      pending = holds ++ [(.miss, (s.link.lineTime - x.cursor - BitVec.ofNat 48 d.tolerance).toInt)]
      ∧ (holds.map fun e => e.1) = (x.window.filter Slot.isOutstanding).map (fun w => .hold w.seq)
      ∧ ∀ e, e ∈ holds ↔ ∃ w ∈ x.window, ∃ due cause, w.state = .outstanding due cause
        ∧ e = (.hold w.seq,
          (s.link.lineTime - due - BitVec.ofNat 48 (d.tolerance + d.hold * d.period)).toInt)

/-- A step of E enters the slot passed as the newest; where it enters OUTSTANDING as a ninth, the lowest OUTSTANDING
slot becomes DROPPED, a forced drop; the slot 33 below the new E leaves with the posts of its state (R39, R40, R41).
A slot miss of a TRACKING or RECOVERING stream takes such a step with a MISS slot, moves the cursor on and counts
the miss; the miss that reaches silent_declare makes the stream SILENT with its window cleared. That of an
UNANCHORED stream moves the cursor and counts, and posts nothing (R42, R59, R60, R74, R75, R98, R99). That a miss
into SILENT posts one group is the model's (log 6). -/
def Obligations.SlotMissesByHealth : Prop :=
  (∀ w : Slot, w.isOutstanding = true ↔ ∃ due cause, w.state = .outstanding due cause)
  ∧ (∀ x : Stream, x.paired = true ↔ ∃ d, x.definition = some d ∧ d.pathB ≠ none) ∧
  (∀ (x : Stream) (st : SlotState),
    let m := stepE x st
    let forced : List Post := [⟨.dropped, 1⟩, ⟨.droppedForced, 1⟩]
    let entered : Slot := ⟨x.expected, st⟩
    let staying := x.window.filter fun v => v.seq != x.expected - 32
    let exits := (x.window.filter fun v => v.seq == x.expected - 32).flatMap fun v =>
      if v.isOutstanding then forced else missedPath x.paired v
    (∃ w, m.1 = { x with expected := x.expected + 1, window := w })
      ∧ (entered.isOutstanding = false ∨ (staying.filter Slot.isOutstanding).length < 8 →
        m.1.window = staying ++ [entered] ∧ m.2 = exits)
      ∧ (∀ lower v higher, staying = lower ++ v :: higher → (∀ u ∈ lower, u.isOutstanding = false) →
        v.isOutstanding = true → entered.isOutstanding = true →
        8 ≤ (staying.filter Slot.isOutstanding).length →
        m.1.window = lower ++ ⟨v.seq, .dropped⟩ :: higher ++ [entered] ∧ m.2 = exits ++ forced))
  ∧ ∀ (s : State) (i : StreamIx) (d : Definition), s.resetLow = false → s.engine = .running →
    s.link.state = .up → s.link.timeLoaded = true →
    let x := s.stream i
    x.definition = some d → x.taking = true → s.nextExpiry i = some .miss →
    let cleared (w : Slot) : List Post := if w.isOutstanding then [⟨.dropped, 1⟩] else missedPath x.paired w
    let m := stepE x (.outstanding x.cursor .miss)
    let counted : Stream := { m.1 with
      cursor := x.cursor + BitVec.ofNat 48 d.period
      misses := x.misses + 1
      recovery := if x.health = .recovering then 0 else x.recovery }
    let declare := s.acp.profiles[d.profile].silentDeclare
    (x.health = .tracking ∨ x.health = .recovering → ∃ t, exec (.slotMiss i) s = .next t
      ∧ (x.misses + 1 < declare →
        Stream.sameButAlarms (counted.addGroup s.tst.totalModes ⟨m.2, none⟩) (t.stream i))
      ∧ (declare ≤ x.misses + 1 → Stream.sameButAlarms
        (Stream.addGroup s.tst.totalModes
          { counted with window := [], staleCount := 0, health := .silent, recovery := 0 }
          ⟨m.2 ++ m.1.window.flatMap cleared, none⟩)
        (t.stream i)))
    ∧ (x.health = .unanchored → ∃ t, exec (.unanchoredSlotMiss i) s = .next t
      ∧ Stream.sameButAlarms
        { x with
          cursor := x.cursor + BitVec.ofNat 48 d.period
          misses := x.misses + 1
          health := if declare ≤ x.misses + 1 then .silent else .unanchored }
        (t.stream i))

/-- A catch-up moves the cursor by n = floor((T − C − τ − 1) / P) + 1 periods, the slot instants line time
has passed, to the first it has not passed. A SILENT stream posts n silent slots; while HALTED nothing is
posted (R77, R88). -/
def Obligations.CatchUpPassesEverySlot : Prop :=
  ∀ (s : State) (i : StreamIx) (d : Definition), s.resetLow = false →
    s.link.state = .up → s.link.timeLoaded = true →
    let x := s.stream i
    x.definition = some d → d.valid → x.taking = true → s.nextExpiry i = some .miss →
    let past : Int := (s.link.lineTime - x.cursor - BitVec.ofNat 48 d.tolerance).toInt
    ∃ (n : Nat) (c : Time), 1 ≤ n ∧ ((n : Int) - 1) * d.period ≤ past - 1 ∧ past - 1 < n * d.period
      ∧ c = x.cursor + BitVec.ofNat 48 (n * d.period)
      ∧ (s.link.lineTime - c - BitVec.ofNat 48 d.tolerance).toInt ≤ 0
      ∧ -(d.period : Int) < (s.link.lineTime - c - BitVec.ofNat 48 d.tolerance).toInt
      ∧ (s.engine = .running → x.health = .silent → ∃ t, exec (.silentCatchUp i) s = .next t
        ∧ Stream.sameButAlarms
          (Stream.addGroup s.tst.totalModes { x with cursor := c } ⟨[⟨.silentSlots, n⟩], none⟩)
          (t.stream i))
      ∧ (s.engine = .halted →
        exec (.haltedCatchUp i) s = .next (s.setStream i { x with cursor := c }))

/-- A hold expiry makes its OUTSTANDING slot DROPPED and posts one plain drop (R38, R61, R78). -/
def Obligations.HoldExpiryDropsItsSlot : Prop :=
  ∀ (s : State) (i : StreamIx) (q : Seq), s.resetLow = false →
    s.link.state = .up → s.link.timeLoaded = true → (s.stream i).taking = true →
    s.nextExpiry i = some (.hold q) → (s.stream i).contextKept →
    ∃ t, exec (.holdExpiry i q) s = .next t
      ∧ Stream.sameButAlarms
        (Stream.addGroup s.tst.totalModes
          { s.stream i with
            window := (s.stream i).window.map fun w => if w.seq = q then ⟨q, .dropped⟩ else w }
          ⟨[⟨.dropped, 1⟩], none⟩)
        (t.stream i)

/-- The five expiry rows leave every other stream as it was, and everything that is not an account: the link, the
table, the staging list, the ports, the profiles (R71). A row whose expiry is not the one its stream takes next has
no effect, a hold expiry while the miss is next among them (R73, log 4, log 5); nor has any of them while the link
is not UP or time is not loaded, or outside the last advance's taking of the stream (R71, R86, log 23, log 27). -/
def Obligations.ExpiryRowsReachOneStream : Prop :=
  ∀ (s : State) (i : StreamIx) (q : Seq) (c : Instr),
    c = .slotMiss i ∨ c = .unanchoredSlotMiss i ∨ c = .silentCatchUp i ∨ c = .haltedCatchUp i
      ∨ c = .holdExpiry i q →
    ∃ t, exec c s = .next t ∧ onlyAccounts s t ∧ onlyStream i s t
      ∧ (t.stream i).definition = (s.stream i).definition
      ∧ (c = .holdExpiry i q → s.nextExpiry i ≠ some (.hold q) → t = s)
      ∧ (c ≠ .holdExpiry i q → s.nextExpiry i ≠ some .miss → t = s)
      ∧ (s.link.state ≠ .up ∨ s.link.timeLoaded = false ∨ (s.stream i).taking = false → t = s)

/-- One expiry of a stream is taken whole: a hold expiry drops its slot; a miss is, by the engine and the health, a
catch-up, an UNANCHORED stream's miss or a slot miss, with the posts and the evaluations these make; where none is
due nothing is taken. The row of the expiry has this effect, within a taking while line time runs. That a miss into
SILENT posts one group is the model's (log 6). A taking takes one expiry after another (R71, R73 to R78, R88, R98,
R99), ends with none due, and changes no other stream: the standing condition of R68 at the end of every taking
(R73, R76). Before a stamp is compared and before the link is lost, the taking of each stream for which the last
advance began one is finished, with no expiry left due, the ascending order of the streams being the model's; no
other stream is touched, nor is any while line time stands frozen (R71, R85, R86, log 23, log 27). -/
def Obligations.TakingEndsWithNothingDue : Prop :=
  (∀ (s : State) (i : StreamIx), s.nextExpiry i = none → s.takeOne i = s ∧ s.takeAll i = s)
  ∧ (∀ (s : State) (i : StreamIx) (d : Definition),
    let x := s.stream i
    x.definition = some d → x.contextKept →
    let declare := s.acp.profiles[d.profile].silentDeclare
    let past : Int := (s.link.lineTime - x.cursor - BitVec.ofNat 48 d.tolerance).toInt
    let after (n : Nat) : Time := x.cursor + BitVec.ofNat 48 (n * d.period)
    let cleared (w : Slot) : List Post := if w.isOutstanding then [⟨.dropped, 1⟩] else missedPath x.paired w
    (∀ q, s.nextExpiry i = some (.hold q) → s.takeOne i = (s.setStream i { x with
      window := x.window.map fun w => if w.seq = q then ⟨q, .dropped⟩ else w }).postGroup i
        ⟨[⟨.dropped, 1⟩], none⟩)
    ∧ (s.nextExpiry i = some .miss →
      (∃ n : Nat, 1 ≤ n ∧ ((n : Int) - 1) * d.period ≤ past - 1 ∧ past - 1 < n * d.period
        ∧ (s.engine = .halted → s.takeOne i = s.setStream i { x with cursor := after n })
        ∧ (s.engine = .running → x.health = .silent → s.takeOne i =
          (s.setStream i { x with cursor := after n }).postGroup i ⟨[⟨.silentSlots, n⟩], none⟩))
      ∧ (s.engine = .running → x.health = .unanchored → s.takeOne i =
        if declare ≤ x.misses + 1 then
          (s.setStream i { x with cursor := after 1, misses := x.misses + 1, health := .silent }).evaluateAll i
        else s.setStream i { x with cursor := after 1, misses := x.misses + 1 })
      ∧ (s.engine = .running → x.health = .tracking ∨ x.health = .recovering →
        let m := stepE x (.outstanding x.cursor .miss)
        let counted : Stream := { m.1 with
          cursor := after 1
          misses := x.misses + 1
          recovery := if x.health = .recovering then 0 else x.recovery }
        s.takeOne i =
          if declare ≤ x.misses + 1 then
            ((s.setStream i { counted with
              window := [], staleCount := 0, health := .silent, recovery := 0 }).postGroup i
                ⟨m.2 ++ m.1.window.flatMap cleared, none⟩).evaluateAll i
          else (s.setStream i counted).postGroup i ⟨m.2, none⟩)))
  ∧ (∀ (s : State) (i : StreamIx) (c : Instr), s.resetLow = false →
    s.link.state = .up → s.link.timeLoaded = true → (s.stream i).taking = true →
    (∃ q, s.nextExpiry i = some (.hold q) ∧ c = .holdExpiry i q)
      ∨ s.nextExpiry i = some .miss ∧ (s.engine = .halted ∧ c = .haltedCatchUp i
        ∨ s.engine = .running ∧ ((s.stream i).health = .unanchored ∧ c = .unanchoredSlotMiss i
          ∨ (s.stream i).health = .tracking ∧ c = .slotMiss i
          ∨ (s.stream i).health = .recovering ∧ c = .slotMiss i
          ∨ (s.stream i).health = .silent ∧ c = .silentCatchUp i)) →
    exec c s = .next (s.takeOne i))
  ∧ (∀ (s : State) (i : StreamIx), countsKept s → (s.stream i).contextKept →
    (∀ e, s.nextExpiry i = some e → s.takeAll i = (s.takeOne i).takeAll i)
    ∧ (s.takeAll i).nextExpiry i = none ∧ onlyAccounts s (s.takeAll i) ∧ onlyStream i s (s.takeAll i))
  ∧ ∀ s : State,
    (s.link.state ≠ .up ∨ s.link.timeLoaded = false → s.takeRest = s)
    ∧ (s.link.state = .up → s.link.timeLoaded = true → s.takeRest =
      (List.finRange 256).foldl (fun t i =>
        if (t.stream i).health ≠ .off ∧ (t.stream i).taking = true then
          let u := t.takeAll i
          u.setStream i { u.stream i with taking := false }
        else t) s)
    ∧ onlyAccounts s s.takeRest
    ∧ (s.link.state = .up → s.link.timeLoaded = true → ∀ i,
      ((s.stream i).health = .off ∨ (s.stream i).taking = false → s.takeRest.stream i = s.stream i)
      ∧ ((s.stream i).health ≠ .off → (s.stream i).taking = true →
        (∃ u, onlyAccounts s u ∧ u.stream i = s.stream i
          ∧ s.takeRest.stream i = { (u.takeAll i).stream i with taking := false })
        ∧ (countsKept s → (s.stream i).contextKept → s.takeRest.nextExpiry i = none)
        ∧ (s.nextExpiry i = none → s.takeRest.stream i = { s.stream i with taking := false })))
    ∧ ((∀ i, (s.stream i).taking = false) → s.takeRest = s)

/-! ### Alarms -/

/-- After an evaluation of all classes, each alarm state of a defined stream is its condition under the
governing profile, those of an OFF stream are inactive, and the stream's shares count its active alarms by
their routing; the two counts follow the shares, and the lamp latch is set where a LAMP-routed alarm is then
active, never cleared (R135, R137, R148, R150). -/
def Obligations.EvaluationFollowsTheConditions : Prop :=
  ∀ (s : State) (i : StreamIx) (d : Definition),
    let x := s.stream i
    x.definition = some d →
    let p := s.acp.profiles[d.profile]
    let y := (s.evaluateAll i).stream i
    (x.health ≠ .off → y.alarmsFollow p)
    ∧ (x.health = .off → y.alarms = ⟨false, false, false, false, false⟩)
    ∧ y.sharesFollow p ∧ outputsSettled i s (s.evaluateAll i)
    ∧ x.sameButAlarms y ∧ onlyAccounts s (s.evaluateAll i) ∧ onlyStream i s (s.evaluateAll i)
    ∧ s.evaluateAll i = s.evaluate i [.drop, .late, .reorder, .path, .silent] (some p)

/-- A push joins a queue of fewer than 32 records as its newest, or is lost with the lost count raised to at
most 255 and QUEUE_LOST set in that port's summary; an alarm event pushes to the three queues and sets ALARM
in the line and service summaries, and in the board's if routed to IRQ (R140, R142). An evaluation makes the
events of its edges in class order: each class of the request whose condition differs from its state asserts
or, where the governing profile's edge mode is BOTH, makes the event of its deassertion, with line time and the
value the condition compared (R137, R139, R140). -/
def Obligations.EventsReachTheQueues : Prop :=
  let active (a : AlarmStates) : AlarmClass → Bool
    | .drop => a.drop
    | .late => a.late
    | .reorder => a.reorder
    | .path => a.path
    | .silent => a.silent
  let routeOf (p : Profile) : AlarmClass → Route
    | .drop => p.routeDrop
    | .late => p.routeLate
    | .reorder => p.routeReorder
    | .path => p.routePath
    | .silent => p.routeSilent
  (∀ (α : Type) (x : PerPort α) (v : α),
    x.get .board = x.board ∧ x.get .line = x.line ∧ x.get .service = x.service
      ∧ x.set .board v = { x with board := v } ∧ x.set .line v = { x with line := v }
      ∧ x.set .service v = { x with service := v })
    ∧ (∀ (s : State) (e : Event) (p : Port),
    let q := s.acp.queues.get p
    (q.records.length < 32 → s.pushEvent e p = { s with acp := { s.acp with
      queues := s.acp.queues.set p ⟨q.records ++ [e], q.lost⟩ } })
    ∧ (32 ≤ q.records.length → s.pushEvent e p = { s with acp := { s.acp with
      queues := s.acp.queues.set p ⟨q.records, min (q.lost + 1) 255⟩
      summaries := s.acp.summaries.set p (s.acp.summaries.get p ||| 2#16) } }))
    ∧ (∀ (s : State) (e : Event) (irq : Bool),
      let t := s.emit e irq
      let loss (p : Port) : BitVec 16 :=
        if 32 ≤ (s.acp.queues.get p).records.length then 2#16 else 0#16
      (∀ p, t.acp.queues.get p = if (s.acp.queues.get p).records.length < 32
        then ⟨(s.acp.queues.get p).records ++ [e], (s.acp.queues.get p).lost⟩
        else ⟨(s.acp.queues.get p).records, min ((s.acp.queues.get p).lost + 1) 255⟩)
      ∧ t.acp.summaries.board = s.acp.summaries.board ||| loss .board ||| (if irq then 1#16 else 0#16)
      ∧ t.acp.summaries.line = s.acp.summaries.line ||| loss .line ||| 1#16
      ∧ t.acp.summaries.service = s.acp.summaries.service ||| loss .service ||| 1#16
      ∧ t = { s with acp := { s.acp with queues := t.acp.queues, summaries := t.acp.summaries } })
    ∧ (∀ (s : State) (i : StreamIx) (classes : List AlarmClass),
      let t := s.evaluate i classes none
      t.acp.queues = s.acp.queues ∧ t.acp.summaries = s.acp.summaries)
    ∧ ∀ (s : State) (i : StreamIx) (classes : List AlarmClass) (p : Profile),
      classes = [.drop, .late, .reorder, .path, .silent] ∨ classes = [.drop, .late, .reorder, .path] →
      let x := s.stream i
      let t := s.evaluate i classes (some p)
      let value : AlarmClass → Nat
        | .drop => x.tally .dropped
        | .late => x.tally .late
        | .reorder => x.tally .reordered
        | .path => x.tally .pathAMiss + x.tally .pathBMiss
        | .silent => x.misses
      let event (c : AlarmClass) : Option Event :=
        match active x.alarms c, active (t.stream i).alarms c with
        | false, true => some ⟨i, c, .assert, s.link.lineTime, value c⟩
        | true, false => if p.edgeMode = .both then some ⟨i, c, .deassert, s.link.lineTime, value c⟩ else none
        | _, _ => none
      let made := (classes.filterMap event).foldl (fun u e => u.emit e (routeOf p e.cls).irq) s
      t.acp.queues = made.acp.queues ∧ t.acp.summaries = made.acp.summaries
        ∧ (∀ c, c ∉ classes → active (t.stream i).alarms c = active x.alarms c)

/-! ### Replies and reads -/

/-- What a port runs stands in the board port's slot and in the command state of the other two (R174). A reply is
its tag, its status code and its results (R181, R182). It goes to its port's reply side and nowhere else: into the
board slot, unless a held command displaces it and is taken, which sets reset pending if it is a RESET_DEVICE; to
the tap link's queue, unless the discard mark drops it; to the service queue or straight to an idle transmitter
(R174, R176, R179, R180, R196, log 9). -/
def Obligations.RepliesGoToTheirPort : Prop :=
  (∀ (s : State) (p : Port),
    (s.runningOf p = match p with
      | .board => (match s.board.slot with
        | .pending r => some r
        | _ => none)
      | .line => (match s.linePort.cmd with
        | .running r => some r
        | _ => none)
      | .service => (match s.service.cmd with
        | .running r => some r
        | _ => none))
    ∧ (∀ tag c, s.started p = some (tag, c) ↔ s.runningOf p = some ⟨tag, .start c⟩)
    ∧ ∀ r, s.setRunning p r = match p with
      | .board => { s with board := { s.board with slot := .pending r } }
      | .line => { s with linePort := { s.linePort with cmd := .running r } }
      | .service => { s with service := { s.service with cmd := .running r } })
  ∧ ∀ (s : State) (tag : Byte) (st : Status) (bytes : List Byte),
    let code : Byte := match st with
      | .ok => 0x00
      | .denied => 0x01
      | .badCommand => 0x02
      | .badArgument => 0x03
      | .badDefinition => 0x04
      | .busy => 0x05
      | .stageHeld => 0x06
      | .stageFull => 0x07
      | .armed => 0x08
      | .notArmed => 0x09
      | .empty => 0x0A
      | .alarmActive => 0x0B
      | .notHalted => 0x0C
      | .emptySlot => 0x0D
    let body : List Byte := tag :: code :: bytes
    (s.board.held = none → s.reply .board tag st bytes =
      { s with board := { s.board with slot := .ready body false } })
    ∧ (∀ c, s.board.held = some c → s.reply .board tag st bytes =
      { s with resetPending := s.resetPending || takesReset s.plan .board c, board := { s.board with
        held := none
        slot := match parseBody s.plan .board c with
          | .command tag c => .pending ⟨tag, .start c⟩
          | .refusal r => .ready r false } })
    ∧ (s.linePort.discardMark = false → s.reply .line tag st bytes = { s with
        linePort := { s.linePort with cmd := .replying }
        link := { s.link with txQueue := s.link.txQueue ++ [⟨body, .command⟩] } })
    ∧ (s.linePort.discardMark = true → s.reply .line tag st bytes = { s with linePort := ⟨.idle, false⟩ })
    ∧ (s.service.sending ≠ none → s.reply .service tag st bytes = { s with service := { s.service with
        cmd := .replying, txQueue := s.service.txQueue ++ [⟨body, .command⟩] } })
    ∧ (s.service.sending = none → s.service.txQueue = [] → s.reply .service tag st bytes =
      { s with service := { s.service with cmd := .replying, sending := some ⟨body, .command⟩ } })
    ∧ ∀ p, onlyPort p s (s.reply p tag st bytes)

/-- GET_STATUS replies OK with its 32 bytes (R187), in the codes of R183. A value of n bytes goes out most
significant byte first (R183). -/
def Obligations.GetStatusResults : Prop :=
  (∀ n v : Nat, (bytesBE n v).length = n
    ∧ ∀ j, j < n → (bytesBE n v)[j]? = some (BitVec.ofNat 8 (v / 256 ^ (n - 1 - j))))
  ∧ ∀ (s : State) (p : Port) (tag : Byte), s.runs p tag .getStatus →
    let flag (b : Bool) : Byte := if b then 1 else 0
    let bytes : List Byte :=
      [(match s.engine with
        | .running => 0
        | .halted => 1 : Byte), flag s.scheduleValid,
        (match s.link.state with
        | .down => 0
        | .aligning => 1
        | .up => 2 : Byte), flag s.link.timeLoaded]
        ++ bytesBE 6 s.link.lineTime.toNat ++ bytesBE 4 s.tst.intervalNumber.toNat
        ++ [if s.tst.sweep = none then (0 : Byte) else 1,
          (match s.staging.state with
            | .empty => 0
            | .opened => 1
            | .armed => 2 : Byte),
          (match s.staging.holder with
            | some .board => 0
            | some .line => 1
            | some .service => 2
            | none => 0xFF : Byte),
          (match s.staging.source with
            | some .command => 0
            | some .atTime => 1
            | some .strobe => 2
            | none => 0xFF : Byte)]
        ++ bytesBE 6 (match s.staging.armTime with
          | some a => a.toNat
          | none => 0)
        ++ (match s.tst.reportMode with
          | .auto sec => 0 :: bytesBE 2 sec
          | .manual => [1, 0, 0])
        ++ [flag s.acp.lampLatch, if 0 < s.acp.lineCount then 1 else 0, BitVec.ofNat 8 s.plan.val]
        ++ bytesBE 2 (s.acp.summaries.get p).toNat
    exec (.getStatus p) s = .next (s.reply p tag .ok bytes) ∧ bytes.length = 32

/-- The other reads of one item reply as their rules give and change nothing (R147, R163, R188 to R191,
R194), with a definition, a profile and a staged entry laid out by R184 and R163 in the codes of R183. With
the statement on replies, each changes only its port's reply side. A latched copy goes out field by field;
that its absent items are zeros of their full length is the model's reading (log 15). -/
def Obligations.ReadCommandsReply : Prop :=
  let healthCode : Health → Byte
    | .off => 0
    | .unanchored => 1
    | .tracking => 2
    | .silent => 3
    | .recovering => 4
  let routing (r : Route) : Byte := BitVec.ofNat 8 (r.lamp.toNat + 2 * r.irq.toNat + 4 * r.lineFlag.toNat)
  (∀ d : Definition, d.bytes = bytesBE 4 d.key.toNat ++ bytesBE 4 d.mask.toNat
      ++ [BitVec.ofNat 8 d.pathA.val, (match d.pathB with
        | some b => BitVec.ofNat 8 b.val
        | none => 0xFF : Byte)]
      ++ bytesBE 4 d.period ++ bytesBE 4 d.phase ++ bytesBE 4 d.tolerance
      ++ [BitVec.ofNat 8 d.hold, BitVec.ofNat 8 d.jump, BitVec.ofNat 8 d.profile.val,
        if d.keepTallies then 1 else 0]
      ++ (match d.label with
        | some l => BitVec.ofNat 8 l.length :: l
        | none => [0]))
  ∧ (∀ p : Profile, p.bytes = bytesBE 2 p.dropThreshold ++ bytesBE 2 p.lateThreshold
      ++ bytesBE 2 p.reorderThreshold ++ bytesBE 2 p.pathThreshold
      ++ [BitVec.ofNat 8 p.silentDeclare, BitVec.ofNat 8 p.silentClear,
        (match p.edgeMode with
        | .assertOnly => 0
        | .both => 1 : Byte),
        routing p.routeDrop, routing p.routeLate, routing p.routeReorder, routing p.routePath,
        routing p.routeSilent])
  ∧ (∀ e : StageEntry, e.bytes = match e with
      | .define i d => 0 :: bytesBE 2 i.val ++ d.bytes
      | .remove i => 1 :: bytesBE 2 i.val)
  ∧ (∀ c : StreamCopy, c.bytes = bytesBE 2 c.stream.val
      ++ [healthCode c.health]
      ++ bytesBE 2 c.expected.toNat ++ [BitVec.ofNat 8 c.outstanding]
      ++ [BitVec.ofNat 8 (c.alarms.drop.toNat + 2 * c.alarms.late.toNat + 4 * c.alarms.reorder.toNat
        + 8 * c.alarms.path.toNat + 16 * c.alarms.silent.toNat), c.clearGen]
      ++ bytesBE 2 (∑ f : Fin 16, c.terminal[f].toNat * 2 ^ f.val)
      ++ c.totals.toList.flatMap (bytesBE 4) ++ c.interval.toList.flatMap (bytesBE 2)
      ++ (match c.lateness with
        | some l => 1 :: [l.latMin, l.latMax, l.latLast].flatMap fun v => bytesBE 4 (BitVec.ofInt 32 v).toNat
        | none => 0 :: List.replicate 12 0)
      ++ (match c.lastInterval with
        | some r => 1 :: bytesBE 4 r.intervalNumber.toNat ++ bytesBE 6 r.closeTime.toNat
            ++ r.values.toList.flatMap (bytesBE 2)
            ++ (match r.lat with
              | some v => 1 :: (bytesBE 4 (BitVec.ofInt 32 v.1).toNat ++ bytesBE 4 (BitVec.ofInt 32 v.2).toNat)
              | none => 0 :: List.replicate 8 0)
            ++ [healthCode r.health]
        | none => 0 :: List.replicate 52 0)
      ++ (match c.definition with
        | some d => 1 :: d.bytes
        | none => [0]))
  ∧ ∀ (s : State) (p : Port) (tag : Byte),
    (∀ n, s.runs p tag (.getStream n) → exec (.getStream p) s = .next
      (if h : n < 256 then
        let x := s.stream ⟨n, h⟩
        s.reply p tag .ok (bytesBE 2 n ++ [healthCode x.health] ++ bytesBE 2 x.expected.toNat
          ++ bytesBE 1 (x.window.filter Slot.isOutstanding).length ++ bytesBE 1 x.misses
          ++ bytesBE 1 x.recovery ++ [if x.testLoss then 1 else 0]
          ++ (match x.definition with
            | some d => 1 :: d.bytes
            | none => [0]))
      else s.reply p tag .badArgument []))
    ∧ (∀ n, s.runs p tag (.getPortTallies n) → exec (.getPortTallies p) s = .next
      (if h : n < 24 then
        let t := s.portTallies[n]
        s.reply p tag .ok (BitVec.ofNat 8 n :: [t.forwarded, t.discarded, t.corrupt, t.unclassified,
          t.unscheduled, t.ignored].flatMap fun v => bytesBE 4 v.toNat)
      else s.reply p tag .badArgument []))
    ∧ (s.runs p tag .getLink → exec (.getLink p) s = .next
      (s.reply p tag .ok ([(match s.link.state with
        | .down => 0
        | .aligning => 1
        | .up => 2 : Byte), if s.link.timeLoaded then 1 else 0]
        ++ bytesBE 6 s.link.lineTime.toNat
        ++ [s.link.goodRecords, s.link.badCheck, s.link.malformed, s.link.behind, s.link.timeSteps,
          s.link.linkDowns].flatMap fun v => bytesBE 4 v.toNat)))
    ∧ (∀ n, s.runs p tag (.getProfile n) → exec (.getProfile p) s = .next
      (if h : n < 8 then s.reply p tag .ok (BitVec.ofNat 8 n :: s.acp.profiles[n].bytes)
      else s.reply p tag .badArgument []))
    ∧ (∀ first, s.runs p tag (.stageRead first) → exec (.stageRead p) s = .next
      (if 31 < first then s.reply p tag .badArgument []
      else s.reply p tag .ok ([(match s.staging.state with
            | .empty => 0
            | .opened => 1
            | .armed => 2 : Byte),
          (match s.staging.holder with
            | some .board => 0
            | some .line => 1
            | some .service => 2
            | none => 0xFF : Byte),
          (match s.staging.source with
            | some .command => 0
            | some .atTime => 1
            | some .strobe => 2
            | none => 0xFF : Byte)]
        ++ bytesBE 6 (match s.staging.armTime with
          | some a => a.toNat
          | none => 0)
        ++ [BitVec.ofNat 8 s.staging.entries.length]
        ++ ((s.staging.entries.drop first).take 4).flatMap StageEntry.bytes)))
    ∧ (∀ slot, s.runs p tag (.getLatched slot) → exec (.getLatched p) s = .next
      (match (s.banks.get p)[slot]? with
        | none => s.reply p tag .emptySlot []
        | some c => s.reply p tag .ok c.bytes))
    ∧ (s.runs p tag .getNotices → exec (.getNotices p) s = .next
      (s.reply p tag .ok (bytesBE 2 (s.acp.summaries.get p).toNat
        ++ [BitVec.ofNat 8 (s.acp.queues.get p).records.length,
          BitVec.ofNat 8 (s.acp.queues.get p).lost]
        ++ bytesBE 2 s.acp.boardEnable.toNat)))

/-- LATCH replaces the caller's bank by copies of streams first..last, last clamped to 255 and to 32 streams,
and leaves the other banks; a refused one leaves all (R192, R193). -/
def Obligations.LatchCopiesTheRange : Prop :=
  ∀ (s : State) (p : Port) (tag : Byte) (first last : Nat), s.runs p tag (.latch first last) →
    let top := min last (min 255 (first + 31))
    (255 < first ∨ top < first →
      exec (.latch p) s = .next (s.reply p tag .badArgument []))
    ∧ (first ≤ 255 → first ≤ top → ∃ bank : List StreamCopy,
      exec (.latch p) s = .next (State.reply { s with banks := s.banks.set p bank } p tag .ok
        (bytesBE 2 first ++ bytesBE 2 top ++ [BitVec.ofNat 8 (top - first + 1)]))
      ∧ bank.length = top - first + 1
      ∧ ∀ (k : Nat) (h : first + k < 256), first + k ≤ top →
        let x := s.stream ⟨first + k, h⟩
        bank[k]? = some
          { stream := ⟨first + k, h⟩, definition := x.definition, health := x.health
            expected := x.expected, outstanding := (x.window.filter Slot.isOutstanding).length
            alarms := x.alarms, clearGen := x.clearGen, totals := x.totals, terminal := x.terminal
            interval := x.interval, lateness := x.lateness, lastInterval := x.lastInterval })

/-- POP_EVENTS takes the oldest 1 to 8 records of the caller's queue, sends each in 13 bytes and sets the queue's
lost count to 0 (R143, R184); CLEAR_NOTICES and SET_NOTICE_ENABLE change the caller's summary and the board's
enable, and refuse a mask with any of bits 12..15 (R146, R152). BOARD_IRQ_N is driven low while a notice is set both
in the board's summary and in its enable (R151). The twelve notices have the bits of R144; a post sets the notice in
the three summaries and changes nothing else (R145). -/
def Obligations.EventAndNoticeCommands : Prop :=
  (let bit : Notice → Nat
    | .alarm => 0
    | .queueLost => 1
    | .interval => 2
    | .applied => 3
    | .triggerEmpty => 4
    | .strobeUnused => 5
    | .abandoned => 6
    | .linkDown => 7
    | .linkUp => 8
    | .timeStep => 9
    | .terminal => 10
    | .engine => 11
  ∀ n : Notice, (∀ w : BitVec 16, noticeSet w n = w.getLsbD (bit n))
    ∧ ∀ s : State, s.post n = { s with acp := { s.acp with summaries :=
      ⟨s.acp.summaries.board ||| 1#16 <<< bit n, s.acp.summaries.line ||| 1#16 <<< bit n,
        s.acp.summaries.service ||| 1#16 <<< bit n⟩ } })
  ∧
  (∀ e : Event, e.bytes = bytesBE 2 e.stream.val
      ++ [(match e.cls with
        | .drop => 0
        | .late => 1
        | .reorder => 2
        | .path => 3
        | .silent => 4 : Byte),
        (match e.edge with
        | .assert => 0
        | .deassert => 1 : Byte)]
      ++ bytesBE 6 e.lineTime.toNat ++ bytesBE 3 e.value)
  ∧ (∀ s : State, s.boardIrqAsserted = true ↔ ∃ b : Nat, b < 16
    ∧ s.acp.summaries.board.getLsbD b = true ∧ s.acp.boardEnable.getLsbD b = true)
  ∧ ∀ (s : State) (p : Port) (tag : Byte),
    (∀ n, s.runs p tag (.popEvents n) →
      let q := s.acp.queues.get p
      let k := min (if n = 0 then 1 else if 8 < n then 8 else n) q.records.length
      exec (.popEvents p) s = .next (State.reply { s with acp := { s.acp with
            queues := s.acp.queues.set p ⟨q.records.drop k, 0⟩ } } p tag .ok
          ([BitVec.ofNat 8 k, BitVec.ofNat 8 (q.records.length - k), BitVec.ofNat 8 q.lost]
            ++ (q.records.take k).flatMap Event.bytes)))
    ∧ (∀ mask, s.runs p tag (.clearNotices mask) →
      (mask &&& 0xF000#16 ≠ 0 → exec (.clearNotices p) s = .next (s.reply p tag .badArgument []))
      ∧ (mask &&& 0xF000#16 = 0 →
        let after := s.acp.summaries.get p &&& ~~~mask
        exec (.clearNotices p) s = .next (State.reply { s with acp := { s.acp with
          summaries := s.acp.summaries.set p after } } p tag .ok (bytesBE 2 after.toNat))))
    ∧ ∀ mask, s.runs p tag (.setNoticeEnable mask) →
      (p ≠ .board → exec (.setNoticeEnable p) s = .next (s.reply p tag .badCommand []))
      ∧ (p = .board → mask &&& 0xF000#16 ≠ 0 →
        exec (.setNoticeEnable p) s = .next (s.reply p tag .badArgument []))
      ∧ (p = .board → mask &&& 0xF000#16 = 0 →
        exec (.setNoticeEnable p) s = .next (State.reply { s with acp := { s.acp with
          boardEnable := mask } } p tag .ok (bytesBE 2 s.acp.boardEnable.toNat)))

/-! ### Control commands -/

/-- ACK_LAMP clears the latch when no active alarm is routed to LAMP, and is refused with their number
otherwise; INJECT sets the flag of a stream that is not OFF (R103, R149). -/
def Obligations.AckLampAndInject : Prop :=
  ∀ (s : State) (p : Port) (tag : Byte),
    (s.runs p tag .ackLamp →
      (s.acp.lampCount = 0 → exec (.ackLamp p) s = .next
        (State.reply { s with acp := { s.acp with lampLatch := false } } p tag .ok
          [if s.acp.lampLatch then 1 else 0]))
      ∧ (s.acp.lampCount ≠ 0 → exec (.ackLamp p) s = .next
        (s.reply p tag .alarmActive (bytesBE 2 s.acp.lampCount))))
    ∧ ∀ n, s.runs p tag (.inject n) →
      (255 < n → exec (.inject p) s = .next (s.reply p tag .badArgument []))
      ∧ ∀ i : StreamIx, i.val = n →
        ((s.stream i).health = .off → exec (.inject p) s = .next (s.reply p tag .badArgument []))
        ∧ ((s.stream i).health ≠ .off → exec (.inject p) s = .next
          ((s.setStream i { s.stream i with testLoss := true }).reply p tag .ok
            [if (s.stream i).testLoss then 1 else 0]))

/-- An interval is closed by a close request when no sweep is under way: by CLOSE_INTERVAL, or by the interval
timer, whose running out takes the rest of its period (log 3). SET_REPORT_MODE sets the mode and restarts or
stops the timer (R118 to R121). -/
def Obligations.IntervalsBegin : Prop :=
  ∀ s : State,
    let begun (u : State) : State := { u with tst := { u.tst with
      intervalNumber := u.tst.intervalNumber + 1
      intervalTimer := if u.tst.reportMode = .manual then u.tst.intervalTimer else some 0
      sweep := some 0 } }
    (∀ (p : Port) (tag : Byte), s.runs p tag .closeInterval →
      (s.tst.sweep ≠ none → exec (.closeInterval p) s = .next (s.reply p tag .busy []))
      ∧ (s.tst.sweep = none → exec (.closeInterval p) s = .next
        ((begun s).reply p tag .ok (bytesBE 4 (s.tst.intervalNumber + 1).toNat))))
    ∧ (∀ k sec, s.resetLow = false → s.tst.reportMode = .auto sec → s.tst.intervalTimer = some k →
      s.tst.sweep = none →
      exec .intervalTimerExpiry s = .next (begun (s.elapse (sec * 25000000 - k))))
    ∧ ∀ (p : Port) (tag : Byte) (mode period : Nat), s.runs p tag (.setReportMode mode period) →
      let was : List Byte := match s.tst.reportMode with
        | .auto sec => 0 :: bytesBE 2 sec
        | .manual => [1, 0, 0]
      (mode = 0 → 1 ≤ period → period ≤ 3600 → exec (.setReportMode p) s = .next
        (State.reply { s with tst := { s.tst with reportMode := .auto period, intervalTimer := some 0 } }
          p tag .ok was))
      ∧ (mode = 1 → exec (.setReportMode p) s = .next
        (State.reply { s with tst := { s.tst with reportMode := .manual, intervalTimer := none } }
          p tag .ok was))
      ∧ (1 < mode ∨ mode = 0 ∧ (period = 0 ∨ 3600 < period) →
        exec (.setReportMode p) s = .next (s.reply p tag .badArgument []))

/-- The visit of a stream writes its last-interval record, empties its interval tallies and lateness
statistics, and moves the sweep on, or ends it with INTERVAL posted after stream 255; totals, health and
window stand. Its four threshold alarms are then inactive, its tallies being 0, and its shares and the counts
follow (R122, R123, R125, R148, R150). -/
def Obligations.SweepVisitClosesOneStream : Prop :=
  ∀ (s : State) (i : StreamIx), s.resetLow = false → s.tst.sweep = some i →
    let x := s.stream i
    let closed : Stream := { x with
      lastInterval := some
        { intervalNumber := s.tst.intervalNumber, closeTime := s.link.lineTime
          values := x.interval
          lat := match x.lateness with
            | some l => some (l.latMin, l.latMax)
            | none => none
          health := x.health }
      interval := Vector.replicate 16 0
      lateness := none }
    let evaluated := (s.setStream i closed).evaluate i [.drop, .late, .reorder, .path]
      (x.definition.map fun d => s.acp.profiles[d.profile])
    ∃ t, exec .sweepVisit s = .next t
      ∧ closed.sameButAlarms (t.stream i)
      ∧ (i.val < 255 → t = { evaluated with tst := { s.tst with sweep := some (i + 1) } })
      ∧ (i.val = 255 → t = State.post { evaluated with tst := { s.tst with sweep := none } } .interval)
      ∧ (t.stream i).alarms = ⟨false, false, false, false, x.alarms.silent⟩
      ∧ (∀ d, x.definition = some d → (t.stream i).sharesFollow s.acp.profiles[d.profile])
      ∧ outputsSettled i s t
      ∧ onlyStream i s t ∧ onlyAccounts { s with tst := t.tst } t
      ∧ (i.val < 255 → t.tst = { s.tst with sweep := some (i + 1) })
      ∧ (i.val = 255 → t.tst = { s.tst with sweep := none } ∧ postedToAll .interval s t)

/-- CLEAR_TOTALS clears its range stream by stream, each clear raising the clear generation, and replies
after the last; SET_TOTAL_MODE sets the modes of the fields named, while HALTED (R113, R114, R126). -/
def Obligations.TotalsCommands : Prop :=
  ∀ (s : State) (p : Port) (tag : Byte),
    (∀ first last, s.runs p tag (.clearTotals first last) →
      (255 < first ∨ last < first →
        exec (.clearTotals p) s = .next (s.reply p tag .badArgument []))
      ∧ ∀ i j : StreamIx, i.val = first → j.val = min last 255 → first ≤ last →
        exec (.clearTotals p) s = .next (s.setRunning p ⟨tag, .clearing i i j⟩))
    ∧ (∀ first next last : StreamIx, s.resetLow = false →
      s.runningOf p = some ⟨tag, .clearing first next last⟩ →
      let cleared := s.setStream next { s.stream next with
        totals := Vector.replicate 16 0, terminal := Vector.replicate 16 false
        clearGen := (s.stream next).clearGen + 1 }
      (next < last → ∃ after : StreamIx, after.val = next.val + 1
        ∧ exec (.clearTotalsStreamStep p) s =
          .next (cleared.setRunning p ⟨tag, .clearing first after last⟩))
      ∧ (last ≤ next → exec (.clearTotalsStreamStep p) s =
        .next (cleared.reply p tag .ok (bytesBE 2 first.val ++ bytesBE 2 last.val))))
    ∧ ∀ mode positions, s.runs p tag (.setTotalMode mode positions) →
      (s.engine = .running → exec (.setTotalMode p) s = .next (s.reply p tag .notHalted []))
      ∧ (s.engine = .halted → 1 < mode ∨ (∃ k ∈ positions, 15 < k) →
        exec (.setTotalMode p) s = .next (s.reply p tag .badArgument []))
      ∧ (s.engine = .halted → mode ≤ 1 → (∀ k ∈ positions, k ≤ 15) →
        ∃ modes : Vector TotalMode 16,
          exec (.setTotalMode p) s = .next (State.reply { s with tst := { s.tst with
              totalModes := modes } } p tag .ok
            (modes.toList.map fun m => match m with
              | .hold => 0
              | .wrap => 1))
          ∧ ∀ f : Fin 16, modes[f] = if f.val ∈ positions then (if mode = 0 then .hold else .wrap)
            else s.tst.totalModes[f])

/-- HALT and RUN post ENGINE and reply with the state they found; a HALT taken while RUNNING restarts every stream
that is not OFF, the others change no stream (R64, R65, R195). The streams are restarted in ascending index: a flush
and its posts, then the change to UNANCHORED (R43, R64, R95), which is evaluated where it changes the health (R102).
That the flush and the change to UNANCHORED have each an evaluation of their own is the model's (log 25). -/
def Obligations.HaltAndRun : Prop :=
  ∀ (s : State) (p : Port) (tag : Byte),
    let before : Byte := match s.engine with
      | .running => 0
      | .halted => 1
    (s.flushAll = (List.finRange 256).foldl (fun t i =>
      let x := t.stream i
      let v := (t.setStream i { x with window := [], staleCount := 0 }).postGroup i
        ⟨flushedPosts (x.window.filter Slot.isOutstanding).length, none⟩
      let w := v.setStream i { v.stream i with health := .unanchored, misses := 0, recovery := 0 }
      if x.health = .off then t else if x.health = .unanchored then w else w.evaluateAll i) s)
    ∧ (s.runs p tag .halt → ∃ t, exec (.halt p) s = .next (t.reply p tag .ok [before])
      ∧ t = State.post (if s.engine = .running then State.flushAll { s with engine := .halted } else s)
        .engine
      ∧ t.engine = .halted ∧ onlyAccounts { s with engine := .halted } t ∧ postedToAll .engine s t
      ∧ ∀ i, (s.engine = .halted ∨ (s.stream i).health = .off → t.stream i = s.stream i)
        ∧ (s.engine = .running → (s.stream i).health ≠ .off →
          ((s.stream i).restarted s.tst.totalModes).sameButAlarms (t.stream i)))
    ∧ (s.runs p tag .run → exec (.run p) s = .next
      (State.reply (State.post { s with engine := .running } .engine) p tag .ok [before]))

/-- SET_PROFILE refuses an index above 7, a zero count and an unknown edge mode; otherwise it replaces the
profile whole and replies with the old record once every stream that names the profile has been re-evaluated,
each by a step of its own (R133, R134, log 20). -/
def Obligations.SetProfileReplacesThenReevaluates : Prop :=
  ∀ (s : State) (p : Port) (tag : Byte),
    let names (k : ProfileIx) (i : StreamIx) : Prop := (s.stream i).health ≠ .off
      ∧ ∃ d, (s.stream i).definition = some d ∧ d.profile = k
    (∀ n arg, s.runs p tag (.setProfile n arg) →
      (7 < n ∨ arg.silentDeclare = 0 ∨ arg.silentClear = 0 ∨ 1 < arg.edgeMode →
        exec (.setProfile p) s = .next (s.reply p tag .badArgument []))
      ∧ ∀ k : ProfileIx, k.val = n → arg.silentDeclare ≠ 0 → arg.silentClear ≠ 0 → arg.edgeMode ≤ 1 →
        let u : State := { s with acp := { s.acp with
          profiles := s.acp.profiles.set k arg.toProfile } }
        ((∃ i, names k i) →
          exec (.setProfile p) s = .next (u.setRunning p ⟨tag, .reevaluating k 0 s.acp.profiles[k]⟩))
        ∧ ((∀ i, ¬names k i) →
          exec (.setProfile p) s = .next (u.reply p tag .ok s.acp.profiles[k].bytes)))
    ∧ ∀ k low before, s.resetLow = false →
      s.runningOf p = some ⟨tag, .reevaluating k low before⟩ →
      ∀ i : StreamIx, low ≤ i.val → names k i →
        (∀ j : StreamIx, low ≤ j.val → j < i → ¬names k j) →
        let u := s.evaluateAll i
        ((∃ j : StreamIx, i < j ∧ names k j) →
          exec (.profileReevaluation p) s =
            .next (u.setRunning p ⟨tag, .reevaluating k (i.val + 1) before⟩))
        ∧ ((∀ j : StreamIx, i < j → ¬names k j) →
          exec (.profileReevaluation p) s = .next (u.reply p tag .ok before.bytes))

/-- The taking of a RESET_DEVICE, from a frame, a QUERY or the held command, sets reset pending and discards
a held board command; its own row replies OK. While a reset is pending a complete SPI command frame, a QUERY
and a complete service frame change no command state (R174, R176, R196). Under a discard mark the reset is
made at once. An idle service transmitter begins the oldest waiting frame (log 9). -/
def Obligations.ResetDeviceWaits : Prop :=
  (∀ (s : State) (tag : Byte) (body : List Byte), s.resetLow = false → s.resetPending = false →
    let waits (p : Port) (t : State) : Prop :=
      t.resetPending = true ∧ t.board.held = none ∧ t.runs p tag .resetDevice
    (∀ frame late, spiFrame frame = .command body → (∀ r, s.board.slot ≠ .pending r) →
      parseBody s.plan .board body = .command tag .resetDevice →
      ∃ t, exec (.boardCommandFrame frame late) s = .next t ∧ waits .board t)
    ∧ (s.board.held = some body → parseBody s.plan .board body = .command tag .resetDevice →
      ∀ old st bytes, waits .board (s.reply .board old st bytes))
    ∧ (1 ≤ body.length → body.length ≤ 250 → s.link.state = .up → s.linePort.cmd = .idle →
      parseBody s.plan .line body = .command tag .resetDevice →
      ∃ t, exec (.queryRecord body) s = .next t ∧ waits .line t)
    ∧ (s.service.cmd = .idle → parseBody s.plan .service body = .command tag .resetDevice →
      waits .service (s.serviceBody body)))
  ∧ (∀ (s : State) (tag : Byte), s.runs .board tag .resetDevice →
    exec (.resetDevice .board) s = .next { s with
      resetPending := true
      board := { s.board with held := none, slot := .ready [tag, 0x00] true, fetchWait := some 0 } })
    ∧ (∀ (s : State) (tag : Byte), s.runs .line tag .resetDevice → s.linePort.discardMark = false →
      exec (.resetDevice .line) s = .next { s with
        resetPending := true
        board := { s.board with held := none }
        linePort := { s.linePort with cmd := .replying }
        link := { s.link with txQueue := s.link.txQueue ++ [⟨[tag, 0x00], .reset⟩] } })
    ∧ (∀ (s : State) (tag : Byte), s.runs .line tag .resetDevice → s.linePort.discardMark = true →
      ∃ t, exec (.resetDevice .line) s = .next t ∧ s.deviceResetTo t)
    ∧ (∀ (s : State) (tag : Byte), s.runs .service tag .resetDevice → s.service.sending ≠ none →
      exec (.resetDevice .service) s = .next { s with
        resetPending := true
        board := { s.board with held := none }
        service := { s.service with
          cmd := .replying, txQueue := s.service.txQueue ++ [⟨[tag, 0x00], .reset⟩] } })
    ∧ (∀ (s : State) (tag : Byte), s.runs .service tag .resetDevice → s.service.sending = none →
      let queue := s.service.txQueue ++ [⟨[tag, 0x00], .reset⟩]
      exec (.resetDevice .service) s = .next { s with
        resetPending := true
        board := { s.board with held := none }
        service := { s.service with cmd := .replying, sending := queue.head?, txQueue := queue.tail } })
    ∧ ∀ s : State, s.resetLow = false → s.resetPending = true →
      (∀ frame late body, spiFrame frame = .command body →
        ∃ sdo, exec (.boardCommandFrame frame late) s =
          .next { s with board := { s.board with lastSdo := sdo } })
      ∧ (∀ body, 1 ≤ body.length → body.length ≤ 250 → s.link.state = .up →
        exec (.queryRecord body) s = exec .syncRecord s)
      ∧ ∀ c n rest gap, s.service.rx = .partialFrame (0xA5 :: n :: rest) gap →
        rest.length + 1 = n.toNat + 2 →
        exec (.serviceCharacter c false) s = .next { s with service := { s.service with rx := .hunting } }

/-! ### Staging -/

/-- STAGE_DEFINE and STAGE_REMOVE: their checks in order, and an accepted entry joining the list or taking
the place of the entry for its index (R155, R156, R157, R167). The field a BAD_DEFINITION names is the first, in
the order of R22's table, that fails its check there. That a BAD_DEFINITION reply sends the field's
number in one byte is the model's choice (log 28). `touched` has the timer restarted. -/
def Obligations.StageDefineAndRemove : Prop :=
  (∀ (i : StreamIx) (d : Definition), (StageEntry.define i d).index = i ∧ (StageEntry.remove i).index = i)
  ∧
  (∀ d : DefinitionArg,
    let fails : Nat → Prop
      | 3 => 23 < d.pathA
      | 4 => ∃ b, d.pathB = some b ∧ (23 < b ∨ b = d.pathA)
      | 5 => d.period < 1250 ∨ 125000000 < d.period
      | 6 => (d.period : Int) - 1 < d.phase
      | 7 => (d.period : Int) - 1 < d.tolerance
      | 8 => d.hold = 0 ∨ 16 < d.hold
      | 9 => d.jump = 0 ∨ 32 < d.jump
      | 10 => 7 < d.profile
      | 11 => d.keepTallies ≠ 0 ∧ d.keepTallies ≠ 1
      | 12 => 16 < d.label.length ∨ ∃ c ∈ d.label, c.toNat < 0x20 ∨ 0x7E < c.toNat
      | _ => False
    (d.firstBad = none ↔ ∀ f, ¬fails f)
      ∧ ∀ f, d.firstBad = some f ↔ fails f ∧ ∀ g, g < f → ¬fails g)
  ∧ ∀ (s : State) (p : Port) (tag : Byte) (c : Instr) (n : Nat) (bad : Option Nat)
    (entry : StreamIx → StageEntry),
    (c = .stageRemove p ∧ s.runs p tag (.stageRemove n) ∧ bad = none ∧ entry = StageEntry.remove)
      ∨ (∃ d, c = .stageDefine p ∧ s.runs p tag (.stageDefine n d) ∧ bad = d.firstBad
        ∧ entry = fun i => StageEntry.define i d.toDefinition) →
    let touched : State := if s.staging.state = .opened
      then { s with staging := { s.staging with timer := some 0 } } else s
    (s.staging.state = .armed → exec c s = .next (s.reply p tag .armed []))
    ∧ (s.staging.state = .opened → s.staging.holder ≠ some p →
      exec c s = .next (s.reply p tag .stageHeld []))
    ∧ (s.staging.state = .empty ∨ s.staging.state = .opened ∧ s.staging.holder = some p →
      (255 < n → exec c s = .next (touched.reply p tag .badArgument []))
      ∧ (∀ f, n ≤ 255 → bad = some f →
        exec c s = .next (touched.reply p tag .badDefinition [BitVec.ofNat 8 f]))
      ∧ ∀ i : StreamIx, i.val = n → bad = none →
        let size := s.staging.entries.length
        let placed (entries : List StageEntry) : State := { s with staging := { s.staging with
          state := .opened, entries := entries, holder := some p, timer := some 0 } }
        ((∀ e ∈ s.staging.entries, e.index ≠ i) → 32 ≤ size →
          exec c s = .next (touched.reply p tag .stageFull []))
        ∧ ((∀ e ∈ s.staging.entries, e.index ≠ i) → size < 32 →
          exec c s = .next ((placed (s.staging.entries ++ [entry i])).reply p tag .ok
            [BitVec.ofNat 8 size, BitVec.ofNat 8 (size + 1), 0]))
        ∧ ∀ (k : Nat) (e : StageEntry), s.staging.entries[k]? = some e → e.index = i →
          (s.staging.entries.map StageEntry.index).Nodup →
          exec c s = .next ((placed (s.staging.entries.set k (entry i))).reply p tag .ok
            [BitVec.ofNat 8 k, BitVec.ofNat 8 size, 1]))

/-- STAGE_DROP takes one entry off the list and STAGE_DISCARD all, from the holder alone; a list then empty
has no holder (R158, R159). -/
def Obligations.StageDropAndDiscard : Prop :=
  ∀ (s : State) (p : Port) (tag : Byte),
    let touched : State := { s with staging := { s.staging with timer := some 0 } }
    let emptied : Staging := { s.staging with
      state := .empty, entries := [], holder := none, source := none, armTime := none, timer := none }
    let kind : StageEntry → Byte
      | .define _ _ => 0
      | .remove _ => 1
    (∀ n, s.runs p tag (.stageDrop n) →
      (s.staging.state = .empty → exec (.stageDrop p) s = .next (s.reply p tag .empty []))
      ∧ (s.staging.state ≠ .empty → s.staging.holder ≠ some p →
        exec (.stageDrop p) s = .next (s.reply p tag .stageHeld []))
      ∧ (s.staging.state = .armed → s.staging.holder = some p →
        exec (.stageDrop p) s = .next (s.reply p tag .armed []))
      ∧ (s.staging.state = .opened → s.staging.holder = some p →
        ((∀ e ∈ s.staging.entries, e.index.val ≠ n) →
          exec (.stageDrop p) s = .next (touched.reply p tag .badArgument []))
        ∧ ∀ (k : Nat) (e : StageEntry), s.staging.entries[k]? = some e → e.index.val = n →
          (s.staging.entries.map StageEntry.index).Nodup →
          let rest := s.staging.entries.eraseIdx k
          (rest ≠ [] → exec (.stageDrop p) s = .next
            (State.reply { s with staging := { s.staging with entries := rest, timer := some 0 } }
              p tag .ok [kind e, BitVec.ofNat 8 rest.length]))
          ∧ (rest = [] → exec (.stageDrop p) s = .next
            (State.reply { s with staging := emptied } p tag .ok [kind e, 0]))))
    ∧ (s.runs p tag .stageDiscard →
      (s.staging.state = .empty → exec (.stageDiscard p) s = .next (s.reply p tag .empty []))
      ∧ (s.staging.state ≠ .empty → s.staging.holder ≠ some p →
        exec (.stageDiscard p) s = .next (s.reply p tag .stageHeld []))
      ∧ (s.staging.state ≠ .empty → s.staging.holder = some p →
        exec (.stageDiscard p) s = .next (State.reply { s with staging := emptied } p tag .ok
          [BitVec.ofNat 8 s.staging.entries.length])))

/-- STAGE_ARM takes an OPEN list to ARMED with its trigger, and STAGE_DISARM back, from the holder alone
(R160, R161, R167). -/
def Obligations.StageArmAndDisarm : Prop :=
  ∀ (s : State) (p : Port) (tag : Byte) (c : Instr),
    (∃ code time, c = .stageArm p ∧ s.runs p tag (.stageArm code time))
      ∨ c = .stageDisarm p ∧ s.runs p tag .stageDisarm →
    let number : TriggerSource → Nat
      | .command => 0
      | .atTime => 1
      | .strobe => 2
    let touched : State := { s with staging := { s.staging with timer := some 0 } }
    (s.staging.state = .empty → exec c s = .next (s.reply p tag .empty []))
    ∧ (s.staging.state ≠ .empty → s.staging.holder ≠ some p →
      exec c s = .next (s.reply p tag .stageHeld []))
    ∧ (s.staging.holder = some p → ∀ code time, s.runs p tag (.stageArm code time) → c = .stageArm p →
      (s.staging.state = .armed → exec c s = .next (s.reply p tag .armed []))
      ∧ (s.staging.state = .opened → 2 < code →
        exec c s = .next (touched.reply p tag .badArgument []))
      ∧ ∀ source : TriggerSource, number source = code → s.staging.state = .opened →
        exec c s = .next (State.reply { s with staging := { s.staging with
            state := .armed, source := some source
            armTime := if source = .atTime then some time else none, timer := none } } p tag .ok
          ([BitVec.ofNat 8 (number source)] ++ bytesBE 6 (if source = .atTime then time.toNat else 0)
            ++ bytesBE 6 s.link.lineTime.toNat)))
    ∧ (s.staging.holder = some p → c = .stageDisarm p →
      (s.staging.state = .opened → exec c s = .next (touched.reply p tag .notArmed []))
      ∧ ∀ source, s.staging.state = .armed → s.staging.source = some source →
        exec c s = .next (State.reply { s with staging := { s.staging with
            state := .opened, source := none, armTime := none, timer := some 0 } } p tag .ok
          (BitVec.ofNat 8 (number source) :: bytesBE 6 (match s.staging.armTime with
            | some a => a.toNat
            | none => 0))))

/-- A list is applied at an instant whole: the steps of its entries in list order, then the schedule is VALID, the
list EMPTY and APPLIED posted (R164, R166, R169, R172). APPLY applies a list armed with COMMAND for its holder, at
line time; the reply has the instant and the number of entries. Otherwise it is refused, with TRIGGER_EMPTY posted
while the list is EMPTY (R162). -/
def Obligations.ApplyTakesTheArmedList : Prop :=
  (∀ (s : State) (t : Time),
    let u := s.staging.entries.foldl (State.applyEntry t) s
    onlyAccounts s u ∧ s.applyList t = { u with
      scheduleValid := true
      acp := { u.acp with summaries := ⟨u.acp.summaries.board ||| 8#16, u.acp.summaries.line ||| 8#16,
        u.acp.summaries.service ||| 8#16⟩ }
      staging := { s.staging with
        state := .empty, entries := [], holder := none, source := none, armTime := none
        timer := none } })
  ∧ ∀ (s : State) (p : Port) (tag : Byte), s.runs p tag .apply →
    (s.staging.state = .empty →
      exec (.apply p) s = .next ((s.post .triggerEmpty).reply p tag .empty []))
    ∧ (s.staging.state = .opened → exec (.apply p) s = .next (State.reply
      (if s.staging.holder = some p then { s with staging := { s.staging with timer := some 0 } } else s)
      p tag .notArmed []))
    ∧ (s.staging.state = .armed → s.staging.source ≠ some .command →
      exec (.apply p) s = .next (s.reply p tag .notArmed []))
    ∧ (s.staging.state = .armed → s.staging.source = some .command → s.staging.holder ≠ some p →
      exec (.apply p) s = .next (s.reply p tag .stageHeld []))
    ∧ (s.staging.state = .armed → s.staging.source = some .command → s.staging.holder = some p →
      exec (.apply p) s = .next ((s.applyList s.link.lineTime).reply p tag .ok
        (bytesBE 6 s.link.lineTime.toNat ++ [BitVec.ofNat 8 s.staging.entries.length])))

/-- The step of an entry: a DEFINE installs its definition, flushes the stream, makes it UNANCHORED with the
cursor at T + φ, clears its record unless keep_tallies, and evaluates it under its new profile; a REMOVE
makes a defined stream OFF, flushed, its alarms inactive, and does nothing for an empty entry (R43, R136,
R148, R150, R170, R171). Each alarm active at the REMOVE deasserts in class order, its event made and routed
by the profile the removed definition named (R138). -/
def Obligations.ApplyEntrySteps : Prop :=
  ∀ (s : State) (i : StreamIx) (t : Time),
    let x := s.stream i
    let flushed := x.addGroup s.tst.totalModes
      ⟨flushedPosts (x.window.filter Slot.isOutstanding).length, none⟩
    let posted (y : Stream) : State := (s.setStream i { y with window := [], staleCount := 0 }).takePosts i
      ⟨flushedPosts (x.window.filter Slot.isOutstanding).length, none⟩
    (∀ d, let u := s.applyEntry t (.define i d)
      let grid : Stream := { flushed with
        definition := some d, window := [], staleCount := 0, health := .unanchored, misses := 0
        recovery := 0, testLoss := false, cursor := t + BitVec.ofNat 48 d.phase }
      let new : Stream := if d.keepTallies then grid else { grid with
        totals := Vector.replicate 16 0, terminal := Vector.replicate 16 false
        interval := Vector.replicate 16 0, lateness := none, lastInterval := none
        clearGen := x.clearGen + 1 }
      new.sameButAlarms (u.stream i)
        ∧ u = ((posted { x with definition := some d }).setStream i new).evaluateAll i
        ∧ (u.stream i).alarmsFollow s.acp.profiles[d.profile]
        ∧ (u.stream i).sharesFollow s.acp.profiles[d.profile] ∧ outputsSettled i s u
        ∧ onlyAccounts s u ∧ onlyStream i s u)
    ∧ (x.definition = none → s.applyEntry t (.remove i) = s)
    ∧ (x.definition ≠ none → let u := s.applyEntry t (.remove i)
      Stream.sameButAlarms
          { flushed with
            definition := none, window := [], staleCount := 0, taking := false, health := .off, misses := 0
            recovery := 0, testLoss := false }
          (u.stream i)
        ∧ (u.stream i).alarms = ⟨false, false, false, false, false⟩
        ∧ (u.stream i).lampShare = 0 ∧ (u.stream i).lineShare = 0 ∧ outputsSettled i s u
        ∧ onlyAccounts s u ∧ onlyStream i s u)
    ∧ ∀ d, x.definition = some d → let u := s.applyEntry t (.remove i)
      let p := s.acp.profiles[d.profile]
      let off : Stream := { x with
        definition := none, taking := false, health := .off, misses := 0, recovery := 0, testLoss := false }
      let active : AlarmClass → Bool
        | .drop => x.alarms.drop
        | .late => x.alarms.late
        | .reorder => x.alarms.reorder
        | .path => x.alarms.path
        | .silent => x.alarms.silent
      let routeOf : AlarmClass → Route
        | .drop => p.routeDrop
        | .late => p.routeLate
        | .reorder => p.routeReorder
        | .path => p.routePath
        | .silent => p.routeSilent
      let value : AlarmClass → Nat
        | .drop => x.tally .dropped
        | .late => x.tally .late
        | .reorder => x.tally .reordered
        | .path => x.tally .pathAMiss + x.tally .pathBMiss
        | .silent => 0
      let events : List Event := if p.edgeMode = .both
        then ([.drop, .late, .reorder, .path, .silent].filter active).map
          fun c => ⟨i, c, .deassert, s.link.lineTime, value c⟩
        else []
      let made := events.foldl (fun v e => v.emit e (routeOf e.cls).irq) s
      u = (posted off).evaluate i [.drop, .late, .reorder, .path, .silent] (some p)
        ∧ u.acp.queues = made.acp.queues
        ∧ ∀ port n, noticeSet (made.acp.summaries.get port) n = true →
          noticeSet (u.acp.summaries.get port) n = true

/-- The CHANGEOVER filter and its edge, and the abandonment of an OPEN list. The rest of each timer's run
passes in its row (log 3) (R165, R166, R167). -/
def Obligations.StrobeAndAbandonment : Prop :=
  ∀ s : State, s.resetLow = false →
    (∀ level, level ≠ s.changeoverPin → exec (.changeoverPinChange level) s = .next { s with
      changeoverPin := level, staging := { s.staging with held := 0 } })
    ∧ (s.changeoverPin ≠ s.staging.accepted →
      let u := s.elapse (25 - s.staging.held)
      let v : State := { u with staging := { u.staging with accepted := s.changeoverPin, held := 0 } }
      (s.changeoverPin = false → exec .changeoverFilterExpiry s = .next v)
      ∧ (s.changeoverPin = true → s.staging.state = .armed → s.staging.source = some .strobe →
        exec .changeoverFilterExpiry s = .next (v.applyList s.link.lineTime))
      ∧ (s.changeoverPin = true → s.staging.state = .empty →
        exec .changeoverFilterExpiry s = .next (v.post .triggerEmpty))
      ∧ (s.changeoverPin = true → s.staging.state = .opened
          ∨ s.staging.state = .armed ∧ s.staging.source ≠ some .strobe →
        exec .changeoverFilterExpiry s = .next (v.post .strobeUnused)))
    ∧ ∀ k, s.staging.timer = some k →
      let u := s.elapse (1500000000 - k)
      let v : State := { u with staging := { u.staging with
        state := .empty, entries := [], holder := none, source := none, armTime := none
        timer := none } }
      exec .abandonmentTimerExpiry s = .next (v.post .abandoned)

/-! ### Transports and bodies -/

/-- SPI frames: a complete COMMAND frame is taken, a RESET_DEVICE setting reset pending, or held while a command
runs; a FETCH frame returns the slot and empties it when the reply was read whole; any other frame changes nothing
but what it returned (R175, R176, R177, R196). That a frame is one row, with the slot's code in byte 0 by the
operand late, is the model's choice (log 12), and so is lastSdo, what SPI_SDO returned last (log 13). -/
def Obligations.SpiFrames : Prop :=
  (∀ frame : List Byte,
    (∀ body, spiFrame frame = .command body ↔ ∃ n rest, frame = 0x01 :: n :: rest
      ∧ 1 ≤ n.toNat ∧ n.toNat ≤ 250 ∧ n.toNat ≤ rest.length ∧ body = rest.take n.toNat)
    ∧ (spiFrame frame = .fetch ↔ frame.head? = some 0x02))
  ∧ ∀ (s : State) (late : Bool), s.resetLow = false →
    let returned (n : Nat) (bytes : List Byte) : List Byte := (bytes ++ List.replicate n 0x00).take n
    let atFall : Byte := match s.board.slot with
      | .none => 0x40
      | .pending _ => 0x0E
      | .ready _ _ => if late then 0x0E else 0x80
    (∀ n rest, 1 ≤ n.toNat → n.toNat ≤ 250 → n.toNat ≤ rest.length → s.resetPending = false →
      let frame : List Byte := 0x01 :: n :: rest
      let sdo := returned frame.length [atFall]
      ((∀ r, s.board.slot ≠ .pending r) → exec (.boardCommandFrame frame late) s = .next { s with
        resetPending := takesReset s.plan .board (rest.take n.toNat)
        board := { s.board with
          lastSdo := sdo
          held := if takesReset s.plan .board (rest.take n.toNat) then none else s.board.held
          slot := match parseBody s.plan .board (rest.take n.toNat) with
            | .command tag c => .pending ⟨tag, .start c⟩
            | .refusal r => .ready r false } })
      ∧ ((∃ r, s.board.slot = .pending r) → exec (.boardCommandFrame frame late) s = .next { s with
        board := { s.board with lastSdo := sdo, held := some (rest.take n.toNat) } }))
    ∧ (∀ rest : List Byte,
      let frame : List Byte := 0x02 :: rest
      ((∀ body r, s.board.slot ≠ .ready body r) → exec (.boardFetchFrame frame late) s = .next { s with
        board := { s.board with lastSdo := returned frame.length [atFall, atFall] } })
      ∧ ∀ body, s.board.slot = .ready body false →
        let sdo := returned frame.length (atFall :: 0x80 :: BitVec.ofNat 8 body.length :: body)
        (frame.length < body.length + 3 → exec (.boardFetchFrame frame late) s = .next { s with
          board := { s.board with lastSdo := sdo } })
        ∧ (body.length + 3 ≤ frame.length → exec (.boardFetchFrame frame late) s = .next { s with
          board := { s.board with lastSdo := sdo, slot := .none, fetchWait := none } }))
    ∧ ∀ frame : List Byte, frame.head? ≠ some 0x02 →
      (∀ n rest, frame = 0x01 :: n :: rest → n.toNat = 0 ∨ 250 < n.toNat ∨ rest.length < n.toNat) →
      exec (.boardFrameDiscarded frame late) s = .next { s with
        board := { s.board with lastSdo := returned frame.length [atFall] } }

/-- The service receiver: what each character, a break and 10 ms of silence do, and what ends a frame sent
(R178, R179, log 3, log 9). -/
def Obligations.ServiceRows : Prop :=
  ∀ s : State, s.resetLow = false →
    let received (rx : ServiceRx) : State := { s with service := { s.service with rx := rx } }
    (s.service.rx = .hunting → ∀ c error,
      exec (.serviceCharacter c error) s = .next
        (if c = 0xA5 ∧ error = false then received (.partialFrame [0xA5] 0) else s))
    ∧ (∀ bytes gap, s.service.rx = .partialFrame bytes gap →
      (∀ c, exec (.serviceCharacter c true) s = .next (received .hunting))
      ∧ exec .serviceCharacterTimeout s = .next ((let u := s.elapse (250000 - gap)
        { u with service := { u.service with rx := .hunting } }))
      ∧ (∀ c, bytes.length = 1 → exec (.serviceCharacter c false) s = .next
        (received (if 1 ≤ c.toNat ∧ c.toNat ≤ 250 then .partialFrame (bytes ++ [c]) 0 else .hunting)))
      ∧ ∀ c n rest, bytes = 0xA5 :: n :: rest →
        (rest.length + 1 < n.toNat + 2 → exec (.serviceCharacter c false) s = .next
          (received (.partialFrame (bytes ++ [c]) 0)))
        ∧ (rest.length + 1 = n.toNat + 2 →
          (checkGood (bytes ++ [c]) = false →
            exec (.serviceCharacter c false) s = .next (received .hunting))
          ∧ (checkGood (bytes ++ [c]) = true →
            exec (.serviceCharacter c false) s = .next
              (State.serviceBody (received .hunting) (rest.take n.toNat)))))
    ∧ exec .serviceBreak s = .next (received .hunting)
    ∧ ∀ body origin, s.service.sending = some ⟨body, origin⟩ → origin ≠ .reset →
      exec .serviceReplySent s = .next { s with service := { s.service with
        lastFrame := withCheck (0xA5 :: BitVec.ofNat 8 body.length :: body)
        cmd := if origin = .command then .idle else s.service.cmd
        sending := s.service.txQueue.head?
        txQueue := s.service.txQueue.tail } }

/-- A body that reaches the line or the service port is taken by an IDLE port, a RESET_DEVICE setting reset
pending and a refusal at the parse being the port's reply, and answered BUSY otherwise, in three places; an
idle service transmitter begins the oldest waiting frame (log 9); the tap link transmitter goes on with the
oldest waiting reply while the link is UP, and with an IDLE record otherwise (R18, R19, R179, R180, R181,
R196, log 13, log 16). -/
def Obligations.BodiesTakenAndRepliesSent : Prop :=
  ∀ s : State, s.resetLow = false →
    let busy (body : List Byte) : TxReply :=
      ⟨[(match body with
        | _ :: tag :: _ => tag
        | _ => 0x00), 0x05], .busy⟩
    let joined (q : List TxReply) (body : List Byte) : List TxReply :=
      if (q.filter fun r => r.origin == .busy).length < 3 then q ++ [busy body] else q
    (∀ body, 1 ≤ body.length → body.length ≤ 250 → s.link.state = .up → s.resetPending = false →
      let good : Link := { s.link with
        badCount := 0, watchdog := some 0, rxBytes := [], goodRecords := s.link.goodRecords + 1 }
      (s.linePort.cmd = .idle → ∀ tag c, parseBody s.plan .line body = .command tag c →
        exec (.queryRecord body) s = .next { s with
          resetPending := c == .resetDevice
          board := { s.board with held := if c = .resetDevice then none else s.board.held }
          link := good, linePort := { s.linePort with cmd := .running ⟨tag, .start c⟩ } })
      ∧ (s.linePort.cmd = .idle → s.linePort.discardMark = false → ∀ r,
        parseBody s.plan .line body = .refusal r → exec (.queryRecord body) s = .next { s with
          link := { good with txQueue := s.link.txQueue ++ [⟨r, .command⟩] }
          linePort := { s.linePort with cmd := .replying } })
      ∧ (s.linePort.cmd ≠ .idle → exec (.queryRecord body) s = .next { s with
          link := { good with txQueue := joined s.link.txQueue body } }))
    ∧ (∀ body, s.resetPending = false → s.service.cmd = .idle → ∀ tag c,
      parseBody s.plan .service body = .command tag c →
      s.serviceBody body = { s with
        resetPending := c == .resetDevice
        board := { s.board with held := if c = .resetDevice then none else s.board.held }
        service := { s.service with cmd := .running ⟨tag, .start c⟩ } })
    ∧ (∀ body, s.resetPending = false → s.service.cmd ≠ .idle → s.service.sending ≠ none →
      s.serviceBody body =
        { s with service := { s.service with txQueue := joined s.service.txQueue body } })
    ∧ (∀ body, s.resetPending = false → s.service.cmd ≠ .idle → s.service.sending = none →
      let queue := joined s.service.txQueue body
      s.serviceBody body =
        { s with service := { s.service with sending := queue.head?, txQueue := queue.tail } })
    ∧ (∀ body r, s.resetPending = false → s.service.cmd = .idle →
      parseBody s.plan .service body = .refusal r →
      let queue := s.service.txQueue ++ [⟨r, .command⟩]
      (s.service.sending ≠ none → s.serviceBody body =
        { s with service := { s.service with cmd := .replying, txQueue := queue } })
      ∧ (s.service.sending = none → s.serviceBody body =
        { s with service := { s.service with
          cmd := .replying, sending := queue.head?, txQueue := queue.tail } }))
    ∧ let next : Link := match s.link.state, s.link.txQueue with
        | .up, r :: rest => { s.link with sending := .reply r, txQueue := rest }
        | _, _ => { s.link with sending := .idle }
      (s.link.sending = .idle → exec .idleRecordSent s = .next { s with
        lastTapRecord := withCheck [0x0F], link := next })
      ∧ ∀ body origin, s.link.sending = .reply ⟨body, origin⟩ → origin ≠ .reset →
        exec .replyRecordSent s = .next { s with
          lastTapRecord := withCheck (0xA9 :: BitVec.ofNat 8 body.length :: body)
          link := next
          linePort := { s.linePort with
            cmd := if origin = .command then .idle else s.linePort.cmd } }

/-- The checks of a body, in order: one byte, an unknown number, a permission the plan lacks, a wrong length;
the permissions of the plans and of the catalogue's numbers; and, number by number, the command, the length of
its arguments and their layout, most significant byte first (R181, R183, R184, R185, R186). -/
def Obligations.ParseChecksInOrder : Prop :=
  let two (a b : Byte) : Nat := a.toNat * 256 + b.toNat
  let four (a b c d : Byte) : Nat := two a b * 65536 + two c d
  let route (b : Byte) : Route := { lamp := b.getLsbD 0, irq := b.getLsbD 1, lineFlag := b.getLsbD 2 }
  (∀ plan p b, parseBody plan p [b] = .refusal [0x00, 0x02])
    ∧ (∀ plan p number tag args, permissionOf number.toNat = none →
      parseBody plan p (number :: tag :: args) = .refusal [tag, 0x02])
    ∧ (∀ plan p number tag args r, permissionOf number.toNat = some r → allowed plan p r = false →
      parseBody plan p (number :: tag :: args) = .refusal [tag, 0x01])
    ∧ (∀ plan p number tag args r, permissionOf number.toNat = some r → allowed plan p r = true →
      parseBody plan p (number :: tag :: args) = match parseArguments number.toNat args with
        | some c => .command tag c
        | none => .refusal [tag, 0x02])
    ∧ (∀ r, allowed 0 .board r = true ∧ allowed 0 .line r = true
      ∧ (allowed 0 .service r = true ↔ r ≠ .schedule ∧ r ≠ .control)
      ∧ allowed 1 .board r = true ∧ (allowed 1 .line r = true ↔ r = .read ∨ r = .ack)
      ∧ (allowed 1 .service r = true ↔ r = .read ∨ r = .ack) ∧ (∀ p, allowed 2 p r = true)
      ∧ (allowed 3 .board r = true ↔ r ≠ .test ∧ r ≠ .schedule) ∧ allowed 3 .line r = true
      ∧ (allowed 3 .service r = true ↔ r = .read))
    ∧ (∀ n, permissionOf n =
      if n ∈ [1, 2, 3, 4, 5, 6, 7, 8, 9, 10, 11, 12] then some .read
      else if n = 16 then some .ack
      else if n = 24 then some .test
      else if n ∈ [32, 33, 34] then some .report
      else if n ∈ [48, 49, 50, 51, 52, 53, 54, 55] then some .schedule
      else if n ∈ [64, 65, 66, 79] then some .control
      else none)
    ∧ (∀ n, permissionOf n = none → ∀ args, parseArguments n args = none)
    ∧ (∀ n c, (n, c) ∈ [(0x01, Command.getStatus), (0x04, .getLink), (0x0A, .getNotices), (0x10, .ackLamp),
        (0x20, .closeInterval), (0x33, .stageDiscard), (0x35, .stageDisarm), (0x36, .apply), (0x40, .halt),
        (0x41, .run), (0x4F, .resetDevice)] →
      parseArguments n [] = some c ∧ ∀ args, args.length ≠ 0 → parseArguments n args = none)
    ∧ (∀ n c, (n, c) ∈ [(0x03, Command.getPortTallies), (0x05, .getProfile), (0x06, .stageRead),
        (0x08, .getLatched), (0x09, .popEvents)] →
      (∀ a, parseArguments n [a] = some (c a.toNat))
        ∧ ∀ args, args.length ≠ 1 → parseArguments n args = none)
    ∧ (∀ n c, (n, c) ∈ [(0x02, Command.getStream), (0x18, .inject), (0x31, .stageRemove),
        (0x32, .stageDrop)] →
      (∀ a b, parseArguments n [a, b] = some (c (two a b)))
        ∧ ∀ args, args.length ≠ 2 → parseArguments n args = none)
    ∧ (∀ n c, (n, c) ∈ [(0x0B, Command.clearNotices), (0x0C, .setNoticeEnable)] →
      (∀ a b, parseArguments n [a, b] = some (c (BitVec.ofNat 16 (two a b))))
        ∧ ∀ args, args.length ≠ 2 → parseArguments n args = none)
    ∧ (∀ n c, (n, c) ∈ [(0x07, Command.latch), (0x22, .clearTotals)] →
      (∀ f1 f0 l1 l0, parseArguments n [f1, f0, l1, l0] = some (c (two f1 f0) (two l1 l0)))
        ∧ ∀ args, args.length ≠ 4 → parseArguments n args = none)
    ∧ ((∀ mode a b, parseArguments 0x21 [mode, a, b] = some (.setReportMode mode.toNat (two a b)))
      ∧ ∀ args, args.length ≠ 3 → parseArguments 0x21 args = none)
    ∧ ((∀ source a b c d e f, parseArguments 0x34 [source, a, b, c, d, e, f] =
          some (.stageArm source.toNat (BitVec.ofNat 48 (two a b * 4294967296 + four c d e f))))
      ∧ ∀ args, args.length ≠ 7 → parseArguments 0x34 args = none)
    ∧ ((∀ mode positions, positions.length ≤ 32 → parseArguments 0x42 (mode :: positions) =
          some (.setTotalMode mode.toNat (positions.map fun b => b.toNat)))
      ∧ ∀ args, args.length = 0 ∨ 33 < args.length → parseArguments 0x42 args = none)
    ∧ ((∀ i1 i0 k3 k2 k1 k0 m3 m2 m1 m0 pathA pathB p3 p2 p1 p0 f3 f2 f1 f0 t3 t2 t1 t0
          hold jump profile keep size label,
        parseArguments 0x30 (i1 :: i0 :: k3 :: k2 :: k1 :: k0 :: m3 :: m2 :: m1 :: m0 :: pathA :: pathB
          :: p3 :: p2 :: p1 :: p0 :: f3 :: f2 :: f1 :: f0 :: t3 :: t2 :: t1 :: t0 :: hold :: jump :: profile
          :: keep :: size :: label) =
        if label.length = size.toNat then some (.stageDefine (two i1 i0)
          { key := BitVec.ofNat 32 (four k3 k2 k1 k0)
            mask := BitVec.ofNat 32 (four m3 m2 m1 m0)
            pathA := pathA.toNat
            pathB := if pathB = 0xFF then none else some pathB.toNat
            period := four p3 p2 p1 p0
            phase := four f3 f2 f1 f0
            tolerance := four t3 t2 t1 t0
            hold := hold.toNat
            jump := jump.toNat
            profile := profile.toNat
            keepTallies := keep.toNat
            label := label })
        else none)
      ∧ ∀ args, args.length < 29 → parseArguments 0x30 args = none)
    ∧ (∀ i d1 d0 l1 l0 r1 r0 p1 p0 declare clear mode drop late reorder path silent,
        parseArguments 0x37 [i, d1, d0, l1, l0, r1, r0, p1, p0, declare, clear, mode, drop, late, reorder,
          path, silent] = some (.setProfile i.toNat
          { dropThreshold := two d1 d0
            lateThreshold := two l1 l0
            reorderThreshold := two r1 r0
            pathThreshold := two p1 p0
            silentDeclare := declare
            silentClear := clear
            edgeMode := mode.toNat
            routeDrop := route drop
            routeLate := route late
            routeReorder := route reorder
            routePath := route path
            routeSilent := route silent }))
    ∧ ∀ args, args.length ≠ 17 → parseArguments 0x37 args = none

/-! ### Encodings -/

/-- A staged definition is read back as it was written: the STAGE_DEFINE body that carries a valid definition
parses to an argument that passes R22 and stands for that definition; and a profile's 16 bytes parse to an
argument that R133 accepts and that stands for that profile (R132, R181, R184). -/
def Obligations.DefinitionAndProfileBodiesReadBack : Prop :=
  (∀ c : Byte, labelChar c = true ↔ 0x20 ≤ c.toNat ∧ c.toNat ≤ 0x7E)
    ∧ (∀ (i : StreamIx) (d : Definition), d.valid → ∃ arg,
    parseArguments 0x30 (bytesBE 2 i.val ++ d.bytes) = some (.stageDefine i.val arg)
      ∧ arg.firstBad = none ∧ arg.toDefinition = d)
    ∧ ∀ (k : ProfileIx) (p : Profile), p.valid → p.dropThreshold < 65536 → p.lateThreshold < 65536 →
      p.reorderThreshold < 65536 → p.pathThreshold < 65536 → ∃ arg,
      parseArguments 0x37 (bytesBE 1 k.val ++ p.bytes) = some (.setProfile k.val arg)
        ∧ arg.bad = false ∧ arg.toProfile = p

/-- The check of a record is the CRC-16 of its bytes, bit by bit, and is sent high byte first; a record is
its kind byte, its content and its check (R1, R2, R4). The bytes of a record the fabric sends, received one
after another in UP, are the row of that record with its fields as sent; and a SYNC record received in DOWN
ends the hunt (R1 to R4, R6, R9). The byte reader that turns bytes into rows is the model's own (log 18). -/
def Obligations.RecordBytesAreTheirRow : Prop :=
  (∀ bytes : List Byte,
    let bits : List Bool := bytes.flatMap fun b => [7, 6, 5, 4, 3, 2, 1, 0].map b.getLsbD
    let crc : BitVec 16 := bits.foldl (fun r b => (r <<< 1) ^^^ (if r.msb = b then 0 else 0x1021)) 0xFFFF
    let high : Byte := BitVec.ofNat 8 (crc.toNat / 256)
    let low : Byte := BitVec.ofNat 8 crc.toNat
    withCheck bytes = bytes ++ [high, low]
      ∧ ∀ c1 c0, checkGood (bytes ++ [c1, c0]) = true ↔ c1 = high ∧ c0 = low)
  ∧ (syncBytes = withCheck [0x3C] ∧ (∀ a, tickBytes a = withCheck (0x72 :: bytesBE 6 a.toNat))
    ∧ (∀ body, queryBytes body = withCheck (0x9A :: BitVec.ofNat 8 body.length :: body))
    ∧ ∀ d, descBytes d = withCheck (0xD1 :: BitVec.ofNat 8 ((match d.disposition with
        | .forwarded => 0
        | .discarded => 1
        | .corrupt => 2) * 32 + d.ingressPort.val)
      :: bytesBE 4 d.flowKey.toNat ++ bytesBE 2 d.seq.toNat ++ bytesBE 6 d.stamp.toNat))
  ∧ ∀ s : State, s.resetLow = false → s.link.rxBytes = [] →
    (s.link.state = .up → s.tapBytes syncBytes = exec .syncRecord s)
    ∧ (s.link.state = .up → ∀ a, s.tapBytes (tickBytes a) = exec (.tickRecord a []) s)
    ∧ (s.link.state = .up → ∀ d, s.tapBytes (descBytes d) = exec (.descRecord d []) s)
    ∧ (s.link.state = .up → ∀ body, 1 ≤ body.length → body.length ≤ 250 →
      s.tapBytes (queryBytes body) = exec (.queryRecord body) s)
    ∧ (s.link.state = .down → s.tapBytes syncBytes = exec .syncDetected s)

/-! ### Invariants -/

/-- Every step keeps the table, the health and the window of every stream together (R22, R24, R35, R36, R41,
R107), where the staging list holds valid definitions; and with them the SILENT alarm of every stream active
exactly while its health reads SILENT or RECOVERING (R102, R135, R136). -/
def Obligations.StepKeepsContexts : Prop :=
  ∀ s t : State, s.staging.kept → contextsKept s → step s = .next t →
    contextsKept t ∧ (silentsKept s → silentsKept t)

/-- Every step keeps every tally record in its bounds (R109, R111, R112, R115). -/
def Obligations.StepKeepsTallies : Prop :=
  ∀ s t : State, talliesKept s → step s = .next t → talliesKept t

/-- Every step keeps the Staging Unit in its bounds (R153, R154, R165, R167). -/
def Obligations.StepKeepsStaging : Prop :=
  ∀ s t : State, s.staging.kept → step s = .next t → t.staging.kept

/-- Every step keeps the counts of the LAMP and LINE_FLAG alarms the sums of the streams' shares, with the
lamp lit while one is active (R148, R150). -/
def Obligations.StepKeepsOutputs : Prop :=
  ∀ s t : State, outputsKept s → step s = .next t → outputsKept t

/-- Every step keeps the event queues, notices, profiles, counts and transmit queues in their bounds (R19,
R91, R132, R142, R144, R176, R179, R192). -/
def Obligations.StepKeepsBounds : Prop :=
  ∀ s t : State, noticesKept s → countsKept s → portsKept s → step s = .next t →
    noticesKept t ∧ countsKept t ∧ portsKept t

/-- The state after reset is within every bound that steps keep. The bounds have the values of their rules (R19,
R36, R41, R54, R111, R112, R142, R144, R154, R165, R167, R192). -/
def Obligations.ResetStateIsKept : Prop :=
  (windowSpan = 32 ∧ outstandingCap = 8 ∧ staleLimit = 3 ∧ intervalTop = 65535 ∧ totalTop = 4294967295
    ∧ stagePlaces = 32 ∧ abandonmentLimit = 1500000000 ∧ filterLimit = 25 ∧ queuePlaces = 32 ∧ lostTop = 255
    ∧ reservedNotices = 0xF000#16 ∧ busyPlaces = 3 ∧ bankPlaces = 32
    ∧ (∀ q, busyWaiting q = (q.filter fun r => r.origin == .busy).length)
    ∧ ∀ w, outstandingCount w = (w.filter Slot.isOutstanding).length)
    ∧ contextsKept State.reset ∧ silentsKept State.reset ∧ talliesKept State.reset ∧ State.reset.staging.kept
    ∧ outputsKept State.reset ∧ noticesKept State.reset ∧ countsKept State.reset ∧ portsKept State.reset
end

