-- ==== Sys2Proof/Laws/State.lean ====
section
/-! SUPPORT. The stream table read and written: one lemma per field and update. -/

namespace Sys2Proof.Machine

@[simp] theorem State.stream_setStream_same (s : State) (i : StreamIx) (x : Stream) :
    (s.setStream i x).stream i = x := by
  simp [State.setStream, State.stream]

theorem State.stream_setStream_ne (s : State) {i j : StreamIx} (x : Stream) (h : j ≠ i) :
    (s.setStream i x).stream j = s.stream j := by
  have h' : (i : Nat) ≠ j := fun e => h (Fin.ext e.symm)
  simp [State.setStream, State.stream, Vector.getElem_set_ne, h']

theorem State.stream_setStream (s : State) (i j : StreamIx) (x : Stream) :
    (s.setStream i x).stream j = if j = i then x else s.stream j := by
  by_cases h : j = i
  · subst h; simp
  · simp [h, State.stream_setStream_ne s x h]

/-- Two states whose streams agree index by index have the same stream table. -/
theorem streams_ext {s t : State} (h : ∀ i, s.stream i = t.stream i) : s.streams = t.streams := by
  apply Vector.ext
  intro k hk
  exact h ⟨k, hk⟩

@[simp] theorem State.setStream_self (s : State) (i : StreamIx) : s.setStream i (s.stream i) = s := by
  have h : (s.setStream i (s.stream i)).streams = s.streams :=
    streams_ext fun j => by rw [State.stream_setStream]; split <;> simp_all
  calc s.setStream i (s.stream i)
      = { s with streams := (s.setStream i (s.stream i)).streams } := rfl
    _ = s := by rw [h]

@[simp] theorem State.setStream_setStream (s : State) (i : StreamIx) (x y : Stream) :
    (s.setStream i x).setStream i y = s.setStream i y := by
  have h : ((s.setStream i x).setStream i y).streams = (s.setStream i y).streams :=
    streams_ext fun j => by simp only [State.stream_setStream]; split <;> rfl
  calc (s.setStream i x).setStream i y
      = { s with streams := ((s.setStream i x).setStream i y).streams } := rfl
    _ = s.setStream i y := by rw [h]; rfl

section Fields
variable (s : State) (i : StreamIx) (x : Stream)

@[simp] theorem State.setStream_resetLow : (s.setStream i x).resetLow = s.resetLow := rfl
@[simp] theorem State.setStream_link : (s.setStream i x).link = s.link := rfl
@[simp] theorem State.setStream_scheduleValid : (s.setStream i x).scheduleValid = s.scheduleValid := rfl
@[simp] theorem State.setStream_portTallies : (s.setStream i x).portTallies = s.portTallies := rfl
@[simp] theorem State.setStream_engine : (s.setStream i x).engine = s.engine := rfl
@[simp] theorem State.setStream_tst : (s.setStream i x).tst = s.tst := rfl
@[simp] theorem State.setStream_acp : (s.setStream i x).acp = s.acp := rfl
@[simp] theorem State.setStream_staging : (s.setStream i x).staging = s.staging := rfl
@[simp] theorem State.setStream_changeoverPin : (s.setStream i x).changeoverPin = s.changeoverPin := rfl
@[simp] theorem State.setStream_plan : (s.setStream i x).plan = s.plan := rfl
@[simp] theorem State.setStream_resetPending : (s.setStream i x).resetPending = s.resetPending := rfl
@[simp] theorem State.setStream_board : (s.setStream i x).board = s.board := rfl
@[simp] theorem State.setStream_linePort : (s.setStream i x).linePort = s.linePort := rfl
@[simp] theorem State.setStream_service : (s.setStream i x).service = s.service := rfl
@[simp] theorem State.setStream_banks : (s.setStream i x).banks = s.banks := rfl
@[simp] theorem State.setStream_lastTapRecord : (s.setStream i x).lastTapRecord = s.lastTapRecord := rfl
@[simp] theorem State.setStream_pending : (s.setStream i x).pending = s.pending := rfl

end Fields

/-- A map over the stream table, read at one stream. -/
theorem State.stream_map (s : State) (f : Stream → Stream) (i : StreamIx) :
    ({ s with streams := s.streams.map f } : State).stream i = f (s.stream i) := by
  simp [State.stream]

theorem State.updStream_eq (s : State) (i : StreamIx) (f : Stream → Stream) :
    s.updStream i f = s.setStream i (f (s.stream i)) := rfl

section PerPort
variable {α : Type} (x : PerPort α) (v : α)

@[simp] theorem PerPort.get_set_same (p : Port) : (x.set p v).get p = v := by cases p <;> rfl

theorem PerPort.get_set (p q : Port) : (x.set p v).get q = if q = p then v else x.get q := by
  cases p <;> cases q <;> rfl

theorem PerPort.ext_get {x y : PerPort α} (h : ∀ p, x.get p = y.get p) : x = y := by
  cases x; cases y
  have h1 := h .board; have h2 := h .line; have h3 := h .service
  simp only [PerPort.get] at h1 h2 h3
  subst h1 h2 h3; rfl

@[simp] theorem PerPort.set_set (p : Port) (w : α) : (x.set p v).set p w = x.set p w := by
  cases p <;> rfl

end PerPort

end Sys2Proof.Machine
end

