-- ==== Sys2Proof/Laws/Accounts.lean ====
section
/-! SUPPORT. What work on one stream can change: the relation `worksOn`, and the alarm and tally operations
as instances of it, each with the stream it leaves. -/

namespace Sys2Proof.Machine

/-! ### Relations -/

theorem onlyAccounts.refl (s : State) : onlyAccounts s s := rfl

theorem onlyAccounts.trans {s t u : State} (h : onlyAccounts s t) (k : onlyAccounts t u) :
    onlyAccounts s u := by
  unfold onlyAccounts at *
  rw [k]
  generalize u.streams = us
  generalize u.acp = ua
  rw [h]

theorem onlyStream.refl (i : StreamIx) (s : State) : onlyStream i s s := fun _ _ => rfl

theorem onlyStream.trans {i : StreamIx} {s t u : State} (h : onlyStream i s t) (k : onlyStream i t u) :
    onlyStream i s u := fun j hj => (k j hj).trans (h j hj)

theorem Stream.sameButAlarms.refl (x : Stream) : x.sameButAlarms x := rfl

theorem Stream.sameButAlarms.trans {x y z : Stream} (h : x.sameButAlarms y) (k : y.sameButAlarms z) :
    x.sameButAlarms z := by
  unfold Stream.sameButAlarms at *
  rw [k]
  generalize z.alarms = a
  generalize z.lampShare = b
  generalize z.lineShare = c
  rw [h]

/-- No notice was cleared between s and t. -/
def noticesGrow (s t : State) : Prop :=
  ∀ p m, noticeSet (s.acp.summaries.get p) m = true → noticeSet (t.acp.summaries.get p) m = true

theorem noticesGrow.refl (s : State) : noticesGrow s s := fun _ _ h => h

theorem noticesGrow.trans {s t u : State} (h : noticesGrow s t) (k : noticesGrow t u) :
    noticesGrow s u := fun p m e => k p m (h p m e)

/-- From s to t work was done on stream i alone: accounts changed, no notice was cleared, and the bounds of
the notices and of the output counts were kept. -/
structure worksOn (i : StreamIx) (s t : State) : Prop where
  accounts : onlyAccounts s t
  stream : onlyStream i s t
  grows : noticesGrow s t
  notices : noticesKept s → noticesKept t
  outputs : outputsKept s → outputsKept t

theorem worksOn.refl (i : StreamIx) (s : State) : worksOn i s s :=
  ⟨.refl s, .refl i s, .refl s, id, id⟩

theorem worksOn.trans {i : StreamIx} {s t u : State} (h : worksOn i s t) (k : worksOn i t u) :
    worksOn i s u :=
  ⟨h.accounts.trans k.accounts, h.stream.trans k.stream, h.grows.trans k.grows,
    k.notices ∘ h.notices, k.outputs ∘ h.outputs⟩

section OnlyAccounts
variable {s t : State} (h : onlyAccounts s t)
include h

theorem onlyAccounts.resetLow : t.resetLow = s.resetLow := by rw [h]
theorem onlyAccounts.link : t.link = s.link := by rw [h]
theorem onlyAccounts.scheduleValid : t.scheduleValid = s.scheduleValid := by rw [h]
theorem onlyAccounts.portTallies : t.portTallies = s.portTallies := by rw [h]
theorem onlyAccounts.engine : t.engine = s.engine := by rw [h]
theorem onlyAccounts.tst : t.tst = s.tst := by rw [h]
theorem onlyAccounts.profiles : t.acp.profiles = s.acp.profiles := by rw [h]
theorem onlyAccounts.boardEnable : t.acp.boardEnable = s.acp.boardEnable := by rw [h]
theorem onlyAccounts.staging : t.staging = s.staging := by rw [h]
theorem onlyAccounts.changeoverPin : t.changeoverPin = s.changeoverPin := by rw [h]
theorem onlyAccounts.plan : t.plan = s.plan := by rw [h]
theorem onlyAccounts.resetPending : t.resetPending = s.resetPending := by rw [h]
theorem onlyAccounts.board : t.board = s.board := by rw [h]
theorem onlyAccounts.linePort : t.linePort = s.linePort := by rw [h]
theorem onlyAccounts.service : t.service = s.service := by rw [h]
theorem onlyAccounts.banks : t.banks = s.banks := by rw [h]
theorem onlyAccounts.lastTapRecord : t.lastTapRecord = s.lastTapRecord := by rw [h]
theorem onlyAccounts.pending : t.pending = s.pending := by rw [h]

theorem onlyAccounts.profileOf (x : Stream) : t.profileOf x = s.profileOf x := by
  simp only [State.profileOf, h.profiles]

end OnlyAccounts

/-! ### Notices -/

theorem noticeSet_or (a b : BitVec 16) (m : Notice) :
    noticeSet (a ||| b) m = (noticeSet a m || noticeSet b m) := by
  simp [noticeSet]

theorem noticeSet_word (n m : Notice) : noticeSet n.word m = decide (n = m) := by
  cases n <;> cases m <;> decide

theorem word_unreserved (n : Notice) : n.word &&& reservedNotices = 0 := by cases n <;> decide

theorem or_unreserved {a b : BitVec 16} (ha : a &&& reservedNotices = 0) (hb : b &&& reservedNotices = 0) :
    (a ||| b) &&& reservedNotices = 0 := by
  apply BitVec.eq_of_getLsbD_eq
  intro k hk
  have h1 := congrArg (fun w => w.getLsbD k) ha
  have h2 := congrArg (fun w => w.getLsbD k) hb
  simp only [BitVec.getLsbD_and, BitVec.getLsbD_or] at h1 h2 ⊢
  revert h1 h2
  cases a.getLsbD k <;> cases b.getLsbD k <;> cases reservedNotices.getLsbD k <;> simp

theorem State.summaries_postTo (s : State) (n : Notice) (p q : Port) :
    (s.postTo n p).acp.summaries.get q =
      if q = p then s.acp.summaries.get p ||| n.word else s.acp.summaries.get q := by
  simp only [State.postTo, PerPort.get_set]

theorem State.summaries_post (s : State) (n : Notice) (p : Port) :
    (s.post n).acp.summaries.get p = s.acp.summaries.get p ||| n.word := by
  cases p <;> rfl

theorem noticesKept_summaries {s t : State} (hq : t.acp.queues = s.acp.queues)
    (he : t.acp.boardEnable = s.acp.boardEnable)
    (hs : ∀ p, s.acp.summaries.get p &&& reservedNotices = 0 →
      t.acp.summaries.get p &&& reservedNotices = 0)
    (h : noticesKept s) : noticesKept t := by
  refine ⟨fun p => ?_, by rw [he]; exact h.2⟩
  rw [hq]
  exact ⟨(h.1 p).1, (h.1 p).2.1, hs p (h.1 p).2.2⟩

theorem State.postTo_worksOn (s : State) (n : Notice) (p : Port) (i : StreamIx) :
    worksOn i s (s.postTo n p) where
  accounts := rfl
  stream := fun _ _ => rfl
  grows := fun q m h => by
    rw [State.summaries_postTo]
    split
    · subst_vars; simp [noticeSet_or, h]
    · exact h
  notices := noticesKept_summaries rfl rfl fun q h => by
    rw [State.summaries_postTo]
    split
    · subst_vars; exact or_unreserved h (word_unreserved n)
    · exact h
  outputs := id

theorem State.post_worksOn (s : State) (n : Notice) (i : StreamIx) : worksOn i s (s.post n) where
  accounts := rfl
  stream := fun _ _ => rfl
  grows := fun q m h => by rw [State.summaries_post, noticeSet_or, h]; rfl
  notices := noticesKept_summaries rfl rfl fun q h => by
    rw [State.summaries_post]; exact or_unreserved h (word_unreserved n)
  outputs := id

/-- A notice posted to all ports stands in every summary afterwards (R145). -/
theorem State.post_postedToAll (s : State) (n : Notice) : postedToAll n s (s.post n) := fun p =>
  ⟨by rw [State.summaries_post, noticeSet_or, noticeSet_word]; simp,
    (s.post_worksOn n 0).grows p⟩

theorem postedToAll.grow {n : Notice} {s t u : State} (h : postedToAll n s t) (k : noticesGrow t u) :
    postedToAll n s u := fun p => ⟨k p n (h p).1, fun m e => k p m ((h p).2 m e)⟩

theorem noticesGrow.posted {n : Notice} {s t u : State} (h : noticesGrow s t) (k : postedToAll n t u) :
    postedToAll n s u := fun p => ⟨(k p).1, fun m e => (k p).2 m (h p m e)⟩

theorem postedToAll.grows {n : Notice} {s t : State} (h : postedToAll n s t) : noticesGrow s t :=
  fun p => (h p).2

/-! ### Event queues -/

theorem EventQueue.push_kept (q : EventQueue) (e : Event) (h1 : q.records.length ≤ queuePlaces)
    (h2 : q.lost ≤ lostTop) : (q.push e).records.length ≤ queuePlaces ∧ (q.push e).lost ≤ lostTop := by
  unfold EventQueue.push
  split
  · simp only [List.length_append, List.length_singleton]
    exact ⟨by omega, h2⟩
  · exact ⟨h1, Nat.min_le_right _ _⟩

theorem State.pushEvent_worksOn (s : State) (e : Event) (p : Port) (i : StreamIx) :
    worksOn i s (s.pushEvent e p) := by
  have base : worksOn i s
      { s with acp := { s.acp with queues := s.acp.queues.set p ((s.acp.queues.get p).push e) } } :=
    { accounts := rfl
      stream := fun _ _ => rfl
      grows := fun _ _ h => h
      notices := fun h => ⟨fun q => by
          show ((s.acp.queues.set p ((s.acp.queues.get p).push e)).get q).records.length ≤ _ ∧ _
          rw [PerPort.get_set]
          split
          · subst_vars
            exact ⟨(EventQueue.push_kept _ e (h.1 q).1 (h.1 q).2.1).1,
              (EventQueue.push_kept _ e (h.1 q).1 (h.1 q).2.1).2, (h.1 q).2.2⟩
          · exact h.1 q, h.2⟩
      outputs := id }
  unfold State.pushEvent
  simp only
  split
  · exact base
  · exact base.trans (State.postTo_worksOn _ _ _ _)

theorem State.emit_worksOn (s : State) (e : Event) (irq : Bool) (i : StreamIx) :
    worksOn i s (s.emit e irq) := by
  unfold State.emit
  simp only
  have h := ((((s.pushEvent_worksOn e .board i).trans (State.pushEvent_worksOn _ e .line i)).trans
    (State.pushEvent_worksOn _ e .service i)).trans (State.postTo_worksOn _ .alarm .line i)).trans
    (State.postTo_worksOn _ .alarm .service i)
  split
  · exact h.trans (State.postTo_worksOn _ .alarm .board i)
  · exact h

@[simp] theorem State.stream_postTo (s : State) (n : Notice) (p : Port) (i : StreamIx) :
    (s.postTo n p).stream i = s.stream i := rfl

@[simp] theorem State.stream_post (s : State) (n : Notice) (i : StreamIx) :
    (s.post n).stream i = s.stream i := rfl

@[simp] theorem State.streams_pushEvent (s : State) (e : Event) (p : Port) :
    (s.pushEvent e p).streams = s.streams := by
  unfold State.pushEvent; simp only; split <;> rfl

@[simp] theorem State.streams_emit (s : State) (e : Event) (irq : Bool) :
    (s.emit e irq).streams = s.streams := by
  have h : ∀ (t : State) (n : Notice) (p : Port), (t.postTo n p).streams = t.streams := fun _ _ _ => rfl
  unfold State.emit; simp only; split <;> simp [h]

@[simp] theorem State.streams_takeEdge (s : State) (i : StreamIx) (gov : Option Profile) (c : AlarmClass) :
    (s.takeEdge i gov c).streams = s.streams := by
  cases gov with
  | none => rfl
  | some p =>
    simp only [State.takeEdge]
    generalize (if (s.stream i).alarms.get c = true then Edge.assert else Edge.deassert) = edge
    split <;> simp

theorem State.takeEdge_worksOn (s : State) (i : StreamIx) (gov : Option Profile) (c : AlarmClass) :
    worksOn i s (s.takeEdge i gov c) := by
  cases gov with
  | none => exact .refl i s
  | some p =>
    simp only [State.takeEdge]
    generalize (if (s.stream i).alarms.get c = true then Edge.assert else Edge.deassert) = edge
    split
    · exact State.emit_worksOn _ _ _ _
    · exact .refl i s

theorem State.takeEdges_worksOn (cs : List AlarmClass) (s : State) (i : StreamIx) (gov : Option Profile) :
    worksOn i s (cs.foldl (fun t c => t.takeEdge i gov c) s)
      ∧ (cs.foldl (fun t c => t.takeEdge i gov c) s).streams = s.streams := by
  induction cs generalizing s with
  | nil => exact ⟨.refl i s, rfl⟩
  | cons c cs ih =>
    have h := ih (s.takeEdge i gov c)
    exact ⟨(s.takeEdge_worksOn i gov c).trans h.1, h.2.trans (by simp)⟩

/-! ### Evaluations -/

theorem sum_setStream (f : Stream → Nat) (s : State) (i : StreamIx) (x : Stream) :
    (∑ j, f ((s.setStream i x).stream j)) + f (s.stream i) = (∑ j, f (s.stream j)) + f x := by
  have h1 := Finset.add_sum_erase Finset.univ (fun j => f ((s.setStream i x).stream j)) (Finset.mem_univ i)
  have h2 := Finset.add_sum_erase Finset.univ (fun j => f (s.stream j)) (Finset.mem_univ i)
  have h3 : ∑ j ∈ Finset.univ.erase i, f ((s.setStream i x).stream j)
      = ∑ j ∈ Finset.univ.erase i, f (s.stream j) :=
    Finset.sum_congr rfl fun j hj => by
      rw [State.stream_setStream_ne s x (Finset.ne_of_mem_erase hj)]
  simp only [State.stream_setStream_same] at h1
  omega

/-- A stream written with its shares as they were keeps the output counts. -/
theorem setStream_worksOn (s : State) (i : StreamIx) (x : Stream)
    (h1 : x.lampShare = (s.stream i).lampShare) (h2 : x.lineShare = (s.stream i).lineShare) :
    worksOn i s (s.setStream i x) where
  accounts := rfl
  stream := fun _ hj => State.stream_setStream_ne s x hj
  grows := fun _ _ h => h
  notices := id
  outputs := fun h => by
    have e1 := sum_setStream Stream.lampShare s i x
    have e2 := sum_setStream Stream.lineShare s i x
    have a := h.1
    have b := h.2.1
    refine ⟨?_, ?_, h.2.2⟩
    · show s.acp.lampCount = _; omega
    · show s.acp.lineCount = _; omega

theorem State.settleOutputs_worksOn (s : State) (i : StreamIx) (gov : Option Profile) :
    worksOn i s (s.settleOutputs i gov) where
  accounts := rfl
  stream := fun _ hj => State.stream_setStream_ne s _ hj
  grows := fun _ _ h => h
  notices := id
  outputs := fun h => by
    have e1 := sum_setStream Stream.lampShare s i
      { s.stream i with
        lampShare := routedCount gov (s.stream i).alarms (·.lamp)
        lineShare := routedCount gov (s.stream i).alarms (·.lineFlag) }
    have e2 := sum_setStream Stream.lineShare s i
      { s.stream i with
        lampShare := routedCount gov (s.stream i).alarms (·.lamp)
        lineShare := routedCount gov (s.stream i).alarms (·.lineFlag) }
    have l1 : (s.stream i).lampShare ≤ ∑ j, (s.stream j).lampShare :=
      Finset.single_le_sum (f := fun j => (s.stream j).lampShare) (fun _ _ => Nat.zero_le _)
        (Finset.mem_univ i)
    have l2 : (s.stream i).lineShare ≤ ∑ j, (s.stream j).lineShare :=
      Finset.single_le_sum (f := fun j => (s.stream j).lineShare) (fun _ _ => Nat.zero_le _)
        (Finset.mem_univ i)
    have a := h.1
    have b := h.2.1
    simp only at e1 e2
    refine ⟨?_, ?_, ?_⟩
    · show s.acp.lampCount - (s.stream i).lampShare + _ = ∑ j, ((s.setStream i _).stream j).lampShare
      omega
    · show s.acp.lineCount - (s.stream i).lineShare + _ = ∑ j, ((s.setStream i _).stream j).lineShare
      omega
    · intro hne
      show (s.acp.lampLatch || decide (0 < _)) = true
      have hp : 0 < s.acp.lampCount - (s.stream i).lampShare
          + routedCount gov (s.stream i).alarms (·.lamp) := Nat.pos_of_ne_zero hne
      simp [hp]

/-- What an evaluation makes of its stream (R137). -/
def Stream.evaluated (x : Stream) (classes : List AlarmClass) (gov : Option Profile) : Stream :=
  let a := newStates gov x classes
  { x with
    alarms := a
    lampShare := routedCount gov a (·.lamp)
    lineShare := routedCount gov a (·.lineFlag) }

theorem State.evaluate_worksOn (s : State) (i : StreamIx) (classes : List AlarmClass)
    (gov : Option Profile) : worksOn i s (s.evaluate i classes gov) := by
  unfold State.evaluate
  simp only
  refine .trans (.trans (setStream_worksOn s i { s.stream i with
      alarms := newStates gov (s.stream i) classes } rfl rfl) (State.takeEdges_worksOn _ _ i gov).1)
    (State.settleOutputs_worksOn _ _ _)

theorem State.evaluate_stream (s : State) (i : StreamIx) (classes : List AlarmClass)
    (gov : Option Profile) :
    (s.evaluate i classes gov).stream i = (s.stream i).evaluated classes gov := by
  unfold State.evaluate
  simp only
  generalize hu : (changedClasses gov (s.stream i) classes).foldl (fun t c => t.takeEdge i gov c)
    (s.setStream i _) = u
  have h : u.streams = (s.setStream i { s.stream i with alarms := newStates gov (s.stream i) classes }).streams
    := by rw [← hu]; exact (State.takeEdges_worksOn _ _ _ _).2
  have hx : u.stream i = { s.stream i with alarms := newStates gov (s.stream i) classes } := by
    have := State.stream_setStream_same s i { s.stream i with alarms := newStates gov (s.stream i) classes }
    unfold State.stream at this ⊢
    rw [h]; exact this
  show ((u.setStream i _).stream i) = _
  rw [State.stream_setStream_same, hx]
  rfl

/-- The output counts and the lamp latch are the same in t as in s. -/
def sameOutputs (s t : State) : Prop :=
  t.acp.lampCount = s.acp.lampCount ∧ t.acp.lineCount = s.acp.lineCount ∧ t.acp.lampLatch = s.acp.lampLatch

theorem sameOutputs.refl (s : State) : sameOutputs s s := ⟨rfl, rfl, rfl⟩

theorem sameOutputs.trans {s t u : State} (h : sameOutputs s t) (k : sameOutputs t u) : sameOutputs s u :=
  ⟨k.1.trans h.1, k.2.1.trans h.2.1, k.2.2.trans h.2.2⟩

theorem State.pushEvent_outputs (s : State) (e : Event) (p : Port) : sameOutputs s (s.pushEvent e p) := by
  unfold State.pushEvent; simp only; split <;> exact ⟨rfl, rfl, rfl⟩

theorem State.postTo_outputs (s : State) (n : Notice) (p : Port) : sameOutputs s (s.postTo n p) := ⟨rfl, rfl, rfl⟩

theorem State.emit_outputs (s : State) (e : Event) (irq : Bool) : sameOutputs s (s.emit e irq) := by
  have h := ((((s.pushEvent_outputs e .board).trans (State.pushEvent_outputs _ e .line)).trans
    (State.pushEvent_outputs _ e .service)).trans (State.postTo_outputs _ .alarm .line)).trans
    (State.postTo_outputs _ .alarm .service)
  unfold State.emit
  simp only
  split
  · exact h.trans (State.postTo_outputs _ .alarm .board)
  · exact h

/-- Edges change no output (R140): the outputs follow once they are all taken (R137). -/
theorem State.takeEdges_outputs (cs : List AlarmClass) (s : State) (i : StreamIx) (gov : Option Profile) :
    sameOutputs s (cs.foldl (fun t c => t.takeEdge i gov c) s) := by
  induction cs generalizing s with
  | nil => exact .refl s
  | cons c cs ih =>
    refine .trans ?_ (ih _)
    unfold State.takeEdge
    simp only
    generalize (if (s.stream i).alarms.get c = true then Edge.assert else Edge.deassert) = edge
    split
    · split
      · exact State.emit_outputs _ _ _
      · exact .refl s
    · exact .refl s

/-- An evaluation moves the output counts with the stream's shares and never clears the lamp latch (R148,
R150). -/
theorem State.evaluate_settled (s : State) (i : StreamIx) (classes : List AlarmClass) (gov : Option Profile) :
    outputsSettled i s (s.evaluate i classes gov) := by
  have e := State.evaluate_stream s i classes gov
  unfold State.evaluate at e ⊢
  simp only at e ⊢
  generalize hu : (changedClasses gov (s.stream i) classes).foldl (fun t c => t.takeEdge i gov c)
    (s.setStream i { s.stream i with alarms := newStates gov (s.stream i) classes }) = u at e ⊢
  have o : sameOutputs s u := by rw [← hu]; exact State.takeEdges_outputs _ _ _ _
  have h : u.streams = (s.setStream i { s.stream i with alarms := newStates gov (s.stream i) classes }).streams
    := by rw [← hu]; exact (State.takeEdges_worksOn _ _ _ _).2
  have hx : u.stream i = { s.stream i with alarms := newStates gov (s.stream i) classes } := by
    have := State.stream_setStream_same s i { s.stream i with alarms := newStates gov (s.stream i) classes }
    unfold State.stream at this ⊢
    rw [h]; exact this
  unfold outputsSettled
  rw [e]
  unfold State.settleOutputs Stream.evaluated
  simp only [hx, o.1, o.2.1, o.2.2]
  simp

/-- The shares an evaluation leaves count the active alarms by their routing (R148, R150). -/
theorem Stream.evaluated_shares (x : Stream) (classes : List AlarmClass) (p : Profile) :
    (x.evaluated classes (some p)).sharesFollow p := by
  have k : ∀ (a : AlarmStates) (r : Route → Bool), routedCount (some p) a r =
      (a.drop && r p.routeDrop).toNat + (a.late && r p.routeLate).toNat
        + (a.reorder && r p.routeReorder).toNat + (a.path && r p.routePath).toNat
        + (a.silent && r p.routeSilent).toNat := by
    intro a r
    unfold routedCount
    simp only [AlarmClass.inOrder, AlarmStates.get, Profile.route, List.filter_cons, List.filter_nil]
    cases (a.drop && r p.routeDrop) <;> cases (a.late && r p.routeLate) <;>
      cases (a.reorder && r p.routeReorder) <;> cases (a.path && r p.routePath) <;>
      cases (a.silent && r p.routeSilent) <;> rfl
  exact ⟨k _ _, k _ _⟩

theorem Stream.evaluated_same (x : Stream) (classes : List AlarmClass) (gov : Option Profile) :
    x.sameButAlarms (x.evaluated classes gov) := rfl

theorem State.evaluateAll_worksOn (s : State) (i : StreamIx) : worksOn i s (s.evaluateAll i) :=
  State.evaluate_worksOn _ _ _ _

theorem State.evaluateAll_stream (s : State) (i : StreamIx) : (s.evaluateAll i).stream i =
    (s.stream i).evaluated AlarmClass.inOrder (s.profileOf (s.stream i)) :=
  State.evaluate_stream _ _ _ _

/-- An OFF stream's alarms, if inactive, stay so. -/
theorem newStates_off (gov : Option Profile) (x : Stream) (classes : List AlarmClass)
    (h : x.health = .off) (ha : x.alarms = AlarmStates.clear) :
    newStates gov x classes = AlarmStates.clear := by
  unfold newStates
  rw [ha]
  have hc : ∀ c, conditionFound gov x c = false := fun c => by
    cases gov <;> simp [conditionFound, h]
  induction classes with
  | nil => rfl
  | cons c cs ih =>
    simp only [List.foldl_cons, hc]
    rw [show AlarmStates.set AlarmStates.clear c false = AlarmStates.clear by cases c <;> rfl]
    simpa only [hc] using ih

/-- After an evaluation of all classes an OFF stream's alarms are inactive (R135, R138). -/
theorem newStates_off_all (gov : Option Profile) (x : Stream) (h : x.health = .off) :
    newStates gov x AlarmClass.inOrder = AlarmStates.clear := by
  have hc : ∀ c, conditionFound gov x c = false := fun c => by
    cases gov <;> simp [conditionFound, h]
  simp [newStates, AlarmClass.inOrder, hc, AlarmStates.set, AlarmStates.clear]

end Sys2Proof.Machine
end

