-- ==== Sys2Proof/Laws/Tallies.lean ====
section
/-! SUPPORT. Posts and groups: what they change, the bounds they keep, and the operations that take them. -/

namespace Sys2Proof.Machine

/-! ### Fields -/

theorem Field.pos_injective {f g : Field} (h : f.pos = g.pos) : f = g := by
  revert h; cases f <;> cases g <;> decide

theorem vector_getElem_set {α : Type} (v : Vector α 16) (k f : Fin 16) (a : α) :
    (v.set k a)[f] = if f = k then a else v[f] := by
  by_cases h : f = k
  · subst h; simp
  · have h' : (k : Nat) ≠ f := fun e => h (Fin.ext e.symm)
    simp [Vector.getElem_set_ne, h, h']

/-! ### Groups change tallies alone -/

/-- Posts change the interval tallies, the totals and the terminal flags alone. -/
theorem addPosts_eq (modes : Vector TotalMode 16) (ps : List Post) (x : Stream) :
    ps.foldl (Stream.addPost modes) x =
      { x with
        interval := (ps.foldl (Stream.addPost modes) x).interval
        totals := (ps.foldl (Stream.addPost modes) x).totals
        terminal := (ps.foldl (Stream.addPost modes) x).terminal } := by
  induction ps generalizing x with
  | nil => rfl
  | cons p ps ih =>
    rw [List.foldl_cons, ih]
    rfl

/-- A group changes the tally record alone. -/
theorem Stream.addGroup_eq (modes : Vector TotalMode 16) (x : Stream) (g : Group) :
    x.addGroup modes g = { x with
      interval := (x.addGroup modes g).interval
      totals := (x.addGroup modes g).totals
      terminal := (x.addGroup modes g).terminal
      lateness := (x.addGroup modes g).lateness } := by
  have h := addPosts_eq modes g.posts x
  unfold Stream.addGroup
  simp only
  generalize g.posts.foldl (Stream.addPost modes) x = y at h ⊢
  split <;> rw [h]

/-- Two streams have the same tally record but for the last interval. -/
def sameTallies (x y : Stream) : Prop :=
  y.interval = x.interval ∧ y.totals = x.totals ∧ y.terminal = x.terminal ∧ y.lateness = x.lateness

theorem addPosts_sameTallies (modes : Vector TotalMode 16) (ps : List Post) {x y : Stream}
    (h : sameTallies x y) :
    sameTallies (ps.foldl (Stream.addPost modes) x) (ps.foldl (Stream.addPost modes) y) := by
  induction ps generalizing x y with
  | nil => exact h
  | cons p ps ih =>
    refine ih ⟨?_, ?_, ?_, h.2.2.2⟩ <;> simp only [Stream.addPost, h.1, h.2.1, h.2.2.1]

theorem Stream.addGroup_sameTallies (modes : Vector TotalMode 16) (g : Group) {x y : Stream}
    (h : sameTallies x y) : sameTallies (x.addGroup modes g) (y.addGroup modes g) := by
  have k := addPosts_sameTallies modes g.posts h
  unfold Stream.addGroup
  simp only
  split
  · exact k
  · exact ⟨k.1, k.2.1, k.2.2.1, by simp only [k.2.2.2]⟩

/-- A group added to a stream whose tally record is that of x. -/
theorem Stream.addGroup_of_sameTallies (modes : Vector TotalMode 16) (g : Group) {x y : Stream}
    (h : sameTallies x y) : y.addGroup modes g = { y with
      interval := (x.addGroup modes g).interval
      totals := (x.addGroup modes g).totals
      terminal := (x.addGroup modes g).terminal
      lateness := (x.addGroup modes g).lateness } := by
  have k := Stream.addGroup_sameTallies modes g h
  rw [Stream.addGroup_eq, k.1, k.2.1, k.2.2.1, k.2.2.2]

@[simp] theorem Stream.addGroup_nil (modes : Vector TotalMode 16) (x : Stream) :
    x.addGroup modes ⟨[], none⟩ = x := rfl

section
variable (modes : Vector TotalMode 16) (x : Stream) (g : Group)

@[simp] theorem Stream.addGroup_definition : (x.addGroup modes g).definition = x.definition := by
  rw [Stream.addGroup_eq]
@[simp] theorem Stream.addGroup_expected : (x.addGroup modes g).expected = x.expected := by
  rw [Stream.addGroup_eq]
@[simp] theorem Stream.addGroup_window : (x.addGroup modes g).window = x.window := by
  rw [Stream.addGroup_eq]
@[simp] theorem Stream.addGroup_staleCount : (x.addGroup modes g).staleCount = x.staleCount := by
  rw [Stream.addGroup_eq]
@[simp] theorem Stream.addGroup_cursor : (x.addGroup modes g).cursor = x.cursor := by
  rw [Stream.addGroup_eq]
@[simp] theorem Stream.addGroup_taking : (x.addGroup modes g).taking = x.taking := by
  rw [Stream.addGroup_eq]
@[simp] theorem Stream.addGroup_health : (x.addGroup modes g).health = x.health := by
  rw [Stream.addGroup_eq]
@[simp] theorem Stream.addGroup_misses : (x.addGroup modes g).misses = x.misses := by
  rw [Stream.addGroup_eq]
@[simp] theorem Stream.addGroup_recovery : (x.addGroup modes g).recovery = x.recovery := by
  rw [Stream.addGroup_eq]
@[simp] theorem Stream.addGroup_testLoss : (x.addGroup modes g).testLoss = x.testLoss := by
  rw [Stream.addGroup_eq]
@[simp] theorem Stream.addGroup_lastInterval :
    (x.addGroup modes g).lastInterval = x.lastInterval := by rw [Stream.addGroup_eq]
@[simp] theorem Stream.addGroup_clearGen : (x.addGroup modes g).clearGen = x.clearGen := by
  rw [Stream.addGroup_eq]
@[simp] theorem Stream.addGroup_alarms : (x.addGroup modes g).alarms = x.alarms := by
  rw [Stream.addGroup_eq]
@[simp] theorem Stream.addGroup_lampShare : (x.addGroup modes g).lampShare = x.lampShare := by
  rw [Stream.addGroup_eq]
@[simp] theorem Stream.addGroup_lineShare : (x.addGroup modes g).lineShare = x.lineShare := by
  rw [Stream.addGroup_eq]

end

/-! ### Taking a group -/

theorem State.takePosts_stream (s : State) (i : StreamIx) (g : Group) :
    (s.takePosts i g).stream i = (s.stream i).addGroup s.tst.totalModes g := by
  unfold State.takePosts
  simp only
  split <;> simp

theorem State.takePosts_worksOn (s : State) (i : StreamIx) (g : Group) :
    worksOn i s (s.takePosts i g) := by
  have h := setStream_worksOn s i ((s.stream i).addGroup s.tst.totalModes g) (by simp) (by simp)
  unfold State.takePosts
  simp only
  split
  · exact h
  · exact h.trans (State.post_worksOn _ _ _)

theorem State.postGroup_worksOn (s : State) (i : StreamIx) (g : Group) :
    worksOn i s (s.postGroup i g) := by
  unfold State.postGroup
  simp only
  split
  · exact State.takePosts_worksOn _ _ _
  · exact (State.takePosts_worksOn _ _ _).trans (State.evaluateAll_worksOn _ _)

/-- A group taken changes the stream's tally record, and its alarms (R110). -/
theorem State.postGroup_stream (s : State) (i : StreamIx) (g : Group) :
    ((s.stream i).addGroup s.tst.totalModes g).sameButAlarms ((s.postGroup i g).stream i) := by
  rw [← State.takePosts_stream]
  unfold State.postGroup
  simp only
  split
  · exact .refl _
  · rw [State.evaluateAll_stream]; exact Stream.evaluated_same _ _ _

/-- A stream's alarms are inactive if it is OFF. -/
def quietOff (x : Stream) : Prop := x.health = .off → x.alarms = AlarmStates.clear

theorem quietOff.evaluated {x : Stream} (h : quietOff x) (classes : List AlarmClass)
    (gov : Option Profile) : quietOff (x.evaluated classes gov) := fun e =>
  newStates_off gov x classes e (h e)

theorem State.postGroup_quiet (s : State) (i : StreamIx) (g : Group) (h : quietOff (s.stream i)) :
    quietOff ((s.postGroup i g).stream i) := by
  have k : quietOff ((s.takePosts i g).stream i) := by
    rw [State.takePosts_stream]; intro e; simpa using h (by simpa using e)
  unfold State.postGroup
  simp only
  split
  · exact k
  · rw [State.evaluateAll_stream]; exact k.evaluated _ _

/-! ### Bounds -/

/-- The count of a field in a run of posts. -/
def postCount (f : Field) : List Post → Nat
  | [] => 0
  | p :: ps => (if p.field = f then p.count else 0) + postCount f ps

theorem postCount_append (f : Field) (a b : List Post) :
    postCount f (a ++ b) = postCount f a + postCount f b := by
  induction a with
  | nil => simp [postCount]
  | cons p ps ih => simp [postCount, ih, Nat.add_assoc]

/-- Forced and injected drops come with drops (R38, R111). -/
abbrev balanced (ps : List Post) : Prop :=
  postCount .droppedForced ps ≤ postCount .dropped ps ∧ postCount .droppedInjected ps ≤ postCount .dropped ps

theorem balanced.append {a b : List Post} (ha : balanced a) (hb : balanced b) : balanced (a ++ b) := by
  unfold balanced at *
  simp only [postCount_append]
  omega

theorem balanced.nil : balanced [] := by simp [balanced, postCount]

theorem balanced.flatMap {α : Type} (l : List α) (f : α → List Post) (h : ∀ a, balanced (f a)) :
    balanced (l.flatMap f) := by
  induction l with
  | nil => exact balanced.nil
  | cons a l ih => simpa using (h a).append ih

theorem balanced_one {f : Field} {n : Nat} (h1 : f ≠ .droppedForced) (h2 : f ≠ .droppedInjected) :
    balanced [⟨f, n⟩] := by simp [balanced, postCount, h1, h2]

theorem addPost_tally (modes : Vector TotalMode 16) (x : Stream) (p : Post) (f : Field) :
    (x.addPost modes p).tally f =
      if f = p.field then min (x.tally f + p.count) intervalTop else x.tally f := by
  unfold Stream.tally Stream.addPost
  simp only
  rw [vector_getElem_set]
  by_cases h : f = p.field
  · subst h; simp
  · have : f.pos ≠ p.field.pos := fun e => h (Field.pos_injective e)
    simp [h, this]

theorem addPosts_tally (modes : Vector TotalMode 16) (ps : List Post) (x : Stream) (f : Field)
    (h : x.tally f ≤ intervalTop) :
    (ps.foldl (Stream.addPost modes) x).tally f = min (x.tally f + postCount f ps) intervalTop := by
  induction ps generalizing x with
  | nil => simp [postCount, Nat.min_eq_left h]
  | cons p ps ih =>
    rw [List.foldl_cons, ih _ (by rw [addPost_tally]; split; exact Nat.min_le_right _ _; exact h),
      addPost_tally]
    by_cases e : f = p.field
    · simp only [e, postCount, if_true]; omega
    · simp only [e, Ne.symm e, postCount, if_false]; omega

theorem totalAfter_le (m : TotalMode) (n : Nat) : totalAfter m n ≤ totalTop := by
  cases m
  · exact Nat.min_le_right _ _
  · exact Nat.le_of_lt_succ (Nat.mod_lt _ (by decide))

theorem totalAfter_top (m : TotalMode) (n : Nat) (h : totalAfter m n = totalTop) : totalTop ≤ n := by
  cases m
  · simp only [totalAfter] at h; omega
  · simp only [totalAfter] at h
    have := Nat.mod_le n (totalTop + 1)
    omega

theorem addPost_flag (modes : Vector TotalMode 16) (x : Stream) (p : Post) (f : Fin 16) :
    (x.addPost modes p).terminal[f] =
      if totalTop ≤ x.totals[p.field.pos] + p.count ∧ f = p.field.pos then true else x.terminal[f] := by
  by_cases h : totalTop ≤ x.totals[p.field.pos] + p.count
  · simp only [Stream.addPost, h, if_true, true_and]
    exact vector_getElem_set _ _ _ _
  · simp only [Stream.addPost, h, if_false, false_and]

/-- The bounds of a tally record that one post keeps; those on drops are kept by a whole group. -/
structure recordKept (x : Stream) : Prop where
  interval : ∀ f : Fin 16, x.interval[f] ≤ intervalTop
  totals : ∀ f : Fin 16, x.totals[f] ≤ totalTop
  flagged : ∀ f : Fin 16, x.totals[f] = totalTop → x.terminal[f] = true

theorem recordKept.addPost {x : Stream} (h : recordKept x) (modes : Vector TotalMode 16) (p : Post) :
    recordKept (x.addPost modes p) where
  interval f := by
    simp only [Stream.addPost, vector_getElem_set]
    split
    · exact Nat.min_le_right _ _
    · exact h.interval f
  totals f := by
    simp only [Stream.addPost, vector_getElem_set]
    split
    · exact totalAfter_le _ _
    · exact h.totals f
  flagged f := by
    rw [addPost_flag]
    simp only [Stream.addPost, vector_getElem_set]
    intro e
    by_cases k : f = p.field.pos
    · rw [if_pos k] at e
      rw [if_pos ⟨totalAfter_top _ _ e, k⟩]
    · rw [if_neg k] at e
      rw [if_neg fun c => k c.2]
      exact h.flagged f e

theorem recordKept.addPosts (modes : Vector TotalMode 16) (ps : List Post) {x : Stream}
    (h : recordKept x) : recordKept (ps.foldl (Stream.addPost modes) x) := by
  induction ps generalizing x with
  | nil => exact h
  | cons p ps ih => exact ih (h.addPost modes p)

theorem clampLateness_range (l : Int) :
    -2147483648 ≤ clampLateness l ∧ clampLateness l ≤ 2147483647 := by
  unfold clampLateness; omega

/-- A balanced group keeps the bounds of a tally record (R111, R112, R115). -/
theorem Stream.talliesKept.addGroup {x : Stream} (h : x.talliesKept) (modes : Vector TotalMode 16)
    (g : Group) (hb : balanced g.posts) : (x.addGroup modes g).talliesKept := by
  have r : recordKept x := ⟨h.interval, h.totals, h.flagged⟩
  have k := r.addPosts modes g.posts
  have hd := addPosts_tally modes g.posts x .dropped (h.interval _)
  have hf := addPosts_tally modes g.posts x .droppedForced (h.interval _)
  have hi := addPosts_tally modes g.posts x .droppedInjected (h.interval _)
  have e := addPosts_eq modes g.posts x
  have hl : (g.posts.foldl (Stream.addPost modes) x).lateness = x.lateness := by rw [e]
  have d1 := h.forced
  have d2 := h.injected
  obtain ⟨b1, b2⟩ := hb
  unfold Stream.addGroup
  simp only
  generalize g.posts.foldl (Stream.addPost modes) x = y at *
  have base : y.talliesKept :=
    ⟨k.interval, k.totals, k.flagged, by rw [hd, hf]; omega, by rw [hd, hi]; omega,
      by rw [hl]; exact h.lateness⟩
  split
  · exact base
  · rename_i l _
    refine ⟨base.interval, base.totals, base.flagged, base.forced, base.injected, ?_⟩
    intro st hst
    have c := clampLateness_range l
    have hst' : latenessAfter y.lateness l = st := by simpa using hst
    subst hst'
    cases ho : y.lateness with
    | none => simp only [latenessAfter]; omega
    | some o =>
      have := base.lateness o ho
      simp only [latenessAfter]
      omega

theorem Stream.talliesKept.of_eq {x y : Stream} (h : x.talliesKept) (e : sameTallies x y) :
    y.talliesKept := by
  obtain ⟨e1, e2, e3, e4⟩ := e
  refine ⟨?_, ?_, ?_, ?_, ?_, ?_⟩
  · rw [e1]; exact h.interval
  · rw [e2]; exact h.totals
  · rw [e2, e3]; exact h.flagged
  · unfold Stream.tally; rw [e1]; exact h.forced
  · unfold Stream.tally; rw [e1]; exact h.injected
  · rw [e4]; exact h.lateness

theorem Stream.sameButAlarms.sameTallies {x y : Stream} (h : x.sameButAlarms y) :
    Machine.sameTallies x y := by
  rw [h]; exact ⟨rfl, rfl, rfl, rfl⟩

theorem State.postGroup_tallies (s : State) (i : StreamIx) (g : Group) (h : (s.stream i).talliesKept)
    (hb : balanced g.posts) : ((s.postGroup i g).stream i).talliesKept :=
  (h.addGroup _ _ hb).of_eq (State.postGroup_stream s i g).sameTallies

theorem State.evaluate_tallies (s : State) (i : StreamIx) (classes : List AlarmClass)
    (gov : Option Profile) (h : (s.stream i).talliesKept) :
    ((s.evaluate i classes gov).stream i).talliesKept := by
  rw [State.evaluate_stream]; exact h.of_eq ⟨rfl, rfl, rfl, rfl⟩

end Sys2Proof.Machine
end

