-- ==== Sys2Proof/Laws/Sequence.lean ====
section
/-! SUPPORT. Windows and steps of E: what they leave of a stream, and the bounds of a window they keep. -/

namespace Sys2Proof.Machine

/-! ### Distances -/

theorem below_succ {e q : Seq} (h : below e q ≤ 32) : below (e + 1) q = below e q + 1 := by
  unfold below at *
  bv_omega

theorem below_self_succ (e : Seq) : below (e + 1) e = 1 := by
  unfold below
  bv_omega

theorem below_eq_33 (e q : Seq) : (q = e - 33) ↔ below e q = 33 := by
  unfold below
  constructor <;> intro h <;> bv_omega

/-! ### Outstanding counts -/

theorem outstandingCount_append (a b : List Slot) :
    outstandingCount (a ++ b) = outstandingCount a + outstandingCount b := by
  simp [outstandingCount]

theorem outstandingCount_filter (p : Slot → Bool) (w : List Slot) :
    outstandingCount (w.filter p) ≤ outstandingCount w := by
  unfold outstandingCount
  rw [List.filter_filter]
  exact List.Sublist.length_le (by
    rw [← List.filter_filter, List.filter_filter, ← List.filter_filter]
    have : (List.filter Slot.isOutstanding (List.filter p w)).Sublist (List.filter Slot.isOutstanding w) :=
      List.Sublist.filter _ List.filter_sublist
    simpa [List.filter_filter] using this)

theorem outstandingCount_dropLowest (w : List Slot) :
    outstandingCount (dropLowest w) = outstandingCount w - 1 := by
  induction w with
  | nil => rfl
  | cons s w ih =>
    unfold dropLowest
    by_cases h : s.isOutstanding = true
    · rw [if_pos h]
      have hd : Slot.isOutstanding { s with state := .dropped } = false := rfl
      simp only [outstandingCount, List.filter_cons, h, hd, if_true]
      simp
    · rw [if_neg h]
      simpa [outstandingCount, h] using ih

theorem dropLowest_seqs (w : List Slot) : (dropLowest w).map Slot.seq = w.map Slot.seq := by
  induction w with
  | nil => rfl
  | cons s w ih =>
    unfold dropLowest
    split <;> simp [ih]

theorem setSlot_seqs (w : List Slot) (q : Seq) (st : SlotState) :
    (setSlot w q st).map Slot.seq = w.map Slot.seq := by
  unfold setSlot
  rw [List.map_map]
  apply List.map_congr_left
  intro a _
  simp only [Function.comp]
  split <;> rfl

theorem setSlot_outstanding (w : List Slot) (q : Seq) (st : SlotState)
    (h : ∀ due cause, st ≠ .outstanding due cause) :
    outstandingCount (setSlot w q st) ≤ outstandingCount w := by
  have hs : ∀ a : Slot, Slot.isOutstanding { a with state := st } = false := fun a => by
    cases st
    · exact absurd rfl (h _ _)
    · rfl
    · rfl
  induction w with
  | nil => exact Nat.le_refl _
  | cons a w ih =>
    have e : setSlot (a :: w) q st = (if a.seq = q then { a with state := st } else a) :: setSlot w q st := rfl
    rw [e]
    unfold outstandingCount at *
    by_cases k : a.seq = q
    · rw [if_pos k, List.filter_cons, hs a]
      refine Nat.le_trans ih ?_
      rw [List.filter_cons]
      split <;> simp
    · rw [if_neg k, List.filter_cons, List.filter_cons]
      split
      · simpa using ih
      · exact ih

/-! ### Windows -/

/-- The order and the range of a window read from its sequence numbers alone. -/
def rangeKept (e : Seq) (qs : List Seq) : Prop :=
  (∀ q ∈ qs, 1 ≤ below e q ∧ below e q ≤ windowSpan) ∧ qs.Pairwise fun a b => below e b < below e a

theorem windowKept_iff (e : Seq) (w : List Slot) :
    windowKept e w ↔ rangeKept e (w.map Slot.seq) ∧ outstandingCount w ≤ outstandingCap := by
  unfold windowKept rangeKept
  rw [List.pairwise_map]
  simp only [List.forall_mem_map]
  tauto

theorem windowKept.nil (e : Seq) : windowKept e [] :=
  ⟨fun _ h => absurd h List.not_mem_nil, List.Pairwise.nil, by simp [outstandingCount]⟩

theorem windowKept.of_seqs {e : Seq} {w v : List Slot} (h : windowKept e w)
    (hs : v.map Slot.seq = w.map Slot.seq) (hc : outstandingCount v ≤ outstandingCount w) :
    windowKept e v := by
  rw [windowKept_iff] at *
  exact ⟨hs ▸ h.1, Nat.le_trans hc h.2⟩

theorem windowKept.setSlot {e : Seq} {w : List Slot} (h : windowKept e w) (q : Seq) (st : SlotState)
    (hst : ∀ due cause, st ≠ .outstanding due cause) : windowKept e (setSlot w q st) :=
  h.of_seqs (setSlot_seqs _ _ _) (setSlot_outstanding _ _ _ hst)

/-- The window part of a step of E keeps the bounds (R39, R40, R41). -/
theorem windowKept.step {e : Seq} {w : List Slot} (h : windowKept e w) (st : SlotState) :
    windowKept (e + 1) (enterSlot (w.filter fun s => s.seq != e + 1 - 33) ⟨e, st⟩).1 := by
  have range : rangeKept (e + 1) ((w.filter fun s => s.seq != e + 1 - 33).map Slot.seq) := by
    refine ⟨?_, ?_⟩
    · intro q hq
      simp only [List.mem_map, List.mem_filter, bne_iff_ne] at hq
      obtain ⟨a, ⟨ha, hne⟩, rfl⟩ := hq
      have b := h.1 a ha
      have s1 := below_succ (e := e) (q := a.seq) b.2
      have n : below (e + 1) a.seq ≠ 33 := fun k => hne ((below_eq_33 _ _).2 k)
      simp only [windowSpan] at *
      omega
    · rw [List.pairwise_map]
      refine List.Pairwise.imp_of_mem ?_ (List.Pairwise.filter _ h.2.1)
      intro a b ha hb hlt
      have ka := h.1 a (List.mem_of_mem_filter ha)
      have kb := h.1 b (List.mem_of_mem_filter hb)
      rw [below_succ ka.2, below_succ kb.2]
      omega
  have entered : ∀ v : List Slot, v.map Slot.seq = (w.filter fun s => s.seq != e + 1 - 33).map Slot.seq →
      rangeKept (e + 1) ((v ++ [(⟨e, st⟩ : Slot)]).map Slot.seq) := by
    intro v hv
    rw [List.map_append, hv]
    refine ⟨?_, ?_⟩
    · intro q hq
      rcases List.mem_append.1 hq with hq | hq
      · exact range.1 q hq
      · simp only [List.map_cons, List.map_nil, List.mem_singleton] at hq
        subst hq
        rw [below_self_succ]
        simp [windowSpan]
    · rw [List.pairwise_append]
      refine ⟨range.2, by simp, ?_⟩
      intro a ha b hb
      simp only [List.map_cons, List.map_nil, List.mem_singleton] at hb
      subst hb
      rw [below_self_succ]
      simp only [List.mem_map, List.mem_filter] at ha
      obtain ⟨c, ⟨hc, _⟩, rfl⟩ := ha
      have := h.1 c hc
      rw [below_succ this.2]
      omega
  have cnt := outstandingCount_filter (fun s => s.seq != e + 1 - 33) w
  have cap := h.2.2
  have single : outstandingCount [(⟨e, st⟩ : Slot)] =
      if (⟨e, st⟩ : Slot).isOutstanding then 1 else 0 := by
    simp only [outstandingCount, List.filter_cons, List.filter_nil]; split <;> rfl
  rw [windowKept_iff]
  unfold enterSlot
  split
  · rename_i hc
    simp only [Bool.and_eq_true, decide_eq_true_eq] at hc
    refine ⟨entered _ (dropLowest_seqs _), ?_⟩
    rw [outstandingCount_append, outstandingCount_dropLowest, single, if_pos hc.1]
    simp only [outstandingCap] at *
    omega
  · rename_i hc
    simp only [Bool.and_eq_true, decide_eq_true_eq, not_and, Nat.not_le] at hc
    refine ⟨entered _ rfl, ?_⟩
    rw [outstandingCount_append, single]
    split
    · have := hc (by assumption); simp only [outstandingCap] at *; omega
    · omega

/-! ### Steps of E -/

theorem stepE_fst (x : Stream) (st : SlotState) : (stepE x st).1 =
    { x with
      expected := x.expected + 1
      window := (enterSlot (x.window.filter fun s => s.seq != x.expected + 1 - 33) ⟨x.expected, st⟩).1 } := rfl

theorem stepE_window (x : Stream) (st : SlotState) (h : windowKept x.expected x.window) :
    windowKept (stepE x st).1.expected (stepE x st).1.window := h.step st

theorem gapSteps_fst (x : Stream) (due : Time) (p : Int) (n : Nat) : (gapSteps x due p n).1 =
    { x with
      expected := (gapSteps x due p n).1.expected
      window := (gapSteps x due p n).1.window } := by
  induction n generalizing x due with
  | zero => rfl
  | succ n ih =>
    show (gapSteps (stepE x (.outstanding due .gap)).1 (timeShift due p) p n).1 = _
    rw [ih]
    rfl

theorem gapSteps_window (x : Stream) (due : Time) (p : Int) (n : Nat)
    (h : windowKept x.expected x.window) :
    windowKept (gapSteps x due p n).1.expected (gapSteps x due p n).1.window := by
  induction n generalizing x due with
  | zero => exact h
  | succ n ih => exact ih _ _ (stepE_window _ _ h)

theorem gapSteps_expected (x : Stream) (due : Time) (p : Int) (n : Nat) :
    (gapSteps x due p n).1.expected = x.expected + BitVec.ofNat 16 n := by
  induction n generalizing x due with
  | zero => simp [gapSteps]
  | succ n ih =>
    show (gapSteps (stepE x (.outstanding due .gap)).1 (timeShift due p) p n).1.expected = _
    rw [ih, stepE_fst]
    bv_omega

/-! ### Posts of steps and clears -/

theorem balanced_forcedDrop : balanced forcedDrop := by decide

theorem balanced_pathMiss (b : Bool) (p : Paths) : balanced (pathMiss b p) := by
  cases b <;> cases p <;> decide

theorem balanced_exitPosts (b : Bool) (s : Slot) : balanced (exitPosts b s) := by
  unfold exitPosts
  split
  · exact balanced_forcedDrop
  · exact balanced_pathMiss _ _
  · exact balanced.nil

theorem balanced_clearPosts (b : Bool) (s : Slot) : balanced (clearPosts b s) := by
  unfold clearPosts
  split
  · decide
  · exact balanced_pathMiss _ _
  · exact balanced.nil

theorem balanced_enterSlot (w : List Slot) (s : Slot) : balanced (enterSlot w s).2 := by
  unfold enterSlot
  split
  · exact balanced_forcedDrop
  · exact balanced.nil

theorem balanced_stepE (x : Stream) (st : SlotState) : balanced (stepE x st).2 :=
  (balanced.flatMap _ _ fun s => balanced_exitPosts _ s).append (balanced_enterSlot _ _)

theorem balanced_gapSteps (x : Stream) (due : Time) (p : Int) (n : Nat) :
    balanced (gapSteps x due p n).2 := by
  induction n generalizing x due with
  | zero => exact balanced.nil
  | succ n ih => exact (balanced_stepE _ _).append (ih _ _)

theorem balanced_finalizingClear (x : Stream) : balanced (finalizingClear x).2 :=
  balanced.flatMap _ _ fun s => balanced_clearPosts _ s

theorem balanced_flushPosts (x : Stream) : balanced (flushPosts x) := by
  unfold flushPosts
  split
  · exact balanced.nil
  · exact balanced_one (by decide) (by decide)

end Sys2Proof.Machine
end

