-- ==== Sys2Proof/Laws/Expiry.lean ====
section
/-! SUPPORT. The work on one stream, operation by operation: the stream it leaves, and the bounds it keeps
(`keepsOn`). -/

namespace Sys2Proof.Machine

/-! ### What work on one stream keeps -/

/-- The counts of a stream fit a byte (R91). -/
def countsOk (x : Stream) : Prop :=
  x.misses ≤ 255 ∧ (x.health ≠ .silent → x.misses ≤ 254) ∧ x.recovery ≤ 254

/-- Work on stream i that keeps every bound of it, but for its SILENT alarm, which an evaluation yet to come
brings in line with its health. -/
structure keepsUnevaluated (i : StreamIx) (s t : State) : Prop extends worksOn i s t where
  context : (s.stream i).contextKept → (t.stream i).contextKept
  tallies : (s.stream i).talliesKept → (t.stream i).talliesKept
  counts : (∀ k : ProfileIx, s.acp.profiles[k].valid) → countsOk (s.stream i) → countsOk (t.stream i)

/-- Work on stream i that keeps every bound of it. -/
structure keepsOn (i : StreamIx) (s t : State) : Prop extends keepsUnevaluated i s t where
  silent : (s.stream i).contextKept → (s.stream i).silentKept → (t.stream i).silentKept

theorem keepsUnevaluated.trans {i : StreamIx} {s t u : State} (h : keepsUnevaluated i s t)
    (k : keepsUnevaluated i t u) : keepsUnevaluated i s u :=
  ⟨h.toworksOn.trans k.toworksOn, k.context ∘ h.context, k.tallies ∘ h.tallies, fun v c =>
    k.counts (by rw [h.accounts.profiles]; exact v) (h.counts v c)⟩

theorem keepsOn.refl (i : StreamIx) (s : State) : keepsOn i s s :=
  ⟨⟨.refl i s, id, id, fun _ => id⟩, fun _ => id⟩

theorem keepsOn.trans {i : StreamIx} {s t u : State} (h : keepsOn i s t) (k : keepsOn i t u) :
    keepsOn i s u :=
  ⟨h.tokeepsUnevaluated.trans k.tokeepsUnevaluated, fun c e => k.silent (h.context c) (h.silent c e)⟩

theorem countsOk.of_eq {x y : Stream} (h : countsOk x) (h1 : y.misses = x.misses)
    (h2 : y.health = x.health) (h3 : y.recovery = x.recovery) : countsOk y := by
  unfold countsOk at *; rw [h1, h2, h3]; exact h

theorem Stream.contextKept.of_same {x y : Stream} (h : x.contextKept) (e : x.sameButAlarms y)
    (q : quietOff y) : y.contextKept := by
  have e' := e
  generalize y.alarms = a, y.lampShare = b, y.lineShare = c at e'
  rw [e] at q ⊢
  exact ⟨h.defined, h.valid, h.window, h.unheld, h.stale, h.off, h.recovery, q⟩

theorem Stream.sameButAlarms.misses {x y : Stream} (h : x.sameButAlarms y) : y.misses = x.misses := by
  rw [h]
theorem Stream.sameButAlarms.health {x y : Stream} (h : x.sameButAlarms y) : y.health = x.health := by
  rw [h]
theorem Stream.sameButAlarms.recovery {x y : Stream} (h : x.sameButAlarms y) :
    y.recovery = x.recovery := by rw [h]
theorem Stream.sameButAlarms.definition {x y : Stream} (h : x.sameButAlarms y) :
    y.definition = x.definition := by rw [h]
theorem Stream.sameButAlarms.window {x y : Stream} (h : x.sameButAlarms y) : y.window = x.window := by
  rw [h]
theorem Stream.sameButAlarms.cursor {x y : Stream} (h : x.sameButAlarms y) : y.cursor = x.cursor := by
  rw [h]

theorem countsOk.of_same {x y : Stream} (h : countsOk x) (e : x.sameButAlarms y) : countsOk y :=
  h.of_eq e.misses e.health e.recovery

theorem Stream.silentKept.of_eq {x y : Stream} (h : x.silentKept) (h1 : y.health = x.health)
    (h2 : y.alarms = x.alarms) : y.silentKept := by
  unfold Stream.silentKept at *; rw [h1, h2]; exact h

/-- The SILENT alarm after an evaluation of all classes is its condition (R135). -/
theorem newStates_silent (gov : Option Profile) (x : Stream) :
    (newStates gov x AlarmClass.inOrder).silent = conditionFound gov x .silent := by
  simp [newStates, AlarmClass.inOrder, AlarmStates.set]

/-- An evaluation of all classes brings the SILENT alarm in line with the health (R135, R137). -/
theorem State.evaluateAll_silent (s : State) (i : StreamIx)
    (h : (s.stream i).definition = none → (s.stream i).health = .off) :
    ((s.evaluateAll i).stream i).silentKept := by
  rw [State.evaluateAll_stream]
  unfold Stream.silentKept
  show (newStates _ _ _).silent = true ↔ (s.stream i).health = .silent ∨ (s.stream i).health = .recovering
  rw [newStates_silent]
  unfold conditionFound State.profileOf
  cases hd : (s.stream i).definition with
  | none => simp [h hd]
  | some d =>
    simp only [Option.map_some, alarmCondition]
    cases (s.stream i).health <;> simp

/-- A group posted leaves the SILENT alarm in line with the health (R110, R136). -/
theorem State.postGroup_silent (s : State) (i : StreamIx) (g : Group)
    (h : (s.stream i).definition = none → (s.stream i).health = .off)
    (k : (s.stream i).silentKept) : ((s.postGroup i g).stream i).silentKept := by
  have e := State.takePosts_stream s i g
  unfold State.postGroup
  simp only
  split
  · rw [e]; exact k.of_eq (by simp) (by simp)
  · exact State.evaluateAll_silent _ _ (by rw [e]; simpa using h)

theorem Stream.contextKept.addGroup {x : Stream} (h : x.contextKept) (modes : Vector TotalMode 16)
    (g : Group) : (x.addGroup modes g).contextKept := by
  rw [Stream.addGroup_eq]
  exact ⟨h.defined, h.valid, h.window, h.unheld, h.stale, h.off, h.recovery, h.quiet⟩

/-! ### Evaluations -/

theorem State.evaluate_keepsUnevaluated (s : State) (i : StreamIx) (classes : List AlarmClass)
    (gov : Option Profile) : keepsUnevaluated i s (s.evaluate i classes gov) := by
  refine ⟨State.evaluate_worksOn _ _ _ _, ?_, ?_, ?_⟩
  · intro h
    rw [State.evaluate_stream]
    exact h.of_same (Stream.evaluated_same _ _ _) (quietOff.evaluated h.quiet _ _)
  · exact State.evaluate_tallies _ _ _ _
  · intro _ h
    rw [State.evaluate_stream]
    exact h.of_same (Stream.evaluated_same _ _ _)

/-- An evaluation of the threshold classes is work on its stream that keeps all (R122). -/
theorem State.evaluateThresholds_keepsOn (s : State) (i : StreamIx) (gov : Option Profile) :
    keepsOn i s (s.evaluate i AlarmClass.thresholds gov) := by
  refine ⟨State.evaluate_keepsUnevaluated _ _ _ _, fun _ h => ?_⟩
  rw [State.evaluate_stream]
  unfold Stream.silentKept at *
  simpa [Stream.evaluated, newStates, AlarmClass.thresholds, AlarmStates.set] using h

/-- An evaluation of all classes ends work that had left the SILENT alarm to it. -/
theorem keepsUnevaluated.evaluated {i : StreamIx} {s t : State} (h : keepsUnevaluated i s t) :
    keepsOn i s (t.evaluateAll i) :=
  ⟨h.trans (State.evaluate_keepsUnevaluated _ _ _ _), fun c _ => State.evaluateAll_silent _ _ (h.context c).defined.2⟩

theorem State.evaluateAll_keepsOn (s : State) (i : StreamIx) : keepsOn i s (s.evaluateAll i) :=
  keepsUnevaluated.evaluated (keepsOn.refl i s).tokeepsUnevaluated

/-! ### A stream written, then posted to -/

theorem setPost_worksOn (s : State) (i : StreamIx) (x : Stream) (g : Group)
    (h1 : x.lampShare = (s.stream i).lampShare) (h2 : x.lineShare = (s.stream i).lineShare) :
    worksOn i s ((s.setStream i x).postGroup i g) :=
  (setStream_worksOn s i x h1 h2).trans (State.postGroup_worksOn _ _ _)

theorem setPost_stream (s : State) (i : StreamIx) (x : Stream) (g : Group) :
    (x.addGroup s.tst.totalModes g).sameButAlarms (((s.setStream i x).postGroup i g).stream i) := by
  simpa using State.postGroup_stream (s.setStream i x) i g

theorem setPost_quiet (s : State) (i : StreamIx) (x : Stream) (g : Group) (h : quietOff x) :
    quietOff (((s.setStream i x).postGroup i g).stream i) :=
  State.postGroup_quiet _ _ _ (by simpa using h)

/-- A stream written with its bounds, then posted to with a balanced group. -/
theorem setPost_keepsUnevaluated (s : State) (i : StreamIx) (x : Stream) (g : Group)
    (h1 : x.lampShare = (s.stream i).lampShare) (h2 : x.lineShare = (s.stream i).lineShare)
    (hc : (s.stream i).contextKept → x.contextKept) (ht : sameTallies (s.stream i) x)
    (hb : balanced g.posts)
    (hn : (∀ k : ProfileIx, s.acp.profiles[k].valid) → countsOk (s.stream i) → countsOk x) :
    keepsUnevaluated i s ((s.setStream i x).postGroup i g) := by
  refine ⟨setPost_worksOn s i x g h1 h2, ?_, ?_, ?_⟩
  · intro h
    have k := hc h
    exact (k.addGroup _ g).of_same (setPost_stream s i x g) (setPost_quiet s i x g k.quiet)
  · intro h
    exact ((h.of_eq ht).addGroup _ g hb).of_eq (setPost_stream s i x g).sameTallies
  · intro v h
    refine ((hn v h).of_eq (y := x.addGroup s.tst.totalModes g) ?_ ?_ ?_).of_same (setPost_stream s i x g)
      <;> simp

/-- The same with the health and the alarms as they were. -/
theorem setPost_keepsOn (s : State) (i : StreamIx) (x : Stream) (g : Group)
    (h1 : x.lampShare = (s.stream i).lampShare) (h2 : x.lineShare = (s.stream i).lineShare)
    (h3 : x.health = (s.stream i).health) (h4 : x.alarms = (s.stream i).alarms)
    (hc : (s.stream i).contextKept → x.contextKept) (ht : sameTallies (s.stream i) x)
    (hb : balanced g.posts)
    (hn : (∀ k : ProfileIx, s.acp.profiles[k].valid) → countsOk (s.stream i) → countsOk x) :
    keepsOn i s ((s.setStream i x).postGroup i g) :=
  ⟨setPost_keepsUnevaluated s i x g h1 h2 hc ht hb hn, fun c k =>
    State.postGroup_silent _ _ _ (by simpa using (hc c).defined.2) (by simpa using k.of_eq h3 h4)⟩

theorem State.postGroup_keepsOn (s : State) (i : StreamIx) (g : Group) (hb : balanced g.posts) :
    keepsOn i s (s.postGroup i g) := by
  have h := setPost_keepsOn s i (s.stream i) g rfl rfl rfl rfl id ⟨rfl, rfl, rfl, rfl⟩ hb fun _ => id
  rwa [State.setStream_self] at h

/-- A stream written with its bounds. -/
theorem setStream_keepsUnevaluated (s : State) (i : StreamIx) (x : Stream)
    (h1 : x.lampShare = (s.stream i).lampShare) (h2 : x.lineShare = (s.stream i).lineShare)
    (hc : (s.stream i).contextKept → x.contextKept) (ht : (s.stream i).talliesKept → x.talliesKept)
    (hn : (∀ k : ProfileIx, s.acp.profiles[k].valid) → countsOk (s.stream i) → countsOk x) :
    keepsUnevaluated i s (s.setStream i x) := by
  refine ⟨setStream_worksOn s i x h1 h2, ?_, ?_, ?_⟩
  · intro h; simpa using hc h
  · intro h; simpa using ht h
  · intro v h; simpa using hn v h

/-- The same with the health and the alarms as they were. -/
theorem setStream_keepsOn (s : State) (i : StreamIx) (x : Stream)
    (h1 : x.lampShare = (s.stream i).lampShare) (h2 : x.lineShare = (s.stream i).lineShare)
    (h3 : x.health = (s.stream i).health) (h4 : x.alarms = (s.stream i).alarms)
    (hc : (s.stream i).contextKept → x.contextKept) (ht : (s.stream i).talliesKept → x.talliesKept)
    (hn : (∀ k : ProfileIx, s.acp.profiles[k].valid) → countsOk (s.stream i) → countsOk x) :
    keepsOn i s (s.setStream i x) :=
  ⟨setStream_keepsUnevaluated s i x h1 h2 hc ht hn, fun _ k => by simpa using k.of_eq h3 h4⟩

/-! ### Flush and change to UNANCHORED -/

/-- The posts of a flush, by the number of OUTSTANDING slots it finds (R43). -/
theorem flushPosts_eq (x : Stream) :
    flushPosts x = flushedPosts (x.window.filter Slot.isOutstanding).length := rfl

theorem State.flush_eq (s : State) (i : StreamIx) : s.flush i =
    (s.setStream i (s.stream i).emptied).postGroup i ⟨flushPosts (s.stream i), none⟩ := rfl

theorem State.flush_stream (s : State) (i : StreamIx) :
    ((s.stream i).emptied.addGroup s.tst.totalModes ⟨flushPosts (s.stream i), none⟩).sameButAlarms
      ((s.flush i).stream i) := setPost_stream _ _ _ _

theorem State.makeUnanchored_stream (s : State) (i : StreamIx) :
    (s.stream i).unanchored.sameButAlarms ((s.makeUnanchored i).stream i) := by
  unfold State.makeUnanchored
  simp only
  split
  · rw [State.updStream_eq, State.stream_setStream_same]; exact .refl _
  · rw [State.evaluateAll_stream, State.updStream_eq, State.stream_setStream_same]
    exact Stream.evaluated_same _ _ _

theorem State.makeUnanchored_worksOn (s : State) (i : StreamIx) : worksOn i s (s.makeUnanchored i) := by
  have h : worksOn i s (s.updStream i Stream.unanchored) :=
    setStream_worksOn s i (s.stream i).unanchored rfl rfl
  unfold State.makeUnanchored
  simp only
  split
  · exact h
  · exact h.trans (State.evaluateAll_worksOn _ _)

/-- The change to UNANCHORED leaves the SILENT alarm inactive (R102). -/
theorem State.makeUnanchored_silent (s : State) (i : StreamIx) (hh : (s.stream i).health ≠ .off)
    (h : (s.stream i).contextKept) (k : (s.stream i).silentKept) :
    ((s.makeUnanchored i).stream i).silentKept := by
  unfold State.makeUnanchored
  simp only
  split
  · rename_i e
    rw [State.updStream_eq, State.stream_setStream_same]
    exact k.of_eq e.symm rfl
  · refine State.evaluateAll_silent _ _ ?_
    rw [State.updStream_eq, State.stream_setStream_same]
    exact fun e => absurd (h.defined.2 e) hh

theorem State.restart_worksOn (s : State) (i : StreamIx) :
    worksOn i s ((s.flush i).makeUnanchored i) := by
  rw [State.flush_eq]
  exact (setPost_worksOn s i (s.stream i).emptied _ rfl rfl).trans (State.makeUnanchored_worksOn _ _)

/-- A flush with the change to UNANCHORED (R43, R95). -/
theorem State.restart_stream (s : State) (i : StreamIx) :
    ((s.stream i).restarted s.tst.totalModes).sameButAlarms
      (((s.flush i).makeUnanchored i).stream i) := by
  refine Stream.sameButAlarms.trans ?_ (State.makeUnanchored_stream (s.flush i) i)
  have h := State.flush_stream s i
  have e : (s.stream i).restarted s.tst.totalModes =
      ((s.stream i).emptied.addGroup s.tst.totalModes
        ⟨flushPosts (s.stream i), none⟩).unanchored := by
    rw [Stream.addGroup_of_sameTallies (x := s.stream i) (y := (s.stream i).emptied) _ _
      ⟨rfl, rfl, rfl, rfl⟩]
    unfold Stream.restarted
    rw [Stream.addGroup_eq]
    rfl
  rw [e]
  generalize (s.stream i).emptied.addGroup s.tst.totalModes ⟨flushPosts (s.stream i), none⟩ = x at h ⊢
  generalize (s.flush i).stream i = y at h ⊢
  rw [h]
  rfl

theorem State.restart_keepsOn (s : State) (i : StreamIx) (hh : (s.stream i).health ≠ .off) :
    keepsOn i s ((s.flush i).makeUnanchored i) := by
  have e := State.restart_stream s i
  refine ⟨⟨State.restart_worksOn s i, ?_, ?_, ?_⟩, ?_⟩
  · intro h
    refine Stream.contextKept.of_same (x := (s.stream i).restarted s.tst.totalModes) ?_ e ?_
    · unfold Stream.restarted
      rw [Stream.addGroup_eq]
      refine ⟨?_, h.valid, .nil _, fun _ => rfl, Nat.zero_le _, ?_, ?_, ?_⟩
      · simpa [hh] using h.defined.not.1 hh
      · intro k; simp at k
      · intro k; simp at k
      · intro k; simp at k
    · intro k; rw [e.health] at k; simp [Stream.restarted] at k
  · intro h
    refine Stream.talliesKept.of_eq ?_ e.sameTallies
    exact (h.addGroup s.tst.totalModes _ (balanced_flushPosts _)).of_eq ⟨rfl, rfl, rfl, rfl⟩
  · intro _ h
    refine countsOk.of_same (x := (s.stream i).restarted s.tst.totalModes) ?_ e
    simp [countsOk, Stream.restarted]
  · intro c k
    have f : keepsOn i s (s.flush i) :=
      setPost_keepsOn s i (s.stream i).emptied _ rfl rfl rfl rfl
        (fun h => ⟨h.defined, h.valid, .nil _, fun _ => rfl, Nat.zero_le _, h.off, h.recovery, h.quiet⟩)
        ⟨rfl, rfl, rfl, rfl⟩ (balanced_flushPosts _) fun _ h => h.of_eq rfl rfl rfl
    have live : ((s.flush i).stream i).health ≠ .off := by
      rw [(State.flush_stream s i).health]; simpa [Stream.emptied] using hh
    exact State.makeUnanchored_silent _ _ live (f.context c) (f.silent c k)

/-! ### Health -/

theorem State.countVerdict_stream (s : State) (i : StreamIx) (p : Profile)
    (hp : s.profileOf (s.stream i) = some p) :
    ((s.stream i).countVerdict p.silentClear).sameButAlarms ((s.countVerdict i).stream i) := by
  unfold State.countVerdict
  rw [hp]
  simp only
  split
  · rw [State.updStream_eq, State.stream_setStream_same]; exact .refl _
  · rw [State.evaluateAll_stream, State.updStream_eq, State.stream_setStream_same]
    exact Stream.evaluated_same _ _ _

theorem Stream.countVerdict_eq (x : Stream) (clear : Nat) : x.countVerdict clear =
    { x with misses := 0, health := (x.countVerdict clear).health
             recovery := (x.countVerdict clear).recovery } := by
  unfold Stream.countVerdict
  split
  · simp only [*]
  · rfl
  · simp only [*]
  · split <;> rfl
  · split <;> simp only [*]

theorem State.countVerdict_worksOn (s : State) (i : StreamIx) : worksOn i s (s.countVerdict i) := by
  unfold State.countVerdict
  split
  · rename_i p _
    have h : worksOn i s (s.updStream i fun x => x.countVerdict p.silentClear) := by
      refine setStream_worksOn s i ((s.stream i).countVerdict p.silentClear) ?_ ?_ <;>
        rw [Stream.countVerdict_eq]
    simp only
    split
    · exact h
    · exact h.trans (State.evaluateAll_worksOn _ _)
  · exact .refl i s

/-! ### Slot misses, catch-ups, hold expiries -/

/-- What a slot miss of a TRACKING or RECOVERING stream makes of it, before its posts (R74, R99). -/
def Stream.missed (x : Stream) (d : Definition) (p : Profile) : Stream :=
  let y := (missStep d x).1.countMiss
  if p.silentDeclare ≤ y.misses then { y.emptied with health := .silent, recovery := 0 } else y

/-- The posts of that miss. -/
def Stream.missPosts (x : Stream) (d : Definition) (p : Profile) : List Post :=
  let m := missStep d x
  if p.silentDeclare ≤ m.1.countMiss.misses then m.2 ++ (finalizingClear m.1.countMiss).2 else m.2

theorem State.slotMiss_eq (s : State) (i : StreamIx) (d : Definition) (p : Profile) :
    s.slotMiss i d p = if p.silentDeclare ≤ (s.stream i).misses + 1 then
        ((s.setStream i ((s.stream i).missed d p)).postGroup i
          ⟨(s.stream i).missPosts d p, none⟩).evaluateAll i
      else (s.setStream i ((s.stream i).missed d p)).postGroup i ⟨(s.stream i).missPosts d p, none⟩ := by
  have e : (missStep d (s.stream i)).1.countMiss.misses = (s.stream i).misses + 1 := rfl
  unfold State.slotMiss Stream.missed Stream.missPosts
  simp only [e]
  split <;> rfl

theorem State.slotMiss_stream (s : State) (i : StreamIx) (d : Definition) (p : Profile) :
    (((s.stream i).missed d p).addGroup s.tst.totalModes
      ⟨(s.stream i).missPosts d p, none⟩).sameButAlarms ((s.slotMiss i d p).stream i) := by
  rw [State.slotMiss_eq]
  split
  · exact (setPost_stream _ _ _ _).trans (by
      rw [State.evaluateAll_stream]; exact Stream.evaluated_same _ _ _)
  · exact setPost_stream _ _ _ _

theorem Stream.missed_shares (x : Stream) (d : Definition) (p : Profile) :
    (x.missed d p).lampShare = x.lampShare ∧ (x.missed d p).lineShare = x.lineShare := by
  unfold Stream.missed
  simp only
  split <;> exact ⟨rfl, rfl⟩

theorem balanced_missPosts (x : Stream) (d : Definition) (p : Profile) : balanced (x.missPosts d p) := by
  unfold Stream.missPosts
  simp only
  split
  · exact (balanced_stepE _ _).append (balanced_finalizingClear _)
  · exact balanced_stepE _ _

theorem Stream.missed_context {x : Stream} (h : x.contextKept) (d : Definition) (p : Profile)
    (hh : x.health = .tracking ∨ x.health = .recovering) : (x.missed d p).contextKept := by
  have w := stepE_window x (.outstanding x.cursor .miss) h.window
  have nd : x.definition ≠ none := fun e => by
    have := h.defined.2 e; rcases hh with k | k <;> rw [k] at this <;> cases this
  unfold Stream.missed
  simp only
  split
  · refine ⟨⟨fun k => ?_, fun k => absurd k nd⟩, h.valid, .nil _, fun _ => rfl, Nat.zero_le _,
      fun k => ?_, fun k => absurd rfl k, fun k => ?_⟩ <;>
    · have k' : Health.silent = .off := k
      cases k'
  · refine ⟨h.defined, h.valid, w, ?_, h.stale, ?_, ?_, ?_⟩
    · intro k
      have k' : x.health = .off ∨ x.health = .unanchored ∨ x.health = .silent := k
      rcases hh with e | e <;> rw [e] at k' <;> simp at k'
    · intro k
      have k' : x.health = .off := k
      rcases hh with e | e <;> rw [e] at k' <;> cases k'
    · intro k
      by_cases e : x.health = .recovering
      · exact e
      · have k' : (if x.health = .recovering then 0 else x.recovery) ≠ 0 := k
        rw [if_neg e] at k'
        exact h.recovery k'
    · intro k
      have k' : x.health = .off := k
      rcases hh with e | e <;> rw [e] at k' <;> cases k'

theorem State.slotMiss_keepsOn (s : State) (i : StreamIx) (d : Definition) (p : Profile)
    (hp : ∃ k : ProfileIx, p = s.acp.profiles[k])
    (hh : (s.stream i).health = .tracking ∨ (s.stream i).health = .recovering) :
    keepsOn i s (s.slotMiss i d p) := by
  have base : keepsUnevaluated i s ((s.setStream i ((s.stream i).missed d p)).postGroup i
      ⟨(s.stream i).missPosts d p, none⟩) := by
    refine setPost_keepsUnevaluated s i _ _ (Stream.missed_shares _ _ _).1 (Stream.missed_shares _ _ _).2
      (fun h => Stream.missed_context h d p hh) ?_ (balanced_missPosts _ _ _) ?_
    · unfold Stream.missed
      simp only
      split <;> exact ⟨rfl, rfl, rfl, rfl⟩
    · intro v h
      obtain ⟨k, rfl⟩ := hp
      have hv := v k
      have hm : (s.stream i).misses ≤ 254 := h.2.1 (by rcases hh with e | e <;> rw [e] <;> simp)
      unfold Stream.missed
      simp only
      have e : (missStep d (s.stream i)).1.countMiss.misses = (s.stream i).misses + 1 := rfl
      rw [e]
      unfold Profile.valid at hv
      split
      · refine ⟨?_, fun k => absurd rfl k, Nat.zero_le _⟩
        show (s.stream i).misses + 1 ≤ 255
        omega
      · refine ⟨?_, fun _ => ?_, ?_⟩
        · show (s.stream i).misses + 1 ≤ 255
          omega
        · show (s.stream i).misses + 1 ≤ 254
          omega
        · show (if (s.stream i).health = .recovering then 0 else (s.stream i).recovery) ≤ 254
          have := h.2.2
          split <;> omega
  rw [State.slotMiss_eq]
  split
  · exact base.evaluated
  · rename_i hm
    refine ⟨base, fun c k => State.postGroup_silent _ _ _ ?_ ?_⟩
    · simpa using (Stream.missed_context c d p hh).defined.2
    · have e : (missStep d (s.stream i)).1.countMiss.misses = (s.stream i).misses + 1 := rfl
      rw [State.stream_setStream_same]
      unfold Stream.missed
      simp only [e, if_neg hm]
      exact k.of_eq rfl rfl

/-- What a slot miss of an UNANCHORED stream makes of it (R75, R98). -/
def Stream.unanchoredMissed (x : Stream) (d : Definition) (p : Profile) : Stream :=
  { x with
    cursor := timeShift x.cursor d.period
    misses := x.misses + 1
    health := if p.silentDeclare ≤ x.misses + 1 then .silent else x.health }

theorem State.unanchoredMiss_eq (s : State) (i : StreamIx) (d : Definition) (p : Profile) :
    s.unanchoredMiss i d p = if p.silentDeclare ≤ (s.stream i).misses + 1 then
        (s.setStream i ((s.stream i).unanchoredMissed d p)).evaluateAll i
      else s.setStream i ((s.stream i).unanchoredMissed d p) := by
  unfold State.unanchoredMiss Stream.unanchoredMissed
  simp only
  split <;> rfl

theorem State.unanchoredMiss_stream (s : State) (i : StreamIx) (d : Definition) (p : Profile) :
    ((s.stream i).unanchoredMissed d p).sameButAlarms ((s.unanchoredMiss i d p).stream i) := by
  rw [State.unanchoredMiss_eq]
  split
  · rw [State.evaluateAll_stream, State.stream_setStream_same]; exact Stream.evaluated_same _ _ _
  · rw [State.stream_setStream_same]; exact .refl _

theorem State.unanchoredMiss_keepsOn (s : State) (i : StreamIx) (d : Definition) (p : Profile)
    (hp : ∃ k : ProfileIx, p = s.acp.profiles[k]) (hh : (s.stream i).health = .unanchored) :
    keepsOn i s (s.unanchoredMiss i d p) := by
  have base : keepsUnevaluated i s (s.setStream i ((s.stream i).unanchoredMissed d p)) := by
    refine setStream_keepsUnevaluated s i _ rfl rfl ?_ (fun h => h.of_eq ⟨rfl, rfl, rfl, rfl⟩) ?_
    · intro h
      have nd : (s.stream i).definition ≠ none := fun e => by
        have := h.defined.2 e; rw [hh] at this; cases this
      have ne : (if p.silentDeclare ≤ (s.stream i).misses + 1 then Health.silent
          else (s.stream i).health) ≠ .off := by rw [hh]; split <;> simp
      refine ⟨⟨fun k => absurd k ne, fun k => absurd k nd⟩, h.valid, h.window, fun _ => ?_, h.stale,
        fun k => absurd k ne, fun k => ?_, fun k => absurd k ne⟩
      · exact h.unheld (.inr (.inl hh))
      · have := h.recovery k; rw [hh] at this; cases this
    · intro v h
      obtain ⟨k, rfl⟩ := hp
      have hv := v k
      unfold Profile.valid at hv
      have hm : (s.stream i).misses ≤ 254 := h.2.1 (by rw [hh]; simp)
      refine ⟨?_, fun ns => ?_, h.2.2⟩
      · show (s.stream i).misses + 1 ≤ 255
        omega
      · show (s.stream i).misses + 1 ≤ 254
        by_cases c : (s.acp.profiles[k]).silentDeclare ≤ (s.stream i).misses + 1
        · exact absurd (if_pos c) ns
        · omega
  rw [State.unanchoredMiss_eq]
  split
  · exact base.evaluated
  · rename_i hm
    refine ⟨base, fun _ k => ?_⟩
    rw [State.stream_setStream_same]
    exact k.of_eq (by simp [Stream.unanchoredMissed, hm]) rfl

theorem Stream.contextKept.cursor {x : Stream} (h : x.contextKept) (c : Time) :
    ({ x with cursor := c } : Stream).contextKept :=
  ⟨h.defined, h.valid, h.window, h.unheld, h.stale, h.off, h.recovery, h.quiet⟩

theorem State.silentCatchUp_keepsOn (s : State) (i : StreamIx) (d : Definition) :
    keepsOn i s (s.silentCatchUp i d) := by
  unfold State.silentCatchUp
  exact setPost_keepsOn s i { s.stream i with cursor := _ } _ rfl rfl rfl rfl (fun h => h.cursor _)
    ⟨rfl, rfl, rfl, rfl⟩ (balanced_one (by decide) (by decide)) fun _ h => h.of_eq rfl rfl rfl

theorem State.haltedCatchUp_keepsOn (s : State) (i : StreamIx) (d : Definition) :
    keepsOn i s (s.haltedCatchUp i d) :=
  setStream_keepsOn s i { s.stream i with cursor := _ } rfl rfl rfl rfl (fun h => h.cursor _)
    (fun h => h.of_eq ⟨rfl, rfl, rfl, rfl⟩) fun _ h => h.of_eq rfl rfl rfl

theorem Stream.contextKept.slots {x : Stream} (h : x.contextKept) (q : Seq) (st : SlotState)
    (hst : ∀ due cause, st ≠ .outstanding due cause) :
    ({ x with window := setSlot x.window q st } : Stream).contextKept :=
  ⟨h.defined, h.valid, h.window.setSlot q st hst, fun k => by
    show setSlot x.window q st = []; rw [h.unheld k]; rfl, h.stale, h.off, h.recovery, h.quiet⟩

theorem State.holdExpiry_keepsOn (s : State) (i : StreamIx) (q : Seq) :
    keepsOn i s (s.holdExpiry i q) := by
  unfold State.holdExpiry
  split
  · split
    · exact setPost_keepsOn s i { s.stream i with window := _ } _ rfl rfl rfl rfl
        (fun h => h.slots q .dropped (by simp)) ⟨rfl, rfl, rfl, rfl⟩
        (balanced_one (by decide) (by decide)) fun _ h => h.of_eq rfl rfl rfl
    · exact .refl i s
  · exact .refl i s

/-! ### Takings -/

theorem State.profileOf_some {s : State} {x : Stream} {p : Profile} (h : s.profileOf x = some p) :
    ∃ k : ProfileIx, p = s.acp.profiles[k] := by
  unfold State.profileOf at h
  cases hd : x.definition with
  | none => rw [hd] at h; cases h
  | some d => rw [hd] at h; exact ⟨d.profile, by simpa using h.symm⟩

/-- One expiry taken whole is work on its stream alone (R71, R73). -/
theorem State.takeExpiry_keepsOn (s : State) (i : StreamIx) (e : Expiry) :
    keepsOn i s (s.takeExpiry i e) := by
  unfold State.takeExpiry
  simp only
  split
  · rename_i d p _ hp
    have hp' := State.profileOf_some hp
    split
    · exact State.holdExpiry_keepsOn _ _ _
    · split
      · exact State.haltedCatchUp_keepsOn _ _ _
      · split
        · exact .refl i s
        · exact State.unanchoredMiss_keepsOn _ _ _ _ hp' (by assumption)
        · exact State.slotMiss_keepsOn _ _ _ _ hp' (.inl (by assumption))
        · exact State.slotMiss_keepsOn _ _ _ _ hp' (.inr (by assumption))
        · exact State.silentCatchUp_keepsOn _ _ _
  · exact .refl i s

theorem State.takeOne_keepsOn (s : State) (i : StreamIx) : keepsOn i s (s.takeOne i) := by
  unfold State.takeOne
  split
  · exact State.takeExpiry_keepsOn _ _ _
  · exact .refl i s

theorem State.takeUpTo_keepsOn (s : State) (i : StreamIx) (n : Nat) : keepsOn i s (s.takeUpTo i n) := by
  induction n generalizing s with
  | zero => exact .refl i s
  | succ n ih =>
    unfold State.takeUpTo
    split
    · exact (State.takeExpiry_keepsOn _ _ _).trans (ih _)
    · exact .refl i s

theorem State.takeAll_keepsOn (s : State) (i : StreamIx) : keepsOn i s (s.takeAll i) :=
  State.takeUpTo_keepsOn _ _ _

/-- The mark of a taking changed keeps every bound. -/
theorem State.mark_keepsOn (s : State) (i : StreamIx) (b : Bool) :
    keepsOn i s (s.updStream i fun x => { x with taking := b }) :=
  setStream_keepsOn s i { s.stream i with taking := b } rfl rfl rfl rfl
    (fun h => ⟨h.defined, h.valid, h.window, h.unheld, h.stale, h.off, h.recovery, h.quiet⟩)
    (fun h => h.of_eq ⟨rfl, rfl, rfl, rfl⟩) fun _ h => h.of_eq rfl rfl rfl

/-- A taking finished is work on its stream alone (R71, R73). -/
theorem State.finishTaking_keepsOn (s : State) (i : StreamIx) : keepsOn i s (s.finishTaking i) := by
  unfold State.finishTaking
  split
  · exact (s.takeAll_keepsOn i).trans (State.mark_keepsOn _ _ false)
  · exact .refl i s

/-- A taking not under way has nothing to finish (R71, R86). -/
theorem State.finishTaking_stands (s : State) (i : StreamIx) (h : (s.stream i).taking = false) :
    s.finishTaking i = s := by
  unfold State.finishTaking; rw [h]; rfl

theorem State.takeIfNext_keepsOn (s : State) (i : StreamIx) (e : Expiry) (here : Bool) :
    keepsOn i s (s.takeIfNext i e here) := by
  unfold State.takeIfNext
  split
  · exact State.takeExpiry_keepsOn _ _ _
  · exact .refl i s

/-! ### Definitions stand -/

theorem State.takeExpiry_definition (s : State) (i : StreamIx) (e : Expiry) :
    ((s.takeExpiry i e).stream i).definition = (s.stream i).definition := by
  unfold State.takeExpiry
  simp only
  split
  · split
    · unfold State.holdExpiry
      split
      · split
        · rw [State.updStream_eq, (setPost_stream _ _ _ _).definition]; simp
        · rfl
      · rfl
    · split
      · simp [State.haltedCatchUp, State.updStream_eq]
      · split
        · rfl
        · rw [(State.unanchoredMiss_stream _ _ _ _).definition]; rfl
        · rw [(State.slotMiss_stream _ _ _ _).definition, Stream.addGroup_definition]
          unfold Stream.missed; simp only; split <;> rfl
        · rw [(State.slotMiss_stream _ _ _ _).definition, Stream.addGroup_definition]
          unfold Stream.missed; simp only; split <;> rfl
        · unfold State.silentCatchUp
          simp only
          rw [State.updStream_eq, (setPost_stream _ _ _ _).definition]; simp
  · rfl

theorem State.takeUpTo_definition (s : State) (i : StreamIx) (n : Nat) :
    ((s.takeUpTo i n).stream i).definition = (s.stream i).definition := by
  induction n generalizing s with
  | zero => rfl
  | succ n ih =>
    unfold State.takeUpTo
    split
    · rw [ih, State.takeExpiry_definition]
    · rfl

theorem State.takeAll_definition (s : State) (i : StreamIx) :
    ((s.takeAll i).stream i).definition = (s.stream i).definition := State.takeUpTo_definition _ _ _

end Sys2Proof.Machine
end

