-- ==== Sys2Proof/Laws/Arrival.lean ====
section
/-! SUPPORT. An arrival as work on one stream: the stream it leaves and the bounds it keeps. -/

namespace Sys2Proof.Machine

/-! ### The count of a verdict arrival -/

theorem Stream.sameButAlarms.countVerdict {x y : Stream} (h : x.sameButAlarms y) (clear : Nat) :
    (x.countVerdict clear).sameButAlarms (y.countVerdict clear) := by
  unfold Stream.sameButAlarms at *
  generalize y.alarms = a, y.lampShare = b, y.lineShare = c at h
  subst h
  unfold Stream.countVerdict
  simp only
  split <;> first | rfl | (split <;> rfl)

theorem Stream.countVerdict_health {x : Stream} (h : x.health ≠ .off) (clear : Nat) :
    (x.countVerdict clear).health = .tracking ∨ (x.countVerdict clear).health = .recovering := by
  unfold Stream.countVerdict
  split
  · exact absurd (by assumption) h
  · exact .inl rfl
  · exact .inl (by assumption)
  · split
    · exact .inl rfl
    · exact .inr rfl
  · split
    · exact .inl rfl
    · exact .inr (by assumption)

/-- The count keeps the recovery count with the health, and both in a byte. -/
theorem Stream.countVerdict_recovery {x : Stream} (h : x.recovery ≠ 0 → x.health = .recovering)
    (clear : Nat) : (x.countVerdict clear).recovery ≠ 0 → (x.countVerdict clear).health = .recovering := by
  unfold Stream.countVerdict
  split
  · exact h
  · intro k; rw [h k] at *; contradiction
  · exact h
  · split
    · intro k; have := h k; simp_all
    · exact fun _ => rfl
  · split
    · intro k; exact absurd rfl k
    · exact fun _ => by assumption

theorem Stream.countVerdict_counts {x : Stream} (h : countsOk x) {clear : Nat} (hc : clear ≤ 255) :
    countsOk (x.countVerdict clear) := by
  obtain ⟨_, _, r⟩ := h
  unfold Stream.countVerdict countsOk
  split
  · exact ⟨Nat.zero_le _, fun _ => Nat.zero_le _, r⟩
  · exact ⟨Nat.zero_le _, fun _ => Nat.zero_le _, r⟩
  · exact ⟨Nat.zero_le _, fun _ => Nat.zero_le _, r⟩
  · split
    · exact ⟨Nat.zero_le _, fun _ => Nat.zero_le _, r⟩
    · exact ⟨Nat.zero_le _, fun _ => Nat.zero_le _, by show 1 ≤ 254; omega⟩
  · split
    · exact ⟨Nat.zero_le _, fun _ => Nat.zero_le _, Nat.zero_le _⟩
    · refine ⟨Nat.zero_le _, fun _ => Nat.zero_le _, ?_⟩
      show x.recovery + 1 ≤ 254
      omega

/-! ### What an arrival writes -/

/-- A verdict arrival writes E, the window, the cursor and the stale count alone. -/
theorem placeArrival_fst (d : Definition) (x : Stream) (c : ArrivalCase) (q : Seq) (due : Time)
    (st : SlotState) : (placeArrival d x c q due st).1 =
      { x with
        expected := (placeArrival d x c q due st).1.expected
        window := (placeArrival d x c q due st).1.window
        cursor := (placeArrival d x c q due st).1.cursor
        staleCount := (placeArrival d x c q due st).1.staleCount } := by
  unfold placeArrival
  split
  · rfl
  · rfl
  · rfl
  · simp only [stepE_fst]; rw [gapSteps_fst]
  · rfl
  · rfl

theorem balanced_placeArrival (d : Definition) (x : Stream) (c : ArrivalCase) (q : Seq) (due : Time)
    (st : SlotState) : balanced (placeArrival d x c q due st).2 := by
  unfold placeArrival
  split
  · exact balanced_stepE _ _
  · exact (balanced_one (f := .seqBreak) (n := 1) (by decide) (by decide)).append
      ((balanced_finalizingClear _).append (balanced_stepE _ _))
  · exact balanced_stepE _ _
  · exact (balanced_gapSteps _ _ _ _).append (balanced_stepE _ _)
  · exact balanced.nil
  · exact balanced.nil

/-- It keeps the window, an anchor on an empty one (R46). -/
theorem placeArrival_window (d : Definition) {x : Stream} (c : ArrivalCase) (q : Seq) (due : Time)
    {st : SlotState} (h : windowKept x.expected x.window) (hst : ∀ due cause, st ≠ .outstanding due cause)
    (ha : c = .anchor → x.window = []) :
    windowKept (placeArrival d x c q due st).1.expected (placeArrival d x c q due st).1.window := by
  unfold placeArrival
  split
  · exact stepE_window { x with expected := q } st (by rw [ha rfl]; exact .nil _)
  · exact stepE_window { (finalizingClear x).1 with expected := q } st (.nil _)
  · exact stepE_window x st h
  · exact stepE_window _ st (gapSteps_window _ _ _ _ h)
  · exact h.setSlot q st hst
  · exact h

theorem placeArrival_stale (d : Definition) (x : Stream) (c : ArrivalCase) (q : Seq) (due : Time)
    (st : SlotState) : (placeArrival d x c q due st).1.staleCount ≤ x.staleCount := by
  unfold placeArrival
  split <;> first | exact Nat.zero_le _ | exact Nat.le_refl _

/-- A case of an arrival on a window tells what it is (R46, R54). -/
theorem arrivalCase_anchor {j : Nat} {x : Stream} {p : Path} {q : Seq}
    (h : arrivalCase j x p q = .anchor) : x.health = .unanchored ∨ x.health = .silent := by
  unfold arrivalCase at h
  split at h
  · assumption
  · simp only at h
    split at h
    · cases h
    · split at h
      · cases h
      · split at h
        · cases h
        · split at h
          · unfold slotCase staleCase at h
            split at h
            · split at h <;> cases h
            · split at h
              · cases h
              · split at h <;> cases h
              · cases h
          · unfold staleCase at h; split at h <;> cases h

theorem arrivalCase_stale {j : Nat} {x : Stream} {p : Path} {q : Seq}
    (h : arrivalCase j x p q = .stale) : x.staleCount < staleLimit := by
  unfold arrivalCase at h
  split at h
  · cases h
  · simp only at h
    split at h
    · cases h
    · split at h
      · cases h
      · split at h
        · cases h
        · split at h
          · unfold slotCase staleCase at h
            split at h
            · split at h
              · assumption
              · cases h
            · split at h
              · cases h
              · split at h <;> cases h
              · cases h
          · unfold staleCase at h
            split at h
            · assumption
            · cases h

/-! ### The whole arrival -/

/-- The stream after a verdict arrival is placed, and the posts that go with it (R56, R57, R104). -/
def Stream.placedBy (x : Stream) (d : Definition) (c : ArrivalCase) (p : Path) (q : Seq) (due : Time) :
    Stream × List Post :=
  placeArrival d { x with testLoss := false } c q due
    (if x.testLoss then .dropped else .received p.single)

/-- The group of a verdict arrival (R56, R57). -/
def Stream.verdictGroup (x : Stream) (d : Definition) (c : ArrivalCase) (p : Path) (q : Seq)
    (a due : Time) : Group :=
  if x.testLoss then ⟨(x.placedBy d c p q due).2 ++ injectedDrop, none⟩
  else ⟨(x.placedBy d c p q due).2 ++ [one (verdictField d c (timeDiff a due))], some (timeDiff a due)⟩

theorem State.takeVerdict_eq (s : State) (i : StreamIx) (d : Definition) (c : ArrivalCase) (p : Path)
    (q : Seq) (a due : Time) : s.takeVerdict i d c p q a due =
      ((s.setStream i ((s.stream i).placedBy d c p q due).1).postGroup i
        ((s.stream i).verdictGroup d c p q a due)).countVerdict i := rfl

theorem balanced_verdictGroup (x : Stream) (d : Definition) (c : ArrivalCase) (p : Path) (q : Seq)
    (a due : Time) : balanced (x.verdictGroup d c p q a due).posts := by
  unfold Stream.verdictGroup
  split
  · exact (balanced_placeArrival _ _ _ _ _ _).append (by decide)
  · refine (balanced_placeArrival _ _ _ _ _ _).append ?_
    refine balanced_one ?_ ?_ <;>
    · unfold verdictField
      split <;> first | (split <;> decide) | decide

theorem Stream.placedBy_fst (x : Stream) (d : Definition) (c : ArrivalCase) (p : Path) (q : Seq)
    (due : Time) : (x.placedBy d c p q due).1 =
      { x with
        expected := (x.placedBy d c p q due).1.expected
        window := (x.placedBy d c p q due).1.window
        cursor := (x.placedBy d c p q due).1.cursor
        staleCount := (x.placedBy d c p q due).1.staleCount
        testLoss := false } := placeArrival_fst _ _ _ _ _ _

/-- What a verdict arrival of a stream with definition e leaves of it (R56, R57, R97). -/
theorem State.takeVerdict_stream (s : State) (i : StreamIx) (d e : Definition) (c : ArrivalCase) (p : Path)
    (q : Seq) (a due : Time) (he : (s.stream i).definition = some e) :
    ((((s.stream i).placedBy d c p q due).1.addGroup s.tst.totalModes
        ((s.stream i).verdictGroup d c p q a due)).countVerdict
          (s.acp.profiles[e.profile]).silentClear).sameButAlarms
      ((s.takeVerdict i d c p q a due).stream i) := by
  rw [State.takeVerdict_eq]
  have w := setPost_worksOn s i ((s.stream i).placedBy d c p q due).1
    ((s.stream i).verdictGroup d c p q a due) (by rw [Stream.placedBy_fst]) (by rw [Stream.placedBy_fst])
  have k := setPost_stream s i ((s.stream i).placedBy d c p q due).1
    ((s.stream i).verdictGroup d c p q a due)
  generalize (s.setStream i ((s.stream i).placedBy d c p q due).1).postGroup i
    ((s.stream i).verdictGroup d c p q a due) = t at w k ⊢
  have hd : (t.stream i).definition = some e := by
    rw [k.definition, Stream.addGroup_definition, Stream.placedBy_fst]; exact he
  have hp : t.profileOf (t.stream i) = some s.acp.profiles[e.profile] := by
    rw [w.accounts.profileOf]; simp [State.profileOf, hd]
  exact (k.countVerdict _).trans (State.countVerdict_stream t i _ hp)

theorem State.takeVerdict_worksOn (s : State) (i : StreamIx) (d : Definition) (c : ArrivalCase) (p : Path)
    (q : Seq) (a due : Time) : worksOn i s (s.takeVerdict i d c p q a due) := by
  rw [State.takeVerdict_eq]
  exact (setPost_worksOn s i _ _ (by rw [Stream.placedBy_fst]) (by rw [Stream.placedBy_fst])).trans
    (State.countVerdict_worksOn _ _)

theorem Stream.contextKept.live {x : Stream} (h : x.contextKept) {e : Definition}
    (he : x.definition = some e) : x.health ≠ .off := fun k => by
  rw [h.defined.1 k] at he; cases he

/-- The count of a verdict arrival leaves the SILENT alarm in line with the health (R97, R102). -/
theorem State.countVerdict_silent (s : State) (i : StreamIx) (k : (s.stream i).silentKept) : ((s.countVerdict i).stream i).silentKept := by
  unfold State.countVerdict
  split
  · rename_i p hp
    simp only
    split
    · rename_i e
      refine Stream.silentKept.of_eq k e ?_
      rw [State.updStream_eq, State.stream_setStream_same, Stream.countVerdict_eq]
    · refine State.evaluateAll_silent _ _ ?_
      rw [State.updStream_eq, State.stream_setStream_same, Stream.countVerdict_eq]
      intro e
      have e' : (s.stream i).definition = none := e
      simp [State.profileOf, e'] at hp
  · exact k

theorem State.takeVerdict_keepsOn (s : State) (i : StreamIx) (d e : Definition) (c : ArrivalCase)
    (p : Path) (q : Seq) (a due : Time) (he : (s.stream i).definition = some e)
    (hc : c = .anchor → (s.stream i).health = .unanchored ∨ (s.stream i).health = .silent) :
    keepsOn i s (s.takeVerdict i d c p q a due) := by
  have k := State.takeVerdict_stream s i d e c p q a due he
  refine ⟨⟨State.takeVerdict_worksOn _ _ _ _ _ _ _ _, ?_, ?_, ?_⟩, ?_⟩
  · intro h
    have nf := h.live he
    have win : windowKept ((s.stream i).placedBy d c p q due).1.expected
        ((s.stream i).placedBy d c p q due).1.window := by
      refine placeArrival_window d (x := { s.stream i with testLoss := false }) c q due h.window ?_
        (fun k => h.unheld (.inr (hc k)))
      intro _ _; split <;> simp
    have stale : ((s.stream i).placedBy d c p q due).1.staleCount ≤ staleLimit :=
      (placeArrival_stale d { s.stream i with testLoss := false } c q due _).trans h.stale
    generalize hx : ((s.stream i).placedBy d c p q due).1.addGroup s.tst.totalModes
      ((s.stream i).verdictGroup d c p q a due) = x at k
    have fields : x.definition = (s.stream i).definition ∧ x.health = (s.stream i).health
        ∧ x.recovery = (s.stream i).recovery
        ∧ x.expected = ((s.stream i).placedBy d c p q due).1.expected
        ∧ x.window = ((s.stream i).placedBy d c p q due).1.window
        ∧ x.staleCount = ((s.stream i).placedBy d c p q due).1.staleCount := by
      subst hx
      refine ⟨?_, ?_, ?_, by simp, by simp, by simp⟩
      · rw [Stream.addGroup_definition, Stream.placedBy_fst]
      · rw [Stream.addGroup_health, Stream.placedBy_fst]
      · rw [Stream.addGroup_recovery, Stream.placedBy_fst]
    obtain ⟨f1, f2, f3, f4, f5, f6⟩ := fields
    have live : x.health ≠ .off := by rw [f2]; exact nf
    have hh := Stream.countVerdict_health live (s.acp.profiles[e.profile]).silentClear
    have before : x.recovery ≠ 0 → x.health = .recovering := by rw [f3, f2]; exact h.recovery
    have hrec := Stream.countVerdict_recovery before (s.acp.profiles[e.profile]).silentClear
    generalize (s.acp.profiles[e.profile]).silentClear = clear at k hh hrec
    have notOff : (x.countVerdict clear).health ≠ .off := by
      rcases hh with e | e <;> rw [e] <;> simp
    have d1 : (x.countVerdict clear).definition = some e := by
      rw [Stream.countVerdict_eq]; exact f1.trans he
    refine Stream.contextKept.of_same (x := x.countVerdict clear) ?_ k ?_
    · refine ⟨⟨fun k => absurd k notOff, fun k => by rw [d1] at k; cases k⟩, ?_, ?_, ?_, ?_,
        fun k => absurd k notOff, hrec, fun k => absurd k notOff⟩
      · intro d' k; rw [d1] at k; exact h.valid d' (he.trans k)
      · rw [Stream.countVerdict_eq]; show windowKept x.expected x.window; rw [f4, f5]; exact win
      · intro k; rcases hh with e | e <;> rw [e] at k <;> simp at k
      · rw [Stream.countVerdict_eq]; show x.staleCount ≤ _; rw [f6]; exact stale
    · intro off; rw [k.health] at off; exact absurd off notOff
  · intro h
    have t1 : sameTallies (s.stream i) ((s.stream i).placedBy d c p q due).1 := by
      rw [Stream.placedBy_fst]; exact ⟨rfl, rfl, rfl, rfl⟩
    have t2 := (h.of_eq t1).addGroup s.tst.totalModes _ (balanced_verdictGroup (s.stream i) d c p q a due)
    refine Stream.talliesKept.of_eq (t2.of_eq ?_) k.sameTallies
    rw [Stream.countVerdict_eq]; exact ⟨rfl, rfl, rfl, rfl⟩
  · intro v h
    have hv := v e.profile
    refine countsOk.of_same (Stream.countVerdict_counts (h.of_eq ?_ ?_ ?_) hv.2.2.2) k
    · rw [Stream.addGroup_misses, Stream.placedBy_fst]
    · rw [Stream.addGroup_health, Stream.placedBy_fst]
    · rw [Stream.addGroup_recovery, Stream.placedBy_fst]
  · intro h k
    have nf := h.live he
    rw [State.takeVerdict_eq]
    refine State.countVerdict_silent _ _ (State.postGroup_silent _ _ _ ?_ ?_)
    · rw [State.stream_setStream_same, Stream.placedBy_fst]
      intro e'; exact absurd (h.defined.2 e') nf
    · rw [State.stream_setStream_same]
      exact k.of_eq (by rw [Stream.placedBy_fst]) (by rw [Stream.placedBy_fst])

theorem balanced_anomalyPosts (c : ArrivalCase) : balanced (anomalyPosts c) := by
  cases c <;> exact balanced.nil

/-- An arrival judged is work on its stream alone (R47). -/
theorem State.judgeArrival_keepsOn (s : State) (i : StreamIx) (d : Definition) (p : Path) (q : Seq)
    (a : Time) (hd : (s.stream i).definition = some d) : keepsOn i s (s.judgeArrival i d p q a) := by
  unfold State.judgeArrival
  simp only
  split
  · exact State.takeVerdict_keepsOn s i d d _ p q a _ hd arrivalCase_anchor
  · generalize hc : arrivalCase d.jump (s.stream i) p q = c
    refine setPost_keepsOn s i _ _ ?_ ?_ ?_ ?_ ?_ ?_ (balanced_anomalyPosts c) ?_
    · unfold placeAnomaly; split <;> rfl
    · unfold placeAnomaly; split <;> rfl
    · unfold placeAnomaly; split <;> rfl
    · unfold placeAnomaly; split <;> rfl
    · intro h
      unfold placeAnomaly
      split
      · exact h.slots q _ (by simp)
      · exact ⟨h.defined, h.valid, h.window, h.unheld, arrivalCase_stale hc, h.off, h.recovery, h.quiet⟩
      · exact h
    · unfold placeAnomaly; split <;> exact ⟨rfl, rfl, rfl, rfl⟩
    · intro _ h
      unfold placeAnomaly
      split
      · exact h.of_eq rfl rfl rfl
      · exact h.of_eq rfl rfl rfl
      · exact h

/-- An arrival with its stream's expiries is work on its stream alone (R47). -/
theorem State.arrive_keepsOn (s : State) (i : StreamIx) (p : Path) (q : Seq) (a : Time) :
    keepsOn i s (s.arrive i p q a) := by
  unfold State.arrive
  simp only
  split
  · exact ((State.takeAll_keepsOn s i).trans (State.mark_keepsOn _ _ false)).trans
      (State.judgeArrival_keepsOn _ _ _ _ _ _ (by assumption))
  · exact (State.takeAll_keepsOn s i).trans (State.mark_keepsOn _ _ false)

end Sys2Proof.Machine
end

