-- ==== Sys2Proof/Laws/Apply.lean ====
section
/-! SUPPORT. Work on every stream in turn, and the apply of a staging list: what each leaves of the streams,
and the bounds of the whole part it keeps (`keepsBounds`, `keepsContexts`). -/

namespace Sys2Proof.Machine

/-! ### Bounds of the whole part -/

/-- From s to t the bounds of the tally records, the counts, the notices and the output counts were kept. -/
structure keepsBounds (s t : State) : Prop where
  tallies : talliesKept s → talliesKept t
  counts : countsKept s → countsKept t
  notices : noticesKept s → noticesKept t
  outputs : outputsKept s → outputsKept t

/-- From s to t the stream contexts were kept, and with them the SILENT alarms in line with the health. -/
def keepsContexts (s t : State) : Prop :=
  contextsKept s → contextsKept t ∧ (silentsKept s → silentsKept t)

theorem keepsBounds.refl (s : State) : keepsBounds s s := ⟨id, id, id, id⟩

theorem keepsBounds.trans {s t u : State} (h : keepsBounds s t) (k : keepsBounds t u) : keepsBounds s u :=
  ⟨k.tallies ∘ h.tallies, k.counts ∘ h.counts, k.notices ∘ h.notices, k.outputs ∘ h.outputs⟩

theorem keepsContexts.refl (s : State) : keepsContexts s s := fun h => ⟨h, id⟩

theorem keepsContexts.trans {s t u : State} (h : keepsContexts s t) (k : keepsContexts t u) :
    keepsContexts s u := fun c =>
  ⟨(k (h c).1).1, (k (h c).1).2 ∘ (h c).2⟩

/-- The bounds speak of the streams and the Alarm Comparator alone. -/
theorem keepsBounds.of_same {s t : State} (h1 : t.streams = s.streams) (h2 : t.acp = s.acp) :
    keepsBounds s t := by
  have e : ∀ i, t.stream i = s.stream i := fun i => by unfold State.stream; rw [h1]
  refine ⟨fun h i => by rw [e]; exact h i, fun h => ⟨by rw [h2]; exact h.1, fun i => by rw [e]; exact h.2 i⟩,
    fun h => by unfold noticesKept; rw [h2]; exact h, fun h => ?_⟩
  unfold outputsKept
  simp only [e, h2]
  exact h

theorem keepsContexts.of_same {s t : State} (h1 : t.streams = s.streams) : keepsContexts s t := by
  have e : ∀ i, t.stream i = s.stream i := fun i => by unfold State.stream; rw [h1]
  exact fun h => ⟨fun i => by rw [e]; exact h i, fun k i => by rw [e]; exact k i⟩

theorem keepsOn.bounds {i : StreamIx} {s t : State} (h : keepsOn i s t) : keepsBounds s t where
  tallies := fun k j => by
    by_cases e : j = i
    · subst e; exact h.tallies (k j)
    · rw [h.stream j e]; exact k j
  counts := fun k => ⟨by rw [h.accounts.profiles]; exact k.1, fun j => by
    by_cases e : j = i
    · subst e; exact h.counts k.1 (k.2 j)
    · rw [h.stream j e]; exact k.2 j⟩
  notices := h.notices
  outputs := h.outputs

theorem keepsOn.contexts {i : StreamIx} {s t : State} (h : keepsOn i s t) : keepsContexts s t :=
  fun k => ⟨fun j => by
    by_cases e : j = i
    · subst e; exact h.context (k j)
    · rw [h.stream j e]; exact k j, fun m j => by
    by_cases e : j = i
    · subst e; exact h.silent (k j) (m j)
    · rw [h.stream j e]; exact m j⟩

theorem State.post_keepsOn (s : State) (n : Notice) (i : StreamIx) : keepsOn i s (s.post n) :=
  ⟨⟨s.post_worksOn n i, id, id, fun _ => id⟩, fun _ => id⟩

/-! ### Every stream in turn -/

/-- Work of the kind P on every index of a list does work of the kind P, if P composes. -/
theorem foldl_keeps {α β : Type} {P : β → β → Prop} (refl : ∀ b, P b b)
    (trans : ∀ {a b c}, P a b → P b c → P a c) {f : β → α → β} (h : ∀ b a, P b (f b a)) (l : List α)
    (b : β) : P b (l.foldl f b) := by
  induction l generalizing b with
  | nil => exact refl b
  | cons a l ih => exact trans (h b a) (ih _)

/-- What work on each stream in turn leaves: stream i is as its own turn leaves it, found as it stood; a
property P of the rest of the part holds at every turn. -/
theorem State.eachStream_stream {f : StreamIx → State → State} {P : State → Prop}
    (hP : ∀ i s, P s → P (f i s)) (hf : ∀ i s, onlyStream i s (f i s)) (s : State) (hs : P s)
    (i : StreamIx) :
    ∃ u, P u ∧ u.stream i = s.stream i ∧ (s.eachStream f).stream i = (f i u).stream i := by
  have aside : ∀ (l : List StreamIx) (v : State), i ∉ l →
      (l.foldl (fun t j => f j t) v).stream i = v.stream i := by
    intro l
    induction l with
    | nil => intro v _; rfl
    | cons j l ih =>
      intro v hi
      simp only [List.mem_cons, not_or] at hi
      rw [List.foldl_cons, ih _ hi.2]
      exact hf j v i hi.1
  have main : ∀ (l : List StreamIx) (v : State), P v → l.Nodup → i ∈ l →
      ∃ u, P u ∧ u.stream i = v.stream i ∧ (l.foldl (fun t j => f j t) v).stream i = (f i u).stream i := by
    intro l
    induction l with
    | nil => intro v _ _ hi; cases hi
    | cons j l ih =>
      intro v hv nd hi
      rw [List.nodup_cons] at nd
      rw [List.foldl_cons]
      by_cases e : i = j
      · subst e
        exact ⟨v, hv, rfl, aside l _ nd.1⟩
      · obtain ⟨u, h1, h2, h3⟩ := ih (f j v) (hP j v hv) nd.2 ((List.mem_cons.1 hi).resolve_left e)
        exact ⟨u, h1, h2.trans (hf j v i e), h3⟩
  exact main allStreams s hs (List.nodup_finRange 256) (List.mem_finRange i)

theorem State.eachLive_keeps {P : State → State → Prop} (refl : ∀ s, P s s)
    (trans : ∀ {a b c}, P a b → P b c → P a c) {f : StreamIx → State → State}
    (h : ∀ i s, (s.stream i).health ≠ .off → P s (f i s)) (s : State) : P s (s.eachLive f) :=
  foldl_keeps refl trans (fun t i => by
    show P t (if _ then _ else _)
    split
    · exact refl t
    · exact h i t (by assumption)) _ _

/-- What work on each stream not OFF leaves of stream i. -/
theorem State.eachLive_stream {f : StreamIx → State → State} {P : State → Prop}
    (hP : ∀ i s, (s.stream i).health ≠ .off → P s → P (f i s))
    (hf : ∀ i s, (s.stream i).health ≠ .off → onlyStream i s (f i s)) (s : State) (hs : P s)
    (i : StreamIx) :
    ((s.stream i).health = .off → (s.eachLive f).stream i = s.stream i)
      ∧ ((s.stream i).health ≠ .off → ∃ u, P u ∧ u.stream i = s.stream i
        ∧ (s.eachLive f).stream i = (f i u).stream i) := by
  obtain ⟨u, h1, h2, h3⟩ := State.eachStream_stream (P := P)
    (f := fun i t => if (t.stream i).health = .off then t else f i t)
    (fun i t ht => by
      show P (if _ then _ else _)
      split
      · exact ht
      · exact hP i t (by assumption) ht)
    (fun i t => by
      show onlyStream i t (if _ then _ else _)
      split
      · exact .refl i t
      · exact hf i t (by assumption)) s hs i
  simp only [h2] at h3
  constructor
  · intro k; rw [if_pos k] at h3; exact h3.trans h2
  · intro k; rw [if_neg k] at h3; exact ⟨u, h1, h2, h3⟩

/-! ### Flush of all, re-base of all -/

theorem State.restart_accounts (s : State) (i : StreamIx) :
    onlyAccounts s ((s.flush i).makeUnanchored i) := (State.restart_worksOn s i).accounts

theorem State.flushAll_accounts (s : State) : onlyAccounts s s.flushAll :=
  State.eachLive_keeps .refl .trans (fun i s _ => State.restart_accounts s i) s

theorem State.flushAll_grows (s : State) : noticesGrow s s.flushAll :=
  State.eachLive_keeps .refl .trans (fun i s _ => (State.restart_worksOn s i).grows) s

theorem State.flushAll_bounds (s : State) : keepsBounds s s.flushAll :=
  State.eachLive_keeps .refl .trans (fun i s h => (State.restart_keepsOn s i h).bounds) s

theorem State.flushAll_contexts (s : State) : keepsContexts s s.flushAll :=
  State.eachLive_keeps .refl .trans (fun i s h => (State.restart_keepsOn s i h).contexts) s

/-- A flush of all restarts every stream that is not OFF and leaves the others (R43, R95). -/
theorem State.flushAll_stream (s : State) (i : StreamIx) :
    ((s.stream i).health = .off → s.flushAll.stream i = s.stream i)
      ∧ ((s.stream i).health ≠ .off →
        ((s.stream i).restarted s.tst.totalModes).sameButAlarms (s.flushAll.stream i)) := by
  obtain ⟨h1, h2⟩ := State.eachLive_stream (P := fun t => t.tst = s.tst)
    (fun i t _ h => (State.restart_accounts t i).tst.trans h)
    (fun i t _ => (State.restart_worksOn t i).stream) s rfl i
  refine ⟨h1, fun k => ?_⟩
  obtain ⟨u, hu, e, h3⟩ := h2 k
  have h := State.restart_stream u i
  rw [e, hu] at h
  unfold State.flushAll
  rw [h3]
  exact h

/-! ### The takings left -/

/-- While line time stands frozen there is nothing left to take (R86). -/
theorem State.takeRest_frozen (s : State) (h : s.timeRuns = false) : s.takeRest = s := by
  unfold State.takeRest; rw [h]; rfl

theorem State.takeRest_keeps {P : State → State → Prop} (refl : ∀ s, P s s)
    (trans : ∀ {a b c}, P a b → P b c → P a c) (h : ∀ i s, P s (State.finishTaking s i)) (s : State) :
    P s s.takeRest := by
  unfold State.takeRest
  split
  · exact State.eachLive_keeps refl trans (fun i s _ => h i s) s
  · exact refl s

theorem State.takeRest_accounts (s : State) : onlyAccounts s s.takeRest :=
  State.takeRest_keeps .refl .trans (fun i s => (State.finishTaking_keepsOn s i).accounts) s

theorem State.takeRest_grows (s : State) : noticesGrow s s.takeRest :=
  State.takeRest_keeps .refl .trans (fun i s => (State.finishTaking_keepsOn s i).grows) s

theorem State.takeRest_bounds (s : State) : keepsBounds s s.takeRest :=
  State.takeRest_keeps .refl .trans (fun i s => (State.finishTaking_keepsOn s i).bounds) s

theorem State.takeRest_contexts (s : State) : keepsContexts s s.takeRest :=
  State.takeRest_keeps .refl .trans (fun i s => (State.finishTaking_keepsOn s i).contexts) s

/-- What is left to take is taken of each stream whose taking is under way, as its own taking takes it, and the
taking ends there; any other stream stands (R71, R73, R86). -/
theorem State.takeRest_stream (s : State) (h : s.timeRuns = true) (i : StreamIx) :
    ((s.stream i).health = .off ∨ (s.stream i).taking = false → s.takeRest.stream i = s.stream i)
      ∧ ((s.stream i).health ≠ .off → (s.stream i).taking = true → ∃ u, onlyAccounts s u
        ∧ (countsKept s → countsKept u) ∧ u.stream i = s.stream i
        ∧ s.takeRest.stream i = { (u.takeAll i).stream i with taking := false }) := by
  unfold State.takeRest
  rw [if_pos h]
  obtain ⟨h1, h2⟩ := State.eachLive_stream (P := fun t => onlyAccounts s t ∧ (countsKept s → countsKept t))
    (fun i t _ k => ⟨k.1.trans (State.finishTaking_keepsOn t i).accounts,
      (State.finishTaking_keepsOn t i).bounds.counts ∘ k.2⟩)
    (fun i t _ => (State.finishTaking_keepsOn t i).stream) s ⟨.refl s, id⟩ i
  constructor
  · rintro (k | k)
    · exact h1 k
    · by_cases off : (s.stream i).health = .off
      · exact h1 off
      · obtain ⟨u, _, e, f⟩ := h2 off
        rw [f, State.finishTaking_stands u i (by rw [e]; exact k), e]
  · intro k m
    obtain ⟨u, a, e, f⟩ := h2 k
    refine ⟨u, a.1, a.2, e, ?_⟩
    rw [f]
    unfold State.finishTaking State.endTaking
    rw [if_pos (by rw [e]; exact m), State.updStream_eq, State.stream_setStream_same]

/-- While no taking is under way there is nothing left to take (R71, R86). -/
theorem State.takeRest_none (s : State) (h : ∀ i, (s.stream i).taking = false) : s.takeRest = s := by
  have still : ∀ l : List StreamIx, l.foldl (fun t i =>
      if (t.stream i).health = .off then t else t.finishTaking i) s = s := by
    intro l
    induction l with
    | nil => rfl
    | cons i l ih => rw [List.foldl_cons, s.finishTaking_stands i (h i), ite_self]; exact ih
  unfold State.takeRest
  split
  · exact still _
  · rfl

theorem State.rebase_keepsOn (s : State) (i : StreamIx) : keepsOn i s (s.rebase i) := by
  unfold State.rebase
  rw [State.updStream_eq]
  split
  · exact setStream_keepsOn s i _ rfl rfl rfl rfl (fun h => h.cursor _) (fun h => h.of_eq ⟨rfl, rfl, rfl, rfl⟩)
      fun _ h => h.of_eq rfl rfl rfl
  · rw [State.setStream_self]; exact .refl i s

theorem State.rebaseAll_accounts (s : State) : onlyAccounts s s.rebaseAll :=
  State.eachLive_keeps .refl .trans (fun i s _ => (State.rebase_keepsOn s i).accounts) s

theorem State.rebaseAll_grows (s : State) : noticesGrow s s.rebaseAll :=
  State.eachLive_keeps .refl .trans (fun i s _ => (State.rebase_keepsOn s i).grows) s

theorem State.rebaseAll_bounds (s : State) : keepsBounds s s.rebaseAll :=
  State.eachLive_keeps .refl .trans (fun i s _ => (State.rebase_keepsOn s i).bounds) s

theorem State.rebaseAll_contexts (s : State) : keepsContexts s s.rebaseAll :=
  State.eachLive_keeps .refl .trans (fun i s _ => (State.rebase_keepsOn s i).contexts) s

/-- A re-base of all moves the cursor of every stream that is not OFF, and nothing else of it (R84, R85). -/
theorem State.rebaseAll_stream (s : State) (i : StreamIx) :
    ((s.stream i).health = .off → s.rebaseAll.stream i = s.stream i)
      ∧ ((s.stream i).health ≠ .off → ∀ d, (s.stream i).definition = some d →
        s.rebaseAll.stream i =
          { s.stream i with cursor := rebasedCursor d (s.stream i).cursor s.link.lineTime }) := by
  obtain ⟨h1, h2⟩ := State.eachLive_stream (f := fun i t => t.rebase i) (P := fun t => t.link = s.link)
    (fun i t _ h => (State.rebase_keepsOn t i).accounts.link.trans h)
    (fun i t _ => (State.rebase_keepsOn t i).stream) s rfl i
  refine ⟨h1, fun k d hd => ?_⟩
  obtain ⟨u, hu, e, h3⟩ := h2 k
  unfold State.rebaseAll
  rw [h3]
  unfold State.rebase
  rw [State.updStream_eq, State.stream_setStream_same, e, hu]
  generalize s.stream i = x at hd
  cases x
  simp only at hd
  subst hd
  rfl

/-! ### The steps of an apply -/

/-- Stream x as a DEFINE entry leaves it, but for its alarms (R170). -/
def Stream.afterDefine (modes : Vector TotalMode 16) (d : Definition) (t : Time) (x : Stream) : Stream :=
  let grid : Stream := { x.addGroup modes ⟨flushPosts x, none⟩ with
    definition := some d, window := [], staleCount := 0, health := .unanchored, misses := 0, recovery := 0
    testLoss := false, cursor := timeShift t d.phase }
  if d.keepTallies then grid else grid.clearTallies

/-- Stream x as a REMOVE entry leaves it, but for its alarms (R171). -/
def Stream.afterRemove (modes : Vector TotalMode 16) (x : Stream) : Stream :=
  { x.addGroup modes ⟨flushPosts x, none⟩ with
    definition := none, taking := false, window := [], staleCount := 0, health := .off, misses := 0, recovery := 0
    testLoss := false }

/-- A flush without its evaluation, of a stream written with its record and its window as they were. -/
theorem State.flushQuiet_stream (s : State) (i : StreamIx) (x : Stream)
    (h : sameTallies (s.stream i) x) (hw : x.window = (s.stream i).window) :
    ((s.setStream i x).flushQuiet i).stream i = { x with
      window := [], staleCount := 0
      interval := ((s.stream i).addGroup s.tst.totalModes ⟨flushPosts (s.stream i), none⟩).interval
      totals := ((s.stream i).addGroup s.tst.totalModes ⟨flushPosts (s.stream i), none⟩).totals
      terminal := ((s.stream i).addGroup s.tst.totalModes ⟨flushPosts (s.stream i), none⟩).terminal
      lateness := ((s.stream i).addGroup s.tst.totalModes ⟨flushPosts (s.stream i), none⟩).lateness } := by
  have f : flushPosts x = flushPosts (s.stream i) := by
    unfold flushPosts Stream.outstanding; rw [hw]
  unfold State.flushQuiet
  rw [State.takePosts_stream, State.updStream_eq, State.stream_setStream_same, State.stream_setStream_same,
    f, Stream.addGroup_of_sameTallies (x := s.stream i) (y := x.emptied) _ _ h]
  rfl

theorem State.flushQuiet_worksOn (s : State) (i : StreamIx) : worksOn i s (s.flushQuiet i) :=
  (setStream_worksOn s i (s.stream i).emptied rfl rfl).trans (State.takePosts_worksOn _ _ _)

theorem updStream_worksOn (s : State) (i : StreamIx) (f : Stream → Stream)
    (h1 : ∀ x, (f x).lampShare = x.lampShare) (h2 : ∀ x, (f x).lineShare = x.lineShare) :
    worksOn i s (s.updStream i f) := setStream_worksOn s i _ (h1 _) (h2 _)

theorem State.applyDefine_worksOn (s : State) (i : StreamIx) (d : Definition) (t : Time) :
    worksOn i s (s.applyDefine i d t) := by
  unfold State.applyDefine
  simp only
  have h := ((updStream_worksOn s i (fun x => { x with definition := some d }) (fun _ => rfl)
    fun _ => rfl).trans (State.flushQuiet_worksOn _ i)).trans
      (updStream_worksOn _ i (Stream.defined d t) (fun _ => rfl) fun _ => rfl)
  refine .trans ?_ (State.evaluateAll_worksOn _ _)
  split
  · exact h
  · exact h.trans (updStream_worksOn _ i Stream.clearTallies (fun _ => rfl) fun _ => rfl)

theorem State.applyDefine_stream (s : State) (i : StreamIx) (d : Definition) (t : Time) :
    ((s.stream i).afterDefine s.tst.totalModes d t).sameButAlarms ((s.applyDefine i d t).stream i) := by
  unfold State.applyDefine
  simp only
  rw [State.evaluateAll_stream]
  refine Stream.sameButAlarms.trans ?_ (Stream.evaluated_same _ _ _)
  have h := State.flushQuiet_stream s i { s.stream i with definition := some d } ⟨rfl, rfl, rfl, rfl⟩ rfl
  unfold Stream.afterDefine
  rw [Stream.addGroup_eq]
  rw [State.updStream_eq s]
  split
  · rw [State.updStream_eq, State.stream_setStream_same, h]; rfl
  · rw [State.updStream_eq, State.updStream_eq, State.stream_setStream_same, State.stream_setStream_same, h]
    rfl

theorem State.applyRemove_worksOn (s : State) (i : StreamIx) : worksOn i s (s.applyRemove i) := by
  unfold State.applyRemove
  split
  · exact .refl i s
  · exact ((setStream_worksOn s i (s.stream i).removed rfl rfl).trans
      (State.flushQuiet_worksOn _ i)).trans (State.evaluate_worksOn _ _ _ _)

theorem State.applyRemove_stream (s : State) (i : StreamIx) (h : (s.stream i).definition ≠ none) :
    ((s.stream i).afterRemove s.tst.totalModes).sameButAlarms ((s.applyRemove i).stream i)
      ∧ ((s.applyRemove i).stream i).alarms = AlarmStates.clear := by
  unfold State.applyRemove
  split
  · contradiction
  · simp only
    rw [State.evaluate_stream, State.updStream_eq]
    have k := State.flushQuiet_stream s i (s.stream i).removed ⟨rfl, rfl, rfl, rfl⟩ rfl
    rw [k]
    constructor
    · unfold Stream.afterRemove; rw [Stream.addGroup_eq]; rfl
    · exact newStates_off_all _ _ rfl

/-! ### What an apply keeps -/

theorem recordKept.clear {x : Stream} (h1 : x.interval = Vector.replicate 16 0)
    (h2 : x.totals = Vector.replicate 16 0) (h3 : x.lateness = none) : x.talliesKept := by
  have i0 : ∀ f : Fin 16, x.interval[f] = 0 := fun f => by rw [h1]; simp
  have t0 : ∀ f : Fin 16, x.totals[f] = 0 := fun f => by rw [h2]; simp
  refine ⟨?_, ?_, ?_, ?_, ?_, ?_⟩
  · intro f; rw [i0]; exact Nat.zero_le _
  · intro f; rw [t0]; exact Nat.zero_le _
  · intro f k; rw [t0] at k; simp [totalTop] at k
  · unfold Stream.tally; rw [i0]; exact Nat.zero_le _
  · unfold Stream.tally; rw [i0]; exact Nat.zero_le _
  · intro l k; rw [h3] at k; cases k

/-- A DEFINE entry is evaluated under its new definition, and its SILENT alarm goes with the health (R170). -/
theorem State.applyDefine_silent (s : State) (i : StreamIx) (d : Definition) (t : Time) :
    ((s.applyDefine i d t).stream i).silentKept := by
  have e := (State.applyDefine_stream s i d t).definition
  unfold State.applyDefine at e ⊢
  simp only at e ⊢
  refine State.evaluateAll_silent _ _ fun k => ?_
  rw [State.evaluateAll_stream, (Stream.evaluated_same _ _ _).definition, k] at e
  unfold Stream.afterDefine at e
  simp only at e
  split at e <;> cases e

theorem State.applyDefine_keeps (s : State) (i : StreamIx) (d : Definition) (t : Time) :
    keepsBounds s (s.applyDefine i d t) ∧ (d.valid → keepsContexts s (s.applyDefine i d t)) := by
  have w := State.applyDefine_worksOn s i d t
  have e := State.applyDefine_stream s i d t
  have hm : ((s.stream i).afterDefine s.tst.totalModes d t).health = .unanchored
      ∧ ((s.stream i).afterDefine s.tst.totalModes d t).misses = 0
      ∧ ((s.stream i).afterDefine s.tst.totalModes d t).recovery = 0
      ∧ ((s.stream i).afterDefine s.tst.totalModes d t).definition = some d
      ∧ ((s.stream i).afterDefine s.tst.totalModes d t).window = []
      ∧ ((s.stream i).afterDefine s.tst.totalModes d t).staleCount = 0 := by
    unfold Stream.afterDefine; simp only; split <;> exact ⟨rfl, rfl, rfl, rfl, rfl, rfl⟩
  refine ⟨⟨fun h j => ?_, fun h => ⟨by rw [w.accounts.profiles]; exact h.1, fun j => ?_⟩, w.notices,
    w.outputs⟩, fun hv h => ⟨fun j => ?_, fun m j => ?_⟩⟩
  · by_cases k : j = i
    · subst k
      refine Stream.talliesKept.of_eq ?_ e.sameTallies
      unfold Stream.afterDefine
      simp only
      split
      · exact ((h j).addGroup s.tst.totalModes _ (balanced_flushPosts _)).of_eq ⟨rfl, rfl, rfl, rfl⟩
      · exact recordKept.clear rfl rfl rfl
    · rw [w.stream j k]; exact h j
  · by_cases k : j = i
    · subst k
      refine countsOk.of_same (x := (s.stream j).afterDefine s.tst.totalModes d t) ?_ e
      exact ⟨by rw [hm.2.1]; exact Nat.zero_le _, fun _ => by rw [hm.2.1]; exact Nat.zero_le _,
        by rw [hm.2.2.1]; exact Nat.zero_le _⟩
    · rw [w.stream j k]; exact h.2 j
  · by_cases k : j = i
    · subst k
      refine Stream.contextKept.of_same (x := (s.stream j).afterDefine s.tst.totalModes d t) ?_ e ?_
      · obtain ⟨m1, m2, m3, m4, m5, m6⟩ := hm
        refine ⟨?_, ?_, ?_, fun _ => m5, ?_, ?_, fun k => absurd m3 k, ?_⟩
        · rw [m1, m4]; simp
        · intro d' k; rw [m4] at k; cases k; exact hv
        · rw [m5]; exact .nil _
        · rw [m6]; exact Nat.zero_le _
        · intro k; rw [m1] at k; cases k
        · intro k; rw [m1] at k; cases k
      · intro k; rw [e.health, hm.1] at k; cases k
    · rw [w.stream j k]; exact h j
  · by_cases k : j = i
    · subst k
      exact State.applyDefine_silent s j d t
    · rw [w.stream j k]; exact m j

theorem State.applyRemove_keepsOn (s : State) (i : StreamIx) : keepsOn i s (s.applyRemove i) := by
  have w := State.applyRemove_worksOn s i
  by_cases hd : (s.stream i).definition = none
  · have e : s.applyRemove i = s := by unfold State.applyRemove; rw [hd]
    rw [e]; exact .refl i s
  · obtain ⟨e, ha⟩ := State.applyRemove_stream s i hd
    refine ⟨⟨w, fun _ => ?_, fun h => ?_, fun _ _ => ?_⟩, fun _ _ => ?_⟩
    · refine Stream.contextKept.of_same
        (x := { (s.stream i).afterRemove s.tst.totalModes with alarms := AlarmStates.clear }) ?_ e fun _ => ha
      exact ⟨⟨fun _ => rfl, fun _ => rfl⟩, fun _ k => (by cases k), .nil _, fun _ => rfl, Nat.zero_le _,
        fun _ => ⟨rfl, rfl, rfl⟩, fun k => absurd rfl k, fun _ => rfl⟩
    · refine Stream.talliesKept.of_eq ?_ e.sameTallies
      exact (h.addGroup s.tst.totalModes _ (balanced_flushPosts _)).of_eq ⟨rfl, rfl, rfl, rfl⟩
    · refine countsOk.of_same (x := (s.stream i).afterRemove s.tst.totalModes) ?_ e
      exact ⟨Nat.zero_le _, fun _ => Nat.zero_le _, Nat.zero_le _⟩
    · unfold Stream.silentKept
      rw [ha, e.health]
      simp [AlarmStates.clear, Stream.afterRemove]

theorem State.applyEntry_worksOn (s : State) (t : Time) (e : StageEntry) :
    worksOn e.index s (s.applyEntry t e) := by
  cases e with
  | define i d => exact State.applyDefine_worksOn s i d t
  | remove i => exact State.applyRemove_worksOn s i

theorem State.applyEntry_keeps (s : State) (t : Time) (e : StageEntry) :
    keepsBounds s (s.applyEntry t e) ∧ (e.valid → keepsContexts s (s.applyEntry t e)) := by
  cases e with
  | define i d => exact State.applyDefine_keeps s i d t
  | remove i =>
    have h := State.applyRemove_keepsOn s i
    exact ⟨h.bounds, fun _ => h.contexts⟩

theorem applyEntries_accounts (t : Time) (es : List StageEntry) (s : State) :
    onlyAccounts s (es.foldl (State.applyEntry t) s) :=
  foldl_keeps .refl .trans (fun s e => (State.applyEntry_worksOn s t e).accounts) es s

theorem applyEntries_grows (t : Time) (es : List StageEntry) (s : State) :
    noticesGrow s (es.foldl (State.applyEntry t) s) :=
  foldl_keeps .refl .trans (fun s e => (State.applyEntry_worksOn s t e).grows) es s

theorem applyEntries_bounds (t : Time) (es : List StageEntry) (s : State) :
    keepsBounds s (es.foldl (State.applyEntry t) s) :=
  foldl_keeps .refl .trans (fun s e => (State.applyEntry_keeps s t e).1) es s

theorem applyEntries_contexts (t : Time) (es : List StageEntry) (h : ∀ e ∈ es, e.valid) (s : State) :
    keepsContexts s (es.foldl (State.applyEntry t) s) := by
  induction es generalizing s with
  | nil => exact .refl s
  | cons e es ih =>
    exact ((State.applyEntry_keeps s t e).2 (h e (by simp))).trans
      (ih (fun e' k => h e' (List.mem_cons_of_mem _ k)) _)

/-- The end of an apply changes nothing of the streams and of the Alarm Comparator's bounds. -/
theorem State.applyEnd_keeps (s : State) : keepsBounds s s.applyEnd ∧ keepsContexts s s.applyEnd := by
  have h := ({ s with scheduleValid := true }.emptyStaging).post_keepsOn .applied 0
  have b : keepsBounds s ({ s with scheduleValid := true } : State).emptyStaging := .of_same rfl rfl
  have c : keepsContexts s ({ s with scheduleValid := true } : State).emptyStaging := .of_same rfl
  exact ⟨b.trans h.bounds, c.trans h.contexts⟩

theorem State.applyList_bounds (s : State) (t : Time) : keepsBounds s (s.applyList t) :=
  (applyEntries_bounds t _ s).trans (State.applyEnd_keeps _).1

theorem State.applyList_contexts (s : State) (t : Time) (h : s.staging.kept) :
    keepsContexts s (s.applyList t) :=
  (applyEntries_contexts t _ h.valid s).trans (State.applyEnd_keeps _).2

/-! ### Offers and edges -/

theorem State.offer_bounds (s : State) : keepsBounds s s.offer := by
  unfold State.offer
  split
  · split
    · exact State.applyList_bounds _ _
    · exact .refl s
  · exact .refl s

theorem State.offer_contexts (s : State) (h : s.staging.kept) : keepsContexts s s.offer := by
  unfold State.offer
  split
  · split
    · exact State.applyList_contexts _ _ h
    · exact .refl s
  · exact .refl s

theorem State.changeoverEdge_bounds (s : State) : keepsBounds s s.changeoverEdge := by
  unfold State.changeoverEdge
  split
  · exact (s.post_keepsOn _ 0).bounds
  · exact State.applyList_bounds _ _
  · exact (s.post_keepsOn _ 0).bounds

theorem State.changeoverEdge_contexts (s : State) (h : s.staging.kept) :
    keepsContexts s s.changeoverEdge := by
  unfold State.changeoverEdge
  split
  · exact (s.post_keepsOn _ 0).contexts
  · exact State.applyList_contexts _ _ h
  · exact (s.post_keepsOn _ 0).contexts

end Sys2Proof.Machine
end

