-- ==== Sys2Proof/Laws/Bytes.lean ====
section
/-! SUPPORT. Numbers and their bytes, the quotient rounded up, and the CRC-16 one bit at a time. -/

namespace Sys2Proof.Machine

/-! ### Bytes, most significant first -/

@[simp] theorem bytesBE_length (n v : Nat) : (bytesBE n v).length = n := by
  induction n with
  | zero => rfl
  | succ n h => simp [bytesBE, h]

/-- Byte j of n bytes holds the bits of v from 8 (n − 1 − j) on (R183). -/
theorem bytesBE_getElem? (n v j : Nat) (h : j < n) :
    (bytesBE n v)[j]? = some (BitVec.ofNat 8 (v / 256 ^ (n - 1 - j))) := by
  induction n generalizing j with
  | zero => exact absurd h (Nat.not_lt_zero j)
  | succ n ih =>
    cases j with
    | zero => simp [bytesBE]
    | succ j =>
      simp only [bytesBE, List.getElem?_cons_succ]
      rw [ih j (Nat.lt_of_succ_lt_succ h)]
      have : n - 1 - j = n + 1 - 1 - (j + 1) := by omega
      rw [this]

@[simp] theorem bytesBE_one (v : Nat) : bytesBE 1 v = [BitVec.ofNat 8 v] := by simp [bytesBE]

@[simp] theorem natBE_one (a : Byte) : natBE [a] = a.toNat := by simp [natBE]

theorem natBE_two (a b : Byte) : natBE [a, b] = a.toNat * 256 + b.toNat := by simp [natBE]

theorem natBE_four (a b c d : Byte) :
    natBE [a, b, c, d] = (a.toNat * 256 + b.toNat) * 65536 + (c.toNat * 256 + d.toNat) := by
  simp [natBE]; omega

/-- A word with one byte more at its low end, as a number. -/
theorem toNat_append_byte {w : Nat} (x : BitVec w) (b : Byte) : (x ++ b).toNat = x.toNat * 256 + b.toNat := by
  rw [BitVec.toNat_append, ← Nat.shiftLeft_add_eq_or_of_lt b.isLt, Nat.shiftLeft_eq]

/-! ### The quotient rounded up -/

/-- The quotient of R80 and R84 is the one rounded up. -/
theorem ceilDiv_roundedUp (n p : Int) (h : 0 < p) : roundedUp n p (ceilDiv n p) := by
  have r := Int.emod_nonneg (-n) (by omega : p ≠ 0)
  have l := Int.emod_lt_of_pos (-n) h
  have e := Int.mul_ediv_add_emod (-n) p
  have k : ceilDiv n p * p = -(p * (-n / p)) := by unfold ceilDiv; rw [Int.neg_mul, Int.mul_comm]
  unfold roundedUp
  rw [Int.sub_mul, k]
  omega

/-! ### CRC-16 -/

/-- One bit taken into the CRC register (R2). -/
def crcBit (r : BitVec 16) (b : Bool) : BitVec 16 := (r <<< 1) ^^^ (if r.msb = b then 0 else 0x1021)

/-- A shift of the register with bits waiting in its high end takes the highest of them. -/
theorem crcShift_xor (r x : BitVec 16) : crcShift (r ^^^ x) = crcBit r x.msb ^^^ (x <<< 1) := by
  unfold crcShift crcBit
  rw [BitVec.msb_xor, BitVec.shiftLeft_xor_distrib]
  cases r.msb <;> cases x.msb <;> simp <;> ac_rfl

/-- A byte is taken into the CRC most significant bit first (R2). -/
theorem crcByte_eq (r : BitVec 16) (b : Byte) :
    crcByte r b = ([7, 6, 5, 4, 3, 2, 1, 0].map b.getLsbD).foldl crcBit r := by
  have e (k : Nat) (h : k < 8) : ((b.zeroExtend 16 <<< 8) <<< k).msb = b.getLsbD (7 - k) := by
    interval_cases k <;> simp [BitVec.msb_eq_getLsbD_last]
  have z : (b.zeroExtend 16 <<< 8) <<< 8 = 0#16 := by ext k; simp
  simp only [crcByte, crcShifts, crcShift_xor, List.map, List.foldl, ← BitVec.shiftLeft_add, Nat.reduceAdd]
  have e0 := e 0; have e1 := e 1; have e2 := e 2; have e3 := e 3
  have e4 := e 4; have e5 := e 5; have e6 := e 6; have e7 := e 7
  simp only [← BitVec.shiftLeft_add, Nat.reduceAdd, Nat.reduceLT, forall_const, Nat.reduceSub]
    at e0 e1 e2 e3 e4 e5 e6 e7 z
  rw [e0, e1, e2, e3, e4, e5, e6, e7, z, BitVec.xor_zero]

/-- The CRC of a run of bytes is that of its bits (R2). -/
theorem crc16_eq (bs : List Byte) :
    crc16 bs = (bs.flatMap fun b => [7, 6, 5, 4, 3, 2, 1, 0].map b.getLsbD).foldl crcBit 0xFFFF := by
  unfold crc16
  generalize (0xFFFF : BitVec 16) = r
  induction bs generalizing r with
  | nil => rfl
  | cons b bs ih => rw [List.foldl_cons, List.flatMap_cons, List.foldl_append, ← crcByte_eq, ih]

end Sys2Proof.Machine
end

