-- ==== Sys2Proof/Laws/Jump.lean ====
section
/-! SUPPORT. The steps of an accepted jump: the window they leave, with its last eight OUTSTANDING slots, and
the posts they make (R39 to R41, R49). -/

namespace Sys2Proof.Machine

/-! ### The last eight -/

theorem outstandingCount_cons (s : Slot) (w : List Slot) :
    outstandingCount (s :: w) = (if s.isOutstanding then 1 else 0) + outstandingCount w := by
  unfold outstandingCount
  rw [List.filter_cons]
  split
  · simp only [List.length_cons]; omega
  · omega

theorem lastEight_cons (s : Slot) (w : List Slot) : lastEight (s :: w) =
    (if s.isOutstanding ∧ 8 ≤ outstandingCount w then ⟨s.seq, .dropped⟩ else s) :: lastEight w := rfl

theorem lastEight_few {w : List Slot} (h : outstandingCount w ≤ 8) : lastEight w = w := by
  induction w with
  | nil => rfl
  | cons s w ih =>
    rw [outstandingCount_cons] at h
    rw [lastEight_cons, ih (by omega), if_neg]
    rintro ⟨h1, h2⟩
    rw [if_pos h1] at h; omega

theorem outstandingCount_lastEight (w : List Slot) :
    outstandingCount (lastEight w) = min 8 (outstandingCount w) := by
  induction w with
  | nil => rfl
  | cons s w ih =>
    have hd : Slot.isOutstanding ⟨s.seq, .dropped⟩ = false := rfl
    rw [lastEight_cons, outstandingCount_cons s]
    by_cases h : s.isOutstanding = true
    · by_cases k : 8 ≤ outstandingCount w
      · rw [if_pos ⟨h, k⟩, outstandingCount_cons, hd, ih, if_pos h, if_neg (by decide)]; omega
      · rw [if_neg (fun c => k c.2), outstandingCount_cons, ih, if_pos h]; omega
    · rw [if_neg (fun c => h c.1), outstandingCount_cons, ih, if_neg h]; omega

theorem lastEight_seqs (w : List Slot) : (lastEight w).map Slot.seq = w.map Slot.seq := by
  induction w with
  | nil => rfl
  | cons s w ih =>
    rw [lastEight_cons, List.map_cons, List.map_cons, ih]
    split <;> rfl

theorem missedPath_dropped (b : Bool) (s : Slot) (h : s.isOutstanding = true) :
    missedPath b s = missedPath b ⟨s.seq, .dropped⟩ := by
  unfold Slot.isOutstanding at h
  unfold missedPath
  split at h
  · rename_i e; rw [e]; cases b <;> rfl
  · cases h

/-- What stands before the last slots does not reach them, and what leaves with it is as it was (R41). -/
theorem lastEight_append (a b : List Slot) :
    ∃ a', lastEight (a ++ b) = a' ++ lastEight b ∧ a'.map Slot.seq = a.map Slot.seq
      ∧ ∀ t, a'.flatMap (missedPath t) = a.flatMap (missedPath t) := by
  induction a with
  | nil => exact ⟨[], rfl, rfl, fun _ => rfl⟩
  | cons s a ih =>
    obtain ⟨a', h1, h2, h3⟩ := ih
    refine ⟨(if s.isOutstanding ∧ 8 ≤ outstandingCount (a ++ b) then ⟨s.seq, .dropped⟩ else s) :: a', ?_,
      ?_, ?_⟩
    · rw [List.cons_append, lastEight_cons, h1]; rfl
    · rw [List.map_cons, List.map_cons, h2]; split <;> rfl
    · intro t
      rw [List.flatMap_cons, List.flatMap_cons, h3]
      split
      · rename_i h; rw [missedPath_dropped t s h.1]
      · rfl

theorem lastEight_settled (v : List Slot) (s : Slot) (h : s.isOutstanding = false) :
    lastEight (v ++ [s]) = lastEight v ++ [s] := by
  induction v with
  | nil => rw [List.nil_append, lastEight_cons, if_neg (fun c => by rw [h] at c; cases c.1)]; rfl
  | cons t v ih =>
    have e : outstandingCount [s] = 0 := by simp [outstandingCount, h]
    rw [List.cons_append, lastEight_cons, lastEight_cons, outstandingCount_append, e, ih]; rfl

/-- Where a slot of a window stands once all but the last eight OUTSTANDING are dropped (R41). -/
theorem lastEight_mem (a b : List Slot) (s : Slot) :
    (if s.isOutstanding ∧ 8 ≤ outstandingCount b then ⟨s.seq, .dropped⟩ else s)
      ∈ lastEight (a ++ s :: b) := by
  induction a with
  | nil => rw [List.nil_append, lastEight_cons]; exact List.mem_cons_self
  | cons t a ih => rw [List.cons_append, lastEight_cons]; exact List.mem_cons_of_mem _ ih

/-- The entry of a slot keeps the last eight, and drops one when it is a ninth (R41). -/
theorem enterSlot_lastEight (v : List Slot) (s : Slot) :
    enterSlot (lastEight v) s = (lastEight (v ++ [s]),
      if s.isOutstanding ∧ 8 ≤ outstandingCount v then forcedDrop else []) := by
  unfold enterSlot
  have ho := outstandingCount_lastEight v
  by_cases h : s.isOutstanding = true
  · by_cases k : 8 ≤ outstandingCount v
    · rw [if_pos (by simp only [h, Bool.true_and, decide_eq_true_eq, outstandingCap]; omega), if_pos ⟨h, k⟩]
      congr 1
      clear ho
      induction v with
      | nil => simp [outstandingCount] at k
      | cons t v ih =>
        rw [List.cons_append, lastEight_cons, lastEight_cons, outstandingCount_append]
        have e1 : outstandingCount [s] = 1 := by simp [outstandingCount, h]
        rw [e1]
        rw [outstandingCount_cons] at k
        by_cases m : 8 ≤ outstandingCount v
        · by_cases g : t.isOutstanding = true
          · rw [if_pos ⟨g, m⟩, if_pos ⟨g, by omega⟩]
            show dropLowest (⟨t.seq, .dropped⟩ :: _) ++ _ = _
            unfold dropLowest
            rw [if_neg (by simp [Slot.isOutstanding]), List.cons_append, ih m]
          · rw [if_neg (fun c => g c.1), if_neg (fun c => g c.1)]
            unfold dropLowest
            rw [if_neg g, List.cons_append, ih m]
        · by_cases g : t.isOutstanding = true
          · rw [if_pos g] at k
            rw [if_neg (fun c => m c.2), if_pos ⟨g, by omega⟩]
            unfold dropLowest
            rw [if_pos g, lastEight_few (by omega), lastEight_few (by rw [outstandingCount_append, e1]; omega)]
            rfl
          · rw [if_neg g] at k; omega
    · rw [if_neg (by simp only [h, Bool.true_and, decide_eq_true_eq, outstandingCap]; omega),
        if_neg (fun c => k c.2), lastEight_few (by omega), lastEight_few]
      rw [outstandingCount_append, outstandingCount_cons, if_pos h]
      simp [outstandingCount] at *; omega
  · rw [if_neg (by simp [h]), if_neg (fun c => h c.1), lastEight_settled v s (by simpa using h)]

/-! ### One step -/

/-- The posts of n forced drops (R38). -/
def forcedDrops (n : Nat) : List Post := (List.replicate n forcedDrop).flatten

theorem forcedDrops_add (m n : Nat) : forcedDrops (m + n) = forcedDrops m ++ forcedDrops n := by
  unfold forcedDrops; rw [List.replicate_add, List.flatten_append]

/-- The exits of a run of slots: a forced drop for each OUTSTANDING one, and the path misses (R40). -/
theorem exitPosts_perm (t : Bool) (a : List Slot) :
    (a.flatMap (exitPosts t)).Perm (forcedDrops (outstandingCount a) ++ a.flatMap (missedPath t)) := by
  induction a with
  | nil => exact .refl _
  | cons s a ih =>
    rw [List.flatMap_cons, List.flatMap_cons, outstandingCount_cons, forcedDrops_add]
    obtain ⟨q, st⟩ := s
    cases st with
    | outstanding due c =>
      have e : missedPath t ⟨q, .outstanding due c⟩ = [] := by cases t <;> rfl
      rw [e]
      show (forcedDrop ++ _).Perm ((forcedDrops 1 ++ _) ++ ([] ++ _))
      rw [List.append_assoc, List.nil_append]
      exact .append_left _ ih
    | received ps =>
      have e : exitPosts t ⟨q, .received ps⟩ = missedPath t ⟨q, .received ps⟩ := by
        cases t <;> cases ps <;> rfl
      rw [e]
      show (missedPath t ⟨q, .received ps⟩ ++ _).Perm ((forcedDrops 0 ++ _) ++ _)
      refine (List.Perm.append_left _ ih).trans ?_
      rw [← List.append_assoc, ← List.append_assoc]
      exact .append_right _ List.perm_append_comm
    | dropped =>
      have e : missedPath t ⟨q, .dropped⟩ = [] := by cases t <;> rfl
      rw [e]
      exact ih

/-- One step of E on a window with its last eight OUTSTANDING slots: the slots a leave, the others and the slot
entered stand, the last eight OUTSTANDING; each slot OUTSTANDING no more is a forced drop (R39 to R41). -/
theorem stepE_capped (x : Stream) (a b : List Slot) (st : SlotState) (hw : x.window = lastEight (a ++ b))
    (ha : ∀ s ∈ a, s.seq = x.expected + 1 - 33) (hb : ∀ s ∈ b, s.seq ≠ x.expected + 1 - 33) :
    (stepE x st).1.window = lastEight (b ++ [⟨x.expected, st⟩])
      ∧ (stepE x st).2.Perm (forcedDrops
          (outstandingCount (lastEight (a ++ b)) + outstandingCount [⟨x.expected, st⟩]
            - outstandingCount (lastEight (b ++ [⟨x.expected, st⟩])))
        ++ a.flatMap (missedPath x.paired)) := by
  obtain ⟨a', h1, h2, h3⟩ := lastEight_append a b
  have inA : ∀ s ∈ a', s.seq = x.expected + 1 - 33 := by
    intro s hs
    have : s.seq ∈ a.map Slot.seq := h2 ▸ List.mem_map_of_mem hs
    obtain ⟨u, hu, e⟩ := List.mem_map.1 this
    rw [← e]; exact ha u hu
  have inB : ∀ s ∈ lastEight b, s.seq ≠ x.expected + 1 - 33 := by
    intro s hs
    have : s.seq ∈ b.map Slot.seq := lastEight_seqs b ▸ List.mem_map_of_mem hs
    obtain ⟨u, hu, e⟩ := List.mem_map.1 this
    rw [← e]; exact hb u hu
  have stay : (x.window.filter fun s => s.seq != x.expected + 1 - 33) = lastEight b := by
    rw [hw, h1, List.filter_append, List.filter_eq_nil_iff.2 (fun s hs => by simp [inA s hs]),
      List.filter_eq_self.2 (fun s hs => bne_iff_ne.2 (inB s hs))]
    rfl
  have leave : (x.window.filter fun s => s.seq == x.expected + 1 - 33) = a' := by
    rw [hw, h1, List.filter_append, List.filter_eq_self.2 (fun s hs => by simp [inA s hs]),
      List.filter_eq_nil_iff.2 (fun s hs => by rw [beq_iff_eq]; exact inB s hs), List.append_nil]
  have step : stepE x st = ({ x with
        expected := x.expected + 1
        window := (enterSlot (lastEight b) ⟨x.expected, st⟩).1 },
      a'.flatMap (exitPosts x.paired) ++ (enterSlot (lastEight b) ⟨x.expected, st⟩).2) := by
    unfold stepE; simp only [stay, leave]
  rw [step, enterSlot_lastEight]
  refine ⟨rfl, ?_⟩
  have c1 := outstandingCount_lastEight b
  have c2 := outstandingCount_lastEight (b ++ [⟨x.expected, st⟩])
  rw [outstandingCount_append] at c2
  have c3 : outstandingCount (lastEight (a ++ b)) = outstandingCount a' + outstandingCount (lastEight b) := by
    rw [h1, outstandingCount_append]
  have ex := exitPosts_perm x.paired a'
  rw [h3] at ex
  simp only
  by_cases k : (⟨x.expected, st⟩ : Slot).isOutstanding ∧ 8 ≤ outstandingCount b
  · have o : outstandingCount [(⟨x.expected, st⟩ : Slot)] = 1 := by simp [outstandingCount, k.1]
    rw [if_pos k, o]
    rw [o] at c2
    have n : outstandingCount (lastEight (a ++ b)) + 1
        - outstandingCount (lastEight (b ++ [⟨x.expected, st⟩])) = outstandingCount a' + 1 := by omega
    rw [n, forcedDrops_add, List.append_assoc]
    refine (List.Perm.append_right _ ex).trans ?_
    rw [List.append_assoc]
    exact .append_left _ List.perm_append_comm
  · rw [if_neg k, List.append_nil]
    have n : outstandingCount (lastEight (a ++ b)) + outstandingCount [(⟨x.expected, st⟩ : Slot)]
        - outstandingCount (lastEight (b ++ [⟨x.expected, st⟩])) = outstandingCount a' := by
      by_cases g : (⟨x.expected, st⟩ : Slot).isOutstanding = true
      · have o : outstandingCount [(⟨x.expected, st⟩ : Slot)] = 1 := by simp [outstandingCount, g]
        have : ¬ 8 ≤ outstandingCount b := fun m => k ⟨g, m⟩
        rw [o] at c2 ⊢; omega
      · have o : outstandingCount [(⟨x.expected, st⟩ : Slot)] = 0 := by simp [outstandingCount, g]
        rw [o] at c2 ⊢; omega
    rw [n]; exact ex

/-! ### The steps of a jump -/

/-- Slots in E−32..E−1, ascending (R36). -/
def inWindow (e : Seq) (v : List Slot) : Prop :=
  (∀ s ∈ v, 1 ≤ below e s.seq ∧ below e s.seq ≤ 32)
    ∧ v.Pairwise (fun a b => below e b.seq < below e a.seq)

/-- The gap slots for E..E+n−1, the first due at `due`, each next one p later (R49). -/
def gapSlots (e : Seq) (due : Time) (p : Int) (n : Nat) : List Slot :=
  (List.range n).map fun k => ⟨e + BitVec.ofNat 16 k, .outstanding (timeShift due (k * p)) .gap⟩

theorem gapSlots_succ (e : Seq) (due : Time) (p : Int) (n : Nat) : gapSlots e due p (n + 1) =
    ⟨e, .outstanding due .gap⟩ :: gapSlots (e + 1) (timeShift due p) p n := by
  unfold gapSlots
  rw [List.range_succ_eq_map, List.map_cons, List.map_map]
  congr 1
  · simp [timeShift]
  · apply List.map_congr_left
    intro k _
    simp only [Function.comp, Slot.mk.injEq, SlotState.outstanding.injEq, and_true]
    constructor
    · bv_omega
    · unfold timeShift
      rw [BitVec.add_assoc, ← BitVec.ofInt_add]
      congr 2
      push_cast; ring

theorem outstandingCount_gapSlots (e : Seq) (due : Time) (p : Int) (n : Nat) :
    outstandingCount (gapSlots e due p n) = n := by
  unfold outstandingCount gapSlots
  rw [List.filter_eq_self.2 (by intro s hs; obtain ⟨k, _, rfl⟩ := List.mem_map.1 hs; rfl)]
  simp

/-- An ascending list parts into the slots more than c below E and the others. -/
theorem split_ascending {e : Seq} {v : List Slot} (h : v.Pairwise (fun a b => below e b.seq < below e a.seq))
    (c : Nat) : v = v.filter (fun s => decide (c < below e s.seq))
      ++ v.filter (fun s => decide (below e s.seq ≤ c)) := by
  induction v with
  | nil => rfl
  | cons s v ih =>
    rw [List.pairwise_cons] at h
    by_cases k : c < below e s.seq
    · rw [List.filter_cons_of_pos (by simpa using k), List.filter_cons_of_neg (by simp; omega),
        List.cons_append, ← ih h.2]
    · rw [List.filter_cons_of_neg (by simpa using k), List.filter_cons_of_pos (by simp; omega),
        List.filter_eq_nil_iff.2 (fun u hu => by have := h.1 u hu; simp; omega),
        List.filter_eq_self.2 (fun u hu => by have := h.1 u hu; simp; omega)]
      rfl

/-- The list after one step: those that stay, and the slot entered. -/
theorem inWindow.step {e : Seq} {v : List Slot} (h : inWindow e v) (st : SlotState) :
    inWindow (e + 1) (v.filter (fun s => decide (below e s.seq ≤ 31)) ++ [⟨e, st⟩]) := by
  have b1 : ∀ s ∈ v.filter (fun s => decide (below e s.seq ≤ 31)),
      below (e + 1) s.seq = below e s.seq + 1 ∧ 1 ≤ below e s.seq ∧ below e s.seq ≤ 31 := by
    intro s hs
    obtain ⟨h1, h2⟩ := List.mem_filter.1 hs
    simp only [decide_eq_true_eq] at h2
    exact ⟨below_succ (h.1 s h1).2, (h.1 s h1).1, h2⟩
  refine ⟨?_, ?_⟩
  · intro s hs
    rcases List.mem_append.1 hs with hs | hs
    · have := b1 s hs; omega
    · rw [List.mem_singleton.1 hs]
      show 1 ≤ below (e + 1) e ∧ below (e + 1) e ≤ 32
      rw [below_self_succ]; omega
  · rw [List.pairwise_append]
    refine ⟨?_, List.pairwise_singleton .., ?_⟩
    · refine List.Pairwise.imp_of_mem ?_ (h.2.filter _)
      intro a b ha hb k
      rw [(b1 a ha).1, (b1 b hb).1]; omega
    · intro a ha b hb
      rw [List.mem_singleton.1 hb, (b1 a ha).1]
      show below (e + 1) e < _
      rw [below_self_succ]
      have := b1 a ha; omega

/-- A step of E on such a list with its last eight OUTSTANDING slots. -/
theorem stepE_inWindow (x : Stream) (v : List Slot) (st : SlotState) (h : inWindow x.expected v)
    (hw : x.window = lastEight v) :
    let inside := v.filter (fun s => decide (below x.expected s.seq ≤ 31)) ++ [⟨x.expected, st⟩]
    (stepE x st).1.window = lastEight inside
      ∧ (stepE x st).2.Perm (forcedDrops
          (outstandingCount (lastEight v) + outstandingCount [⟨x.expected, st⟩]
            - outstandingCount (lastEight inside))
        ++ (v.filter (fun s => decide (31 < below x.expected s.seq))).flatMap (missedPath x.paired)) := by
  have sp := split_ascending h.2 31
  have k := stepE_capped x _ _ st (by rw [← sp]; exact hw)
    (fun s hs => by
      obtain ⟨h1, h2⟩ := List.mem_filter.1 hs
      simp only [decide_eq_true_eq] at h2
      have h3 := h.1 s h1
      rw [below_eq_33, below_succ h3.2]; omega)
    (fun s hs => by
      obtain ⟨h1, h2⟩ := List.mem_filter.1 hs
      simp only [decide_eq_true_eq] at h2
      have h3 := h.1 s h1
      rw [ne_eq, below_eq_33, below_succ h3.2]; omega)
  rw [← sp] at k
  exact k

/-- The gap steps of a jump: what stays of the old list and the gap slots stand, the last eight OUTSTANDING,
and each slot OUTSTANDING no more is a forced drop (R39 to R41, R49). -/
theorem gapSteps_inWindow (x : Stream) (v : List Slot) (due : Time) (p : Int) (n : Nat) (hn : n ≤ 32)
    (h : inWindow x.expected v) (hw : x.window = lastEight v) :
    let inside := v.filter (fun s => decide (below x.expected s.seq + n ≤ 32))
      ++ gapSlots x.expected due p n
    inWindow (x.expected + BitVec.ofNat 16 n) inside
      ∧ (gapSteps x due p n).1.window = lastEight inside
      ∧ (gapSteps x due p n).2.Perm (forcedDrops
          (outstandingCount (lastEight v) + n - outstandingCount (lastEight inside))
        ++ (v.filter (fun s => decide (32 < below x.expected s.seq + n))).flatMap
          (missedPath x.paired)) := by
  induction n generalizing x v due with
  | zero =>
    have e1 : v.filter (fun s => decide (below x.expected s.seq + 0 ≤ 32)) = v :=
      List.filter_eq_self.2 (fun s hs => by have := h.1 s hs; simp; omega)
    have e2 : v.filter (fun s => decide (32 < below x.expected s.seq + 0)) = [] :=
      List.filter_eq_nil_iff.2 (fun s hs => by have := h.1 s hs; simp; omega)
    simp only [e1, e2]
    simp only [gapSlots, List.range_zero, List.map_nil, List.append_nil, gapSteps]
    refine ⟨by simpa using h, hw, ?_⟩
    simp [forcedDrops]
  | succ n ih =>
    obtain ⟨s1, s2⟩ := stepE_inWindow x v (.outstanding due .gap) h hw
    have hv := h.step (.outstanding due .gap)
    obtain ⟨i1, i2, i3⟩ := ih (stepE x (.outstanding due .gap)).1 _ (timeShift due p) (by omega) hv s1
    have ee : (stepE x (.outstanding due .gap)).1.expected = x.expected + 1 := rfl
    have ep : (stepE x (.outstanding due .gap)).1.paired = x.paired := rfl
    rw [ee] at i1 i2 i3
    rw [ep] at i3
    have near : ∀ s ∈ v, below (x.expected + 1) s.seq = below x.expected s.seq + 1 :=
      fun s hs => below_succ (h.1 s hs).2
    have one : below (x.expected + 1) x.expected = 1 := below_self_succ _
    have f1 : List.filter (fun s : Slot => decide (below (x.expected + 1) s.seq + n ≤ 32))
          (v.filter (fun s => decide (below x.expected s.seq ≤ 31))
            ++ [⟨x.expected, .outstanding due .gap⟩])
        = v.filter (fun s => decide (below x.expected s.seq + (n + 1) ≤ 32))
          ++ [⟨x.expected, .outstanding due .gap⟩] := by
      have fn : [(⟨x.expected, .outstanding due .gap⟩ : Slot)].filter
          (fun s => decide (below (x.expected + 1) s.seq + n ≤ 32)) = [⟨x.expected, .outstanding due .gap⟩] := by
        rw [List.filter_eq_self]
        intro s hs
        rw [List.mem_singleton.1 hs]
        show decide (below (x.expected + 1) x.expected + n ≤ 32) = true
        rw [one]; simp; omega
      rw [List.filter_append, fn, List.filter_filter]
      refine congrArg (· ++ _) (List.filter_congr fun s hs => ?_)
      rw [near s hs, ← Bool.decide_and]
      apply decide_eq_decide.2; omega
    have f2 : List.filter (fun s : Slot => decide (32 < below (x.expected + 1) s.seq + n))
          (v.filter (fun s => decide (below x.expected s.seq ≤ 31))
            ++ [⟨x.expected, .outstanding due .gap⟩])
        = (v.filter (fun s => decide (32 < below x.expected s.seq + (n + 1)))).filter
          (fun s => decide (below x.expected s.seq ≤ 31)) := by
      have fn : [(⟨x.expected, .outstanding due .gap⟩ : Slot)].filter
          (fun s => decide (32 < below (x.expected + 1) s.seq + n)) = [] := by
        rw [List.filter_eq_nil_iff]
        intro s hs
        rw [List.mem_singleton.1 hs]
        show ¬ decide (32 < below (x.expected + 1) x.expected + n) = true
        rw [one]; simp; omega
      rw [List.filter_append, fn, List.append_nil, List.filter_filter, List.filter_filter]
      apply List.filter_congr
      intro s hs
      rw [near s hs, ← Bool.decide_and, ← Bool.decide_and]
      apply decide_eq_decide.2; omega
    have f3 : v.filter (fun s => decide (31 < below x.expected s.seq))
        = (v.filter (fun s => decide (32 < below x.expected s.seq + (n + 1)))).filter
          (fun s => decide (31 < below x.expected s.seq)) := by
      rw [List.filter_filter]
      apply List.filter_congr
      intro s hs
      rw [← Bool.decide_and]
      apply decide_eq_decide.2; omega
    rw [f1] at i1 i2 i3
    rw [f2] at i3
    rw [List.append_assoc, List.singleton_append, ← gapSlots_succ] at i1 i2 i3
    refine ⟨?_, i2, ?_⟩
    · have e : x.expected + 1 + BitVec.ofNat 16 n = x.expected + BitVec.ofNat 16 (n + 1) := by bv_omega
      rw [← e]; exact i1
    · have sp := split_ascending (h.2.filter fun s => decide (32 < below x.expected s.seq + (n + 1))) 31
      have n1 : outstandingCount (lastEight (v.filter (fun s => decide (below x.expected s.seq ≤ 31))
          ++ [⟨x.expected, .outstanding due .gap⟩])) ≤ outstandingCount (lastEight v) + 1 := by
        rw [outstandingCount_lastEight, outstandingCount_lastEight, outstandingCount_append]
        have : outstandingCount [(⟨x.expected, .outstanding due .gap⟩ : Slot)] = 1 := rfl
        have := outstandingCount_filter (fun s => decide (below x.expected s.seq ≤ 31)) v
        omega
      have n2 : outstandingCount (lastEight (v.filter (fun s => decide (below x.expected s.seq + (n + 1) ≤ 32))
          ++ gapSlots x.expected due p (n + 1)))
          ≤ outstandingCount (lastEight (v.filter (fun s => decide (below x.expected s.seq ≤ 31))
            ++ [⟨x.expected, .outstanding due .gap⟩])) + n := by
        rw [outstandingCount_lastEight, outstandingCount_lastEight, outstandingCount_append,
          outstandingCount_append, outstandingCount_gapSlots]
        have : outstandingCount [(⟨x.expected, .outstanding due .gap⟩ : Slot)] = 1 := rfl
        have k := outstandingCount_filter (fun s => decide (below x.expected s.seq + (n + 1) ≤ 32))
          (v.filter (fun s => decide (below x.expected s.seq ≤ 31)))
        rw [List.filter_filter] at k
        have e : (v.filter fun s => decide (below x.expected s.seq + (n + 1) ≤ 32)
            && decide (below x.expected s.seq ≤ 31))
            = v.filter (fun s => decide (below x.expected s.seq + (n + 1) ≤ 32)) := by
          apply List.filter_congr
          intro s _
          rw [← Bool.decide_and]
          apply decide_eq_decide.2; omega
        rw [e] at k
        omega
      have o1 : outstandingCount [(⟨x.expected, .outstanding due .gap⟩ : Slot)] = 1 := rfl
      rw [o1] at s2
      have sum := (s2.append i3)
      refine sum.trans ?_
      have spm := congrArg (List.flatMap (missedPath x.paired)) sp
      rw [List.flatMap_append] at spm
      rw [spm, f3]
      have tot : outstandingCount (lastEight v) + (n + 1) - outstandingCount (lastEight
          (v.filter (fun s => decide (below x.expected s.seq + (n + 1) ≤ 32))
            ++ gapSlots x.expected due p (n + 1)))
          = (outstandingCount (lastEight v) + 1 - outstandingCount (lastEight
              (v.filter (fun s => decide (below x.expected s.seq ≤ 31))
                ++ [⟨x.expected, .outstanding due .gap⟩])))
            + (outstandingCount (lastEight (v.filter (fun s => decide (below x.expected s.seq ≤ 31))
                ++ [⟨x.expected, .outstanding due .gap⟩])) + n
              - outstandingCount (lastEight
                (v.filter (fun s => decide (below x.expected s.seq + (n + 1) ≤ 32))
                  ++ gapSlots x.expected due p (n + 1)))) := by omega
      rw [tot, forcedDrops_add, List.append_assoc, List.append_assoc]
      refine .append_left _ ?_
      rw [← List.append_assoc, ← List.append_assoc]
      exact .append_right _ List.perm_append_comm

/-- The gap steps of a jump of n and the step of its frame, which is not awaited: E moves by n + 1, what stays
of the old window and the gap slots stand with the last eight OUTSTANDING, and every other slot that was
OUTSTANDING is a forced drop (R39 to R41, R49). -/
theorem jumpSteps (x : Stream) (h : windowKept x.expected x.window) (due : Time) (p n : Nat) (hn : n ≤ 32)
    (st : SlotState) (hst : Slot.isOutstanding ⟨x.expected + BitVec.ofNat 16 n, st⟩ = false) :
    let y := gapSteps x due p n
    let z := stepE y.1 st
    let inside : List Slot := x.window.filter (fun v => decide (below x.expected v.seq + n ≤ 31))
      ++ ((List.range n).filter fun k => decide (n ≤ k + 31)).map fun k =>
        ⟨x.expected + BitVec.ofNat 16 k, .outstanding (timeShift due (k * p)) .gap⟩
    z.1 = { x with
        expected := x.expected + BitVec.ofNat 16 n + 1
        window := lastEight inside ++ [⟨x.expected + BitVec.ofNat 16 n, st⟩] }
      ∧ (y.2 ++ z.2).Perm (forcedDrops (outstandingCount x.window + n - outstandingCount (lastEight inside))
        ++ (x.window.filter fun v => decide (31 < below x.expected v.seq + n)).flatMap
          (missedPath x.paired)) := by
  intro y z inside
  have hw : inWindow x.expected x.window := ⟨h.1, h.2.1⟩
  have le8 : lastEight x.window = x.window := lastEight_few h.2.2
  obtain ⟨g1, g2, g3⟩ := gapSteps_inWindow x x.window due p n hn hw le8.symm
  have ye : y.1.expected = x.expected + BitVec.ofNat 16 n := gapSteps_expected x due p n
  have gf := gapSteps_fst x due p n
  have pe : y.1.paired = x.paired := by show (gapSteps x due p n).1.paired = _; rw [gf]; rfl
  obtain ⟨s1, s2⟩ := stepE_inWindow y.1 _ st (by rw [ye]; exact g1) g2
  simp only [ye, pe] at s1 s2
  have near : ∀ v ∈ x.window, below x.expected v.seq + n ≤ 32 →
      below (x.expected + BitVec.ofNat 16 n) v.seq = below x.expected v.seq + n := by
    intro v hv k
    have := h.1 v hv
    unfold below at *; unfold windowSpan at this; bv_omega
  have gap : ∀ k, k < n →
      below (x.expected + BitVec.ofNat 16 n) (x.expected + BitVec.ofNat 16 k) = n - k := by
    intro k hk; unfold below; bv_omega
  have stay : (List.filter (fun s : Slot => decide (below x.expected s.seq + n ≤ 32)) x.window
      ++ gapSlots x.expected due p n).filter
        (fun s => decide (below (x.expected + BitVec.ofNat 16 n) s.seq ≤ 31)) = inside := by
    rw [List.filter_append, List.filter_filter]
    show _ = _ ++ _
    congr 1
    · apply List.filter_congr
      intro v hv
      rw [← Bool.decide_and]
      apply decide_eq_decide.2
      constructor
      · rintro ⟨a, b⟩; rw [near v hv b] at a; exact a
      · intro a; refine ⟨?_, by omega⟩; rw [near v hv (by omega)]; exact a
    · unfold gapSlots
      rw [List.filter_map]
      congr 1
      apply List.filter_congr
      intro k hk
      rw [List.mem_range] at hk
      show decide (below (x.expected + BitVec.ofNat 16 n) (x.expected + BitVec.ofNat 16 k) ≤ 31) = _
      rw [gap k hk]; apply decide_eq_decide.2; omega
  have leave : (List.filter (fun s : Slot => decide (below x.expected s.seq + n ≤ 32)) x.window
      ++ gapSlots x.expected due p n).filter
        (fun s => decide (31 < below (x.expected + BitVec.ofNat 16 n) s.seq))
      = x.window.filter (fun v => decide (below x.expected v.seq + n = 32))
        ++ (gapSlots x.expected due p n).filter
          (fun s => decide (31 < below (x.expected + BitVec.ofNat 16 n) s.seq)) := by
    rw [List.filter_append, List.filter_filter]
    congr 1
    apply List.filter_congr
    intro v hv
    rw [← Bool.decide_and]
    apply decide_eq_decide.2
    constructor
    · rintro ⟨a, b⟩; rw [near v hv b] at a; omega
    · intro a; refine ⟨?_, by omega⟩; rw [near v hv (by omega)]; omega
  have silent : ∀ l : List Slot, (∀ v ∈ l, v.isOutstanding = true) →
      l.flatMap (missedPath x.paired) = [] := by
    intro l hl
    rw [List.flatMap_eq_nil_iff]
    intro v hv
    rw [missedPath_dropped _ _ (hl v hv)]; cases x.paired <;> rfl
  rw [stay, lastEight_settled _ _ hst] at s1
  refine ⟨?_, ?_⟩
  · show (stepE y.1 st).1 = _
    have w : (stepE y.1 st).1.window = _ := s1
    rw [stepE_fst] at w ⊢
    simp only at w
    rw [w, ye]
    exact congrArg (fun u : Stream => { u with
      expected := x.expected + BitVec.ofNat 16 n + 1
      window := lastEight inside ++ [(⟨x.expected + BitVec.ofNat 16 n, st⟩ : Slot)] }) gf
  · have o0 : outstandingCount [(⟨x.expected + BitVec.ofNat 16 n, st⟩ : Slot)] = 0 := by
      simp [outstandingCount, hst]
    rw [stay, leave, lastEight_settled _ _ hst, outstandingCount_append, o0, List.flatMap_append,
      silent ((gapSlots _ _ _ _).filter _) (by
        intro v hv
        obtain ⟨k, _, rfl⟩ := List.mem_map.1 (List.mem_filter.1 hv).1
        rfl)] at s2
    refine (g3.append s2).trans ?_
    rw [le8]
    have c1 := outstandingCount_lastEight inside
    have c2 := outstandingCount_lastEight (List.filter
      (fun s : Slot => decide (below x.expected s.seq + n ≤ 32)) x.window ++ gapSlots x.expected due p n)
    have c3 := outstandingCount_filter
      (fun s : Slot => decide (below (x.expected + BitVec.ofNat 16 n) s.seq ≤ 31))
      (List.filter (fun s : Slot => decide (below x.expected s.seq + n ≤ 32)) x.window
        ++ gapSlots x.expected due p n)
    rw [stay] at c3
    have c4 := outstandingCount_filter
      (fun s : Slot => decide (below x.expected s.seq + n ≤ 32)) x.window
    have c5 : outstandingCount (List.filter
        (fun s : Slot => decide (below x.expected s.seq + n ≤ 32)) x.window
          ++ gapSlots x.expected due p n) ≤ outstandingCount x.window + n := by
      rw [outstandingCount_append, outstandingCount_gapSlots]; omega
    rw [List.append_nil, Nat.add_zero, Nat.add_zero]
    generalize outstandingCount (lastEight inside) = u at *
    generalize outstandingCount (lastEight (List.filter
      (fun s : Slot => decide (below x.expected s.seq + n ≤ 32)) x.window
        ++ gapSlots x.expected due p n)) = v at *
    have sum : outstandingCount x.window + n - u = (outstandingCount x.window + n - v) + (v - u) := by
      omega
    rw [sum, forcedDrops_add]
    have sp := split_ascending
      (h.2.1.filter fun s => decide (31 < below x.expected s.seq + n)) (32 - n)
    have e1 : (x.window.filter fun s => decide (31 < below x.expected s.seq + n)).filter
        (fun s => decide (32 - n < below x.expected s.seq))
        = x.window.filter (fun s => decide (32 < below x.expected s.seq + n)) := by
      rw [List.filter_filter]
      exact List.filter_congr fun v _ => by rw [← Bool.decide_and]; apply decide_eq_decide.2; omega
    have e2 : (x.window.filter fun s => decide (31 < below x.expected s.seq + n)).filter
        (fun s => decide (below x.expected s.seq ≤ 32 - n))
        = x.window.filter (fun s => decide (below x.expected s.seq + n = 32)) := by
      rw [List.filter_filter]
      exact List.filter_congr fun v _ => by rw [← Bool.decide_and]; apply decide_eq_decide.2; omega
    rw [e1, e2] at sp
    rw [sp, List.flatMap_append, List.append_assoc, List.append_assoc]
    refine .append_left _ ?_
    rw [← List.append_assoc, ← List.append_assoc]
    exact .append_right _ List.perm_append_comm

end Sys2Proof.Machine
end

