-- ==== Sys2Proof/Laws/Ports.lean ====
section
/-! SUPPORT. The query ports: what taking a command and replying to it can change, and the bounds of the ports
they keep (`keepsPorts`). -/

namespace Sys2Proof.Machine

/-! ### Work on the ports alone -/

/-- From s to t nothing changed but the ports: reset pending, the board, the line port, the replies waiting for
the tap link, the service port. -/
def onlyPorts (s t : State) : Prop :=
  t = { s with
    resetPending := t.resetPending, board := t.board, linePort := t.linePort, service := t.service
    link := { s.link with txQueue := t.link.txQueue } }

theorem onlyPorts.refl (s : State) : onlyPorts s s := rfl

section OnlyPorts
variable {s t : State} (h : onlyPorts s t)
include h

theorem onlyPorts.streams : t.streams = s.streams := by rw [h]
theorem onlyPorts.acp : t.acp = s.acp := by rw [h]
theorem onlyPorts.staging : t.staging = s.staging := by rw [h]
theorem onlyPorts.banks : t.banks = s.banks := by rw [h]

theorem onlyPorts.bounds : keepsBounds s t := .of_same h.streams h.acp
theorem onlyPorts.contexts : keepsContexts s t := .of_same h.streams

end OnlyPorts

theorem onlyPort.ports {p : Port} {s t : State} (h : onlyPort p s t) : onlyPorts s t := by
  cases p <;> (unfold onlyPort at h; simp only at h; unfold onlyPorts; rw [h])

section BeginReset
variable (s : State)

@[simp] theorem State.beginReset_resetPending : s.beginReset.resetPending = true := rfl
@[simp] theorem State.beginReset_held : s.beginReset.board.held = none := rfl
@[simp] theorem State.beginReset_slot : s.beginReset.board.slot = s.board.slot := rfl
@[simp] theorem State.beginReset_link : s.beginReset.link = s.link := rfl
@[simp] theorem State.beginReset_linePort : s.beginReset.linePort = s.linePort := rfl
@[simp] theorem State.beginReset_service : s.beginReset.service = s.service := rfl

end BeginReset

/-- A command started changes its port, and reset pending and the held command if it is a RESET_DEVICE (R174,
R196). -/
theorem State.startCommand_eq (s : State) (p : Port) (tag : Byte) (c : Command) : s.startCommand p tag c =
    if c = .resetDevice then (s.setRunning p ⟨tag, .start c⟩).beginReset else s.setRunning p ⟨tag, .start c⟩ :=
  rfl

theorem State.startCommand_onlyPorts (s : State) (p : Port) (tag : Byte) (c : Command) :
    onlyPorts s (s.startCommand p tag c) := by
  rw [State.startCommand_eq]
  split <;> cases p <;> rfl

/-- Taking a command body changes the port that takes it, and what its start changes besides (R181, R196). -/
theorem State.takeBoard_onlyPort (s : State) (body : List Byte) : onlyPort .board s (s.takeBoard body) := by
  unfold State.takeBoard
  split
  · rw [State.startCommand_eq]; split <;> rfl
  · rfl

/-- A reply that is not that of a RESET_DEVICE changes its port's reply side and nothing else (R174). -/
theorem State.reply_onlyPort (s : State) (p : Port) (tag : Byte) (st : Status) (results : List Byte) :
    onlyPort p s (s.reply p tag st results) := by
  cases p
  · show onlyPort .board s (s.answerBoard _ false)
    unfold State.answerBoard
    split
    · rename_i body _
      have h := State.takeBoard_onlyPort { s with board := { s.board with held := none } } body
      unfold onlyPort at h ⊢
      simp only at h ⊢
      rw [h]
    · rfl
  · show onlyPort .line s (s.answerLine _ false)
    unfold State.answerLine
    split <;> rfl
  · rfl

theorem State.setRunning_onlyPort (s : State) (p : Port) (r : Running) : onlyPort p s (s.setRunning p r) := by
  cases p <;> rfl

theorem State.takeLine_onlyPorts (s : State) (body : List Byte) : onlyPorts s (s.takeLine body) := by
  unfold State.takeLine
  split
  · exact s.startCommand_onlyPorts _ _ _
  · unfold State.answerLine; split <;> rfl

theorem State.takeService_onlyPorts (s : State) (body : List Byte) : onlyPorts s (s.takeService body) := by
  unfold State.takeService
  split
  · exact s.startCommand_onlyPorts _ _ _
  · rfl

theorem State.boardBody_onlyPort (s : State) (body : List Byte) : onlyPort .board s (s.boardBody body) := by
  unfold State.boardBody
  split
  · rfl
  · split
    · exact s.takeBoard_onlyPort body
    · exact s.takeBoard_onlyPort body
    · rfl

theorem State.lineBody_onlyPorts (s : State) (body : List Byte) : onlyPorts s (s.lineBody body) := by
  unfold State.lineBody
  split
  · rfl
  · split
    · exact s.takeLine_onlyPorts body
    · rfl

theorem State.serviceBody_onlyPorts (s : State) (body : List Byte) : onlyPorts s (s.serviceBody body) := by
  unfold State.serviceBody
  split
  · rfl
  · split
    · exact s.takeService_onlyPorts body
    · rfl

/-! ### The bounds of the ports -/

/-- From s to t the bounds of the ports were kept. -/
def keepsPorts (s t : State) : Prop := portsKept s → portsKept t

theorem keepsPorts.refl (s : State) : keepsPorts s s := id

theorem keepsPorts.trans {s t u : State} (h : keepsPorts s t) (k : keepsPorts t u) : keepsPorts s u := k ∘ h

/-- The bounds of the ports speak of the slot, the held command, the transmit queues and the banks alone. -/
theorem keepsPorts.of_same {s t : State} (h1 : t.board.held = s.board.held) (h2 : t.board.slot = s.board.slot)
    (h3 : t.link.txQueue = s.link.txQueue) (h4 : t.service.txQueue = s.service.txQueue)
    (h5 : t.banks = s.banks) : keepsPorts s t := fun h =>
  ⟨by rw [h1, h2]; exact h.held, by rw [h3]; exact h.lineBusy, by rw [h4]; exact h.serviceBusy,
    by rw [h5]; exact h.banks⟩

theorem onlyAccounts.keepsPorts {s t : State} (h : onlyAccounts s t) : keepsPorts s t :=
  .of_same (by rw [h.board]) (by rw [h.board]) (by rw [h.link]) (by rw [h.service]) h.banks

theorem busyWaiting_append (q r : List TxReply) : busyWaiting (q ++ r) = busyWaiting q + busyWaiting r := by
  simp [busyWaiting]

theorem busyWaiting_tail (r : TxReply) (q : List TxReply) : busyWaiting q ≤ busyWaiting (r :: q) := by
  unfold busyWaiting
  rw [List.filter_cons]
  split <;> simp

/-- A BUSY reply joins a queue only while one of its places is free (R19, R179). -/
theorem joinBusy_kept (q : List TxReply) (body : List Byte) (h : busyWaiting q ≤ busyPlaces) :
    busyWaiting (joinBusy q body) ≤ busyPlaces := by
  unfold joinBusy
  split
  · rw [busyWaiting_append]
    have : busyWaiting [(⟨busyBody body, .busy⟩ : TxReply)] = 1 := rfl
    omega
  · exact h

theorem ServicePort.kick_busy (v : ServicePort) : busyWaiting v.kick.txQueue ≤ busyWaiting v.txQueue := by
  unfold ServicePort.kick
  split
  · rename_i r rest _ e; rw [e]; exact busyWaiting_tail r rest
  · exact Nat.le_refl _

theorem Link.beginNext_busy (l : Link) : busyWaiting l.beginNext.txQueue ≤ busyWaiting l.txQueue := by
  unfold Link.beginNext
  split
  · rename_i r rest _ e; rw [e]; exact busyWaiting_tail r rest
  · exact Nat.le_refl _

theorem ServicePort.join_busy (v : ServicePort) (r : TxReply) (h : r.origin ≠ .busy) :
    busyWaiting (v.join r).txQueue ≤ busyWaiting v.txQueue := by
  unfold ServicePort.join
  refine (ServicePort.kick_busy _).trans ?_
  show busyWaiting (v.txQueue ++ [r]) ≤ _
  rw [busyWaiting_append]
  have : busyWaiting [r] = 0 := by simp [busyWaiting, h]
  omega

theorem State.beginReset_keepsPorts (s : State) : keepsPorts s s.beginReset := fun k =>
  ⟨fun e => absurd rfl e, k.lineBusy, k.serviceBusy, k.banks⟩

/-- A running command taken further keeps the bounds of the ports. -/
theorem State.setRunning_keepsPorts (s : State) (p : Port) (r : Running) :
    keepsPorts s (s.setRunning p r) := by
  cases p
  · exact fun k => ⟨fun _ => ⟨r, rfl⟩, k.lineBusy, k.serviceBusy, k.banks⟩
  · exact keepsPorts.of_same rfl rfl rfl rfl rfl
  · exact keepsPorts.of_same rfl rfl rfl rfl rfl

theorem State.startCommand_keepsPorts (s : State) (p : Port) (tag : Byte) (c : Command) :
    keepsPorts s (s.startCommand p tag c) := by
  rw [State.startCommand_eq]
  split
  · exact (s.setRunning_keepsPorts p _).trans (State.beginReset_keepsPorts _)
  · exact s.setRunning_keepsPorts p _

theorem State.takeBoard_keepsPorts (s : State) (body : List Byte) (h : s.board.held = none) :
    keepsPorts s (s.takeBoard body) := by
  unfold State.takeBoard
  split
  · exact s.startCommand_keepsPorts _ _ _
  · exact fun k => ⟨fun e => absurd h e, k.lineBusy, k.serviceBusy, k.banks⟩

theorem State.answerBoard_keepsPorts (s : State) (reply : List Byte) (isReset : Bool) :
    keepsPorts s (s.answerBoard reply isReset) := by
  unfold State.answerBoard
  split
  · intro k
    refine State.takeBoard_keepsPorts { s with board := { s.board with held := none } } _ rfl ?_
    exact ⟨fun e => absurd rfl e, k.lineBusy, k.serviceBusy, k.banks⟩
  · exact fun k => ⟨fun e => absurd (by assumption) e, k.lineBusy, k.serviceBusy, k.banks⟩

theorem State.answerService_keepsPorts (s : State) (reply : List Byte) (isReset : Bool) :
    keepsPorts s (s.answerService reply isReset) := fun k =>
  ⟨k.held, k.lineBusy, (ServicePort.join_busy _ _ (by show (if _ then _ else _) ≠ _; split <;> simp)).trans
    k.serviceBusy, k.banks⟩

/-- A line reply that is handed over or discarded without a reset. -/
theorem State.answerLine_keepsPorts (s : State) (reply : List Byte) (isReset : Bool)
    (h : isReset = false ∨ s.linePort.discardMark = false) : keepsPorts s (s.answerLine reply isReset) := by
  unfold State.answerLine
  split
  · rcases h with e | e
    · subst e; exact fun k => ⟨k.held, k.lineBusy, k.serviceBusy, k.banks⟩
    · simp_all
  · intro k
    refine ⟨k.held, ?_, k.serviceBusy, k.banks⟩
    show busyWaiting (s.link.txQueue ++ [_]) ≤ _
    rw [busyWaiting_append]
    have : busyWaiting [(⟨reply, if isReset then .reset else .command⟩ : TxReply)] = 0 := by
      cases isReset <;> rfl
    have := k.lineBusy
    omega

/-- A reply keeps the bounds of the ports (R174). -/
theorem State.reply_keepsPorts (s : State) (p : Port) (tag : Byte) (st : Status) (results : List Byte) :
    keepsPorts s (s.reply p tag st results) := by
  cases p
  · exact s.answerBoard_keepsPorts _ _
  · exact s.answerLine_keepsPorts _ _ (.inl rfl)
  · exact s.answerService_keepsPorts _ _

theorem State.boardBody_keepsPorts (s : State) (body : List Byte) : keepsPorts s (s.boardBody body) := by
  unfold State.boardBody
  split
  · exact .refl s
  · intro k
    have free : (∀ r, s.board.slot ≠ .pending r) → s.board.held = none := fun n => by
      by_contra c
      obtain ⟨r, e⟩ := k.held c
      exact n r e
    split
    · exact s.takeBoard_keepsPorts body (free (by simp_all)) k
    · exact s.takeBoard_keepsPorts body (free (by simp_all)) k
    · rename_i r e
      exact ⟨fun _ => ⟨r, e⟩, k.lineBusy, k.serviceBusy, k.banks⟩

theorem State.lineBody_keepsPorts (s : State) (body : List Byte) : keepsPorts s (s.lineBody body) := by
  unfold State.lineBody
  split
  · exact .refl s
  · split
    · unfold State.takeLine
      split
      · exact s.startCommand_keepsPorts _ _ _
      · exact s.answerLine_keepsPorts _ _ (.inl rfl)
    · exact fun k => ⟨k.held, joinBusy_kept _ _ k.lineBusy, k.serviceBusy, k.banks⟩

theorem State.serviceBody_keepsPorts (s : State) (body : List Byte) : keepsPorts s (s.serviceBody body) := by
  unfold State.serviceBody
  split
  · exact .refl s
  · split
    · unfold State.takeService
      split
      · exact s.startCommand_keepsPorts _ _ _
      · exact s.answerService_keepsPorts _ _
    · exact fun k => ⟨k.held, k.lineBusy,
        (ServicePort.kick_busy _).trans (joinBusy_kept _ _ k.serviceBusy), k.banks⟩

end Sys2Proof.Machine
end

