-- ==== Sys2Proof/Laws/Whole.lean ====
section
/-! SUPPORT. The bounds of the whole part: that each shared operation keeps them (`keepsAll`). The device reset
and what can lead to it are left out. -/

namespace Sys2Proof.Machine

/-- From s to t every bound was kept: the tally records, counts, notices and output counts, the ports, and, with
a Staging Unit in its bounds, the Staging Unit, the stream contexts and the SILENT alarms. -/
structure keepsAll (s t : State) : Prop where
  bounds : keepsBounds s t
  ports : keepsPorts s t
  staging : s.staging.kept → t.staging.kept
  contexts : s.staging.kept → keepsContexts s t

theorem keepsAll.refl (s : State) : keepsAll s s := ⟨.refl s, .refl s, id, fun _ => .refl s⟩

theorem keepsAll.trans {s t u : State} (h : keepsAll s t) (k : keepsAll t u) : keepsAll s u :=
  ⟨h.bounds.trans k.bounds, h.ports.trans k.ports, k.staging ∘ h.staging,
   fun x => (h.contexts x).trans (k.contexts (h.staging x))⟩

/-- Accounts changed with the bounds kept. -/
theorem keepsAll.of_accounts {s t : State} (a : onlyAccounts s t) (b : keepsBounds s t)
    (c : s.staging.kept → keepsContexts s t) : keepsAll s t :=
  ⟨b, a.keepsPorts, fun h => by rw [a.staging]; exact h, c⟩

/-- Work on one stream that keeps its bounds keeps all. -/
theorem keepsOn.all {i : StreamIx} {s t : State} (h : keepsOn i s t) : keepsAll s t :=
  .of_accounts h.accounts h.bounds fun _ => h.contexts

/-- The bounds speak of these items alone. -/
theorem keepsAll.of_same {s t : State} (h1 : t.streams = s.streams) (h2 : t.acp = s.acp)
    (h3 : t.staging = s.staging) (h4 : t.board.held = s.board.held) (h5 : t.board.slot = s.board.slot)
    (h6 : t.link.txQueue = s.link.txQueue) (h7 : t.service.txQueue = s.service.txQueue)
    (h8 : t.banks = s.banks) : keepsAll s t :=
  ⟨.of_same h1 h2, .of_same h4 h5 h6 h7 h8, by rw [h3]; exact id, fun _ => .of_same h1⟩

/-- Work on the ports alone that keeps their bounds keeps all. -/
theorem keepsAll.of_ports {s t : State} (h : onlyPorts s t) (k : keepsPorts s t) : keepsAll s t :=
  ⟨h.bounds, k, by rw [h.staging]; exact id, fun _ => h.contexts⟩

theorem keepsAll.of_port {p} {s t : State} (h : onlyPort p s t) (k : keepsPorts s t) : keepsAll s t :=
  .of_ports h.ports k

theorem keepsAll.reply (s : State) (p tag st r) : keepsAll s (s.reply p tag st r) :=
  .of_port (s.reply_onlyPort p tag st r) (s.reply_keepsPorts p tag st r)

theorem keepsAll.setRunning (s : State) (p r) : keepsAll s (s.setRunning p r) :=
  .of_port (s.setRunning_onlyPort p r) (s.setRunning_keepsPorts p r)

theorem keepsAll.post (s : State) (n) : keepsAll s (s.post n) := keepsOn.all (s.post_keepsOn n 0)

/-- Time that passes keeps the Staging Unit in its bounds (R165, R167). -/
theorem State.elapse_staging (s : State) (n : Nat) (h : s.staging.kept) : (s.elapse n).staging.kept := by
  refine ⟨?_, h.places, h.distinct, h.valid, ?_, ?_⟩
  · have := h.shape
    unfold Staging.shapeKept at *
    simp only [State.elapse]
    cases e : s.staging.state <;> rw [e] at this <;> simp_all [timerAfter]
  · intro k hk
    simp only [State.elapse, timerAfter, Option.map_eq_some_iff] at hk
    obtain ⟨a, _, rfl⟩ := hk
    exact Nat.min_le_right _ _
  · show (if _ then _ else _) ≤ _
    split
    · exact Nat.min_le_right _ _
    · exact h.filter

theorem keepsAll.elapse (s : State) (n : Nat) : keepsAll s (s.elapse n) :=
  ⟨.of_same rfl rfl, .of_same rfl rfl rfl rfl rfl, State.elapse_staging s n, fun _ => .of_same rfl⟩

/-- The list emptied keeps the Staging Unit in its bounds (R159). -/
theorem Staging.emptied_kept (u : Staging) (h : u.kept) : u.emptied.kept :=
  ⟨⟨rfl, rfl, rfl, rfl, rfl⟩, Nat.zero_le _, List.nodup_nil, fun _ h => (by cases h),
    fun _ h => (by cases h), h.filter⟩

theorem keepsAll.emptyStaging (s : State) : keepsAll s s.emptyStaging :=
  ⟨.of_same rfl rfl, .of_same rfl rfl rfl rfl rfl, Staging.emptied_kept _, fun _ => .of_same rfl⟩

/-- An apply keeps every bound (R169 to R172). -/
theorem keepsAll.applyList (s : State) (t : Time) : keepsAll s (s.applyList t) := by
  refine ⟨s.applyList_bounds t, ?_, ?_, s.applyList_contexts t⟩
  · exact ((applyEntries_accounts t s.staging.entries s).keepsPorts).trans (.of_same rfl rfl rfl rfl rfl)
  · intro h
    have e : (s.applyList t).staging = s.staging.emptied := by
      show ((s.staging.entries.foldl (State.applyEntry t) s).staging).emptied = _
      rw [(applyEntries_accounts t s.staging.entries s).staging]
    rw [e]; exact Staging.emptied_kept _ h

theorem keepsAll.offer (s : State) : keepsAll s s.offer := by
  unfold State.offer
  split
  · split
    · exact .applyList _ _
    · exact .refl s
  · exact .refl s

theorem keepsAll.changeoverEdge (s : State) : keepsAll s s.changeoverEdge := by
  unfold State.changeoverEdge
  split
  · exact .post _ _
  · exact .applyList _ _
  · exact .post _ _

theorem keepsAll.flushAll (s : State) : keepsAll s s.flushAll :=
  .of_accounts s.flushAll_accounts s.flushAll_bounds fun _ => s.flushAll_contexts

theorem keepsAll.rebaseAll (s : State) : keepsAll s s.rebaseAll :=
  .of_accounts s.rebaseAll_accounts s.rebaseAll_bounds fun _ => s.rebaseAll_contexts

/-- A good record keeps every bound if its action in UP does (R9). -/
theorem keepsAll.goodTaken (s : State) (up : State → State) (h : ∀ t, keepsAll t (up t)) :
    keepsAll s (s.goodTaken up) := by
  unfold State.goodTaken
  split
  · exact .refl s
  · unfold State.alignGood; simp only; split <;> exact .of_same rfl rfl rfl rfl rfl rfl rfl rfl
  · exact .trans (t := s.goodRecord) (.of_same rfl rfl rfl rfl rfl rfl rfl rfl) (h _)

/-- Takings of named streams keep every bound (R71). -/
theorem keepsAll.takings (ks : List StreamIx) (s : State) : keepsAll s (ks.foldl State.takeOne s) :=
  foldl_keeps .refl .trans (fun s i => keepsOn.all (State.takeOne_keepsOn s i)) ks s

theorem keepsAll.takeRest (s : State) : keepsAll s s.takeRest :=
  .of_accounts s.takeRest_accounts s.takeRest_bounds fun _ => s.takeRest_contexts

/-- The takings of an advance begun change no bound (R71). -/
theorem keepsAll.beginTakings (s : State) : keepsAll s s.beginTakings := by
  have e : ∀ i, s.beginTakings.stream i = (s.stream i).taken := s.stream_map Stream.taken
  refine ⟨⟨fun h i => ?_, fun h => ⟨h.1, fun i => ?_⟩, id, fun h => ?_⟩, .of_same rfl rfl rfl rfl rfl, id,
    fun _ h => ⟨fun i => ?_, fun k i => ?_⟩⟩
  · rw [e]; exact (h i).of_eq ⟨rfl, rfl, rfl, rfl⟩
  · rw [e]; exact h.2 i
  · unfold outputsKept; simp only [e]; exact h
  · rw [e]; have := h i
    exact ⟨this.defined, this.valid, this.window, this.unheld, this.stale, this.off, this.recovery, this.quiet⟩
  · rw [e]; exact (k i).of_eq rfl rfl

/-- A stamp compared with line time keeps every bound (R15, R17). -/
theorem keepsAll.compareStamp (s : State) (a ks) : keepsAll s (s.compareStamp a ks) := by
  unfold State.compareStamp
  simp only
  split
  · exact .refl s
  split
  · have b : keepsAll s (s.setTime a) := .of_same rfl rfl rfl rfl rfl rfl rfl rfl
    exact ((b.trans (.beginTakings _)).trans (.takings _ _)).trans (.offer _)
  split
  · exact .of_same rfl rfl rfl rfl rfl rfl rfl rfl
  · have b : keepsAll s
        { s with link := { s.link with lineTime := a, timeSteps := s.link.timeSteps + 1 } } :=
      .of_same rfl rfl rfl rfl rfl rfl rfl rfl
    have c := (((b.trans (.post _ .timeStep)).trans (.flushAll _)).trans (.rebaseAll _)).trans (.offer _)
    exact c

/-- A stamp keeps every bound (R13 to R17). -/
theorem keepsAll.handleStamp (s : State) (a ks) : keepsAll s (s.handleStamp a ks) := by
  unfold State.handleStamp
  split
  · exact (keepsAll.takeRest s).trans (.compareStamp _ a ks)
  · have b : keepsAll s { s with link := { s.link with lineTime := a, timeLoaded := true } } :=
      .of_same rfl rfl rfl rfl rfl rfl rfl rfl
    have c := ((b.trans (.post _ .linkUp)).trans (.rebaseAll _)).trans (.offer _)
    exact c

/-- A descriptor classified keeps every bound (R28 to R32). -/
theorem keepsAll.classify (s : State) (d) : keepsAll s (s.classify d) := by
  unfold State.classify
  split
  · exact .of_same rfl rfl rfl rfl rfl rfl rfl rfl
  split
  · exact .of_same rfl rfl rfl rfl rfl rfl rfl rfl
  split
  · exact .of_same rfl rfl rfl rfl rfl rfl rfl rfl
  split
  · unfold State.matched
    split
    · exact .trans (t := s.updPort _ _) (.of_same rfl rfl rfl rfl rfl rfl rfl rfl)
        (keepsOn.all (State.postGroup_keepsOn _ _ _ (balanced_one (by decide) (by decide))))
    · split
      · exact .trans (t := s.updPort _ _) (.of_same rfl rfl rfl rfl rfl rfl rfl rfl)
          (keepsOn.all (State.arrive_keepsOn _ _ _ _ _))
      · exact .of_same rfl rfl rfl rfl rfl rfl rfl rfl
  · exact .of_same rfl rfl rfl rfl rfl rfl rfl rfl

/-- A stream written with its bounds kept keeps every bound. -/
theorem keepsAll.setStream (s : State) (i : StreamIx) (x : Stream)
    (h1 : x.lampShare = (s.stream i).lampShare) (h2 : x.lineShare = (s.stream i).lineShare)
    (h3 : x.health = (s.stream i).health) (h4 : x.alarms = (s.stream i).alarms)
    (hc : (s.stream i).contextKept → x.contextKept) (ht : (s.stream i).talliesKept → x.talliesKept)
    (hn : (∀ k : ProfileIx, s.acp.profiles[k].valid) → countsOk (s.stream i) → countsOk x) :
    keepsAll s (s.setStream i x) :=
  keepsOn.all (setStream_keepsOn s i x h1 h2 h3 h4 hc ht hn)

/-- The Alarm Comparator replaced, its profiles as they were. -/
theorem keepsAll.acp (s : State) (a : AlarmComparator) (h1 : a.profiles = s.acp.profiles)
    (h2 : noticesKept s → noticesKept { s with acp := a })
    (h3 : outputsKept s → outputsKept { s with acp := a }) : keepsAll s { s with acp := a } :=
  ⟨⟨id, fun h => ⟨by show ∀ k : ProfileIx, a.profiles[k].valid; rw [h1]; exact h.1, h.2⟩, h2, h3⟩,
    .of_same rfl rfl rfl rfl rfl, id, fun _ => .of_same rfl⟩

/-- A mask taken off a summary leaves its reserved bits 0. -/
theorem and_unreserved {a b : BitVec 16} (h : a &&& reservedNotices = 0) : (a &&& b) &&& reservedNotices = 0 := by
  rw [BitVec.and_assoc, BitVec.and_comm b, ← BitVec.and_assoc, h]; simp

/-- The visit of a sweep keeps every bound (R122). -/
theorem keepsAll.visit (s : State) (i) : keepsAll s (s.visit i) := by
  unfold State.visit
  simp only
  have b : keepsAll s (s.updStream i fun x => x.closeInterval s.tst.intervalNumber s.link.lineTime) := by
    refine .setStream s i _ rfl rfl rfl rfl (fun h => ?_) (fun h => ?_) (fun _ h => h.of_eq rfl rfl rfl)
    · exact ⟨h.defined, h.valid, h.window, h.unheld, h.stale, h.off, h.recovery, h.quiet⟩
    · refine ⟨fun f => ?_, h.totals, h.flagged, ?_, ?_, fun l k => by cases k⟩
      · show (Vector.replicate 16 0)[f] ≤ _; simp
      · show (Vector.replicate 16 0)[(Field.droppedForced).pos] ≤ _; simp
      · show (Vector.replicate 16 0)[(Field.droppedInjected).pos] ≤ _; simp
  generalize (s.updStream i fun x => x.closeInterval s.tst.intervalNumber s.link.lineTime) = v at b
  refine (b.trans (State.evaluateThresholds_keepsOn v i
    (v.profileOf (v.stream i))).all).trans ?_
  generalize State.evaluate _ _ _ _ = u
  unfold State.moveSweep
  split
  · exact .of_same rfl rfl rfl rfl rfl rfl rfl rfl
  · have k : keepsAll u { u with tst := { u.tst with sweep := none } } :=
      .of_same rfl rfl rfl rfl rfl rfl rfl rfl
    exact k.trans (.post _ _)

theorem keepsAll.closeRequest (s : State) : keepsAll s s.closeRequest := by
  unfold State.closeRequest
  split
  · exact .of_same rfl rfl rfl rfl rfl rfl rfl rfl
  · exact .refl s

/-- The abandonment timer restarted keeps every bound (R167). -/
theorem keepsAll.touch (s : State) (p) : keepsAll s (s.touch p) := by
  unfold State.touch
  split
  · rename_i h
    refine ⟨.of_same rfl rfl, .of_same rfl rfl rfl rfl rfl,
      fun k => ⟨?_, k.places, k.distinct, k.valid, fun n e => ?_, k.filter⟩, fun _ => .of_same rfl⟩
    · have := k.shape
      unfold Staging.shapeKept at *
      simp only [h.1] at *
      exact ⟨this.1, this.2.1, this.2.2.1, this.2.2.2.1, rfl⟩
    · cases e; exact Nat.zero_le _
  · exact .refl s

/-- A definition argument with no bad field stands for a valid definition (R22). -/
theorem DefinitionArg.valid_of_firstBad (d : DefinitionArg) (h : d.firstBad = none) : d.toDefinition.valid := by
  unfold DefinitionArg.firstBad at h
  split at h; · cases h
  split at h; · cases h
  split at h; · cases h
  split at h; · cases h
  split at h; · cases h
  split at h; · cases h
  split at h; · cases h
  split at h; · cases h
  split at h; · cases h
  split at h; · cases h
  rename_i h1 h2 h3 h4 h5 h6 h7 h8 h9 h10
  refine ⟨?_, ?_, ?_, ?_, ?_, ?_, ?_, ?_, ?_, ?_⟩
  · show d.pathB.map portOf ≠ some (portOf d.pathA)
    cases e : d.pathB with
    | none => simp
    | some b =>
      rw [e] at h2
      simp only [Option.any_some, Bool.or_eq_true, decide_eq_true_eq, beq_iff_eq, not_or, Nat.not_lt] at h2
      simp only [Option.map_some, ne_eq, Option.some.injEq]
      intro k
      have := congrArg Fin.val k
      simp only [portOf, Fin.ofNat] at this
      omega
  · show 1250 ≤ d.period; omega
  · show d.period ≤ 125000000; omega
  · show d.phase < d.period; omega
  · show d.tolerance < d.period; omega
  · show 1 ≤ d.hold; omega
  · show d.hold ≤ 16; omega
  · show 1 ≤ d.jump; omega
  · show d.jump ≤ 32; omega
  · intro l k
    simp only [DefinitionArg.toDefinition] at k
    split at k
    · cases k
    · cases k
      rename_i hne
      simp only [not_or, Nat.not_lt, List.any_eq_true, not_exists, not_and] at h10
      refine ⟨List.length_pos_iff.2 hne, h10.1, fun c hc => ?_⟩
      have := h10.2 c hc
      simpa using this

/-- The position found on a list holds the entry for the stream (R154). -/
theorem stagePosition_some {es : List StageEntry} {i k} (h : stagePosition es i = some k) :
    ∃ (hk : k < es.length), es[k].index = i := by
  unfold stagePosition at h
  rw [List.findIdx?_eq_some_iff_getElem] at h
  obtain ⟨hk, e, _⟩ := h
  exact ⟨hk, by simpa using e⟩

/-- No position found: no entry of the list is for the stream (R154). -/
theorem stagePosition_none {es : List StageEntry} {i} (h : stagePosition es i = none) : ∀ e ∈ es, e.index ≠ i := by
  unfold stagePosition at h
  rw [List.findIdx?_eq_none_iff] at h
  intro e he; simpa using h e he

/-- A list with an entry placed is not empty. -/
theorem stagePlaced_ne_nil (es : List StageEntry) (e) : stagePlaced es e ≠ [] := by
  unfold stagePlaced
  split
  · rename_i k h
    obtain ⟨hk, _⟩ := stagePosition_some h
    intro c
    have := congrArg List.length c
    simp at this; subst this; simp at hk
  · simp

/-- A valid entry placed on a list not ARMED, in its own place or where one is free, keeps every bound (R157). -/
theorem keepsAll.placeEntry (s : State) (p) (e : StageEntry) (hv : s.staging.kept → e.valid)
    (hl : ¬ (stagePosition s.staging.entries e.index = none ∧ stagePlaces ≤ s.staging.entries.length))
    (hs : s.staging.kept → s.staging.state ≠ .armed) : keepsAll s (s.placeEntry p e) := by
  refine ⟨.of_same rfl rfl, .of_same rfl rfl rfl rfl rfl, fun k => ?_, fun _ => .of_same rfl⟩
  have na := hs k
  have sh := k.shape
  refine ⟨?_, ?_, ?_, ?_, fun n e => by cases e; exact Nat.zero_le _, k.filter⟩
  · refine ⟨stagePlaced_ne_nil _ _, rfl, ?_, ?_, rfl⟩
    · show s.staging.source = none
      unfold Staging.shapeKept at sh
      cases c : s.staging.state <;> simp_all
    · show s.staging.armTime = none
      unfold Staging.shapeKept at sh
      cases c : s.staging.state <;> simp_all
  · show (stagePlaced s.staging.entries e).length ≤ _
    unfold stagePlaced
    split
    · simpa using k.places
    · have : ¬ stagePlaces ≤ s.staging.entries.length := fun c => hl ⟨by assumption, c⟩
      simp; omega
  · show ((stagePlaced s.staging.entries e).map StageEntry.index).Nodup
    unfold stagePlaced
    split
    · rename_i j h
      obtain ⟨hk, h2⟩ := stagePosition_some h
      have : (s.staging.entries.set j e).map StageEntry.index = s.staging.entries.map StageEntry.index := by
        rw [List.map_set, ← h2]
        apply List.ext_getElem
        · simp
        · intro n h1 h3
          rw [List.getElem_set]
          split
          · subst_vars; simp
          · rfl
      rw [this]; exact k.distinct
    · rename_i h
      rw [List.map_append, List.nodup_append]
      refine ⟨k.distinct, by simp, ?_⟩
      intro a ha b hb
      simp at hb; subst hb
      obtain ⟨x, hx, rfl⟩ := List.mem_map.1 ha
      exact stagePosition_none h x hx
  · show ∀ x ∈ stagePlaced s.staging.entries e, x.valid
    unfold stagePlaced
    split
    · intro x hx
      rcases List.mem_or_eq_of_mem_set hx with h | h
      · exact k.valid x h
      · subst h; exact hv k
    · intro x hx
      rw [List.mem_append] at hx
      rcases hx with h | h
      · exact k.valid x h
      · simp at h; subst h; exact hv k

/-- A staging command that adds an entry keeps every bound (R156). -/
theorem keepsAll.stage (s : State) (p tag index fb mk) (hv : fb = none → ∀ i, (mk i : StageEntry).valid) :
    keepsAll s (s.stage p tag index fb mk) := by
  unfold State.stage
  simp only
  have b := keepsAll.touch s p
  split
  · exact b.trans (.reply _ _ _ _ _)
  split
  · exact b.trans (.reply _ _ _ _ _)
  split
  · exact b.trans (.reply _ _ _ _ _)
  split
  · exact b.trans (.reply _ _ _ _ _)
  refine b.trans ?_
  rename_i h1 h2 _ i _ _
  have st : (s.touch p).staging.state = s.staging.state := by unfold State.touch; split <;> rfl
  rw [← st] at h1
  generalize s.touch p = t at h1
  unfold State.stageChecked
  simp only
  split
  · exact .reply _ _ _ _ _
  · rename_i hl
    exact (keepsAll.placeEntry t p _ (fun _ => hv rfl i) hl (fun _ => h1)).trans
      (.reply _ _ _ _ _)

/-- An OPEN list with an entry taken off and others left is in its bounds (R158). -/
theorem Staging.erase_kept (u : Staging) (k : Nat) (h : u.kept) (hs : u.state = .opened)
    (hn : u.entries.eraseIdx k ≠ []) :
    Staging.kept { u with entries := u.entries.eraseIdx k } := by
  have sh := h.shape
  refine ⟨?_, (List.length_eraseIdx_le _ _).trans h.places, ?_,
    fun e he => h.valid e ((List.eraseIdx_sublist _ _).mem he), h.timer, h.filter⟩
  · unfold Staging.shapeKept at *
    rw [hs] at sh
    simp only [hs]
    exact ⟨hn, sh.2⟩
  · exact ((List.eraseIdx_sublist u.entries k).map StageEntry.index).nodup h.distinct

/-- An entry taken off an OPEN list keeps every bound (R158). -/
theorem keepsAll.dropEntry (s : State) (k) (h : s.staging.kept → s.staging.state = .opened) :
    keepsAll s (s.dropEntry k) := by
  unfold State.dropEntry
  simp only
  split
  · exact .emptyStaging _
  · exact ⟨.of_same rfl rfl, .of_same rfl rfl rfl rfl rfl, fun q =>
      Staging.erase_kept _ _ q (h q) (by assumption), fun _ => .of_same rfl⟩

theorem State.touch_state (s : State) (p) : (s.touch p).staging.state = s.staging.state := by
  unfold State.touch; split <;> rfl

/-- The arming of an OPEN list keeps every bound (R160). -/
theorem keepsAll.arm (s : State) (src t) (h : s.staging.state = .opened) : keepsAll s (s.arm src t) := by
  refine ⟨.of_same rfl rfl, .of_same rfl rfl rfl rfl rfl, fun k => ?_, fun _ => .of_same rfl⟩
  have sh := k.shape
  refine ⟨?_, k.places, k.distinct, k.valid, fun n e => (by cases e), k.filter⟩
  unfold Staging.shapeKept at *
  rw [h] at sh
  refine ⟨sh.1, sh.2.1, rfl, ?_, rfl⟩
  show (match src with | .atTime => some t | _ => none).isSome ↔ some src = some .atTime
  cases src <;> simp

/-- The disarming of an ARMED list keeps every bound (R161). -/
theorem keepsAll.disarm (s : State) (h : s.staging.state = .armed) : keepsAll s s.disarm := by
  refine ⟨.of_same rfl rfl, .of_same rfl rfl rfl rfl rfl, fun k => ?_, fun _ => .of_same rfl⟩
  have sh := k.shape
  refine ⟨?_, k.places, k.distinct, k.valid, fun n e => by cases e; exact Nat.zero_le _, k.filter⟩
  unfold Staging.shapeKept at *
  rw [h] at sh
  exact ⟨sh.1, sh.2.1, rfl, rfl, rfl⟩

/-- A clear of one stream's totals keeps every bound (R126). -/
theorem keepsAll.clearTotals (s : State) (i) : keepsAll s (s.updStream i Stream.clearTotals) := by
  refine .setStream s i _ rfl rfl rfl rfl (fun h => ?_) (fun h => ?_) (fun _ h => h.of_eq rfl rfl rfl)
  · exact ⟨h.defined, h.valid, h.window, h.unheld, h.stale, h.off, h.recovery, h.quiet⟩
  · refine ⟨h.interval, fun f => ?_, fun f k => ?_, h.forced, h.injected, h.lateness⟩
    · show (Vector.replicate 16 0)[f] ≤ _; simp
    · have : (Vector.replicate 16 0)[f] = totalTop := k
      simp [totalTop] at this

/-- The going on of a SET_PROFILE keeps every bound (R134). -/
theorem keepsAll.goOnReevaluating (s : State) (p tag k low b) : keepsAll s (s.goOnReevaluating p tag k low b) := by
  unfold State.goOnReevaluating
  split
  · exact .setRunning _ _ _
  · exact .reply _ _ _ _ _

/-- The halt of the engine keeps every bound (R64). -/
theorem keepsAll.haltEngine (s : State) : keepsAll s s.haltEngine := by
  unfold State.haltEngine
  split
  · have b : keepsAll s { s with engine := .halted } := .of_same rfl rfl rfl rfl rfl rfl rfl rfl
    exact b.trans (.flushAll _)
  · exact .refl s

/-- A valid profile replaced keeps every bound (R133). -/
theorem keepsAll.profiles (s : State) (k : ProfileIx) (p : Profile) (hp : p.valid) :
    keepsAll s { s with acp := { s.acp with profiles := s.acp.profiles.set k p } } := by
  refine ⟨⟨id, fun h => ⟨fun j => ?_, h.2⟩, id, id⟩, .of_same rfl rfl rfl rfl rfl, id, fun _ => .of_same rfl⟩
  show (s.acp.profiles.set k p)[j].valid
  simp only [Fin.getElem_fin, Vector.getElem_set]
  split
  · exact hp
  · exact h.1 j

/-- A LATCH copies at most 32 streams (R193). -/
theorem streamRange_length (first last : Nat) : (streamRange first (latchLast first last)).length ≤ bankPlaces := by
  unfold streamRange
  have e : ∀ (l : List StreamIx), l.Nodup →
      (l.filter fun i => decide (first ≤ i.val ∧ i.val ≤ latchLast first last)).length ≤ 32 := by
    intro l hl
    have nd : ((l.filter fun i =>
        decide (first ≤ i.val ∧ i.val ≤ latchLast first last)).map fun i => i.val).Nodup :=
      List.Nodup.map (fun a b h => Fin.ext h) (hl.filter _)
    have sub : ((l.filter fun i =>
        decide (first ≤ i.val ∧ i.val ≤ latchLast first last)).map fun i => i.val) ⊆
          List.range' first 32 := by
      intro x hx
      simp only [List.mem_map, List.mem_filter, decide_eq_true_eq] at hx
      obtain ⟨i, ⟨_, h1, h2⟩, rfl⟩ := hx
      rw [List.mem_range'_1]
      unfold latchLast at h2
      omega
    have := (nd.subperm sub).length_le
    simpa using this
  exact e _ (List.nodup_finRange 256)

end Sys2Proof.Machine
end

