-- ==== Sys2Proof/Tests/Slice0.lean ====
section
/-! SUPPORT. The author's own checks: ill-formed terms that WellFormed refuses, worked examples of the
manual, and for each statement with hypotheses a state that meets them. -/

-- One proof at a time: side by side the kernel evaluations take a thread each.
set_option Elab.async false

open Sys2Proof Sys2Proof.Machine

namespace Sys2Proof.Tests

/-! ### States to work on -/

/-- The paired definition of the examples of 3.9, 4.4 and 5.5, key and mask as stream 3 of 2.5. -/
def paired : Definition where
  key := 0x0A110100
  mask := 0xFFFFFF00
  pathA := 4
  pathB := some 9
  period := 125000
  phase := 2500
  tolerance := 6250
  hold := 4
  jump := 4
  profile := 0
  keepTallies := true
  label := none

/-- The single-path definition of the capper of 3.9, 4.3 and 5.4. -/
def capper : Definition := { paired with pathA := 15, pathB := none, hold := 16, jump := 12 }

/-- A slot RECEIVED. -/
def received (ps : Paths) (q : Seq) : Slot := ⟨q, .received ps⟩

/-- A stream with this definition, health, E, cursor and window, in the taking of the last advance. -/
def streamAt (d : Definition) (h : Health) (e : Seq) (c : Time) (w : List Slot) : Stream :=
  { Stream.reset with
    definition := some d, health := h, expected := e, cursor := c, window := w, taking := true }

/-- The link UP with line time loaded at t, the schedule VALID, and stream i as given. -/
def upAt (t : Time) (i : StreamIx) (x : Stream) : State :=
  { State.reset with
    link := { State.reset.link with
      state := .up, timeLoaded := true, lineTime := t, watchdog := some 0 }
    scheduleValid := true }.setStream i x

/-- State s with port p running command c under tag 0x21. -/
def running (s : State) (p : Port) (c : Command) : State := s.setRunning p ⟨0x21, .start c⟩

/-- The state a row answers. -/
def after (c : Instr) (s : State) : State :=
  match exec c s with
  | .next t => t
  | _ => s

/-- A FORWARDED descriptor of the flow of `paired` and `capper`. -/
def frame (port : PortNo) (q : Seq) (a : Time) : Instr :=
  .descRecord ⟨.forwarded, port, 0x0A110100, q, a⟩ []

/-- The state with a staging unit. -/
def staged (u : Staging) : State := { State.reset with staging := u }

/-- A staging list of one REMOVE, held by the line port. -/
def openList : Staging :=
  { Staging.reset with state := .opened, entries := [.remove 7], holder := some .line, timer := some 0 }

/-- The same list armed. -/
def armedList (c : TriggerSource) : Staging :=
  { openList with
    state := .armed, source := some c, timer := none
    armTime := if c = .atTime then some 100 else none }

/-! ### WellFormed refuses -/

theorem test_wf_query_short : (Instr.queryRecord []).wf = false := by decide
theorem test_wf_query_long : (Instr.queryRecord (List.replicate 251 0)).wf = false := by decide +kernel
theorem test_wf_query_good : (Instr.queryRecord (List.replicate 250 0)).wf = true := by decide +kernel
theorem test_wf_command_fetch : (Instr.boardCommandFrame [0x02, 0x00] false).wf = false := by decide
theorem test_wf_command_short : (Instr.boardCommandFrame [0x01, 0x02, 0x01] false).wf = false := by decide
theorem test_wf_command_good : (Instr.boardCommandFrame [0x01, 0x02, 0x01, 0x05] false).wf = true := by
  decide
theorem test_wf_fetch_command : (Instr.boardFetchFrame [0x01, 0x01, 0x01] false).wf = false := by decide
theorem test_wf_fetch_good : (Instr.boardFetchFrame [0x02] false).wf = true := by decide
theorem test_wf_discarded_fetch : (Instr.boardFrameDiscarded [0x02, 0x00] false).wf = false := by decide
theorem test_wf_discarded_command : (Instr.boardFrameDiscarded [0x01, 0x01, 0x04] false).wf = false := by
  decide
theorem test_wf_discarded_good : (Instr.boardFrameDiscarded [0x01, 0x00] false).wf = true := by decide

/-! ### Checks and records -/

/-- The check value of CRC-16 with this polynomial and start over the digits 1 to 9. -/
theorem test_crc_check_value :
    crc16 [0x31, 0x32, 0x33, 0x34, 0x35, 0x36, 0x37, 0x38, 0x39] = 0x29B1 := by decide +kernel

/-- A TICK record written out byte by byte, and a DESC record (R1, R4). -/
theorem test_records :
    (tickBytes 0x010203040506).take 7 = [0x72, 1, 2, 3, 4, 5, 6]
      ∧ (descBytes ⟨.corrupt, 23, 0x0A110123, 0x1234, 0x010203040506⟩).take 14 =
        [0xD1, 0x57, 0x0A, 0x11, 0x01, 0x23, 0x12, 0x34, 1, 2, 3, 4, 5, 6] := by decide +kernel

/-- The bytes of a TICK record in UP load line time (R14). -/
theorem test_tick_bytes :
    (match State.tapBytes { upAt 0 0 Stream.reset with
        link := { (upAt 0 0 Stream.reset).link with timeLoaded := false } } (tickBytes 4800000000) with
      | .next t => decide (t.link.lineTime = 4800000000 ∧ t.link.timeLoaded = true)
      | _ => false) = true := by decide +kernel

/-! ### The link (1.3, 1.4) -/

/-- SYNC ends the hunt; a bad record zeroes the count; four good ones in a row make the link UP. -/
theorem test_link_comes_up :
    let s := after .syncDetected State.reset
    let t := after (.alignmentRecord true) (after (.alignmentRecord true) (after .syncRecord s))
    s.link.state = .aligning ∧ (after (.alignmentRecord false) t).link.goodCount = 0
      ∧ t.link.goodCount = 3 ∧ (after .malformedRecord t).link.state = .up := by decide +kernel

/-- Stamps against line time 1,000,000,000: an advance of exactly 100 ms and a behind stamp of 100 ms
(R15). -/
theorem test_stamp_limits :
    let s := upAt 1000000000 0 Stream.reset
    (after (.tickRecord 1012500000 []) s).link.timeSteps = 0
      ∧ (after (.tickRecord 1012500000 []) s).link.lineTime = 1012500000
      ∧ (after (.tickRecord 987500000 []) s).link.behind = 1
      ∧ (after (.tickRecord 987500000 []) s).link.lineTime = 1000000000 := by decide +kernel

/-- One tick more either way is a time step (R17). -/
theorem test_step_limits :
    let s := upAt 1000000000 0 Stream.reset
    s.compareStamp 1012500001 [] = s.timeStep 1012500001
      ∧ s.compareStamp 987499999 [] = s.timeStep 987499999 := by
  constructor <;>
  · unfold State.compareStamp
    dsimp only
    rw [if_neg (by decide +kernel), if_neg (by decide +kernel), if_neg (by decide +kernel)]

/-- The re-bases of 4.7: 240 periods forward, 240 back, and 3 over the wrap of line time. -/
theorem test_rebase :
    rebasedCursor paired 50002500 80000000 = 80002500
      ∧ rebasedCursor paired 80002500 50000000 = 50002500
      ∧ rebasedCursor paired 281474976600000 200000 = 264344 := by decide +kernel

/-- The fourth bad record in a row takes the link DOWN and flushes two OUTSTANDING slots (R9, R11, R43). -/
theorem test_link_down :
    let x := streamAt paired .tracking 9 1000 [⟨7, .outstanding 5 .gap⟩, ⟨8, .outstanding 6 .miss⟩]
    let s := upAt 0 3 x
    let t := after .badRecord { s with link := { s.link with badCount := 3, timeLoaded := false } }
    t.link.state = .down ∧ (t.stream 3).window = [] ∧ (t.stream 3).tally .flushed = 2
      ∧ (t.stream 3).expected = 9 ∧ (t.stream 3).health = .unanchored ∧ t.link.linkDowns = 1 := by
  decide +kernel

/-! ### Arrivals (3.9, 4.5) -/

/-- Row 3 of the first example of 3.9: a jump of one places 201 OUTSTANDING and 202 RECEIVED. -/
theorem test_jump_of_one :
    let s := upAt 10000000 3 (streamAt paired .tracking 201 10127500 [received .both 200])
    let y := (after (frame 4 202 10130000) s).stream 3
    y.window = [received .both 200, ⟨201, .outstanding 10127500 .gap⟩, received .onlyA 202]
      ∧ y.expected = 203 ∧ y.cursor = 10377500 ∧ y.lateness = some ⟨-122500, -122500, -122500⟩
      ∧ y.tally .onTime = 1 := by decide +kernel

/-- A jump of 12 on an empty window: the cap drops the first four gap slots, forced (R41, R49). -/
theorem test_jump_to_the_cap :
    let s := upAt 10000000 3 (streamAt capper .tracking 201 10127500 [])
    let y := (after (frame 15 213 10000000) s).stream 3
    (y.window.take 5).map Slot.isOutstanding = [false, false, false, false, true] ∧ y.outstanding = 8
      ∧ y.tally .dropped = 4 ∧ y.tally .droppedForced = 4 ∧ y.cursor = 11752500
      ∧ y.tally .onTime = 1 := by decide +kernel

/-- Row 4: the frame of a GAP slot in tolerance is REORDERED; one 3,000 ticks later is LATE. -/
theorem test_gap_slot_arrival :
    let s := upAt 10130000 3 (streamAt paired .tracking 203 10377500
      [⟨201, .outstanding 10127500 .gap⟩, received .onlyA 202])
    ((after (frame 4 201 10131000) s).stream 3).tally .reordered = 1
      ∧ ((after (frame 4 201 10134000) s).stream 3).tally .late = 1 := by decide +kernel

/-- A DUPLICATE, a REDUNDANT copy and a TOO_LATE frame (R52, R53). -/
theorem test_second_copies :
    let s := upAt 10130000 3 (streamAt paired .tracking 203 10377500
      [⟨201, .dropped⟩, received .onlyA 202])
    ((after (frame 4 202 10131000) s).stream 3).tally .duplicate = 1
      ∧ ((after (frame 9 202 10131000) s).stream 3).window = [⟨201, .dropped⟩, received .both 202]
      ∧ ((after (frame 4 201 10131000) s).stream 3).tally .tooLate = 1 := by decide +kernel

/-- The last row of the third example of 3.9: the fourth stale arrival breaks the sequence. -/
theorem test_resync :
    let w : List Slot := [received .both 65532, received .onlyA 65533, ⟨65534, .outstanding 10002500 .gap⟩,
      ⟨65535, .outstanding 10127500 .gap⟩, ⟨0, .outstanding 10252500 .gap⟩, received .onlyA 1]
    let s := upAt 10001000 3 { streamAt paired .tracking 2 10502500 w with staleCount := 3 }
    let y := (after (frame 4 40003 10001001) s).stream 3
    y.expected = 40004 ∧ y.window = [received .onlyA 40003] ∧ y.tally .seqBreak = 1
      ∧ y.tally .dropped = 3 ∧ y.tally .pathBMiss = 2 ∧ y.tally .onTime = 1 ∧ y.tally .stale = 0 := by
  decide +kernel

/-- The anchors of 4.5: stream 20 at 1,380,400 and, after the miss it overtakes, at 1,384,000. -/
theorem test_anchor :
    let s := upAt 1380000 20 { streamAt paired .unanchored 0 1377500 [] with misses := 3 }
    let y := (after (frame 4 100 1380400) s).stream 20
    let z := (after (frame 4 100 1384000) s).stream 20
    y.cursor = 1502500 ∧ y.expected = 101 ∧ y.health = .tracking ∧ y.lateness = some ⟨2900, 2900, 2900⟩
      ∧ z.cursor = 1627500 ∧ z.lateness = some ⟨-118500, -118500, -118500⟩ := by decide +kernel

/-- The test loss of 5.5 meets the anchor: slot 41 is DROPPED and injected. -/
theorem test_test_loss :
    let s := upAt 1380000 3 { streamAt paired .unanchored 300 1377500 [] with testLoss := true }
    let y := (after (frame 4 41 1380400) s).stream 3
    y.window = [⟨41, .dropped⟩] ∧ y.testLoss = false ∧ y.tally .droppedInjected = 1
      ∧ y.tally .dropped = 1 ∧ y.tally .onTime = 0 ∧ y.lateness = none ∧ y.health = .tracking := by
  decide +kernel

/-- Descriptors 6 and 8 of 2.5, and one with no match, counted in their port (R28, R30, R31). -/
theorem test_classifier :
    let s := upAt 1000 3 (streamAt paired .tracking 0 2000000 [])
    let t := after (.descRecord ⟨.discarded, 4, 0x0A110101, 0, 1000⟩ []) s
    let u := after (.descRecord ⟨.forwarded, 20, 0x0B000000, 0, 1000⟩ []) t
    u.portTallies[4].discarded = 1 ∧ (u.stream 3).tally .discardedHere = 1
      ∧ u.portTallies[20].unclassified = 1 ∧ (u.stream 3).cursor = 2000000 := by decide +kernel

/-! ### Expiries (4.3, 4.4, 4.9, 5.4) -/

/-- The eighth miss of 4.3: the stream falls SILENT, its window is cleared, its slots dropped. -/
theorem test_miss_into_silent :
    let w : List Slot := [⟨606, .outstanding 30752500 .miss⟩]
    let s := upAt 31200000 12 { streamAt capper .tracking 607 30877500 w with misses := 7 }
    let t := after (.slotMiss 12) s
    let y := t.stream 12
    y.health = .silent ∧ y.expected = 608 ∧ y.cursor = 31002500 ∧ y.window = [] ∧ y.misses = 8
      ∧ y.tally .dropped = 2 ∧ y.alarms.silent = true ∧ t.attnLamp = true := by decide +kernel

/-- The catch-up that follows: two silent slots. -/
theorem test_silent_catch_up :
    let y := (after (.silentCatchUp 12)
      (upAt 31200000 12 (streamAt capper .silent 608 31002500 []))).stream 12
    y.cursor = 31252500 ∧ y.tally .silentSlots = 2 := by decide +kernel

/-- The catch-up of 4.9 while HALTED: four instants, nothing counted. -/
theorem test_halted_catch_up :
    let s := upAt 7400000 50 (streamAt paired .unanchored 0 7002500 [])
    let y := (after (.haltedCatchUp 50) { s with engine := .halted }).stream 50
    y.cursor = 7502500 ∧ y.misses = 0 ∧ y.tally .silentSlots = 0 := by decide +kernel

/-- The miss of an UNANCHORED stream in 4.4 (R75). -/
theorem test_unanchored_miss :
    let y := (after (.unanchoredSlotMiss 20)
      (upAt 1380000 20 (streamAt paired .unanchored 0 1002500 []))).stream 20
    y.cursor = 1127500 ∧ y.misses = 1 ∧ y.window = [] := by decide +kernel

/-- While the link is DOWN, and while time is not loaded, a miss left due is not taken (R86). -/
theorem test_frozen_time :
    let s := upAt 1380000 20 (streamAt paired .unanchored 0 1002500 [])
    ((after (.unanchoredSlotMiss 20) { s with link := { s.link with state := .down } }).stream 20).misses = 0
      ∧ ((after (.unanchoredSlotMiss 20)
        { s with link := { s.link with timeLoaded := false } }).stream 20).misses = 0 := by decide +kernel

/-- The HALTED catch-up of 4.9, left by its advance, is made before the next stamp is handled (R89). -/
theorem test_rest_is_taken :
    let s := upAt 7400000 50 (streamAt paired .unanchored 0 7002500 [])
    let y := (after (.tickRecord 7400000 []) { s with engine := .halted }).stream 50
    y.cursor = 7502500 ∧ y.misses = 0 := by decide +kernel

/-- A stream whose anchor, stamped behind line time, left its miss instant past, and its taking ended. -/
def behindAnchor : State :=
  upAt 1600000 20 { streamAt paired .tracking 42 1502500 [received .onlyA 41] with taking := false }

/-- The arrival that leaves it so (R47, R80, log 23). -/
theorem test_behind_anchor :
    let y := (after (.descRecord ⟨.forwarded, 4, 0x0A110100, 41, 1380400⟩ [])
      (upAt 1600000 20 (streamAt paired .unanchored 0 1627500 []))).stream 20
    y.cursor = 1502500 ∧ y.taking = false ∧ y.window = [received .onlyA 41]
      ∧ behindAnchor.nextExpiry 20 = some .miss := by decide +kernel

/-- No row, hold or behind stamp takes that miss, nor what the loss of the link takes first; the next advance
does (R71, R85, R86, log 23). -/
theorem test_behind_anchor_stands :
    (after (.slotMiss 20) behindAnchor).stream 20 = behindAnchor.stream 20
      ∧ ((after (.tickRecord 1600000 [20]) behindAnchor).stream 20).cursor = 1502500
      ∧ ((after (.tickRecord 1590000 [20]) behindAnchor).stream 20).cursor = 1502500 := by decide +kernel

theorem test_behind_anchor_and_link_loss :
    (behindAnchor.takeRest.stream 20).cursor = 1502500 := by decide +kernel

theorem test_behind_anchor_then_advance :
    let y := (after (.tickRecord 1600001 [20]) behindAnchor).stream 20
    y.misses = 1 ∧ y.cursor = 1627500
      ∧ y.window = [received .onlyA 41, ⟨42, .outstanding 1502500 .miss⟩] := by decide +kernel

/-- The hold expiry and the miss of 4.4 at one instant: the hold expiry comes first (R73). -/
theorem test_hold_before_miss :
    let s := upAt 2008751 20 (streamAt paired .tracking 105 2002500 [⟨101, .outstanding 1502500 .miss⟩])
    s.nextExpiry 20 = some (.hold 101)
      ∧ ((after (.holdExpiry 20 101) s).stream 20).window = [⟨101, .dropped⟩]
      ∧ ((after (.holdExpiry 20 101) s).stream 20).tally .dropped = 1
      ∧ (after (.holdExpiry 20 101) s).nextExpiry 20 = some .miss := by decide +kernel

/-- The verdict arrival that completes a recovery run of 4 (R97). -/
theorem test_recovery_completes :
    let s := upAt 32020000 12 { streamAt capper .recovering 12 32252500 [] with recovery := 3 }
    let y := (after (frame 15 12 32145000) s).stream 12
    y.health = .tracking ∧ y.recovery = 0 ∧ y.cursor = 32377500 := by decide +kernel

/-! ### Tallies, intervals, alarms (6, 7) -/

/-- The catch-up of "totals at the top": a WRAP total passes its top and posts TERMINAL (R112). -/
theorem test_total_wraps :
    let x := streamAt capper .silent 0 31002500 []
    let s := upAt 31200000 77 { x with
      totals := x.totals.set 13 4294967295, interval := x.interval.set 13 65534 }
    let t := after (.silentCatchUp 77) { s with tst := { s.tst with
      totalModes := s.tst.totalModes.set 13 .wrap } }
    (t.stream 77).total .silentSlots = 1 ∧ (t.stream 77).flag .silentSlots = true
      ∧ (t.stream 77).tally .silentSlots = 65535 ∧ noticeSet t.acp.summaries.board .terminal = true := by
  decide +kernel

/-- The visit of stream 255 ends the sweep with INTERVAL and empties its tallies (R122, R125). -/
theorem test_last_visit :
    let x := streamAt capper .tracking 0 0 []
    let s := upAt 600000000 255 { x with interval := x.interval.set 1 120 }
    let t := after .sweepVisit { s with tst := { s.tst with sweep := some 255, intervalNumber := 42 } }
    t.tst.sweep = none ∧ (t.stream 255).interval = Vector.replicate 16 0
      ∧ (t.stream 255).lastInterval.map (·.values[1]) = some 120
      ∧ noticeSet t.acp.summaries.service .interval = true := by decide +kernel

/-- Row 1 of 7.9: a third drop asserts DROP with LAMP and LINE_FLAG, ALARM in two summaries. -/
theorem test_drop_alarm :
    let x := streamAt capper .tracking 9 40000000 [⟨5, .outstanding 1000 .gap⟩]
    let s := upAt 31200000 5 { x with interval := x.interval.set 3 2 }
    let p : Profile := { Profile.reset with dropThreshold := 3, routeDrop := ⟨true, false, true⟩ }
    let t := after (.holdExpiry 5 5) { s with acp := { s.acp with
      profiles := s.acp.profiles.set 0 p, boardEnable := 1 } }
    t.attnLamp = true ∧ t.lineFlag = true ∧ t.boardIrqAsserted = false
      ∧ t.acp.queues.line.records = [⟨5, .drop, .assert, 31200000, 3⟩]
      ∧ t.acp.summaries = ⟨0, 1, 1⟩ := by decide +kernel

/-- INTERVAL_TIMER_EXPIRY in AUTO begins a sweep and restarts the timer (R118, R121). -/
theorem test_interval_timer :
    let t := after .intervalTimerExpiry State.reset
    t.tst.sweep = some 0 ∧ t.tst.intervalNumber = 1 ∧ t.tst.intervalTimer = some 0 := by decide +kernel

/-! ### Staging and change-over (8.7, 10.2) -/

/-- A STAGE_DEFINE whose tolerance reaches its period is refused at field 7 (R22, row 3 of 10.2). -/
theorem test_bad_definition :
    let d : DefinitionArg := ⟨0, 0, 4, some 9, 500000, 20000, 500000, 4, 4, 1, 1, []⟩
    let t := after (.stageDefine .line) (running (staged openList) .line (.stageDefine 17 d))
    t.link.txQueue = [⟨[0x21, 0x04, 7], .command⟩] ∧ t.staging.entries = [.remove 7] := by
  decide +kernel

/-- The strobe of 8.7: the edge of CHANGEOVER applies the list; a REMOVE makes its stream OFF. -/
theorem test_strobe_applies :
    let s := (staged (armedList .strobe)).setStream 7 (streamAt paired .tracking 9 5 [])
    let t := after .changeoverFilterExpiry { s with staging := { s.staging with accepted := false } }
    (t.stream 7).health = .off ∧ (t.stream 7).definition = none ∧ t.staging.state = .empty
      ∧ t.scheduleValid = true ∧ noticeSet t.acp.summaries.line .applied = true := by decide +kernel

/-- A DEFINE with keep_tallies no sets the cursor to T + φ and clears the record (R69, R128). -/
theorem test_define_entry :
    let s := upAt 7200040000 25 { Stream.reset with clearGen := 3, totals := Vector.replicate 16 5 }
    let y := (s.applyEntry 7200040000 (.define 25 { paired with keepTallies := false, phase := 5000 })).stream
      25
    y.cursor = 7200045000 ∧ y.clearGen = 4 ∧ y.totals = Vector.replicate 16 0 ∧ y.health = .unanchored := by
  decide +kernel

/-- A REMOVE under edge mode BOTH deasserts in class order, SILENT with the count it set to 0 (R138, R139). -/
theorem test_remove_deasserts :
    let x := streamAt capper .silent 9 5 []
    let s := upAt 500 7 { x with
      misses := 9, interval := x.interval.set 3 6, alarms := ⟨true, false, false, false, true⟩ }
    let t : State := { s with acp := { s.acp with
      profiles := s.acp.profiles.set 0 { Profile.reset with edgeMode := .both } } }
    (t.applyEntry 500 (.remove 7)).acp.queues.line.records =
      [⟨7, .drop, .deassert, 500, 6⟩, ⟨7, .silent, .deassert, 500, 0⟩] := by decide +kernel

/-- A low pulse on CHANGEOVER: the level falls, 1 us later it is accepted, and no edge is made (R165). -/
theorem test_changeover_falls :
    let t := after .changeoverFilterExpiry (after (.changeoverPinChange false) State.reset)
    t.staging.accepted = false ∧ t.acp.summaries = ⟨0, 0, 0⟩ := by decide +kernel

/-- 60 s after the last staging command an OPEN list is discarded (R167). -/
theorem test_abandonment :
    let t := after .abandonmentTimerExpiry (staged openList)
    t.staging.state = .empty ∧ noticeSet t.acp.summaries.board .abandoned = true := by decide +kernel

/-! ### Ports (9) -/

/-- The displaced reply of 9.2: GET_STATUS is held while LATCH runs, and taken when LATCH replies. -/
theorem test_displaced_reply :
    let s := after (.boardCommandFrame [0x01, 0x06, 0x07, 0x21, 0, 0, 0, 31] false) State.reset
    let t := after (.boardCommandFrame [0x01, 0x02, 0x01, 0x22] false) s
    let u := after (.latch .board) t
    s.board.slot = .pending ⟨0x21, .start (.latch 0 31)⟩ ∧ t.board.held = some [0x01, 0x22]
      ∧ u.board.slot = .pending ⟨0x22, .start .getStatus⟩ ∧ u.board.held = none
      ∧ u.banks.board.length = 32 := by decide +kernel

/-- A FETCH frame read to its last byte empties the slot; one byte less does not (R177). -/
theorem test_fetch :
    let s : State := { State.reset with board :=
      { State.reset.board with slot := .ready [0x21, 0x00] false } }
    let t := after (.boardFetchFrame [0x02, 0, 0, 0, 0] false) s
    t.board.slot = .none ∧ t.board.lastSdo = [0x80, 0x80, 0x02, 0x21, 0x00]
      ∧ (after (.boardFetchFrame [0x02, 0, 0, 0] false) s).board.slot = .ready [0x21, 0x00] false := by
  decide +kernel

/-- A service frame of GET_NOTICES, character by character (R178, R179). -/
theorem test_service_frame :
    let cs := serviceFrame [0x0A, 0x33]
    let t := cs.foldl (fun s c => after (.serviceCharacter c false) s) State.reset
    t.service.cmd = .running ⟨0x33, .start .getNotices⟩ ∧ t.service.rx = .hunting
      ∧ (after (.getNotices .service) t).service.sending =
        some ⟨[0x33, 0x00, 0, 0, 0, 0, 0, 0], .command⟩ := by decide +kernel

/-- A QUERY while the line port runs a command is answered BUSY with its own tag (R180). -/
theorem test_line_busy :
    let s := running (upAt 0 0 Stream.reset) .line .getLink
    (after (.queryRecord [0x01, 0x44]) s).link.txQueue = [⟨[0x44, 0x05], .busy⟩] := by decide +kernel

/-- The service port of plan 0 has no SCHEDULE permission: DENIED (row 5 of 10.2). -/
theorem test_denied :
    parseBody 0 .service [0x33, 0x10] = .refusal [0x10, 0x01]
      ∧ parseBody 0 .line [0x33, 0x10] = .command 0x10 .stageDiscard
      ∧ parseBody 0 .line [0x33, 0x10, 0x00] = .refusal [0x10, 0x02]
      ∧ parseBody 0 .line [0x77, 0x10] = .refusal [0x10, 0x02] := by decide +kernel

/-- RESET_DEVICE by the board port: the fetch of its reply makes the reset, the plan stands (R196). -/
theorem test_reset_device :
    let s := running { upAt 5 3 (streamAt paired .tracking 9 5 []) with plan := 2 } .board .resetDevice
    let t := after (.resetDevice .board) s
    let u := after (.boardFetchFrame [0x02, 0, 0, 0, 0] false) t
    t.resetPending = true ∧ t.board.slot = .ready [0x21, 0x00] true ∧ u.link.state = .down
      ∧ u.plan = 2 ∧ (u.stream 3).definition = none ∧ u.resetPending = false := by decide +kernel

/-- From the row that takes a RESET_DEVICE, before its own row, the next body on another port is discarded with no
reply, and a held board command is dropped (R174, R176, R196). -/
theorem test_reset_pending_at_the_take :
    let s := running (upAt 5 0 Stream.reset) .board (.latch 0 0)
    let t := after (.queryRecord [0x4F, 0x21])
      { s with board := { s.board with held := some [0x01, 0x22] } }
    let u := after (.boardCommandFrame [0x01, 0x02, 0x01, 0x05] false) t
    let cs := serviceFrame [0x0A, 0x33]
    let v := cs.foldl (fun s c => after (.serviceCharacter c false) s) u
    t.linePort.cmd = .running ⟨0x21, .start .resetDevice⟩ ∧ t.resetPending = true ∧ t.board.held = none
      ∧ u.board.held = none ∧ v.service.cmd = .idle ∧ v.service.sending = none := by decide +kernel

/-- RESET_N low and released with the straps at PERM1 high, PERM0 low (R185, R197). -/
theorem test_reset_pin :
    let t := after .resetNAssert (upAt 5 0 Stream.reset)
    t.resetLow = true ∧ t.link.sending = .silent ∧ (after (.resetNRelease true false) t).plan = 2
      ∧ (after (.resetNRelease true false) t).link.sending = .idle := by decide +kernel

/-- HALT flushes and makes UNANCHORED; RUN leaves the streams (R64, R65). -/
theorem test_halt :
    let x := streamAt paired .tracking 9 1000 [⟨8, .outstanding 6 .miss⟩]
    let t := after (.halt .line) (running (upAt 0 3 x) .line .halt)
    t.engine = .halted ∧ (t.stream 3).tally .flushed = 1 ∧ (t.stream 3).health = .unanchored
      ∧ t.link.txQueue = [⟨[0x21, 0x00, 0], .command⟩] := by decide +kernel

/-! ### States that meet the hypotheses of the statements

One theorem for each statement that has hypotheses, named after it; where a range has ends, the values at
its ends. -/

theorem running_runs {s : State} (p : Port) (c : Command) (h : s.resetLow = false) :
    (running s p c).runs p 0x21 c := by cases p <;> exact ⟨h, rfl⟩

theorem paired_valid : paired.valid := by
  refine ⟨by decide, by decide, by decide, by decide, by decide, by decide, by decide, by decide, by decide,
    ?_⟩
  intro l h; cases h

/-- A TRACKING or RECOVERING stream with a kept window. -/
theorem held_context {d : Definition} (hd : d.valid) {h : Health} (hh : h = .tracking ∨ h = .recovering)
    (e : Seq) (c : Time) (w : List Slot) (hw : windowKept e w) (n : Nat) (hn : n ≤ 3) (b : Bool) :
    ({ streamAt d h e c w with staleCount := n, testLoss := b } : Stream).contextKept := by
  have on : h ≠ .off := by rcases hh with rfl | rfl <;> decide
  refine ⟨⟨fun k => absurd k on, fun k => by cases k⟩, fun d' k => by cases k; exact hd, hw, fun k => ?_, hn,
    fun k => absurd k on, fun k => absurd rfl k, fun k => absurd k on⟩
  rcases hh with rfl | rfl <;> rcases k with k | k | k <;> cases k

/-- A TRACKING stream with a kept window. -/
theorem tracking_context (e : Seq) (c : Time) (w : List Slot) (hw : windowKept e w) (n : Nat) (hn : n ≤ 3)
    (b : Bool) :
    ({ streamAt paired .tracking e c w with staleCount := n, testLoss := b } : Stream).contextKept :=
  held_context paired_valid (.inl rfl) e c w hw n hn b

/-- A stream with an empty window and no counts. -/
theorem empty_context (h : Health) (hh : h ≠ .off) (e : Seq) (c : Time) (b : Bool) :
    ({ streamAt paired h e c [] with testLoss := b } : Stream).contextKept :=
  ⟨⟨(fun k => absurd k hh), (fun k => by cases k)⟩, (fun d k => by cases k; exact paired_valid),
    ⟨(fun _ k => by cases k), .nil, Nat.zero_le _⟩, (fun _ => rfl), Nat.zero_le _,
    (fun k => absurd k hh), (fun k => absurd rfl k), (fun k => absurd k hh)⟩

theorem reset_context : Stream.reset.contextKept :=
  ⟨⟨(fun _ => rfl), (fun _ => rfl)⟩, (fun d k => by cases k),
    ⟨(fun _ k => by cases k), .nil, Nat.zero_le _⟩, (fun _ => rfl), Nat.zero_le _,
    (fun _ => ⟨rfl, rfl, rfl⟩), (fun k => absurd rfl k), (fun _ => rfl)⟩

theorem reset_stream (i : StreamIx) : State.reset.stream i = Stream.reset := by
  simp [State.stream, State.reset]

theorem upAt_stream (t : Time) (i j : StreamIx) (x : Stream) :
    (upAt t i x).stream j = if j = i then x else Stream.reset := by
  unfold upAt
  rw [State.stream_setStream]
  split
  · rfl
  · exact reset_stream j

theorem upAt_contexts (t : Time) (i : StreamIx) {x : Stream} (h : x.contextKept) :
    contextsKept (upAt t i x) := fun j => by
  rw [upAt_stream]; split
  · exact h
  · exact reset_context

theorem upAt_counts (t : Time) (i : StreamIx) {x : Stream}
    (h : x.misses ≤ 255 ∧ (x.health ≠ .silent → x.misses ≤ 254) ∧ x.recovery ≤ 254) :
    countsKept (upAt t i x) := by
  refine ⟨fun k => ?_, fun j => ?_⟩
  · show ((Vector.replicate 8 Profile.reset)[k]).valid
    simp [Profile.valid, Profile.reset]
  · rw [upAt_stream]; split
    · exact h
    · exact ⟨Nat.zero_le _, fun _ => Nat.zero_le _, Nat.zero_le _⟩

theorem witness_EmptyQueueLetsOnePeriodPass : State.reset.pending = [] := rfl

theorem witness_ResetPinRows : (after .resetNAssert State.reset).resetLow = true := rfl

theorem witness_HandedOverResetReplyResets :
    let s : State := { State.reset with
      board := ⟨.ready [0x21, 0x00] true, none, some 0, []⟩
      link := Link.reset (.reply ⟨[0x21, 0x00], .reset⟩)
      service := ⟨.hunting, .replying, [], some ⟨[0x21, 0x00], .reset⟩, []⟩ }
    s.resetLow = false ∧ s.board.slot = .ready [0x21, 0x00] true ∧ spiFrame [0x02, 0, 0, 0, 0] = .fetch
      ∧ [0x21, 0x00#8].length + 3 ≤ [0x02#8, 0, 0, 0, 0].length ∧ s.board.fetchWait = some 0
      ∧ s.link.sending = .reply ⟨[0x21, 0x00], .reset⟩
      ∧ s.service.sending = some ⟨[0x21, 0x00], .reset⟩ := by decide

/-- Its fifth and sixth way: a reset reply waits as the link is lost, and one meets a discard mark. -/
theorem witness_DiscardedResetReply :
    let s := upAt 0 0 Stream.reset
    let t : State := { s with link := { s.link with badCount := 3, txQueue := [⟨[0x21, 0x00], .reset⟩] } }
    let u := running { State.reset with linePort := ⟨.idle, true⟩ } .line .resetDevice
    t.resetLow = false ∧ t.link.badCount + 1 = 4 ∧ t.link.watchdog = some 0 ∧ t.link.state = .up
      ∧ (∃ r ∈ t.link.txQueue, r.origin = .reset)
      ∧ u.runs .line 0x21 .resetDevice ∧ u.linePort.discardMark = true :=
  ⟨rfl, rfl, rfl, rfl, ⟨_, List.mem_singleton_self _, rfl⟩, running_runs _ _ rfl, rfl⟩

/-- The link in ALIGNING with this count of good records. -/
def aligningAt (n : Nat) : State :=
  { State.reset with link := { State.reset.link with
    state := .aligning, goodCount := n, watchdog := some 24999 } }

theorem witness_HuntAndAlignment :
    State.reset.link.state = .down ∧ (aligningAt 0).link.state = .aligning
      ∧ (aligningAt 3).link.goodCount + 1 = 4 ∧ (aligningAt 2).link.goodCount + 1 ≠ 4
      ∧ (aligningAt 0).link.watchdog = some 24999 ∧ (aligningAt 0).resetLow = false
      ∧ 1 ≤ [0x00#8].length ∧ ([] : List Byte).length = 0 ∧ (List.replicate 250 (0 : Byte)).length ≤ 250
      ∧ 250 < (List.replicate 251 (0 : Byte)).length :=
  ⟨rfl, rfl, rfl, by decide, rfl, rfl, by decide, rfl, by rw [List.length_replicate],
    by rw [List.length_replicate]; decide⟩

/-- The link UP with this count of bad records in a row. -/
def badAt (n : Nat) : State :=
  let s := upAt 0 0 Stream.reset
  { s with link := { s.link with badCount := n } }

theorem witness_RecordsInUp :
    (badAt 2).resetLow = false ∧ (badAt 2).link.state = .up ∧ (badAt 2).link.badCount + 1 ≠ 4 := by decide

theorem witness_LinkLeavesUp :
    (badAt 3).resetLow = false ∧ (badAt 3).link.state = .up ∧ (∀ r ∈ (badAt 3).link.txQueue, r.origin ≠ .reset)
      ∧ (badAt 3).link.badCount + 1 = 4 ∧ (badAt 3).link.watchdog = some 0 := by decide

theorem witness_TickAgainstLineTime :
    let s := upAt 1000000000 0 Stream.reset
    s.resetLow = false ∧ s.link.state = .up ∧ s.link.timeLoaded = true
      ∧ ((1000000000 : Time) - s.link.lineTime).toInt = 0
      ∧ ((987500000 : Time) - s.link.lineTime).toInt = -12500000
      ∧ ((999999999 : Time) - s.link.lineTime).toInt = -1
      ∧ ((1000000001 : Time) - s.link.lineTime).toInt = 1
      ∧ ((1012500000 : Time) - s.link.lineTime).toInt = 12500000
      ∧ (armedList .atTime).state = .armed ∧ (armedList .atTime).source = some .atTime
      ∧ (armedList .atTime).armTime = some 100 ∧ 0 ≤ ((100 : Time) - 100).toInt
      ∧ ((99 : Time) - 100).toInt < 0 := by decide

theorem witness_LoadAndTimeStep :
    let s : State := { upAt 1000000000 3 (streamAt paired .tracking 0 1000002500 []) with
      staging := { armedList .atTime with armTime := some 1012500001 } }
    let u : State := { s with link := { s.link with timeLoaded := false } }
    s.resetLow = false ∧ s.link.state = .up ∧ contextsKept s ∧ s.link.timeLoaded = true
      ∧ ((987499999 : Time) - s.link.lineTime).toInt < -12500000
      ∧ 12500000 < ((1012500001 : Time) - s.link.lineTime).toInt
      ∧ s.staging.state = .armed ∧ s.staging.source = some .atTime ∧ s.staging.armTime = some 1012500001
      ∧ 0 ≤ ((1012500001 : Time) - 1012500001).toInt ∧ ((987499999 : Time) - 1012500001).toInt < 0
      ∧ (s.stream 3).definition = some paired ∧ (s.stream 4).definition = none
      ∧ u.resetLow = false ∧ u.link.state = .up ∧ contextsKept u ∧ u.link.timeLoaded = false :=
  have k := upAt_contexts 1000000000 3 (empty_context .tracking (by decide) 0 1000002500 false)
  ⟨rfl, rfl, k, rfl, by decide, by decide, rfl, rfl, rfl, by decide, by decide, by decide, by decide, rfl, rfl,
    k, rfl⟩

theorem witness_DescHandlesStampThenDescriptor :
    (upAt 0 0 Stream.reset).resetLow = false ∧ (upAt 0 0 Stream.reset).link.state = .up := by decide

theorem witness_DescriptorTestsAndSearch :
    let s := upAt 0 3 (streamAt paired .tracking 0 0 [])
    ({ s with engine := .halted } : State).engine = .halted ∧ s.engine = .running
      ∧ s.scheduleValid = true ∧ State.reset.scheduleValid = false
      ∧ (∀ i, (State.reset.stream i).definition = none)
      ∧ s.findStream 0x0A110123 4 = some 3 := by
  refine ⟨rfl, rfl, rfl, rfl, fun i => ?_, by decide +kernel⟩
  rw [reset_stream]; rfl

theorem witness_MatchedDescriptors :
    let s := upAt 0 3 (streamAt paired .tracking 0 0 [])
    s.engine = .running ∧ s.scheduleValid = true ∧ s.findStream 0x0A1101FF 9 = some 3
      ∧ (s.stream 3).definition = some paired := by decide +kernel

theorem witness_InOrderArrival :
    (∀ h, h = Health.tracking ∨ h = Health.recovering → ∀ b : Bool,
      let x := { streamAt paired h 65535 0 [received .onlyA 65503] with testLoss := b }
      let s := upAt 0 3 x
      (s.stream 3).definition = some paired ∧ (s.stream 3).health = h ∧ (s.stream 3).testLoss = b
        ∧ (s.stream 3).expected = 65535) := by
  intro h _ b x s
  have e : s.stream 3 = x := by simp [s, upAt_stream]
  rw [e]; exact ⟨rfl, rfl, rfl, rfl⟩

/-- A definition with the widest jump. -/
def widest : Definition := { paired with jump := 32 }

theorem widest_valid : widest.valid := by
  refine ⟨by decide, by decide, by decide, by decide, by decide, by decide, by decide, by decide, by decide,
    ?_⟩
  intro l h; cases h

/-- A jump of 1, of 9 (the ninth gap slot back is DROPPED) and of 32 (the oldest gap slot has left), on a window
with a slot that leaves at once and one that stays the longest. -/
theorem witness_AcceptedJump :
    (∀ h, h = Health.tracking ∨ h = Health.recovering → ∀ b : Bool,
      let w : List Slot := [⟨65503, .outstanding 0 .gap⟩, received .onlyA 65504, received .onlyB 65534]
      let x := { streamAt widest h 65535 0 w with staleCount := 3, testLoss := b }
      let s := upAt 0 3 x
      (s.stream 3).definition = some widest ∧ (s.stream 3).contextKept ∧ (s.stream 3).health = h
        ∧ (s.stream 3).testLoss = b)
      ∧ 1 ≤ 1 ∧ 32 ≤ widest.jump ∧ below 65535 65503 + 1 = 33 ∧ below 65535 65534 + 30 ≤ 31
      ∧ 9 ≤ 1 + 8 ∧ 0 + 8 < 9 ∧ 9 ≤ 0 + 31 ∧ 32 ≤ 1 + 31 ∧ ¬32 ≤ 0 + 31 := by
  refine ⟨?_, by decide, by decide, by decide, by decide, by decide, by decide, by decide, by decide, by decide⟩
  intro h hh b w x s
  have e : s.stream 3 = x := by simp [s, upAt_stream]
  rw [e]
  exact ⟨rfl, held_context widest_valid hh 65535 0 _ (by unfold windowKept; decide) 3 (by decide) b, rfl, rfl⟩

theorem witness_AnchoringArrival :
    (∀ h, h = Health.unanchored ∨ h = Health.silent → ∀ b : Bool,
      let s := upAt 0 3 { streamAt paired h 7 0 [] with testLoss := b }
      (s.stream 3).definition = some paired ∧ (s.stream 3).contextKept ∧ (s.stream 3).health = h
        ∧ (s.stream 3).testLoss = b) := by
  intro h hh b s
  have e : s.stream 3 = { streamAt paired h 7 0 [] with testLoss := b } := by simp [s, upAt_stream]
  rw [e]
  refine ⟨rfl, empty_context h ?_ 7 0 b, rfl, rfl⟩
  rcases hh with rfl | rfl <;> decide

theorem witness_StaleArrivalsAndResync :
    (∀ h, h = Health.tracking ∨ h = Health.recovering → ∀ n, n ≤ 3 → ∀ b : Bool,
      ({ streamAt paired h 100 0 [received .both 99] with
        staleCount := n, testLoss := b } : Stream).contextKept)
      ∧ ((67 : Seq) - 100).toInt < -32 ∧ -32 ≤ ((68 : Seq) - 100).toInt ∧ ((68 : Seq) - 100).toInt < 0
      ∧ (∀ w ∈ [received .both 99], w.seq ≠ 68) ∧ (paired.jump : Int) < ((105 : Seq) - 100).toInt :=
  ⟨fun h hh n hn b => held_context paired_valid hh 100 0 _ (by unfold windowKept; decide) n hn b, by decide,
    by decide, by decide, by decide, by decide⟩

/-- A window with a slot in each state. -/
def mixedWindow : List Slot :=
  [⟨68, .dropped⟩, ⟨69, .outstanding 5 .gap⟩, ⟨70, .outstanding 6 .miss⟩, received .onlyA 98, received .both 99]

theorem witness_ArrivalsForWindowSlots :
    let seen (p : Machine.Path) (ps : Paths) : Prop :=
      ps = .both ∨ ps = .onlyA ∧ p = .a ∨ ps = .onlyB ∧ p = .b
    (∀ h, h = Health.tracking ∨ h = Health.recovering → ∀ b : Bool,
      ({ streamAt paired h 100 0 mixedWindow with staleCount := 0, testLoss := b } : Stream).contextKept)
      ∧ ⟨68, .dropped⟩ ∈ mixedWindow
      ∧ ⟨69, .outstanding 5 .gap⟩ ∈ mixedWindow ∧ ⟨70, .outstanding 6 .miss⟩ ∈ mixedWindow
      ∧ received .onlyA 98 ∈ mixedWindow ∧ received .both 99 ∈ mixedWindow
      ∧ (∀ p : Machine.Path, seen p .both ∧ (seen p .onlyA ↔ p = .a) ∧ (seen p .onlyB ↔ p = .b)) :=
  ⟨fun h hh b => held_context paired_valid hh 100 0 _ (by unfold windowKept; decide) 0 (by decide) b,
    by decide, by decide, by decide, by decide, by decide, fun p => by simp⟩

/-- The converted arrivals: an anchor, in order and ahead, an awaited slot, a fourth stale one; and an arrival
for a RECEIVED slot, which is not converted. -/
theorem witness_TestLossConvertsOneArrival :
    (∀ h, h = Health.tracking ∨ h = Health.recovering → ∀ n, n ≤ 3 →
      ({ streamAt paired h 100 0 mixedWindow with staleCount := n, testLoss := true } :
        Stream).contextKept)
      ∧ (∀ h, h = Health.unanchored ∨ h = Health.silent →
        ({ streamAt paired h 100 0 [] with testLoss := true } : Stream).contextKept)
      ∧ 0 ≤ ((100 : Seq) - 100).toInt ∧ 0 ≤ ((104 : Seq) - 100).toInt
      ∧ ((67 : Seq) - 100).toInt < -32 ∧ (∀ w ∈ mixedWindow, w.seq ≠ 90)
      ∧ (⟨69, .outstanding 5 .gap⟩ : Slot).isOutstanding = true ∧ -32 ≤ ((69 : Seq) - 100).toInt
      ∧ ((98 : Seq) - 100).toInt < 0 ∧ ¬∃ w ∈ mixedWindow, w.seq = 98 ∧ w.isOutstanding = true :=
  ⟨fun h hh n hn => held_context paired_valid hh 100 0 _ (by unfold windowKept; decide) n hn true,
    fun h hh => empty_context h (by rcases hh with rfl | rfl <;> decide) 100 0 true, by decide, by decide,
    by decide, by decide, by decide, by decide, by decide, by decide⟩

theorem witness_VerdictArrivalMovesHealth :
    let s := upAt 0 3 { streamAt paired .recovering 7 0 [] with recovery := 3 }
    let u := upAt 0 3 { streamAt paired .recovering 7 0 [] with recovery := 2 }
    (s.stream 3).definition = some paired ∧ (s.stream 3).health = .recovering
      ∧ s.acp.profiles[paired.profile].silentClear = (s.stream 3).recovery + 1
      ∧ (u.stream 3).recovery + 1 < u.acp.profiles[paired.profile].silentClear
      ∧ 1 < s.acp.profiles[paired.profile].silentClear := by decide

theorem witness_PostAndLatenessArithmetic :
    State.reset.tst.totalModes[Field.dropped.pos] = .hold
      ∧ (State.reset.tst.totalModes.set 3 .wrap)[Field.dropped.pos] = .wrap := by decide

theorem witness_EarliestExpiryIsTakenFirst :
    let s := upAt 2008751 20 (streamAt paired .tracking 105 2002500 [⟨101, .outstanding 1502500 .miss⟩])
    (s.stream 20).definition = some paired ∧ (s.stream 20).health ≠ .off
      ∧ s.nextExpiry 20 = some (.hold 101)
      ∧ (upAt 2008750 20 (s.stream 20)).nextExpiry 20 = none := by decide

theorem witness_SlotMissesByHealth :
    (∀ h, h = Health.tracking ∨ h = Health.recovering ∨ h = Health.unanchored →
      ∀ m, m = 6 ∨ m = 7 →
      let s := upAt 8751 3 { streamAt paired h 7 2500 [] with misses := m }
      s.resetLow = false ∧ s.engine = .running ∧ (s.stream 3).definition = some paired
        ∧ (s.stream 3).health = h ∧ (s.stream 3).misses = m ∧ s.nextExpiry 3 = some .miss
        ∧ (s.stream 3).taking = true
        ∧ s.link.state = .up ∧ s.link.timeLoaded = true
        ∧ s.acp.profiles[paired.profile].silentDeclare = 8) := by
  intro h hh m hm
  rcases hh with rfl | rfl | rfl <;> rcases hm with rfl | rfl <;> decide

/-- A window with 7 OUTSTANDING slots, and one with 8, after the slot that leaves as E passes 100. -/
theorem witness_NinthOutstandingSlot :
    let awaited (n : Nat) : List Slot := (List.range n).map fun k => ⟨70 + BitVec.ofNat 16 k, .outstanding 5 .gap⟩
    let window (n : Nat) : List Slot := [⟨68, .outstanding 4 .gap⟩, received .onlyA 69] ++ awaited n
    let staying (n : Nat) : List Slot := (window n).filter fun v => v.seq != (100 : Seq) - 32
    ((staying 7).filter Slot.isOutstanding).length < 8
      ∧ staying 8 = [received .onlyA 69] ++ ⟨70, .outstanding 5 .gap⟩ :: (awaited 8).drop 1
      ∧ 8 ≤ ((staying 8).filter Slot.isOutstanding).length ∧ windowKept 100 (window 7) := by
  refine ⟨by decide, by decide, by decide, by unfold windowKept; decide⟩

theorem witness_CatchUpPassesEverySlot :
    let s := upAt 8751 3 (streamAt paired .silent 7 2500 [])
    let u : State := { upAt 8751 3 (streamAt paired .unanchored 7 2500 []) with engine := .halted }
    s.resetLow = false ∧ s.link.state = .up ∧ s.link.timeLoaded = true
      ∧ (s.stream 3).definition = some paired ∧ paired.valid
      ∧ s.nextExpiry 3 = some .miss ∧ s.engine = .running ∧ (s.stream 3).health = .silent
      ∧ u.resetLow = false ∧ u.link.state = .up ∧ u.link.timeLoaded = true
      ∧ (u.stream 3).definition = some paired ∧ u.nextExpiry 3 = some .miss
      ∧ (s.stream 3).taking = true ∧ (u.stream 3).taking = true :=
  ⟨rfl, rfl, rfl, by decide, paired_valid, by decide, rfl, by decide, rfl, rfl, rfl, by decide, by decide,
    by decide, by decide⟩

theorem witness_HoldExpiryDropsItsSlot :
    let x := streamAt paired .tracking 105 2002500 [⟨101, .outstanding 1502500 .miss⟩]
    let s := upAt 2008751 20 x
    s.resetLow = false ∧ s.link.state = .up ∧ s.link.timeLoaded = true
      ∧ (s.stream 20).taking = true ∧ s.nextExpiry 20 = some (.hold 101)
      ∧ (s.stream 20).contextKept := by
  intro x s
  have e : s.stream 20 = x := by simp [s, upAt_stream]
  exact ⟨rfl, rfl, rfl, by decide, by decide,
    e ▸ tracking_context 105 2002500 _ (by unfold windowKept; decide) 0 (by decide) false⟩

theorem witness_ExpiryRowsReachOneStream :
    let s := upAt 2008750 20 (streamAt paired .tracking 105 2002500 [⟨101, .outstanding 1502500 .miss⟩])
    let m := upAt 2008751 20 (streamAt paired .tracking 105 2002500 [⟨104, .outstanding 1877500 .miss⟩])
    s.nextExpiry 20 ≠ some .miss ∧ s.nextExpiry 20 ≠ some (.hold 101)
      ∧ m.nextExpiry 20 = some .miss ∧ m.nextExpiry 20 ≠ some (.hold 104)
      ∧ State.reset.link.state ≠ .up ∧ State.reset.link.timeLoaded = false ∧ (s.stream 21).taking = false := by
  decide

theorem witness_TakingEndsWithNothingDue :
    let x := streamAt paired .tracking 105 2002500 [⟨101, .outstanding 1502500 .miss⟩]
    countsKept (upAt 9000000 20 x) ∧ ((upAt 9000000 20 x).stream 20).contextKept
      ∧ (upAt 9000000 20 x).nextExpiry 20 = some (.hold 101)
      ∧ (upAt 9000000 20 x).link.state = .up ∧ (upAt 9000000 20 x).link.timeLoaded = true
      ∧ (∀ i, State.reset.nextExpiry i = none ∧ (State.reset.stream i).taking = false)
      ∧ Stream.reset.health = .off ∧ x.health ≠ .off ∧ x.taking = true ∧ Stream.reset.taking = false := by
  intro x
  refine ⟨upAt_counts 9000000 20 ⟨by decide, fun _ => by decide, by decide⟩, ?_, by decide, rfl, rfl,
    fun i => ⟨?_, ?_⟩, rfl, by decide, rfl, rfl⟩
  rotate_left
  · unfold State.nextExpiry; rw [reset_stream]; rfl
  · rw [reset_stream]; rfl
  rw [upAt_stream]
  exact tracking_context 105 2002500 _ (by unfold windowKept; decide) 0 (by decide) false

/-- A miss due in each health, below silent_declare and at it, with the engine RUNNING and HALTED. -/
theorem witness_EveryExpiryIsTaken :
    (∀ h, h = Health.unanchored ∨ h = .tracking ∨ h = .recovering ∨ h = .silent →
      ∀ m, m = 6 ∨ m = 7 →
      let s := upAt 8751 3 { streamAt paired h 7 2500 [] with misses := m }
      s.resetLow = false ∧ s.link.state = .up ∧ s.link.timeLoaded = true ∧ s.engine = .running
        ∧ (s.stream 3).definition = some paired ∧ (s.stream 3).health = h ∧ (s.stream 3).misses = m
        ∧ (s.stream 3).taking = true ∧ s.nextExpiry 3 = some .miss
        ∧ State.nextExpiry { s with engine := .halted } 3 = some .miss)
      ∧ (∀ h, h ≠ Health.off → ∀ m,
        ({ streamAt paired h 7 2500 [] with misses := m } : Stream).contextKept) := by
  refine ⟨?_, fun h hh m => ?_⟩
  · intro h hh m hm
    rcases hh with rfl | rfl | rfl | rfl <;> rcases hm with rfl | rfl <;> decide
  · have k := empty_context h hh 7 2500 false
    exact ⟨k.defined, k.valid, k.window, k.unheld, k.stale, fun e => absurd e hh, k.recovery, k.quiet⟩

theorem witness_EvaluationFollowsTheConditions :
    (∀ h, let s := upAt 0 3 (streamAt paired h 7 0 [])
      (s.stream 3).definition = some paired ∧ (s.stream 3).health = h) := by
  intro h s
  have e : s.stream 3 = streamAt paired h 7 0 [] := by simp [s, upAt_stream]
  rw [e]; exact ⟨rfl, rfl⟩

theorem witness_EventsReachTheQueues :
    let e : Event := ⟨0, .drop, .assert, 0, 1⟩
    (List.replicate 31 e).length < 32 ∧ 32 ≤ (List.replicate 32 e).length
      ∧ AlarmClass.inOrder = [.drop, .late, .reorder, .path, .silent]
      ∧ AlarmClass.thresholds = [.drop, .late, .reorder, .path] := by decide

theorem witness_RepliesGoToTheirPort :
    State.reset.board.held = none ∧ State.reset.linePort.discardMark = false
      ∧ State.reset.service.sending = none ∧ State.reset.service.txQueue = []
      ∧ ({ State.reset.board with held := some [0x01, 0x02] } : BoardPort).held = some [0x01, 0x02]
      ∧ takesReset 0 .board [0x4F, 0x22] = true ∧ takesReset 0 .board [0x01, 0x02] = false
      ∧ (⟨.replying, true⟩ : LinePort).discardMark = true
      ∧ ({ State.reset.service with sending := some ⟨[0x21, 0x00], .busy⟩ } : ServicePort).sending ≠ none := by
  decide

theorem witness_GetStatusResults (p : Port) :
    (running State.reset p .getStatus).runs p 0x21 .getStatus := running_runs p _ rfl

theorem witness_ReadCommandsReply (p : Port) (c : Command) :
    (running State.reset p c).runs p 0x21 c := running_runs p c rfl

theorem witness_LatchCopiesTheRange (p : Port) :
    (running State.reset p (.latch 255 255)).runs p 0x21 (.latch 255 255)
      ∧ (running State.reset p (.latch 256 256)).runs p 0x21 (.latch 256 256)
      ∧ min 255 (min 255 (255 + 31)) = 255 ∧ min 300 (min 255 (224 + 31)) = 255 :=
  ⟨running_runs p _ rfl, running_runs p _ rfl, rfl, rfl⟩

theorem witness_EventAndNoticeCommands (p : Port) :
    (∀ n, (running State.reset p (.popEvents n)).runs p 0x21 (.popEvents n))
      ∧ (∀ m, (running State.reset p (.clearNotices m)).runs p 0x21 (.clearNotices m))
      ∧ (∀ m, (running State.reset p (.setNoticeEnable m)).runs p 0x21 (.setNoticeEnable m))
      ∧ 0x1000#16 &&& 0xF000#16 ≠ 0 ∧ 0x0FFF#16 &&& 0xF000#16 = 0 :=
  ⟨fun _ => running_runs p _ rfl, fun _ => running_runs p _ rfl, fun _ => running_runs p _ rfl, by decide,
    by decide⟩

theorem witness_AckLampAndInject (p : Port) :
    (running State.reset p .ackLamp).runs p 0x21 .ackLamp
      ∧ (running State.reset p .ackLamp).acp.lampCount = 0
      ∧ (running { State.reset with acp := { State.reset.acp with lampCount := 1 } } p .ackLamp).runs p 0x21
        .ackLamp
      ∧ (running (upAt 0 255 (streamAt paired .tracking 7 0 [])) p (.inject 255)).runs p 0x21 (.inject 255)
      ∧ ((upAt 0 255 (streamAt paired .tracking 7 0 [])).stream 255).health ≠ .off
      ∧ ((upAt 0 255 (streamAt paired .tracking 7 0 [])).stream 0).health = .off :=
  ⟨running_runs p _ rfl, by cases p <;> rfl, running_runs p _ rfl, running_runs p _ rfl, by decide,
    by decide⟩

theorem witness_IntervalsBegin (p : Port) :
    (running State.reset p .closeInterval).runs p 0x21 .closeInterval ∧ State.reset.tst.sweep = none
      ∧ State.reset.tst.reportMode = .auto 60 ∧ State.reset.tst.intervalTimer = some 0
      ∧ (∀ m n, (running State.reset p (.setReportMode m n)).runs p 0x21 (.setReportMode m n)) :=
  ⟨running_runs p _ rfl, rfl, rfl, rfl, fun _ _ => running_runs p _ rfl⟩

theorem witness_SweepVisitClosesOneStream (i : StreamIx) :
    ({ State.reset with tst := { State.reset.tst with sweep := some i } } : State).tst.sweep = some i := rfl

theorem witness_TotalsCommands (p : Port) :
    (running State.reset p (.clearTotals 255 65535)).runs p 0x21 (.clearTotals 255 65535)
      ∧ (∀ a b c : StreamIx, (State.reset.setRunning p ⟨0x21, .clearing a b c⟩).runningOf p =
        some ⟨0x21, .clearing a b c⟩)
      ∧ (running { State.reset with engine := .halted } p (.setTotalMode 1 [0, 15])).runs p 0x21
        (.setTotalMode 1 [0, 15])
      ∧ (running { State.reset with engine := .halted } p (.setTotalMode 2 [16])).runs p 0x21
        (.setTotalMode 2 [16]) :=
  ⟨running_runs p _ rfl, (fun a b c => by cases p <;> rfl), running_runs p _ rfl, running_runs p _ rfl⟩

theorem witness_HaltAndRun (p : Port) :
    (running (upAt 0 3 (streamAt paired .tracking 7 0 [])) p .halt).runs p 0x21 .halt
      ∧ (running State.reset p .run).runs p 0x21 .run :=
  ⟨running_runs p _ rfl, running_runs p _ rfl⟩

/-- A profile as SET_PROFILE may carry it. -/
def profileArg : ProfileArg :=
  ⟨0, 0, 0, 0, 255, 1, 1, Route.none, Route.none, Route.none, Route.none, Route.none⟩

theorem witness_SetProfileReplacesThenReevaluates (p : Port) :
    let s := upAt 0 3 (streamAt paired .tracking 7 0 [])
    (running s p (.setProfile 0 profileArg)).runs p 0x21 (.setProfile 0 profileArg)
      ∧ (running s p (.setProfile 7 profileArg)).runs p 0x21 (.setProfile 7 profileArg)
      ∧ ((s.stream 3).health ≠ .off ∧ ∃ d, (s.stream 3).definition = some d ∧ d.profile = 0)
      ∧ (∀ i, State.reset.stream i = Stream.reset) ∧ Stream.reset.health = .off ∧ profileArg.silentDeclare ≠ 0 ∧ profileArg.silentClear ≠ 0
      ∧ profileArg.edgeMode ≤ 1
      ∧ (∀ k low before, (s.setRunning p ⟨0x21, .reevaluating k low before⟩).runningOf p =
        some ⟨0x21, .reevaluating k low before⟩) :=
  ⟨running_runs p _ rfl, running_runs p _ rfl, ⟨by decide, paired, by decide, rfl⟩, reset_stream, rfl,
    by decide, by decide, by decide, (fun _ _ _ => by cases p <;> rfl)⟩

theorem witness_ResetDeviceWaits (p : Port) :
    let waits : State := { upAt 0 0 Stream.reset with
      resetPending := true
      service := { State.reset.service with rx := .partialFrame [0xA5, 0x01, 0x04, 0xD2] 0 } }
    (running State.reset p .resetDevice).runs p 0x21 .resetDevice
      ∧ (running { State.reset with linePort := ⟨.idle, true⟩ } .line .resetDevice).linePort.discardMark = true
      ∧ State.reset.linePort.discardMark = false ∧ State.reset.service.sending = none
      ∧ (running { State.reset with service := { State.reset.service with
          sending := some ⟨[0x33, 0x05], .busy⟩ } } .service .resetDevice).service.sending ≠ none
      ∧ spiFrame [0x01, 0x01, 0x04] = .command [0x04] ∧ waits.resetPending = true ∧ waits.resetLow = false
      ∧ waits.link.state = .up ∧ waits.service.rx = .partialFrame (0xA5 :: 0x01 :: [0x04, 0xD2]) 0
      ∧ [0x04#8, 0xD2].length + 1 = (0x01#8).toNat + 2 :=
  ⟨running_runs p _ rfl, rfl, rfl, rfl, by decide, by decide, rfl, rfl, rfl, rfl, rfl⟩

/-- The three takings of a RESET_DEVICE that RepliesGoToTheirPort, SpiFrames, BodiesTakenAndRepliesSent and
ResetDeviceWaits name. -/
theorem witness_ResetDeviceTaken :
    let s := { upAt 0 0 Stream.reset with plan := 2 }
    let held : State := { s with board := { s.board with held := some [0x4F, 0x21] } }
    s.resetLow = false ∧ s.resetPending = false ∧ spiFrame [0x01, 0x02, 0x4F, 0x21] = .command [0x4F, 0x21]
      ∧ (∀ r, s.board.slot ≠ .pending r) ∧ held.board.held = some [0x4F, 0x21]
      ∧ held.resetLow = false ∧ held.resetPending = false ∧ s.link.state = .up ∧ s.linePort.cmd = .idle
      ∧ s.service.cmd = .idle ∧ (∀ p, parseBody s.plan p [0x4F, 0x21] = .command 0x21 .resetDevice)
      ∧ takesReset s.plan .board [0x4F, 0x21] = true :=
  ⟨rfl, rfl, rfl, (fun _ h => by cases h), rfl, rfl, rfl, rfl, rfl, rfl, (fun p => by cases p <;> rfl), rfl⟩

theorem witness_StageDefineAndRemove :
    (∀ u, (running (staged u) .line (.stageRemove 7)).runs .line 0x21 (.stageRemove 7))
      ∧ openList.state = .opened ∧ openList.holder = some .line ∧ openList.entries[0]? = some (.remove 7)
      ∧ (openList.entries.map StageEntry.index).Nodup ∧ (armedList .strobe).state = .armed
      ∧ Staging.reset.state = .empty ∧ (∀ e ∈ openList.entries, e.index ≠ 8)
      ∧ (DefinitionArg.mk 0 0 24 none 1250 0 0 1 1 0 0 []).firstBad = some 3
      ∧ (DefinitionArg.mk 0 0 23 none 1250 1249 1249 16 32 7 1 []).firstBad = none :=
  ⟨fun _ => running_runs _ _ rfl, rfl, rfl, rfl, by decide, rfl, rfl, by decide, by decide, by decide⟩

/-- Where the field checks meet: a period out of range hides phase and tolerance (R22). -/
theorem test_first_bad_field :
    (DefinitionArg.mk 0 0 4 (some 4) 0 0 0 1 1 0 0 []).firstBad = some 4
      ∧ (DefinitionArg.mk 0 0 4 none 0 0 0 1 1 0 0 []).firstBad = some 5
      ∧ (DefinitionArg.mk 0 0 4 none 1250 1250 1250 0 0 8 2 []).firstBad = some 6
      ∧ (DefinitionArg.mk 0 0 4 none 1250 0 0 1 1 0 2 [0x1F]).firstBad = some 11
      ∧ (DefinitionArg.mk 0 0 4 none 1250 0 0 1 1 0 1 [0x7F]).firstBad = some 12 := by decide

theorem witness_StageDropAndDiscard :
    (∀ u n, (running (staged u) .line (.stageDrop n)).runs .line 0x21 (.stageDrop n))
      ∧ (∀ u, (running (staged u) .line .stageDiscard).runs .line 0x21 .stageDiscard)
      ∧ openList.entries[0]? = some (.remove 7) ∧ openList.entries.eraseIdx 0 = []
      ∧ (openList.entries ++ [StageEntry.remove 8]).eraseIdx 1 ≠ [] :=
  ⟨fun _ _ => running_runs _ _ rfl, fun _ => running_runs _ _ rfl, rfl, rfl, by decide⟩

theorem witness_StageArmAndDisarm :
    (∀ u n, (running (staged u) .line (.stageArm n 5)).runs .line 0x21 (.stageArm n 5))
      ∧ (∀ u, (running (staged u) .line .stageDisarm).runs .line 0x21 .stageDisarm)
      ∧ TriggerSource.strobe.code.toNat = 2 ∧ (armedList .atTime).source = some .atTime
      ∧ (armedList .atTime).holder = some .line :=
  ⟨fun _ _ => running_runs _ _ rfl, fun _ => running_runs _ _ rfl, by decide, rfl, rfl⟩

theorem witness_ApplyTakesTheArmedList :
    (∀ u, (running (staged u) .line .apply).runs .line 0x21 .apply)
      ∧ (armedList .command).state = .armed ∧ (armedList .command).source = some .command
      ∧ (armedList .command).holder = some .line ∧ (armedList .strobe).source ≠ some .command :=
  ⟨fun _ => running_runs _ _ rfl, rfl, rfl, rfl, by decide⟩

theorem witness_ApplyEntrySteps :
    (Stream.reset.definition = none) ∧ (streamAt paired .tracking 7 0 []).definition ≠ none
      ∧ (streamAt paired .tracking 7 0 []).definition = some paired := by decide

theorem witness_StrobeAndAbandonment :
    let s : State := { staged (armedList .strobe) with
      staging := { armedList .strobe with accepted := false, held := 24 } }
    s.resetLow = false ∧ s.changeoverPin ≠ s.staging.accepted ∧ s.changeoverPin = true
      ∧ s.staging.state = .armed ∧ s.staging.source = some .strobe
      ∧ ({ State.reset with changeoverPin := false } : State).changeoverPin ≠ State.reset.staging.accepted
      ∧ openList.timer = some 0 := by decide

theorem witness_SpiFrames :
    1 ≤ (250 : Byte).toNat ∧ (250 : Byte).toNat ≤ 250
      ∧ (250 : Byte).toNat ≤ (List.replicate 250 (0 : Byte)).length ∧ State.reset.resetPending = false
      ∧ (∀ r, State.reset.board.slot ≠ .pending r) ∧ (∀ b r, State.reset.board.slot ≠ .ready b r)
      ∧ [0x02#8].length < [0x21#8, 0x00].length + 3
      ∧ ([] : List Byte).head? ≠ some 0x02 ∧ [0x01#8, 0xFB].head? ≠ some 0x02
      ∧ (0xFB#8).toNat = 251 :=
  ⟨by decide, by decide, (by rw [List.length_replicate]; decide), rfl, (fun _ h => by cases h),
    (fun _ _ h => by cases h), by decide, by decide, by decide, by decide⟩

theorem witness_ServiceRows :
    let bytes := (serviceFrame [0x0A, 0x33]).take 5
    State.reset.service.rx = .hunting ∧ bytes = 0xA5 :: 0x02 :: bytes.drop 2
      ∧ (bytes.drop 2).length + 1 = (0x02#8).toNat + 2
      ∧ checkGood (bytes ++ (serviceFrame [0x0A, 0x33]).drop 5) = true ∧ checkGood (bytes ++ [0x00]) = false
      ∧ ((bytes.take 4).drop 2).length + 1 < (0x02#8).toNat + 2 := by decide +kernel

theorem witness_BodiesTakenAndRepliesSent :
    let s := upAt 0 0 Stream.reset
    s.resetLow = false ∧ s.link.state = .up ∧ s.resetPending = false ∧ s.linePort.cmd = .idle
      ∧ parseBody s.plan .line [0x04, 0x21] = .command 0x21 .getLink
      ∧ parseBody s.plan .line [0x04] = .refusal [0x00, 0x02] ∧ s.linePort.discardMark = false
      ∧ (running s .line .getLink).linePort.cmd ≠ .idle ∧ s.service.cmd = .idle
      ∧ parseBody s.plan .service [0x04, 0x21] = .command 0x21 .getLink ∧ s.link.sending = .idle
      ∧ parseBody s.plan .service [0x04] = .refusal [0x00, 0x02] ∧ s.service.sending = none
      ∧ (running s .service .getLink).service.cmd ≠ .idle
      ∧ (running s .service .getLink).service.sending = none := by
  decide

/-- A service transmitter that sends, with its port IDLE and running; and a REPLY record under way. -/
theorem witness_TransmittersBusy :
    let s := upAt 0 0 Stream.reset
    let t : State := { s with
      service := { s.service with sending := some ⟨[0x33, 0x05], .busy⟩ }
      link := { s.link with sending := .reply ⟨[0x33, 0x05], .busy⟩ } }
    t.service.sending ≠ none ∧ t.service.cmd = .idle ∧ t.resetPending = false
      ∧ (running t .service .getLink).service.cmd ≠ .idle
      ∧ (running t .service .getLink).service.sending ≠ none
      ∧ t.link.sending = .reply ⟨[0x33, 0x05], .busy⟩ ∧ ReplyOrigin.busy ≠ .reset := by decide

theorem witness_ParseChecksInOrder :
    permissionOf 0x0D = none ∧ permissionOf 0x30 = some .schedule ∧ allowed 0 .service .schedule = false
      ∧ allowed 0 .line .schedule = true ∧ (List.replicate 32 (0 : Byte)).length ≤ 32
      ∧ 33 < (List.replicate 34 (0 : Byte)).length ∧ (List.replicate 28 (0 : Byte)).length < 29
      ∧ (List.replicate 16 (0 : Byte)).length ≠ 17 := by decide

theorem witness_DefinitionAndProfileBodiesReadBack : paired.valid ∧ Profile.reset.valid :=
  ⟨paired_valid, by unfold Profile.valid; decide⟩

theorem witness_RecordBytesAreTheirRow :
    (upAt 0 0 Stream.reset).resetLow = false ∧ (upAt 0 0 Stream.reset).link.rxBytes = []
      ∧ (upAt 0 0 Stream.reset).link.state = .up ∧ State.reset.link.state = .down := by decide

theorem witness_StepKeepsContexts :
    openList.kept ∧ contextsKept (upAt 0 3 (streamAt paired .tracking 100 0 mixedWindow)) :=
  ⟨⟨⟨by decide, rfl, rfl, rfl, rfl⟩, by decide, by decide, (fun e h => by
      have k : e = .remove 7 := List.mem_singleton.1 h
      rw [k]; trivial), (fun k h => by cases h; decide), by decide⟩,
    upAt_contexts 0 3 (tracking_context 100 0 _ (by unfold windowKept; decide) 0 (by decide) false)⟩

/-- A stream in each health with its SILENT alarm as it must be. -/
theorem witness_StepKeepsSilentAlarms (h : Health) :
    silentsKept (upAt 0 3 { streamAt paired h 7 0 [] with
      alarms := ⟨false, false, false, false, decide (h = .silent ∨ h = .recovering)⟩ }) := fun i => by
  rw [upAt_stream]
  unfold Stream.silentKept
  split
  · cases h <;> decide
  · decide

theorem witness_StepKeepsTallies : talliesKept State.reset := fun i => by
  rw [reset_stream]
  refine ⟨fun f => ?_, fun f => ?_, fun f h => ?_, by decide, by decide, fun l h => by cases h⟩
  · simp [Stream.reset]
  · simp [Stream.reset]
  · simp [Stream.reset, totalTop] at h

theorem witness_StepKeepsStaging : (armedList .atTime).shapeKept :=
  ⟨by decide, by decide, by decide, by decide, rfl⟩

theorem witness_StepKeepsOutputs :
    let x := { streamAt paired .silent 7 0 [] with lampShare := 1 }
    let s : State := { upAt 0 3 x with acp := { State.reset.acp with lampLatch := true, lampCount := 1 } }
    outputsKept s := by
  intro x s
  have st : ∀ j, s.stream j = if j = 3 then x else Stream.reset := fun j => upAt_stream 0 3 j x
  refine ⟨?_, ?_, fun _ => rfl⟩
  · have e : ∀ j, (s.stream j).lampShare = if j = 3 then 1 else 0 := fun j => by
      rw [st]; split <;> rfl
    simp only [e]
    simp [s]
  · have e : ∀ j, (s.stream j).lineShare = 0 := fun j => by rw [st]; split <;> rfl
    simp only [e]
    simp [s, State.reset, AlarmComparator.reset]

theorem witness_StepKeepsBounds :
    let s := upAt 0 3 { streamAt paired .unanchored 7 0 [] with misses := 254 }
    noticesKept s ∧ countsKept s ∧ portsKept s := by
  intro s
  refine ⟨⟨fun p => by cases p <;> exact ⟨by decide, by decide, by decide⟩, by decide⟩,
    upAt_counts 0 3 ⟨by decide, fun _ => by decide, by decide⟩, ⟨fun h => absurd rfl h, by decide, by decide,
      fun p => by cases p <;> decide⟩⟩

end Sys2Proof.Tests
end

section
/-! The bounds of the whole part, row by row: every row keeps every bound (`keepsAll`), so every step does. -/

namespace Sys2Proof.Machine

/-! ### The state after reset -/

@[simp] theorem State.stream_reset (i : StreamIx) : State.reset.stream i = Stream.reset := by
  simp [State.stream, State.reset]

theorem State.reset_profiles (k : ProfileIx) : State.reset.acp.profiles[k] = Profile.reset := by
  simp [State.reset, AlarmComparator.reset]

theorem State.reset_talliesKept : talliesKept State.reset := fun i => by
  rw [State.stream_reset]; exact recordKept.clear rfl rfl rfl

theorem State.reset_countsKept : countsKept State.reset := by
  refine ⟨fun k => ?_, fun i => ?_⟩
  · rw [State.reset_profiles]; simp [Profile.valid, Profile.reset]
  · rw [State.stream_reset]; simp [Stream.reset]

theorem State.reset_noticesKept : noticesKept State.reset :=
  ⟨fun p => by cases p <;> simp [State.reset, AlarmComparator.reset, PerPort.all, PerPort.get],
    by simp [State.reset, AlarmComparator.reset]⟩

theorem State.reset_outputsKept : outputsKept State.reset := by
  simp [outputsKept, Stream.reset, State.reset, AlarmComparator.reset, State.stream]

theorem State.reset_portsKept : portsKept State.reset :=
  ⟨fun h => absurd rfl h, Nat.zero_le _, Nat.zero_le _, fun p => by cases p <;> exact Nat.zero_le _⟩

theorem State.reset_stagingKept : State.reset.staging.kept :=
  ⟨⟨rfl, rfl, rfl, rfl, rfl⟩, Nat.zero_le _, List.nodup_nil, fun _ h => (by cases h), fun _ h => (by cases h),
    Nat.zero_le _⟩

theorem State.reset_contextsKept : contextsKept State.reset := fun i => by
  rw [State.stream_reset]
  exact ⟨⟨fun _ => rfl, fun _ => rfl⟩, fun _ k => (by cases k), .nil _, fun _ => rfl, Nat.zero_le _,
    fun _ => ⟨rfl, rfl, rfl⟩, fun k => absurd rfl k, fun _ => rfl⟩

theorem State.reset_silentsKept : silentsKept State.reset := fun i => by
  rw [State.stream_reset]; simp [Stream.silentKept, Stream.reset, AlarmStates.clear]

/-- A reset keeps every bound, whatever was before: the state after it is within them. -/
theorem keepsAll.reset (s : State) : keepsAll s State.reset :=
  ⟨⟨fun _ => State.reset_talliesKept, fun _ => State.reset_countsKept, fun _ => State.reset_noticesKept,
    fun _ => State.reset_outputsKept⟩, fun _ => State.reset_portsKept, fun _ => State.reset_stagingKept,
    fun _ _ => ⟨State.reset_contextsKept, fun _ => State.reset_silentsKept⟩⟩

theorem keepsAll.deviceReset (s : State) : keepsAll s s.deviceReset :=
  (keepsAll.reset s).trans (.of_same rfl rfl rfl rfl rfl rfl rfl rfl)

/-! ### Rows -/

/-- The state that the row's result r makes of s keeps every bound of s. -/
def rowKeeps (s : State) (r : Result State) : Prop := ∀ t, r = .next t → keepsAll s t

theorem rowKeeps.next {s t : State} (h : keepsAll s t) : rowKeeps s (.next t) := fun u e => by
  cases e; exact h

/-- A row taken unless RESET_N is low. -/
theorem rowKeeps.live {s t : State} (h : keepsAll s t) : rowKeeps s (live s t) := by
  refine .next ?_
  split
  · exact .refl s
  · exact h

/-! ### The receive side of the tap link -/

/-- An item of the link written, its transmit queue as it was. -/
theorem keepsAll.link (s : State) (l : Link) (h : l.txQueue = s.link.txQueue) :
    keepsAll s { s with link := l } := .of_same rfl rfl rfl rfl rfl h rfl rfl

/-- The replies waiting are discarded at entry to DOWN (R11, R180, R196). -/
theorem keepsAll.lineLinkLost (s : State) : keepsAll s s.lineLinkLost := by
  have emptied : ∀ l : LinePort, keepsAll s { s with link := { s.link with txQueue := [] }, linePort := l } :=
    fun l => .of_ports rfl fun k => ⟨k.held, Nat.zero_le _, k.serviceBusy, k.banks⟩
  unfold State.lineLinkLost
  simp only
  split
  · exact (emptied s.linePort).trans (.deviceReset _)
  · split
    · exact emptied _
    · exact emptied _
    · split <;> exact emptied _

theorem keepsAll.leaveUp (s : State) : keepsAll s s.leaveUp := by
  refine .trans ?_ (.post _ .linkDown)
  exact .link s _ rfl

theorem keepsAll.linkDown (s : State) : keepsAll s s.linkDown :=
  (((keepsAll.takeRest s).trans (.leaveUp _)).trans (.flushAll _)).trans (.lineLinkLost _)

theorem keepsAll.badTaken (s : State) : keepsAll s s.badTaken := by
  unfold State.badTaken
  split
  · exact .refl s
  · exact .link s _ rfl
  · unfold State.badInUp
    simp only
    split
    · refine .trans ?_ (.linkDown _)
      exact .link s _ rfl
    · exact .link s _ rfl

theorem execWatchdogExpiry_keeps (s : State) : rowKeeps s (execWatchdogExpiry s) := by
  refine .live ?_
  split
  · exact .refl s
  · rename_i k _
    refine (keepsAll.elapse s (watchdogLimit - k)).trans ?_
    simp only
    split
    · exact .refl _
    · exact .link _ _ rfl
    · exact .linkDown _

theorem execSyncDetected_keeps (s : State) : rowKeeps s (execSyncDetected s) := by
  refine .live ?_
  split
  · exact .link s _ rfl
  · exact .refl s

theorem execAlignmentRecord_keeps (good : Bool) (s : State) : rowKeeps s (execAlignmentRecord good s) := by
  refine .live ?_
  split
  · split
    · unfold State.alignGood; simp only; split <;> exact .link s _ rfl
    · exact .link s _ rfl
  · exact .refl s

theorem execSyncRecord_keeps (s : State) : rowKeeps s (execSyncRecord s) := by
  refine .live ?_
  split
  · exact .link s _ rfl
  · exact .goodTaken s _ fun t => .refl t

theorem execMalformedRecord_keeps (s : State) : rowKeeps s (execMalformedRecord s) :=
  .live (.goodTaken s _ fun t => .link t _ rfl)

theorem execTickRecord_keeps (a : Time) (ks : List StreamIx) (s : State) : rowKeeps s (execTickRecord a ks s) :=
  .live (.goodTaken s _ fun t => .handleStamp t a ks)

theorem execDescRecord_keeps (d : Descriptor) (ks : List StreamIx) (s : State) :
    rowKeeps s (execDescRecord d ks s) :=
  .live (.goodTaken s _ fun t => (keepsAll.handleStamp t d.stamp ks).trans (.classify _ d))

theorem execQueryRecord_keeps (body : List Byte) (s : State) : rowKeeps s (execQueryRecord body s) := by
  refine .live ?_
  split
  · exact .goodTaken s _ fun t => .of_ports (t.lineBody_onlyPorts body) (t.lineBody_keepsPorts body)
  · exact .badTaken s

theorem execResetNAssert_keeps (s : State) : rowKeeps s (execResetNAssert s) :=
  .next ((keepsAll.reset s).trans (.of_same rfl rfl rfl rfl rfl rfl rfl rfl))

theorem execResetNRelease_keeps (perm1 perm0 : Bool) (s : State) :
    rowKeeps s (execResetNRelease perm1 perm0 s) := by
  refine .next ?_
  split
  · exact .of_same rfl rfl rfl rfl rfl rfl rfl rfl
  · exact .refl s

/-! ### Transports -/

/-- A fetch of the slot empties it only when it is READY, so that no command is held then (R176, R177). -/
theorem keepsAll.boardFetch (s : State) (n : Nat) : keepsAll s (s.boardFetch n) := by
  unfold State.boardFetch
  split
  · rename_i reply isReset e
    split
    · have taken : keepsAll s { s with board := { s.board with slot := .none, fetchWait := none } } :=
        .of_ports rfl fun k =>
          ⟨fun h => absurd (k.held h) (by rw [e]; simp), k.lineBusy, k.serviceBusy, k.banks⟩
      simp only
      split
      · exact taken.trans (.deviceReset _)
      · exact taken
    · exact .refl s
  · exact .refl s

theorem keepsAll.boardFrame (s : State) (frame : List Byte) (late : Bool) :
    keepsAll s (s.boardFrame frame late) := by
  have sent : keepsAll s { s with board := { s.board with lastSdo := s.sdoOf frame late } } :=
    .of_same rfl rfl rfl rfl rfl rfl rfl rfl
  unfold State.boardFrame
  simp only
  split
  · exact sent.trans (.of_port (State.boardBody_onlyPort _ _) (State.boardBody_keepsPorts _ _))
  · exact sent.trans (.boardFetch _ _)
  · exact sent

theorem execResetFetchTimeout_keeps (s : State) : rowKeeps s (execResetFetchTimeout s) := by
  refine .live ?_
  split
  · exact (keepsAll.elapse s _).trans (.deviceReset _)
  · exact .refl s

theorem keepsAll.setRx (s : State) (rx : ServiceRx) : keepsAll s (s.setRx rx) :=
  .of_same rfl rfl rfl rfl rfl rfl rfl rfl

theorem keepsAll.serviceNext (s : State) (bytes : List Byte) (c : Byte) :
    keepsAll s (s.serviceNext bytes c) := by
  unfold State.serviceNext
  simp only
  split
  · split <;> exact .setRx s _
  · split
    · exact .setRx s _
    · split
      · exact (keepsAll.setRx s _).trans
          (.of_ports (State.serviceBody_onlyPorts _ _) (State.serviceBody_keepsPorts _ _))
      · exact .setRx s _
  · exact .setRx s _

theorem execServiceCharacter_keeps (c : Byte) (framingError : Bool) (s : State) :
    rowKeeps s (execServiceCharacter c framingError s) := by
  refine .live ?_
  split
  · split
    · exact .setRx s _
    · exact .refl s
  · split
    · exact .setRx s _
    · exact .serviceNext s _ c

theorem execServiceCharacterTimeout_keeps (s : State) : rowKeeps s (execServiceCharacterTimeout s) := by
  refine .live ?_
  split
  · exact .refl s
  · exact (keepsAll.elapse s _).trans (.setRx _ _)

/-- The service port replaced, with no BUSY reply more in its queue. -/
theorem keepsAll.service (s : State) (v : ServicePort)
    (h : busyWaiting v.txQueue ≤ busyWaiting s.service.txQueue) : keepsAll s { s with service := v } :=
  .of_ports rfl fun k => ⟨k.held, k.lineBusy, h.trans k.serviceBusy, k.banks⟩

theorem keepsAll.serviceSent (s : State) (r : TxReply) : keepsAll s (s.serviceSent r) := by
  unfold State.serviceSent
  simp only
  split
  · exact .service s _ (ServicePort.kick_busy _)
  · refine .trans ?_ (.deviceReset _)
    exact .service s _ (Nat.le_refl _)
  · exact .service s _ (ServicePort.kick_busy _)
  · exact .service s _ (ServicePort.kick_busy _)

theorem execServiceReplySent_keeps (s : State) : rowKeeps s (execServiceReplySent s) := by
  refine .live ?_
  split
  · exact .serviceSent s _
  · exact .refl s

/-- The tap link transmitter gone on, and the line port's state with it (R19, R180). -/
theorem keepsAll.tapWentOn (s : State) (record : List Byte) (l : LinePort) :
    keepsAll s { s with lastTapRecord := record, linePort := l, link := s.link.beginNext } := by
  refine ⟨.of_same rfl rfl, fun k => ?_, id, fun _ => .of_same rfl⟩
  exact ⟨k.held, (Link.beginNext_busy s.link).trans k.lineBusy, k.serviceBusy, k.banks⟩

theorem keepsAll.tapReplySent (s : State) (r : TxReply) : keepsAll s (s.tapReplySent r) := by
  unfold State.tapReplySent
  simp only
  split
  · exact .tapWentOn s _ _
  · refine .trans ?_ (.deviceReset _)
    exact .of_same rfl rfl rfl rfl rfl rfl rfl rfl
  · exact .tapWentOn s _ _
  · exact .tapWentOn s _ _

theorem execReplyRecordSent_keeps (s : State) : rowKeeps s (execReplyRecordSent s) := by
  refine .live ?_
  split
  · exact .tapReplySent s _
  · exact .refl s

theorem execIdleRecordSent_keeps (s : State) : rowKeeps s (execIdleRecordSent s) := by
  refine .live ?_
  split
  · exact .tapWentOn s _ _
  · exact .refl s

/-! ### Sweep, timers and triggers -/

theorem execIntervalTimerExpiry_keeps (s : State) : rowKeeps s (execIntervalTimerExpiry s) := by
  refine .live ?_
  split
  · exact (keepsAll.elapse s _).trans (.closeRequest _)
  · exact .refl s

theorem execSweepVisit_keeps (s : State) : rowKeeps s (execSweepVisit s) := by
  refine .live ?_
  split
  · exact .visit s _
  · exact .refl s

theorem execAbandonmentTimerExpiry_keeps (s : State) : rowKeeps s (execAbandonmentTimerExpiry s) := by
  refine .live ?_
  split
  · exact ((keepsAll.elapse s _).trans (.emptyStaging _)).trans (.post _ _)
  · exact .refl s

/-- The CHANGEOVER filter started again from 0 at some level (R165). -/
theorem keepsAll.filter (s : State) (pin accepted : Bool) :
    keepsAll s { s with changeoverPin := pin, staging := { s.staging with accepted := accepted, held := 0 } } :=
  ⟨.of_same rfl rfl, .of_same rfl rfl rfl rfl rfl,
    fun k => ⟨k.shape, k.places, k.distinct, k.valid, k.timer, Nat.zero_le _⟩, fun _ => .of_same rfl⟩

theorem execChangeoverPinChange_keeps (level : Bool) (s : State) :
    rowKeeps s (execChangeoverPinChange level s) := by
  refine .next ?_
  split
  · exact .refl s
  split
  · exact .of_same rfl rfl rfl rfl rfl rfl rfl rfl
  · exact .filter s level s.staging.accepted

theorem execChangeoverFilterExpiry_keeps (s : State) : rowKeeps s (execChangeoverFilterExpiry s) := by
  refine .live ?_
  split
  · have accepted := (keepsAll.elapse s (filterLimit - s.staging.held)).trans
      (.filter _ s.changeoverPin s.changeoverPin)
    simp only
    split
    · exact accepted.trans (.changeoverEdge _)
    · exact accepted
  · exact .refl s

/-! ### Commands -/

theorem execGetStatus_keeps (p : Port) (s : State) : rowKeeps s (execGetStatus p s) := by
  refine .live ?_
  split
  · exact .reply _ _ _ _ _
  · exact .refl s

theorem execGetStream_keeps (p : Port) (s : State) : rowKeeps s (execGetStream p s) := by
  refine .live ?_
  split
  · split <;> exact .reply _ _ _ _ _
  · exact .refl s

theorem execGetPortTallies_keeps (p : Port) (s : State) : rowKeeps s (execGetPortTallies p s) := by
  refine .live ?_
  split
  · split <;> exact .reply _ _ _ _ _
  · exact .refl s

theorem execGetLink_keeps (p : Port) (s : State) : rowKeeps s (execGetLink p s) := by
  refine .live ?_
  split
  · exact .reply _ _ _ _ _
  · exact .refl s

theorem execGetProfile_keeps (p : Port) (s : State) : rowKeeps s (execGetProfile p s) := by
  refine .live ?_
  split
  · split <;> exact .reply _ _ _ _ _
  · exact .refl s

theorem execStageRead_keeps (p : Port) (s : State) : rowKeeps s (execStageRead p s) := by
  refine .live ?_
  split
  · split <;> exact .reply _ _ _ _ _
  · exact .refl s

/-- A bank of at most 32 copies written keeps every bound (R192). -/
theorem keepsAll.banks (s : State) (p : Port) (bank : List StreamCopy) (h : bank.length ≤ bankPlaces) :
    keepsAll s { s with banks := s.banks.set p bank } := by
  refine ⟨.of_same rfl rfl, fun k => ⟨k.held, k.lineBusy, k.serviceBusy, fun q => ?_⟩, id,
    fun _ => .of_same rfl⟩
  show ((s.banks.set p bank).get q).length ≤ bankPlaces
  rw [PerPort.get_set]
  split
  · exact h
  · exact k.banks q

theorem execLatch_keeps (p : Port) (s : State) : rowKeeps s (execLatch p s) := by
  refine .live ?_
  split
  · simp only
    split
    · exact .reply _ _ _ _ _
    · exact (keepsAll.banks s p _ (by rw [List.length_map]; exact streamRange_length _ _)).trans
        (.reply _ _ _ _ _)
  · exact .refl s

theorem execGetLatched_keeps (p : Port) (s : State) : rowKeeps s (execGetLatched p s) := by
  refine .live ?_
  split
  · split <;> exact .reply _ _ _ _ _
  · exact .refl s

/-- Records taken off the front of a queue, its lost count set to 0 (R143). -/
theorem noticesKept.popped {s : State} (h : noticesKept s) (p : Port) (n : Nat) : noticesKept { s with
    acp := { s.acp with queues := s.acp.queues.set p ⟨(s.acp.queues.get p).records.drop n, 0⟩ } } := by
  refine ⟨fun q => ?_, h.2⟩
  obtain ⟨records, lost, summary⟩ := h.1 q
  show ((s.acp.queues.set p _).get q).records.length ≤ _ ∧ ((s.acp.queues.set p _).get q).lost ≤ _ ∧ _
  rw [PerPort.get_set]
  split
  · subst q
    exact ⟨by rw [List.length_drop]; exact (Nat.sub_le _ _).trans records, Nat.zero_le _, summary⟩
  · exact ⟨records, lost, summary⟩

theorem execPopEvents_keeps (p : Port) (s : State) : rowKeeps s (execPopEvents p s) := by
  refine .live ?_
  split
  · refine .trans ?_ (.reply _ _ _ _ _)
    exact .acp s _ rfl (fun h => h.popped p _) id
  · exact .refl s

theorem execGetNotices_keeps (p : Port) (s : State) : rowKeeps s (execGetNotices p s) := by
  refine .live ?_
  split
  · exact .reply _ _ _ _ _
  · exact .refl s

/-- Bits of one summary cleared (R146). -/
theorem noticesKept.cleared {s : State} (h : noticesKept s) (p : Port) (mask : BitVec 16) : noticesKept { s with
    acp := { s.acp with summaries := s.acp.summaries.set p (s.acp.summaries.get p &&& ~~~mask) } } := by
  refine noticesKept_summaries (s := s) rfl rfl (fun q k => ?_) h
  show (s.acp.summaries.set p _).get q &&& _ = 0
  rw [PerPort.get_set]
  split
  · subst q; exact and_unreserved k
  · exact k

theorem execClearNotices_keeps (p : Port) (s : State) : rowKeeps s (execClearNotices p s) := by
  refine .live ?_
  split
  · split
    · refine .trans ?_ (.reply _ _ _ _ _)
      exact .acp s _ rfl (fun h => h.cleared p _) id
    · exact .reply _ _ _ _ _
  · exact .refl s

theorem execSetNoticeEnable_keeps (p : Port) (s : State) : rowKeeps s (execSetNoticeEnable p s) := by
  refine .live ?_
  split
  · split
    · exact .reply _ _ _ _ _
    split
    · rename_i unreserved
      refine .trans ?_ (.reply _ _ _ _ _)
      exact .acp s _ rfl (fun h => ⟨h.1, unreserved⟩) id
    · exact .reply _ _ _ _ _
  · exact .refl s

/-- The lamp goes out only while no LAMP-routed alarm is active (R148, R149). -/
theorem execAckLamp_keeps (p : Port) (s : State) : rowKeeps s (execAckLamp p s) := by
  refine .live ?_
  split
  · split
    · rename_i noAlarm
      refine .trans ?_ (.reply _ _ _ _ _)
      exact .acp s _ rfl id fun h => ⟨h.1, h.2.1, fun k => absurd noAlarm k⟩
    · exact .reply _ _ _ _ _
  · exact .refl s

/-- A test-loss flag set on a stream that is not OFF (R103). -/
theorem keepsAll.inject (s : State) (i : StreamIx) (h : (s.stream i).health ≠ .off) :
    keepsAll s (s.updStream i fun x => { x with testLoss := true }) :=
  .setStream s i _ rfl rfl rfl rfl
    (fun k => ⟨k.defined, k.valid, k.window, k.unheld, k.stale, fun off => absurd off h, k.recovery, k.quiet⟩)
    (fun k => k.of_eq ⟨rfl, rfl, rfl, rfl⟩) fun _ k => k.of_eq rfl rfl rfl

theorem execInject_keeps (p : Port) (s : State) : rowKeeps s (execInject p s) := by
  refine .live ?_
  split
  · split
    · exact .reply _ _ _ _ _
    split
    · exact .reply _ _ _ _ _
    · rename_i notOff
      exact (keepsAll.inject s _ notOff).trans (.reply _ _ _ _ _)
  · exact .refl s

theorem execCloseInterval_keeps (p : Port) (s : State) : rowKeeps s (execCloseInterval p s) := by
  refine .live ?_
  split
  · split
    · exact .reply _ _ _ _ _
    · exact .trans (t := s.beginSweep) (.of_same rfl rfl rfl rfl rfl rfl rfl rfl) (.reply _ _ _ _ _)
  · exact .refl s

theorem execSetReportMode_keeps (p : Port) (s : State) : rowKeeps s (execSetReportMode p s) := by
  refine .live ?_
  split
  · split
    · exact .reply _ _ _ _ _
    · exact .trans (t := s.setReportMode _) (.of_same rfl rfl rfl rfl rfl rfl rfl rfl) (.reply _ _ _ _ _)
  · exact .refl s

theorem execClearTotals_keeps (p : Port) (s : State) : rowKeeps s (execClearTotals p s) := by
  refine .live ?_
  split
  · split
    · exact .reply _ _ _ _ _
    split
    · exact .reply _ _ _ _ _
    · exact .setRunning _ _ _
  · exact .refl s

theorem execClearTotalsStreamStep_keeps (p : Port) (s : State) : rowKeeps s (execClearTotalsStreamStep p s) := by
  refine .live ?_
  split
  · rename_i next _ _
    refine (keepsAll.clearTotals s next).trans ?_
    simp only
    split
    · exact .setRunning _ _ _
    · exact .reply _ _ _ _ _
  · exact .refl s

theorem execSetTotalMode_keeps (p : Port) (s : State) : rowKeeps s (execSetTotalMode p s) := by
  refine .live ?_
  split
  · split
    · exact .reply _ _ _ _ _
    split
    · exact .reply _ _ _ _ _
    split
    · exact .reply _ _ _ _ _
    · refine .trans ?_ (.reply _ _ _ _ _)
      exact .of_same rfl rfl rfl rfl rfl rfl rfl rfl
  · exact .refl s

/-- A profile argument that R133 accepts stands for a valid profile. -/
theorem ProfileArg.toProfile_valid (arg : ProfileArg) (h : arg.bad = false) : arg.toProfile.valid := by
  simp only [ProfileArg.bad, Bool.or_eq_false_iff, beq_eq_false_iff_ne, ne_eq] at h
  obtain ⟨⟨declare, clear⟩, -⟩ := h
  have one_le : ∀ b : Byte, ¬ b = 0 → 1 ≤ b.toNat ∧ b.toNat ≤ 255 := fun b hb => by bv_omega
  exact ⟨(one_le _ declare).1, (one_le _ declare).2, one_le _ clear⟩

theorem execSetProfile_keeps (p : Port) (s : State) : rowKeeps s (execSetProfile p s) := by
  refine .live ?_
  split
  · split
    · split
      · exact .reply _ _ _ _ _
      · rename_i arg _ _ notBad
        exact (keepsAll.profiles s _ _ (arg.toProfile_valid (by simpa using notBad))).trans
          (.goOnReevaluating _ _ _ _ _ _)
    · exact .reply _ _ _ _ _
  · exact .refl s

theorem execProfileReevaluation_keeps (p : Port) (s : State) : rowKeeps s (execProfileReevaluation p s) := by
  refine .live ?_
  split
  · split
    · exact (s.evaluateAll_keepsOn _).all.trans (.goOnReevaluating _ _ _ _ _ _)
    · exact .reply _ _ _ _ _
  · exact .refl s

theorem execHalt_keeps (p : Port) (s : State) : rowKeeps s (execHalt p s) := by
  refine .live ?_
  split
  · exact ((keepsAll.haltEngine s).trans (.post _ _)).trans (.reply _ _ _ _ _)
  · exact .refl s

theorem execRun_keeps (p : Port) (s : State) : rowKeeps s (execRun p s) := by
  refine .live ?_
  split
  · have ran : keepsAll s { s with engine := .running } := .of_same rfl rfl rfl rfl rfl rfl rfl rfl
    exact (ran.trans (.post _ _)).trans (.reply _ _ _ _ _)
  · exact .refl s

/-- The reply of a RESET_DEVICE: handed over, or the reset made where it is discarded (R180, R196). -/
theorem keepsAll.answerReset (s : State) (p : Port) (reply : List Byte) : keepsAll s (s.answer p reply true) := by
  cases p with
  | board =>
    refine .of_ports ?_ (s.answerBoard_keepsPorts reply true)
    show onlyPorts s (s.answerBoard reply true)
    unfold State.answerBoard
    split
    · rename_i body _
      have h := (State.takeBoard_onlyPort { s with board := { s.board with held := none } } body).ports
      unfold onlyPorts at h ⊢
      rw [h]
    · rfl
  | line =>
    by_cases mark : s.linePort.discardMark
    · have discarded : s.answer .line reply true =
          ({ s with linePort := ⟨.idle, false⟩ } : State).deviceReset := by
        simp [State.answer, State.answerLine, mark]
      rw [discarded]
      exact .trans (.of_same rfl rfl rfl rfl rfl rfl rfl rfl) (.deviceReset _)
    · refine .of_ports ?_ (s.answerLine_keepsPorts reply true (.inr (by simpa using mark)))
      show onlyPorts s (s.answerLine reply true)
      unfold State.answerLine
      rw [if_neg mark]
      rfl
  | service => exact .of_ports rfl (s.answerService_keepsPorts reply true)

theorem execResetDevice_keeps (p : Port) (s : State) : rowKeeps s (execResetDevice p s) := by
  refine .live ?_
  split
  · refine .trans ?_ (.answerReset _ _ _)
    exact .of_ports rfl s.beginReset_keepsPorts
  · exact .refl s

/-! ### Staging commands -/

theorem execStageDefine_keeps (p : Port) (s : State) : rowKeeps s (execStageDefine p s) := by
  refine .live ?_
  split
  · rename_i d _
    exact .stage _ _ _ _ _ _ fun h _ => d.valid_of_firstBad h
  · exact .refl s

theorem execStageRemove_keeps (p : Port) (s : State) : rowKeeps s (execStageRemove p s) := by
  refine .live ?_
  split
  · exact .stage _ _ _ _ _ _ fun _ _ => trivial
  · exact .refl s

/-- A list neither EMPTY nor ARMED is OPEN (R153). -/
theorem StagingState.opened_of_ne {u : StagingState} (h1 : u ≠ .empty) (h2 : u ≠ .armed) : u = .opened := by
  cases u
  · exact absurd rfl h1
  · rfl
  · exact absurd rfl h2

theorem execStageDrop_keeps (p : Port) (s : State) : rowKeeps s (execStageDrop p s) := by
  have touched := keepsAll.touch s p
  refine .live ?_
  split
  · simp only
    split
    · exact touched.trans (.reply _ _ _ _ _)
    split
    · exact touched.trans (.reply _ _ _ _ _)
    split
    · exact touched.trans (.reply _ _ _ _ _)
    split
    · exact touched.trans (.reply _ _ _ _ _)
    · rename_i notEmpty _ notArmed _ _ _ _
      have opened := StagingState.opened_of_ne notEmpty notArmed
      exact (touched.trans (.dropEntry _ _ fun _ => (s.touch_state p).trans opened)).trans (.reply _ _ _ _ _)
  · exact .refl s

theorem execStageDiscard_keeps (p : Port) (s : State) : rowKeeps s (execStageDiscard p s) := by
  refine .live ?_
  split
  · split
    · exact .reply _ _ _ _ _
    split
    · exact .reply _ _ _ _ _
    · exact (keepsAll.emptyStaging s).trans (.reply _ _ _ _ _)
  · exact .refl s

theorem execStageArm_keeps (p : Port) (s : State) : rowKeeps s (execStageArm p s) := by
  have touched := keepsAll.touch s p
  refine .live ?_
  split
  · simp only
    split
    · exact touched.trans (.reply _ _ _ _ _)
    split
    · exact touched.trans (.reply _ _ _ _ _)
    split
    · exact touched.trans (.reply _ _ _ _ _)
    split
    · exact touched.trans (.reply _ _ _ _ _)
    · rename_i notEmpty _ notArmed _ _ _
      have opened := StagingState.opened_of_ne notEmpty notArmed
      exact (touched.trans (.arm _ _ _ ((s.touch_state p).trans opened))).trans (.reply _ _ _ _ _)
  · exact .refl s

theorem execStageDisarm_keeps (p : Port) (s : State) : rowKeeps s (execStageDisarm p s) := by
  have touched := keepsAll.touch s p
  refine .live ?_
  split
  · simp only
    split
    · exact touched.trans (.reply _ _ _ _ _)
    split
    · exact touched.trans (.reply _ _ _ _ _)
    split
    · exact touched.trans (.reply _ _ _ _ _)
    · rename_i notEmpty _ notOpened
      have armed : s.staging.state = .armed := by
        cases e : s.staging.state
        · exact absurd e notEmpty
        · exact absurd e notOpened
        · rfl
      exact (touched.trans (.disarm _ ((s.touch_state p).trans armed))).trans (.reply _ _ _ _ _)
  · exact .refl s

theorem execApply_keeps (p : Port) (s : State) : rowKeeps s (execApply p s) := by
  have touched := keepsAll.touch s p
  refine .live ?_
  split
  · simp only
    split
    · exact (keepsAll.post s _).trans (.reply _ _ _ _ _)
    split
    · exact touched.trans (.reply _ _ _ _ _)
    split
    · exact touched.trans (.reply _ _ _ _ _)
    · exact (keepsAll.applyList s _).trans (.reply _ _ _ _ _)
  · exact .refl s

/-! ### Every row -/

/-- The expiry of a row keeps every bound (R71, R74 to R78, R88). -/
theorem takeIfNext_keeps (s : State) (i : StreamIx) (e : Expiry) (here : Bool) :
    rowKeeps s (live s (s.takeIfNext i e here)) := .live (s.takeIfNext_keepsOn i e here).all

/-- Every row keeps every bound of the part. -/
theorem exec_keeps (c : Instr) (s : State) : rowKeeps s (exec c s) := by
  cases c with
  | resetNAssert => exact execResetNAssert_keeps s
  | resetNRelease perm1 perm0 => exact execResetNRelease_keeps perm1 perm0 s
  | syncDetected => exact execSyncDetected_keeps s
  | alignmentRecord good => exact execAlignmentRecord_keeps good s
  | watchdogExpiry => exact execWatchdogExpiry_keeps s
  | badRecord => exact .live (.badTaken s)
  | syncRecord => exact execSyncRecord_keeps s
  | malformedRecord => exact execMalformedRecord_keeps s
  | tickRecord a ks => exact execTickRecord_keeps a ks s
  | descRecord d ks => exact execDescRecord_keeps d ks s
  | queryRecord body => exact execQueryRecord_keeps body s
  | replyRecordSent => exact execReplyRecordSent_keeps s
  | slotMiss i => exact takeIfNext_keeps s i _ _
  | unanchoredSlotMiss i => exact takeIfNext_keeps s i _ _
  | holdExpiry i q => exact takeIfNext_keeps s i _ _
  | silentCatchUp i => exact takeIfNext_keeps s i _ _
  | haltedCatchUp i => exact takeIfNext_keeps s i _ _
  | boardCommandFrame frame late => exact .live (.boardFrame s frame late)
  | boardFetchFrame frame late => exact .live (.boardFrame s frame late)
  | boardFrameDiscarded frame late => exact .live (.boardFrame s frame late)
  | serviceCharacter c framingError => exact execServiceCharacter_keeps c framingError s
  | serviceBreak => exact .live (.setRx s .hunting)
  | serviceCharacterTimeout => exact execServiceCharacterTimeout_keeps s
  | serviceReplySent => exact execServiceReplySent_keeps s
  | getStatus p => exact execGetStatus_keeps p s
  | getStream p => exact execGetStream_keeps p s
  | getPortTallies p => exact execGetPortTallies_keeps p s
  | getLink p => exact execGetLink_keeps p s
  | getProfile p => exact execGetProfile_keeps p s
  | stageRead p => exact execStageRead_keeps p s
  | latch p => exact execLatch_keeps p s
  | getLatched p => exact execGetLatched_keeps p s
  | popEvents p => exact execPopEvents_keeps p s
  | getNotices p => exact execGetNotices_keeps p s
  | clearNotices p => exact execClearNotices_keeps p s
  | setNoticeEnable p => exact execSetNoticeEnable_keeps p s
  | ackLamp p => exact execAckLamp_keeps p s
  | inject p => exact execInject_keeps p s
  | closeInterval p => exact execCloseInterval_keeps p s
  | setReportMode p => exact execSetReportMode_keeps p s
  | clearTotals p => exact execClearTotals_keeps p s
  | clearTotalsStreamStep p => exact execClearTotalsStreamStep_keeps p s
  | stageDefine p => exact execStageDefine_keeps p s
  | stageRemove p => exact execStageRemove_keeps p s
  | stageDrop p => exact execStageDrop_keeps p s
  | stageDiscard p => exact execStageDiscard_keeps p s
  | stageArm p => exact execStageArm_keeps p s
  | stageDisarm p => exact execStageDisarm_keeps p s
  | apply p => exact execApply_keeps p s
  | setProfile p => exact execSetProfile_keeps p s
  | profileReevaluation p => exact execProfileReevaluation_keeps p s
  | halt p => exact execHalt_keeps p s
  | run p => exact execRun_keeps p s
  | setTotalMode p => exact execSetTotalMode_keeps p s
  | resetDevice p => exact execResetDevice_keeps p s
  | resetFetchTimeout => exact execResetFetchTimeout_keeps s
  | intervalTimerExpiry => exact execIntervalTimerExpiry_keeps s
  | sweepVisit => exact execSweepVisit_keeps s
  | abandonmentTimerExpiry => exact execAbandonmentTimerExpiry_keeps s
  | changeoverPinChange level => exact execChangeoverPinChange_keeps level s
  | changeoverFilterExpiry => exact execChangeoverFilterExpiry_keeps s
  | idleRecordSent => exact execIdleRecordSent_keeps s

/-- Every step keeps every bound of the part: a row on the rest of the queue, or one REFCLK period. -/
theorem step_keepsAll {s t : State} (h : step s = .next t) : keepsAll s t := by
  unfold step at h
  split at h
  · refine rowKeeps.next ?_ t h
    unfold State.tick
    split
    · exact .refl s
    · exact .elapse s 1
  · refine .trans ?_ (exec_keeps _ _ t h)
    exact .of_same rfl rfl rfl rfl rfl rfl rfl rfl

/-- Settles O59: the notices, the counts and the ports are among the bounds that every row keeps. -/
theorem stepKeepsBounds : Obligations.StepKeepsBounds := fun _ _ notices counts ports h =>
  have kept := step_keepsAll h
  ⟨kept.bounds.notices notices, kept.bounds.counts counts, kept.ports ports⟩

end Sys2Proof.Machine
end

section
/-! The values of the state after reset, block by block. -/

namespace Sys2Proof.Machine

theorem State.reset_portTallies (p : PortNo) : State.reset.portTallies[p] = ⟨0, 0, 0, 0, 0, 0⟩ := by
  simp [State.reset]

theorem Stream.reset_tallies (f : Fin 16) :
    Stream.reset.totals[f] = 0 ∧ Stream.reset.terminal[f] = false ∧ Stream.reset.interval[f] = 0 := by
  simp [Stream.reset]

theorem State.reset_totalModes (f : Fin 16) : State.reset.tst.totalModes[f] = .hold := by
  simp [State.reset, TallyStore.reset]

/-- The queue, the summary and the bank of each port are empty after reset (R141, R144, R192). -/
theorem State.reset_perPort (p : Port) : State.reset.acp.queues.get p = ⟨[], 0⟩
    ∧ State.reset.acp.summaries.get p = 0 ∧ State.reset.banks.get p = [] := by
  cases p <;> exact ⟨rfl, rfl, rfl⟩

/-- Settles O5: block by block, the vectors item by item. -/
theorem resetStateHasTheSpecValues : Obligations.ResetStateHasTheSpecValues := by
  unfold Obligations.ResetStateHasTheSpecValues
  intro s
  refine ⟨?link, ⟨rfl, rfl, rfl⟩, State.reset_portTallies, ?streams, ?tst, State.reset_profiles,
    ⟨rfl, rfl, rfl⟩, State.reset_perPort, ?staging, ?ports⟩
  case link => exact ⟨rfl, rfl, rfl, rfl, rfl, rfl, rfl, rfl, rfl, rfl, rfl, rfl, rfl, rfl⟩
  case streams =>
    intro i
    rw [State.stream_reset]
    exact ⟨rfl, rfl, rfl, rfl, rfl, rfl, rfl, rfl, rfl, Stream.reset_tallies, rfl, rfl, rfl, rfl⟩
  case tst => exact ⟨State.reset_totalModes, rfl, rfl, rfl, rfl⟩
  case staging => exact ⟨rfl, rfl, rfl, rfl, rfl, rfl, rfl, rfl⟩
  case ports => exact ⟨rfl, rfl, rfl, rfl, rfl, rfl⟩

end Sys2Proof.Machine
end

section
/-! The receive side of the tap link: the rows of records by link state, the loss of the link, and a stamp
against line time. -/

namespace Sys2Proof.Machine

/-! ### Rows with RESET_N high -/

section ResetHigh
variable {s : State} (high : s.resetLow = false)
include high

theorem live_of_high (t : State) : live s t = .next t := by simp [live, high]

theorem exec_syncDetected_down (h : s.link.state = .down) : exec .syncDetected s = .next s.syncFound := by
  show live s _ = _
  rw [live_of_high high, h]

theorem exec_syncRecord_down (h : s.link.state = .down) : exec .syncRecord s = .next s.syncFound := by
  show live s _ = _
  rw [live_of_high high, h]

theorem exec_syncRecord (h : s.link.state ≠ .down) : exec .syncRecord s = .next (s.goodTaken id) := by
  show live s _ = _
  rw [live_of_high high]
  split
  · contradiction
  · rfl

theorem exec_alignmentRecord (good : Bool) (h : s.link.state = .aligning) :
    exec (.alignmentRecord good) s = .next (if good then s.alignGood else s.alignBad) := by
  show live s _ = _
  rw [live_of_high high, h]

theorem exec_badRecord : exec .badRecord s = .next s.badTaken := live_of_high high _

theorem exec_malformedRecord : exec .malformedRecord s =
    .next (s.goodTaken fun t => { t with link := { t.link with malformed := t.link.malformed + 1 } }) :=
  live_of_high high _

theorem exec_tickRecord (a : Time) (ks : List StreamIx) :
    exec (.tickRecord a ks) s = .next (s.goodTaken fun t => t.handleStamp a ks) := live_of_high high _

theorem exec_descRecord (d : Descriptor) (ks : List StreamIx) :
    exec (.descRecord d ks) s = .next (s.goodTaken fun t => (t.handleStamp d.stamp ks).classify d) :=
  live_of_high high _

theorem exec_queryRecord_good {body : List Byte} (h : 1 ≤ body.length ∧ body.length ≤ bodyMax) :
    exec (.queryRecord body) s = .next (s.goodTaken fun t => t.lineBody body) := by
  show live s _ = _
  rw [live_of_high high, if_pos (by simpa [queryLengthGood] using h)]

theorem exec_queryRecord_bad {body : List Byte} (h : ¬ (1 ≤ body.length ∧ body.length ≤ bodyMax)) :
    exec (.queryRecord body) s = .next s.badTaken := by
  show live s _ = _
  rw [live_of_high high, if_neg (by simpa [queryLengthGood] using h)]

end ResetHigh

/-! ### Records by link state -/

section ByState
variable {s : State} (up : State → State)

theorem State.goodTaken_down (h : s.link.state = .down) : s.goodTaken up = s := by
  unfold State.goodTaken; rw [h]

theorem State.goodTaken_aligning (h : s.link.state = .aligning) : s.goodTaken up = s.alignGood := by
  unfold State.goodTaken; rw [h]

theorem State.goodTaken_up (h : s.link.state = .up) : s.goodTaken up = up s.goodRecord := by
  unfold State.goodTaken; rw [h]

theorem State.badTaken_down (h : s.link.state = .down) : s.badTaken = s := by
  unfold State.badTaken; rw [h]

theorem State.badTaken_aligning (h : s.link.state = .aligning) : s.badTaken = s.alignBad := by
  unfold State.badTaken; rw [h]

theorem State.badTaken_up (h : s.link.state = .up) : s.badTaken = s.badInUp := by
  unfold State.badTaken; rw [h]

end ByState

/-- A good alignment record, by whether it is the fourth (R7, R8). -/
theorem State.alignGood_eq (s : State) : s.alignGood = { s with link :=
    if s.link.goodCount + 1 = 4 then
      { s.link with
        state := .up, goodCount := 4, badCount := 0, watchdog := some 0, timeLoaded := false, rxBytes := [] }
    else { s.link with goodCount := s.link.goodCount + 1, watchdog := some 0, rxBytes := [] } } := by
  unfold State.alignGood
  by_cases fourth : s.link.goodCount + 1 = 4
  · simp [fourth]
  · simp [fourth]

/-- A watchdog that expires in ALIGNING takes the link back to DOWN (R7, log 14). -/
theorem exec_watchdogExpiry_aligning {s : State} (high : s.resetLow = false) {k : Nat}
    (h : s.link.state = .aligning) (hk : s.link.watchdog = some k) :
    exec .watchdogExpiry s = .next { s.elapse (25000 - k) with
      link := { s.link with state := .down, watchdog := none, rxBytes := [] } } := by
  have still : (s.elapse (watchdogLimit - k)).link.state = .aligning := h
  show live s _ = _
  rw [live_of_high high, hk]
  simp only [still]
  rfl

/-- Settles O7: each record by the link state it finds, and the watchdog in ALIGNING. -/
theorem huntAndAlignment : Obligations.HuntAndAlignment := by
  intro s high
  refine ⟨fun down c hc => ?_, fun down c hc => ?_, fun aligning c hc => ?_, fun aligning c hc => ?_,
    fun k aligning hk => exec_watchdogExpiry_aligning high aligning hk⟩
  · rcases hc with rfl | rfl
    · exact exec_syncDetected_down high down
    · exact exec_syncRecord_down high down
  · rcases hc with rfl | rfl | ⟨a, ks, rfl⟩ | ⟨d, ks, rfl⟩ | ⟨body, rfl⟩
    · rw [exec_badRecord high, State.badTaken_down down]
    · rw [exec_malformedRecord high, State.goodTaken_down _ down]
    · rw [exec_tickRecord high, State.goodTaken_down _ down]
    · rw [exec_descRecord high, State.goodTaken_down _ down]
    · by_cases length : 1 ≤ body.length ∧ body.length ≤ bodyMax
      · rw [exec_queryRecord_good high length, State.goodTaken_down _ down]
      · rw [exec_queryRecord_bad high length, State.badTaken_down down]
  · rw [← State.alignGood_eq]
    rcases hc with rfl | rfl | rfl | ⟨a, ks, rfl⟩ | ⟨d, ks, rfl⟩ | ⟨body, rfl, length⟩
    · exact exec_alignmentRecord high true aligning
    · rw [exec_syncRecord high (by rw [aligning]; simp), State.goodTaken_aligning _ aligning]
    · rw [exec_malformedRecord high, State.goodTaken_aligning _ aligning]
    · rw [exec_tickRecord high, State.goodTaken_aligning _ aligning]
    · rw [exec_descRecord high, State.goodTaken_aligning _ aligning]
    · rw [exec_queryRecord_good high length, State.goodTaken_aligning _ aligning]
  · show exec c s = .next s.alignBad
    rcases hc with rfl | rfl | ⟨body, rfl, length⟩
    · exact exec_alignmentRecord high false aligning
    · rw [exec_badRecord high, State.badTaken_aligning aligning]
    · have bad : ¬ (1 ≤ body.length ∧ body.length ≤ bodyMax) := by simp only [bodyMax]; omega
      rw [exec_queryRecord_bad high bad, State.badTaken_aligning aligning]

/-- Settles O8: what each kind of record does to the link in UP. -/
theorem recordsInUp : Obligations.RecordsInUp := by
  intro s high up
  refine ⟨?_, ?_, fun notFourth => ?_⟩
  · rw [exec_syncRecord high (by rw [up]; simp), State.goodTaken_up _ up]; rfl
  · rw [exec_malformedRecord high, State.goodTaken_up _ up]; rfl
  · rw [exec_badRecord high, State.badTaken_up up]
    unfold State.badInUp
    rw [if_neg notFourth]

/-- Settles O12: both records hand their stamp over, and the DESC record then its descriptor. -/
theorem descHandlesStampThenDescriptor : Obligations.DescHandlesStampThenDescriptor := by
  intro s d ks high up
  refine ⟨s.goodRecord.handleStamp d.stamp ks, ?_, ?_⟩
  · rw [exec_tickRecord high, State.goodTaken_up _ up]
  · rw [exec_descRecord high, State.goodTaken_up _ up]

/-! ### The loss of the link -/

/-- What the line port does at the entry to DOWN when no reply of a RESET_DEVICE waits (R11, R180). -/
theorem State.lineLinkLost_eq (s : State) (h : ∀ r ∈ s.link.txQueue, r.origin ≠ .reset) : s.lineLinkLost =
    { s with link := { s.link with txQueue := [] }, linePort := s.linePort.linkLost s.link.txQueue } := by
  have noReset : s.link.txQueue.any (fun r => r.origin == .reset) = false := by simpa using h
  unfold State.lineLinkLost LinePort.linkLost
  simp only [noReset]
  cases s.linePort.cmd with
  | idle => rfl
  | running r => rfl
  | replying => cases s.link.txQueue.any (fun r => r.origin == .command) <;> rfl

/-- The entry to DOWN, the takings of the last advance finished, is a loss of the link (R11, R43, R95). -/
theorem State.leaveUp_linkLost (s : State) (h : ∀ r ∈ s.link.txQueue, r.origin ≠ .reset) :
    s.linkLost s.leaveUp.flushAll.lineLinkLost := by
  have accounts := s.leaveUp.flushAll_accounts
  have link : s.leaveUp.flushAll.link = s.leaveUp.link := accounts.link
  have port : s.leaveUp.flushAll.linePort = s.linePort := accounts.linePort
  have lost := s.leaveUp.flushAll.lineLinkLost_eq (by rw [link]; exact h)
  rw [link, port] at lost
  have posted : postedToAll .linkDown s s.leaveUp.flushAll :=
    (State.post_postedToAll _ .linkDown).grow s.leaveUp.flushAll_grows
  have stream := s.leaveUp.flushAll_stream
  have left : s.leaveUp = State.post { s with link := { s.leaveUp.link with txQueue := s.link.txQueue } }
    .linkDown := rfl
  rw [lost]
  generalize worked : s.leaveUp.flushAll = w at accounts posted stream ⊢
  refine ⟨?frame, ?link, fun p => posted p, ?worked, fun i => (stream i).1, fun i => (stream i).2, ?line⟩
  case frame => exact congrArg (fun w : State => { w with
    link := { s.leaveUp.link with txQueue := [] }, linePort := s.linePort.linkLost s.link.txQueue }) accounts
  case link => rfl
  case worked => rw [← left, worked]
  case line => rfl

/-- The link lost from UP once the takings of the last advance are finished (R11, R86, log 27). -/
theorem State.linkDown_linkLost (s : State) (h : ∀ r ∈ s.link.txQueue, r.origin ≠ .reset) :
    s.takeRest.linkLost s.linkDown :=
  s.takeRest.leaveUp_linkLost (by rw [s.takeRest_accounts.link]; exact h)

/-- Settles O9: the fourth bad record and the watchdog's expiry both end in the entry to DOWN. -/
theorem linkLeavesUp : Obligations.LinkLeavesUp := by
  intro s high up noReset
  refine ⟨fun fourth => ⟨_, ?_, State.linkDown_linkLost _ noReset⟩,
    fun k hk => ⟨_, ?_, State.linkDown_linkLost (s.elapse (25000 - k)) noReset⟩⟩
  · rw [exec_badRecord high, State.badTaken_up up]
    unfold State.badInUp
    simp only [fourth, if_true]
  · have still : (s.elapse (watchdogLimit - k)).link.state = .up := up
    show live s _ = _
    rw [live_of_high high, hk]
    simp only [still]

/-! ### A stamp against line time -/

theorem exec_tickRecord_up {s : State} (high : s.resetLow = false) (up : s.link.state = .up) (a : Time)
    (ks : List StreamIx) : exec (.tickRecord a ks) s = .next (s.goodRecord.handleStamp a ks) := by
  rw [exec_tickRecord high, State.goodTaken_up _ up]

/-- A stamp that finds line time loaded is compared once the takings of the last advance are finished (R15, log
27). -/
theorem State.handleStamp_loaded {s : State} (h : s.link.timeLoaded = true) (a : Time) (ks : List StreamIx) :
    s.handleStamp a ks = s.takeRest.compareStamp a ks := by
  unfold State.handleStamp; rw [if_pos h]

theorem State.handleStamp_first {s : State} (h : s.link.timeLoaded = false) (a : Time) (ks : List StreamIx) :
    s.handleStamp a ks = s.loadTime a := by
  unfold State.handleStamp; rw [if_neg (by simp [h])]

section Compare
variable (s : State) (a : Time) (ks : List StreamIx)

theorem State.compareStamp_hold (h : (a - s.link.lineTime).toInt = 0) : s.compareStamp a ks = s := by
  unfold State.compareStamp timeDiff; rw [if_pos h]

theorem State.compareStamp_behind (h1 : -stepLimit ≤ (a - s.link.lineTime).toInt)
    (h2 : (a - s.link.lineTime).toInt < 0) : s.compareStamp a ks = s.behindStamp := by
  unfold State.compareStamp timeDiff
  rw [if_neg (by omega), if_neg (by omega), if_pos ⟨h1, h2⟩]

theorem State.compareStamp_advance (h1 : 0 < (a - s.link.lineTime).toInt)
    (h2 : (a - s.link.lineTime).toInt ≤ stepLimit) : s.compareStamp a ks = s.advance a ks := by
  unfold State.compareStamp timeDiff
  rw [if_neg (by omega), if_pos ⟨h1, h2⟩]

theorem State.compareStamp_step
    (h : (a - s.link.lineTime).toInt < -stepLimit ∨ stepLimit < (a - s.link.lineTime).toInt) :
    s.compareStamp a ks = s.timeStep a := by
  unfold State.compareStamp timeDiff
  simp only [stepLimit] at h
  rw [if_neg (by omega), if_neg (by simp only [stepLimit]; omega), if_neg (by simp only [stepLimit]; omega)]

end Compare

theorem takings_accounts (ks : List StreamIx) (s : State) : onlyAccounts s (ks.foldl State.takeOne s) :=
  foldl_keeps .refl .trans (fun s i => (s.takeOne_keepsOn i).accounts) ks s

/-- Settles O10: a stamp held, counted as behind, or taken as an advance. -/
theorem tickAgainstLineTime : Obligations.TickAgainstLineTime := by
  intro s a ks high up loaded good v d
  have link : v.link = good := (State.takeRest_accounts { s with link := good }).link
  have time : v.link.lineTime = s.link.lineTime := by rw [link]
  have row : exec (.tickRecord a ks) s = .next (v.compareStamp a ks) := by
    rw [exec_tickRecord_up high up, State.handleStamp_loaded (s := s.goodRecord) loaded]; rfl
  refine ⟨link, fun hold => ?_, fun h1 h2 => ?_, fun h1 h2 => ?_⟩
  · rw [row, State.compareStamp_hold v a ks (by rw [time]; exact hold)]
  · rw [row, State.compareStamp_behind v a ks (by rw [time]; exact h1) (by rw [time]; exact h2)]
    unfold State.behindStamp
    rw [link]
  · intro taken
    have advanced : v.advance a ks = taken.offer := by
      show (ks.foldl State.takeOne { v with
        link := { v.link with lineTime := a }, streams := v.streams.map Stream.taken }).offer = _
      rw [link]; rfl
    have accounts := takings_accounts ks { v with
      link := { good with lineTime := a }, streams := v.streams.map fun x => { x with taking := x.health != .off } }
    have staging : taken.staging = s.staging :=
      accounts.staging.trans (State.takeRest_accounts { s with link := good }).staging
    have lineTime : taken.link.lineTime = a := by rw [accounts.link]
    rw [row, State.compareStamp_advance v a ks (by rw [time]; exact h1) (by rw [time]; exact h2), advanced]
    unfold State.offer timeDiff
    rw [staging, lineTime] <;> rfl

/-! ### Cursors re-based -/

/-- A word less a whole number, where the difference of the numbers is in the signed range. -/
theorem toInt_sub_ofInt {x : Time} {m : Int} (h1 : -140737488355328 ≤ x.toInt - m)
    (h2 : x.toInt - m < 140737488355328) : (x - BitVec.ofInt 48 m).toInt = x.toInt - m := by
  rw [BitVec.toInt_sub, BitVec.toInt_ofInt, Int.sub_bmod_bmod]
  exact Int.bmod_eq_of_le (by simpa using h1) (by simpa using h2)

/-- A cursor re-based is the earliest instant of its grid whose tolerance line time has not passed (R84). -/
theorem rebasedCursor_rebasedOnto (d : Definition) (hd : d.valid) (t c : Time) :
    rebasedOnto d t c (rebasedCursor d c t) := by
  obtain ⟨-, period_ge, period_le, -⟩ := hd
  have rounded := ceilDiv_roundedUp (pastMiss d c t) d.period (by omega)
  generalize hk : ceilDiv (pastMiss d c t) d.period = k at rounded
  have cursor : rebasedCursor d c t = c + BitVec.ofInt 48 (k * d.period) := by
    unfold rebasedCursor timeShift; rw [hk]
  obtain ⟨below, above⟩ := rounded
  rw [Int.sub_mul] at below
  have past : (t - rebasedCursor d c t - BitVec.ofNat 48 d.tolerance).toInt
      = pastMiss d c t - k * d.period := by
    have regroup : t - rebasedCursor d c t - BitVec.ofNat 48 d.tolerance
        = t - c - BitVec.ofNat 48 d.tolerance - BitVec.ofInt 48 (k * d.period) := by
      rw [cursor]; ring
    rw [regroup]
    unfold pastMiss at below above ⊢
    exact toInt_sub_ofInt (by omega) (by omega)
  refine ⟨⟨k, ⟨?_, above⟩, cursor⟩, ?_, ?_⟩
  · rw [Int.sub_mul]; exact below
  · rw [past]; omega
  · rw [past]; omega

/-- A re-base of all changes no item of the Alarm Comparator (R84). -/
theorem State.rebaseAll_acp (s : State) : s.rebaseAll.acp = s.acp :=
  State.eachLive_keeps (P := fun s t => t.acp = s.acp) (f := fun i t => t.rebase i) (fun _ => rfl)
    (fun h k => k.trans h) (fun i t _ => (rfl : (t.rebase i).acp = t.acp)) s

/-- Accounts changed alone, with the same link written on both sides. -/
theorem onlyAccounts.withLink {s t : State} (h : onlyAccounts s t) (l : Link) :
    onlyAccounts { s with link := l } { t with link := l } := by
  exact congrArg (fun u : State => { u with link := l }) h

/-- The takings of the last advance change no definition (R71). -/
theorem State.takeRest_definition (s : State) (h : s.timeRuns = true) (i : StreamIx) :
    (s.takeRest.stream i).definition = (s.stream i).definition := by
  obtain ⟨stands, taken⟩ := s.takeRest_stream h i
  by_cases still : (s.stream i).health = .off ∨ (s.stream i).taking = false
  · rw [stands still]
  · simp only [not_or, Bool.not_eq_false] at still
    obtain ⟨u, -, -, same, result⟩ := taken still.1 still.2
    rw [result]
    exact (u.takeAll_definition i).trans (by rw [same])

/-- What a re-base of all makes of each stream, by whether it has a definition (R84, R85). -/
theorem State.rebaseAll_defined (s : State) (contexts : contextsKept s) (i : StreamIx) :
    ((s.stream i).definition = none → s.rebaseAll.stream i = s.stream i)
      ∧ ∀ d, (s.stream i).definition = some d →
        s.rebaseAll.stream i = { s.stream i with cursor := (s.rebaseAll.stream i).cursor }
          ∧ rebasedOnto d s.link.lineTime (s.stream i).cursor (s.rebaseAll.stream i).cursor := by
  obtain ⟨off, on⟩ := s.rebaseAll_stream i
  refine ⟨fun h => off ((contexts i).defined.2 h), fun d h => ?_⟩
  rw [on ((contexts i).live h) d h]
  exact ⟨rfl, rebasedCursor_rebasedOnto d ((contexts i).valid d h) _ _⟩

/-- Streams the same but for their alarms stay so with the same cursor written in both. -/
theorem Stream.sameButAlarms.withCursor {x y : Stream} (h : x.sameButAlarms y) (c : Time) :
    Stream.sameButAlarms { x with cursor := c } { y with cursor := c } := by
  have e := congrArg (fun z : Stream => { z with cursor := c }) h
  exact e

/-- What the restart of all with its re-base makes of each stream, by whether it has a definition (R17, R43,
R85). -/
theorem State.restartAll_defined (s : State) (contexts : contextsKept s) (i : StreamIx) :
    ((s.stream i).definition = none → s.flushAll.rebaseAll.stream i = s.stream i)
      ∧ ∀ d, (s.stream i).definition = some d →
        Stream.sameButAlarms { (s.stream i).restarted s.tst.totalModes with
            cursor := (s.flushAll.rebaseAll.stream i).cursor } (s.flushAll.rebaseAll.stream i)
          ∧ rebasedOnto d s.link.lineTime (s.stream i).cursor (s.flushAll.rebaseAll.stream i).cursor := by
  obtain ⟨off, on⟩ := s.flushAll_stream i
  obtain ⟨undefined, defined⟩ := s.flushAll.rebaseAll_defined (s.flushAll_contexts contexts).1 i
  have link := s.flushAll_accounts.link
  generalize s.flushAll = w at off on undefined defined link ⊢
  refine ⟨fun h => ?_, fun d h => ?_⟩
  · have flushed := off ((contexts i).defined.2 h)
    rw [undefined (by rw [flushed]; exact h), flushed]
  · have flushed := on ((contexts i).live h)
    obtain ⟨moved, onto⟩ := defined d (by rw [flushed.definition]; simpa [Stream.restarted] using h)
    have cursor : (w.stream i).cursor = (s.stream i).cursor := by
      rw [flushed.cursor]; simp [Stream.restarted]
    rw [link, cursor] at onto
    have aligned := flushed.withCursor (w.rebaseAll.stream i).cursor
    rw [← moved] at aligned
    exact ⟨aligned, onto⟩

/-- Settles O11: line time loaded or stepped, with the streams restarted by the step and re-based by both. -/
theorem loadAndTimeStep : Obligations.LoadAndTimeStep := by
  intro s a ks high up contexts good offered
  have offer (t : State) (staging : t.staging = s.staging) (time : t.link.lineTime = a) :
      t.offer = offered t := by
    unfold State.offer timeDiff
    rw [staging, time] <;> rfl
  refine ⟨fun notLoaded => ?load, fun loaded far => ?step⟩
  case load =>
    let u : State := ({ s with link := { good with lineTime := a, timeLoaded := true } } : State).post .linkUp
    have accounts : onlyAccounts u u.rebaseAll := u.rebaseAll_accounts
    have streams := u.rebaseAll_defined contexts
    refine ⟨u.rebaseAll, ?_, accounts.link, ?_, ?_, u.rebaseAll_acp, fun i => (streams i).1,
      fun i => (streams i).2⟩
    · have lineTime : u.rebaseAll.link.lineTime = a := by rw [accounts.link]; rfl
      rw [← offer _ accounts.staging lineTime, exec_tickRecord_up high up,
        State.handleStamp_first (s := s.goodRecord) notLoaded]
      rfl
    · rw [accounts.link]
      exact onlyAccounts.trans (t := u) rfl accounts
    · exact (State.post_postedToAll _ .linkUp).grow u.rebaseAll_grows
  case step =>
    intro v
    have runs : State.timeRuns { s with link := good } = true := by simp [State.timeRuns, good, up, loaded]
    have rest : onlyAccounts { s with link := good } v := State.takeRest_accounts _
    have grown : noticesGrow s v := State.takeRest_grows { s with link := good }
    have kept : contextsKept v := (State.takeRest_contexts { s with link := good } contexts).1
    have unchanged (i : StreamIx) (h : (s.stream i).definition = none) : v.stream i = s.stream i :=
      (State.takeRest_stream _ runs i).1 (.inl ((contexts i).defined.2 h))
    have definition (i : StreamIx) : (v.stream i).definition = (s.stream i).definition :=
      State.takeRest_definition _ runs i
    have row : exec (.tickRecord a ks) s = .next (v.compareStamp a ks) := by
      rw [exec_tickRecord_up high up, State.handleStamp_loaded (s := s.goodRecord) loaded]
      rfl
    clear_value v
    let stepped : Link := { good with lineTime := a, timeSteps := s.link.timeSteps + 1 }
    let u : State := ({ v with link := stepped } : State).post .timeStep
    have accounts : onlyAccounts u u.flushAll.rebaseAll :=
      u.flushAll_accounts.trans u.flushAll.rebaseAll_accounts
    have streams := u.restartAll_defined kept
    have step : v.timeStep a = u.flushAll.rebaseAll.offer := by
      have link : v.link = good := rest.link
      unfold State.timeStep
      simp only [link]
      rfl
    refine ⟨u.flushAll.rebaseAll, ?_, accounts.link, ?_, ?_, ?_, fun i none => ?_, fun i d some => ?_⟩
    · have lineTime : u.flushAll.rebaseAll.link.lineTime = a := by rw [accounts.link]; rfl
      rw [row, State.compareStamp_step v a ks (by rw [rest.link]; exact far), step,
        offer _ (accounts.staging.trans rest.staging) lineTime]
    · rw [accounts.link]
      exact (rest.withLink stepped).trans (onlyAccounts.trans (t := u) rfl accounts)
    · have posted : postedToAll .timeStep v u := fun p => State.post_postedToAll _ .timeStep p
      exact (grown.posted posted).grow (u.flushAll_grows.trans u.flushAll.rebaseAll_grows)
    · rw [State.rebaseAll_acp, accounts.link]
      rfl
    · rw [← unchanged i none]
      exact (streams i).1 ((definition i).trans none)
    · have modes : v.tst.totalModes = s.tst.totalModes := by rw [rest.tst]
      rw [← modes]
      exact (streams i).2 d ((definition i).trans some)

end Sys2Proof.Machine
end

section
/-! A body reaching the line or the service port, and what the transmitters send next. -/

namespace Sys2Proof.Machine

/-! ### A command taken -/

/-- A command started while no reset is pending: reset pending afterwards says whether it is a RESET_DEVICE, which
discards a held command (R174, R196). -/
theorem State.startCommand_notPending (s : State) (p : Port) (tag : Byte) (c : Command)
    (h : s.resetPending = false) : s.startCommand p tag c =
      { s.setRunning p ⟨tag, .start c⟩ with
        resetPending := c == .resetDevice
        board := { (s.setRunning p ⟨tag, .start c⟩).board with
          held := if c = .resetDevice then none else (s.setRunning p ⟨tag, .start c⟩).board.held } } := by
  have still : (s.setRunning p ⟨tag, .start c⟩).resetPending = false := by cases p <;> exact h
  rw [State.startCommand_eq]
  generalize s.setRunning p ⟨tag, .start c⟩ = t at still ⊢
  by_cases reset : c = .resetDevice
  · simp only [reset, if_true, beq_self_eq_true]
    rfl
  · have other : (c == .resetDevice) = false := by simpa using reset
    rw [if_neg reset, if_neg reset, other, ← still]

theorem joinBusy_eq (q : List TxReply) (body : List Byte) : joinBusy q body =
    if (q.filter fun r => r.origin == .busy).length < 3 then q ++ [⟨busyBody body, .busy⟩] else q := rfl

theorem busyBody_eq (body : List Byte) : busyBody body =
    [(match body with
      | _ :: tag :: _ => tag
      | _ => 0x00), 0x05] := by
  match body with
  | [] => rfl
  | [_] => rfl
  | _ :: _ :: _ => rfl

/-! ### The line port -/

section Line
variable {s : State} {body : List Byte} (pending : s.resetPending = false)
include pending

theorem State.lineBody_idle (idle : s.linePort.cmd = .idle) : s.lineBody body = s.takeLine body := by
  unfold State.lineBody
  rw [if_neg (by simp [pending]), idle]

/-- A body that finds the line port's command in progress is answered BUSY (R180). -/
theorem State.lineBody_busy (inFlight : s.linePort.cmd ≠ .idle) : s.lineBody body =
    { s with link := { s.link with txQueue := joinBusy s.link.txQueue body } } := by
  unfold State.lineBody
  rw [if_neg (by simp [pending])]
  split
  · contradiction
  · rfl

end Line

theorem exec_queryRecord_up {s : State} (high : s.resetLow = false) (up : s.link.state = .up) {body : List Byte}
    (h : 1 ≤ body.length ∧ body.length ≤ bodyMax) :
    exec (.queryRecord body) s = .next (s.goodRecord.lineBody body) := by
  rw [exec_queryRecord_good high h, State.goodTaken_up _ up]

/-! ### The service port -/

/-- A transmitter that sends a frame lets the others wait (R179). -/
theorem ServicePort.kick_sending {v : ServicePort} (h : v.sending ≠ none) : v.kick = v := by
  unfold ServicePort.kick
  split
  · contradiction
  · rfl

/-- An idle transmitter begins the oldest waiting frame (R179, log 9). -/
theorem ServicePort.kick_silent {v : ServicePort} (h : v.sending = none) :
    v.kick = { v with sending := v.txQueue.head?, txQueue := v.txQueue.tail } := by
  unfold ServicePort.kick
  cases waiting : v.txQueue with
  | nil => obtain ⟨rx, cmd, txQueue, sending, lastFrame⟩ := v; cases h; cases waiting; rfl
  | cons r rest => rw [h]; rfl

section Service
variable {s : State} {body : List Byte} (pending : s.resetPending = false)
include pending

theorem State.serviceBody_idle (idle : s.service.cmd = .idle) : s.serviceBody body = s.takeService body := by
  unfold State.serviceBody
  rw [if_neg (by simp [pending]), idle]

/-- A body that finds the service port's command in progress is answered BUSY (R179). -/
theorem State.serviceBody_busy (inFlight : s.service.cmd ≠ .idle) : s.serviceBody body =
    { s with service :=
      ServicePort.kick { s.service with txQueue := joinBusy s.service.txQueue body } } := by
  unfold State.serviceBody
  rw [if_neg (by simp [pending])]
  split
  · contradiction
  · rfl

end Service

/-! ### The tap link transmitter -/

theorem exec_idleRecordSent {s : State} (high : s.resetLow = false) (h : s.link.sending = .idle) :
    exec .idleRecordSent s = .next { s with lastTapRecord := withCheck [0x0F], link := s.link.beginNext } := by
  show live s _ = _
  rw [live_of_high high, h]
  rfl

/-- The end of a REPLY record that is not that of a RESET_DEVICE: the command's reply alone makes the line port
IDLE (R19, R180). -/
theorem exec_replyRecordSent {s : State} (high : s.resetLow = false) {body : List Byte} {origin : ReplyOrigin}
    (h : s.link.sending = .reply ⟨body, origin⟩) (other : origin ≠ .reset) :
    exec .replyRecordSent s = .next { s with
      lastTapRecord := withCheck (0xA9 :: BitVec.ofNat 8 body.length :: body)
      link := s.link.beginNext
      linePort := { s.linePort with cmd := if origin = .command then .idle else s.linePort.cmd } } := by
  have record : replyRecord body = withCheck (0xA9 :: BitVec.ofNat 8 body.length :: body) := by
    simp [replyRecord]
  show live s _ = _
  rw [live_of_high high, h, ← record]
  cases origin with
  | command => rfl
  | reset => contradiction
  | busy => rfl
  | leftover => rfl

/-- Settles O51: the bodies port by port, then the records of the transmitter. -/
theorem bodiesTakenAndRepliesSent : Obligations.BodiesTakenAndRepliesSent := by
  intro s high busy joined
  have join (q : List TxReply) (body : List Byte) : joined q body = joinBusy q body := by
    rw [joinBusy_eq, busyBody_eq] <;> rfl
  have written {v w : ServicePort} (e : v = w) : ({ s with service := v } : State) = { s with service := w } := by
    rw [e]
  refine ⟨fun body h1 h2 up pending => ?line, fun body pending idle tag c parsed => ?taken,
    fun body pending inFlight sending => ?busySending, fun body pending inFlight silent => ?busySilent,
    fun body r pending idle parsed => ?refused, ?transmitter⟩
  case line =>
    intro good
    have row := exec_queryRecord_up high up ⟨h1, h2⟩
    refine ⟨fun idle tag c parsed => ?_, fun idle unmarked r parsed => ?_, fun inFlight => ?_⟩
    · rw [row, State.lineBody_idle (s := s.goodRecord) pending idle]
      unfold State.takeLine
      rw [show parseBody s.goodRecord.plan .line body = .command tag c from parsed]
      exact congrArg Host.Outcome.next (s.goodRecord.startCommand_notPending .line tag c pending)
    · rw [row, State.lineBody_idle (s := s.goodRecord) pending idle]
      unfold State.takeLine State.answerLine
      rw [show parseBody s.goodRecord.plan .line body = .refusal r from parsed]
      simp only
      rw [if_neg (by simp [State.goodRecord, unmarked])]
      rfl
    · rw [row, State.lineBody_busy (s := s.goodRecord) pending inFlight, join]
      rfl
  case taken =>
    rw [State.serviceBody_idle pending idle]
    unfold State.takeService
    rw [parsed]
    exact s.startCommand_notPending .service tag c pending
  case busySending =>
    rw [join]
    exact (State.serviceBody_busy pending inFlight).trans (written (ServicePort.kick_sending sending))
  case busySilent =>
    intro queue
    rw [show queue = joinBusy s.service.txQueue body from join _ _]
    exact (State.serviceBody_busy pending inFlight).trans (written (ServicePort.kick_silent silent))
  case refused =>
    intro queue
    have answered : s.serviceBody body = { s with
        service := ({ s.service with cmd := .replying, txQueue := queue } : ServicePort).kick } := by
      rw [State.serviceBody_idle pending idle]
      unfold State.takeService
      rw [parsed]
      rfl
    exact ⟨fun sending => answered.trans (written (ServicePort.kick_sending sending)),
      fun silent => answered.trans (written (ServicePort.kick_silent silent))⟩
  case transmitter =>
    intro next
    have goesOn : next = s.link.beginNext := rfl
    rw [goesOn]
    exact ⟨exec_idleRecordSent high, fun body origin => exec_replyRecordSent high⟩

end Sys2Proof.Machine
end

section
/-! The bytes of the tap link: the check of a record, and the row that the bytes of a record are. -/

namespace Sys2Proof.Machine

/-! ### The check of a record -/

theorem withCheck_eq (bs : List Byte) : withCheck bs =
    bs ++ [BitVec.ofNat 8 ((crc16 bs).toNat / 256), BitVec.ofNat 8 (crc16 bs).toNat] := by
  simp [withCheck, checkBytes, bytesBE]

theorem checkGood_append (bs : List Byte) (c1 c0 : Byte) :
    checkGood (bs ++ [c1, c0]) = true ↔ bs ++ [c1, c0] = withCheck bs := by
  have split : (bs ++ [c1, c0]).length - 2 = bs.length := by simp
  unfold checkGood withCheck
  rw [split, List.drop_left, List.take_left, beq_iff_eq, List.append_right_inj]

theorem checkGood_withCheck (bs : List Byte) : checkGood (withCheck bs) = true := by
  rw [withCheck_eq, checkGood_append, withCheck_eq]

/-! ### Numbers read back from their bytes -/

theorem natBE_cons (b : Byte) (bs : List Byte) : natBE (b :: bs) = b.toNat * 256 ^ bs.length + natBE bs := by
  have shift (bs : List Byte) (v : Nat) :
      bs.foldl (fun v b => v * 256 + b.toNat) v = v * 256 ^ bs.length + natBE bs := by
    induction bs generalizing v with
    | nil => simp [natBE]
    | cons c cs ih =>
      unfold natBE
      rw [List.foldl_cons, List.foldl_cons, ih, ih (0 * 256 + c.toNat), List.length_cons]
      ring
  unfold natBE
  rw [List.foldl_cons, shift]
  simp [natBE]

/-- The n low bytes of a number are the number modulo 256^n (R1). -/
theorem natBE_bytesBE (n v : Nat) : natBE (bytesBE n v) = v % 256 ^ n := by
  induction n with
  | zero => simp [bytesBE, natBE, Nat.mod_one]
  | succ n ih =>
    rw [bytesBE, natBE_cons, bytesBE_length, ih, BitVec.toNat_ofNat,
      Nat.mod_pow_succ (x := v) (b := 256) (k := n), Nat.add_comm, Nat.mul_comm]

/-- A word of n bytes is read back from its bytes (R1). -/
theorem ofNat_natBE_bytesBE {w : Nat} (n : Nat) (x : BitVec w) (h : 256 ^ n = 2 ^ w) :
    BitVec.ofNat w (natBE (bytesBE n x.toNat)) = x := by
  rw [natBE_bytesBE, h]
  simp

/-- A DESC record's bytes read back field by field (R4). -/
theorem parseDesc_fields (kind port : Byte) (key seq stamp check : List Byte) (hk : key.length = 4)
    (hq : seq.length = 2) (ht : stamp.length = 6) :
    parseDesc (kind :: port :: (key ++ seq ++ stamp ++ check)) =
      match dispositionOf (port.toNat / 32) with
      | none => none
      | some disposition => if h : port.toNat % 32 < 24 then
          some ⟨disposition, ⟨port.toNat % 32, h⟩, BitVec.ofNat 32 (natBE key), BitVec.ofNat 16 (natBE seq),
            BitVec.ofNat 48 (natBE stamp)⟩
        else none := by
  match key, seq, stamp with
  | [_, _, _, _], [_, _], [_, _, _, _, _, _] => simp [parseDesc] <;> rfl

theorem descBytes_eq (d : Descriptor) : descBytes d =
    0xD1 :: BitVec.ofNat 8 (dispositionCode d.disposition * 32 + d.ingressPort) ::
      (bytesBE 4 d.flowKey.toNat ++ bytesBE 2 d.seq.toNat ++ bytesBE 6 d.stamp.toNat
        ++ checkBytes (0xD1 :: bytesBE 1 (dispositionCode d.disposition * 32 + d.ingressPort)
          ++ bytesBE 4 d.flowKey.toNat ++ bytesBE 2 d.seq.toNat ++ bytesBE 6 d.stamp.toNat)) := by
  simp [descBytes, withCheck]

/-- A descriptor is read back from the bytes of its record (R4). -/
theorem parseDesc_descBytes (d : Descriptor) : parseDesc (descBytes d) = some d := by
  obtain ⟨disposition, port, key, seq, stamp⟩ := d
  have code : dispositionCode disposition ≤ 2 := by cases disposition <;> decide
  have decode : dispositionOf (dispositionCode disposition) = some disposition := by cases disposition <;> rfl
  have byte : (BitVec.ofNat 8 (dispositionCode disposition * 32 + port)).toNat
      = dispositionCode disposition * 32 + port := by
    rw [BitVec.toNat_ofNat]; omega
  have high : (dispositionCode disposition * 32 + port) / 32 = dispositionCode disposition := by omega
  have low : (dispositionCode disposition * 32 + port) % 32 = port := by omega
  rw [descBytes_eq, parseDesc_fields _ _ _ _ _ _ (bytesBE_length _ _) (bytesBE_length _ _) (bytesBE_length _ _)]
  simp only [byte, high, low, decode, ofNat_natBE_bytesBE 4 key rfl, ofNat_natBE_bytesBE 2 seq rfl,
    ofNat_natBE_bytesBE 6 stamp rfl, port.isLt, dite_true]

/-! ### Framing -/

/-- The framing of a record that is not whole yet: so is that of every run of its first bytes (R3). -/
theorem framedBy_take {n : Nat} {bs : List Byte} (h : framedBy n bs = .incomplete) (m : Nat) :
    framedBy n (bs.take m) = .incomplete := by
  unfold framedBy at *
  split at h
  · rw [if_pos (by rw [List.length_take]; omega)]
  · cases h

theorem frameRecord_take {bs : List Byte} (h : frameRecord bs = .incomplete) (m : Nat) :
    frameRecord (bs.take m) = .incomplete := by
  match bs, m with
  | [], _ => simp [frameRecord]
  | _, 0 => rfl
  | kind :: rest, m + 1 =>
    have framed (n : Nat) (k : framedBy n (kind :: rest) = .incomplete) :
        framedBy n (kind :: rest.take m) = .incomplete := framedBy_take k (m + 1)
    rw [List.take_succ_cons]
    by_cases short : kind = 0x3C ∨ kind = 0x0F
    · simp only [frameRecord, if_pos short] at h ⊢
      exact framed 3 h
    by_cases desc : kind = 0xD1
    · simp only [frameRecord, if_neg short, if_pos desc] at h ⊢
      exact framed 16 h
    by_cases tick : kind = 0x72
    · simp only [frameRecord, if_neg short, if_neg desc, if_pos tick] at h ⊢
      exact framed 9 h
    by_cases body : kind = 0x9A ∨ kind = 0xA9
    · simp only [frameRecord, if_neg short, if_neg desc, if_neg tick, if_pos body] at h ⊢
      match rest, m with
      | [], _ => simp
      | _, 0 => rfl
      | n :: rest, m + 1 =>
        rw [List.take_succ_cons] at framed ⊢
        by_cases length : n = 0 ∨ bodyMax < n.toNat
        · simp only [if_pos length] at h; cases h
        · simp only [if_neg length] at h ⊢
          exact framed _ h
    · simp only [frameRecord, if_neg short, if_neg desc, if_neg tick, if_neg body] at h
      cases h

/-! ### Bytes received one after another -/

/-- Bytes that complete no record join the partial one, outside DOWN (R3). -/
theorem State.tapBytes_incomplete (s : State) (high : s.resetLow = false) (notDown : s.link.state ≠ .down)
    (bs rest : List Byte) (h : ∀ n, frameRecord (s.link.rxBytes ++ bs.take n) = .incomplete) :
    s.tapBytes (bs ++ rest) = (s.setRxBytes (s.link.rxBytes ++ bs)).tapBytes rest := by
  induction bs generalizing s with
  | nil => rw [List.append_nil]; rfl
  | cons b bs ih =>
    have byte : s.tapByte b = .next (s.setRxBytes (s.link.rxBytes ++ [b])) := by
      have framing : frameRecord (s.link.rxBytes ++ [b]) = .incomplete := h 1
      unfold State.tapByte
      simp only [high, notDown, framing, if_false, Bool.false_eq_true]
    rw [List.cons_append, State.tapBytes, byte]
    have next := ih (s.setRxBytes (s.link.rxBytes ++ [b])) high notDown fun n => by
      have := h (n + 1)
      rwa [List.take_succ_cons, List.append_cons] at this
    simp only
    rw [next, List.append_cons s.link.rxBytes b bs]
    rfl

/-- The bytes of a record in UP, the last of which makes it whole, are its row (R3, R9). -/
theorem State.tapBytes_record (s : State) (high : s.resetLow = false) (up : s.link.state = .up)
    (fresh : s.link.rxBytes = []) (bs : List Byte) (b : Byte) (before : frameRecord bs = .incomplete)
    (whole : frameRecord (bs ++ [b]) = .whole true) :
    s.tapBytes (bs ++ [b]) = exec (goodRow (bs ++ [b])) (s.setRxBytes bs) := by
  have notDown : s.link.state ≠ .down := by rw [up]; simp
  rw [s.tapBytes_incomplete high notDown bs [b] fun n => by
    rw [fresh]; exact frameRecord_take before n, fresh, List.nil_append]
  have byte : (s.setRxBytes bs).tapByte b = exec (goodRow (bs ++ [b])) (s.setRxBytes bs) := by
    have state : (s.setRxBytes bs).link.state = .up := up
    have received : (s.setRxBytes bs).link.rxBytes = bs := rfl
    have resetHigh : (s.setRxBytes bs).resetLow = false := high
    unfold State.tapByte
    simp only [resetHigh, state, received, whole, recordRow, if_false, if_true, Bool.false_eq_true,
      reduceCtorEq]
  rw [State.tapBytes, byte]
  cases exec (goodRow (bs ++ [b])) (s.setRxBytes bs) <;> rfl

/-! ### The records of the fabric -/

theorem queryBytes_eq (body : List Byte) :
    queryBytes body = withCheck (0x9A :: BitVec.ofNat 8 body.length :: body) := by
  simp [queryBytes]

theorem goodRow_tickBytes (a : Time) : goodRow (tickBytes a) = .tickRecord a [] := by
  have stamp : (bytesBE 6 a.toNat ++ checkBytes (0x72 :: bytesBE 6 a.toNat)).take 6 = bytesBE 6 a.toNat :=
    List.take_left' (bytesBE_length 6 _)
  show Instr.tickRecord (BitVec.ofNat 48 (natBE ((bytesBE 6 a.toNat ++ _).take 6))) [] = _
  rw [stamp, ofNat_natBE_bytesBE 6 a rfl]

theorem lengthByte_toNat {body : List Byte} (h : body.length ≤ 250) :
    (BitVec.ofNat 8 body.length).toNat = body.length := by
  rw [BitVec.toNat_ofNat]; omega

theorem goodRow_queryBytes (body : List Byte) (h : body.length ≤ 250) :
    goodRow (queryBytes body) = .queryRecord body := by
  rw [queryBytes_eq]
  show Instr.queryRecord ((body ++ checkBytes _).take (BitVec.ofNat 8 body.length).toNat) = _
  rw [lengthByte_toNat h, List.take_left]

theorem goodRow_descBytes (d : Descriptor) : goodRow (descBytes d) = .descRecord d [] := by
  have parsed := parseDesc_descBytes d
  rw [descBytes_eq] at parsed ⊢
  show (match parseDesc _ with
    | some d => Instr.descRecord d []
    | none => .malformedRecord) = _
  rw [parsed]

/-- The rows that the records of the fabric are in UP (R1, R9). -/
inductive FabricRow : Instr → Prop where
  | sync : FabricRow .syncRecord
  | tick (a : Time) : FabricRow (.tickRecord a [])
  | desc (d : Descriptor) : FabricRow (.descRecord d [])
  | query (body : List Byte) (h : 1 ≤ body.length ∧ body.length ≤ bodyMax) : FabricRow (.queryRecord body)

/-- In UP the row of a record does not read the partial record: it empties it (R9). -/
theorem FabricRow.exec_setRxBytes {c : Instr} (h : FabricRow c) {s : State} (high : s.resetLow = false)
    (up : s.link.state = .up) (bs : List Byte) : exec c (s.setRxBytes bs) = exec c s := by
  have high' : (s.setRxBytes bs).resetLow = false := high
  have up' : (s.setRxBytes bs).link.state = .up := up
  have emptied : (s.setRxBytes bs).goodRecord = s.goodRecord := rfl
  cases h with
  | sync =>
    rw [exec_syncRecord high (by rw [up]; simp), exec_syncRecord high' (by rw [up']; simp),
      State.goodTaken_up _ up, State.goodTaken_up _ up', emptied]
  | tick a => rw [exec_tickRecord_up high up, exec_tickRecord_up high' up', emptied]
  | desc d =>
    rw [exec_descRecord high, exec_descRecord high', State.goodTaken_up _ up, State.goodTaken_up _ up', emptied]
  | query body length => rw [exec_queryRecord_up high up length, exec_queryRecord_up high' up' length, emptied]

/-- A run of bytes with its check, the last byte of which makes a record whole, is received in UP as the record's
row (R1 to R4, R9). -/
theorem State.tapBytes_row {s : State} (high : s.resetLow = false) (up : s.link.state = .up)
    (fresh : s.link.rxBytes = []) {bs : List Byte} {c : Instr} (h : FabricRow c)
    (row : goodRow (withCheck bs) = c) (before : ∀ c1 : Byte, frameRecord (bs ++ [c1]) = .incomplete)
    (whole : ∀ c1 c0 : Byte, frameRecord (bs ++ [c1, c0]) = .whole (checkGood (bs ++ [c1, c0]))) :
    s.tapBytes (withCheck bs) = exec c s := by
  have good := checkGood_withCheck bs
  rw [withCheck_eq] at good row ⊢
  generalize BitVec.ofNat 8 ((crc16 bs).toNat / 256) = c1, BitVec.ofNat 8 (crc16 bs).toNat = c0 at good row ⊢
  have last : bs ++ [c1, c0] = bs ++ [c1] ++ [c0] := by simp
  have framing : frameRecord (bs ++ [c1] ++ [c0]) = .whole true := by rw [← last, whole, good]
  rw [last] at row ⊢
  rw [s.tapBytes_record high up fresh _ c0 (before c1) framing, row, h.exec_setRxBytes high up]

/-- A byte in DOWN is kept with the one before it, where the last three bytes are no SYNC record (R6). -/
theorem State.tapByte_hunt {s : State} (high : s.resetLow = false) (down : s.link.state = .down) {b : Byte}
    (short : s.link.rxBytes.length ≤ 1) : s.tapByte b = .next (s.setRxBytes (s.link.rxBytes ++ [b])) := by
  have few : (s.link.rxBytes ++ [b]).length ≤ 2 := by simpa using short
  have all (n : Nat) (h : (s.link.rxBytes ++ [b]).length ≤ n) :
      (s.link.rxBytes ++ [b]).drop ((s.link.rxBytes ++ [b]).length - n) = s.link.rxBytes ++ [b] := by
    rw [Nat.sub_eq_zero_of_le h, List.drop_zero]
  have noSync : s.link.rxBytes ++ [b] ≠ syncBytes := fun e => by
    have three : syncBytes.length = 3 := by simp [syncBytes, withCheck_eq]
    rw [e, three] at few
    omega
  unfold State.tapByte
  simp only [high, down, all 3 (by omega), all 2 few, noSync, if_true, if_false, Bool.false_eq_true]

/-- The third byte of a SYNC record in DOWN ends the hunt (R6). -/
theorem State.tapByte_sync {s : State} (high : s.resetLow = false) (down : s.link.state = .down) {b : Byte}
    (sync : s.link.rxBytes ++ [b] = syncBytes) : s.tapByte b = exec .syncDetected s := by
  have three : syncBytes.length - 3 = 0 := by simp [syncBytes, withCheck_eq]
  unfold State.tapByte
  simp only [high, down, sync, three, List.drop_zero, if_true, if_false, Bool.false_eq_true]

/-- A SYNC record's three bytes in DOWN end the hunt (R6). -/
theorem State.tapBytes_sync_down {s : State} (high : s.resetLow = false) (down : s.link.state = .down)
    (fresh : s.link.rxBytes = []) : s.tapBytes syncBytes = exec .syncDetected s := by
  obtain ⟨c1, c0, bytes⟩ : ∃ c1 c0, syncBytes = [0x3C, c1, c0] := ⟨_, _, withCheck_eq [0x3C]⟩
  let one := s.setRxBytes [0x3C]
  let two := one.setRxBytes [0x3C, c1]
  have first : s.tapByte 0x3C = .next one := by
    rw [State.tapByte_hunt high down (by simp [fresh]), fresh]; rfl
  have second : one.tapByte c1 = .next two := State.tapByte_hunt (s := one) high down (Nat.le_refl 1)
  have third : two.tapByte c0 = exec .syncDetected two := State.tapByte_sync (s := two) high down bytes.symm
  rw [exec_syncDetected_down (s := two) high down] at third
  rw [bytes, exec_syncDetected_down high down]
  simp only [State.tapBytes, first, second, third]
  rfl

/-- Settles O54: the check bit by bit, each record byte by byte, and each record's bytes as its row. -/
theorem recordBytesAreTheirRow : Obligations.RecordBytesAreTheirRow := by
  refine ⟨?check, ⟨rfl, fun _ => rfl, queryBytes_eq, ?desc⟩, ?received⟩
  case check =>
    intro bytes bits crc high low
    have register : crc16 bytes = crc := crc16_eq bytes
    have checked : withCheck bytes = bytes ++ [high, low] := by rw [withCheck_eq, register]
    refine ⟨checked, fun c1 c0 => ?_⟩
    rw [checkGood_append, checked, List.append_right_inj]
    simp
  case desc =>
    intro d
    have bytes : descBytes d = withCheck (0xD1 :: BitVec.ofNat 8 (dispositionCode d.disposition * 32 + d.ingressPort)
        :: bytesBE 4 d.flowKey.toNat ++ bytesBE 2 d.seq.toNat ++ bytesBE 6 d.stamp.toNat) := by simp [descBytes]
    exact bytes
  case received =>
    intro s high fresh
    refine ⟨fun up => ?sync, fun up a => ?tick, fun up d => ?desc, fun up body h1 h2 => ?query,
      fun down => State.tapBytes_sync_down high down fresh⟩
    case sync => exact State.tapBytes_row high up fresh .sync rfl (fun _ => rfl) fun _ _ => rfl
    case tick =>
      refine State.tapBytes_row high up fresh (.tick a) (goodRow_tickBytes a) (fun c1 => ?_) fun c1 c0 => ?_
      · simp [frameRecord, framedBy]
      · simp [frameRecord, framedBy]
    case desc =>
      refine State.tapBytes_row high up fresh (.desc d) (goodRow_descBytes d) (fun c1 => ?_) fun c1 c0 => ?_
      · simp [frameRecord, framedBy]
      · simp [frameRecord, framedBy]
    case query =>
      have length := lengthByte_toNat h2
      have notZero : BitVec.ofNat 8 body.length ≠ 0#8 := fun e => by
        rw [e] at length
        simp only [BitVec.toNat_ofNat, Nat.zero_mod] at length
        omega
      have atMost : body.length ≤ bodyMax := h2
      have row := goodRow_queryBytes body h2
      rw [queryBytes_eq] at row ⊢
      refine State.tapBytes_row high up fresh (.query body ⟨h1, h2⟩) row (fun c1 => ?_) fun c1 c0 => ?_
      · simp [frameRecord, framedBy, length, notZero, atMost]
      · simp [frameRecord, framedBy, length, notZero, atMost]

end Sys2Proof.Machine
end

section
/-! The contexts of the streams among the bounds that every row keeps. -/

namespace Sys2Proof.Machine

/-- Settles O55: the contexts and the SILENT alarms are among the bounds that every row keeps. -/
theorem stepKeepsContexts : Obligations.StepKeepsContexts := fun _ _ staging contexts h =>
  (step_keepsAll h).contexts staging contexts

end Sys2Proof.Machine
end

section
/-! The Stream Classifier: the tests of a descriptor, the search, and a descriptor that matches. -/

namespace Sys2Proof.Machine

/-! ### The search -/

/-- Two flow keys agree under a mask when they agree in every bit the mask holds (R29). -/
theorem and_mask_eq_iff (k e m : BitVec 32) :
    k &&& m = e &&& m ↔ ∀ b, b < 32 → m.getLsbD b = true → k.getLsbD b = e.getLsbD b := by
  constructor
  · intro h b _ held
    have bit := congrArg (fun w => w.getLsbD b) h
    simpa [held] using bit
  · intro h
    apply BitVec.eq_of_getLsbD_eq
    intro b hb
    rw [BitVec.getLsbD_and, BitVec.getLsbD_and]
    cases held : m.getLsbD b with
    | false => simp
    | true => rw [h b hb held]

theorem Definition.matchesFlow_iff (e : Definition) (key : BitVec 32) (port : PortNo) :
    e.matchesFlow key port = true ↔
      (∀ b, b < 32 → e.mask.getLsbD b = true → key.getLsbD b = e.key.getLsbD b)
        ∧ (port = e.pathA ∨ some port = e.pathB) := by
  unfold Definition.matchesFlow
  rw [Bool.and_eq_true, beq_iff_eq, and_mask_eq_iff, Bool.or_eq_true, beq_iff_eq, beq_iff_eq]

theorem State.entryMatches_iff (s : State) (key : BitVec 32) (port : PortNo) (i : StreamIx) :
    s.entryMatches key port i = true ↔
      ∃ e, (s.stream i).definition = some e ∧ e.matchesFlow key port = true := by
  unfold State.entryMatches
  cases (s.stream i).definition <;> simp

/-- The search finds the lowest entry that matches (R29). -/
theorem State.findStream_some (s : State) (key : BitVec 32) (port : PortNo) (i : StreamIx) :
    s.findStream key port = some i ↔
      s.entryMatches key port i = true ∧ ∀ j, j < i → s.entryMatches key port j = false := by
  unfold State.findStream allStreams
  rw [List.find?_eq_some_iff_getElem]
  constructor
  · rintro ⟨found, k, hk, at_k, before⟩
    rw [List.getElem_finRange] at at_k
    subst at_k
    refine ⟨found, fun j below => ?_⟩
    simpa using before j.val below
  · rintro ⟨found, before⟩
    refine ⟨found, i.val, by simp, by simp, fun j below => ?_⟩
    have := before ⟨j, by omega⟩ below
    simpa using this

theorem State.findStream_none (s : State) (key : BitVec 32) (port : PortNo) :
    s.findStream key port = none ↔ ∀ i, s.entryMatches key port i = false := by
  simp [State.findStream, allStreams]

/-! ### The tests -/

section Tests
variable {s : State} {d : Descriptor}

theorem State.classify_halted (halted : s.engine = .halted) :
    s.classify d = s.updPort d.ingressPort fun t => { t with ignored := t.ignored + 1 } := if_pos halted

variable (running : s.engine = .running)
include running

theorem State.classify_corrupt (corrupt : d.disposition = .corrupt) :
    s.classify d = s.updPort d.ingressPort fun t => { t with corrupt := t.corrupt + 1 } := by
  unfold State.classify
  rw [if_neg (by simp [running]), if_pos corrupt]

variable (sound : d.disposition ≠ .corrupt)
include sound

theorem State.classify_unscheduled (unscheduled : s.scheduleValid = false) :
    s.classify d = s.updPort d.ingressPort fun t => { t with unscheduled := t.unscheduled + 1 } := by
  unfold State.classify
  rw [if_neg (by simp [running]), if_neg sound, if_pos unscheduled]

variable (scheduled : s.scheduleValid = true)
include scheduled

theorem State.classify_unclassified (unmatched : s.findStream d.flowKey d.ingressPort = none) :
    s.classify d = s.updPort d.ingressPort fun t => { t with unclassified := t.unclassified + 1 } := by
  unfold State.classify
  rw [if_neg (by simp [running]), if_neg sound, if_neg (by simp [scheduled]), unmatched]

theorem State.classify_matched {i : StreamIx} (found : s.findStream d.flowKey d.ingressPort = some i) :
    s.classify d = s.matched i d := by
  unfold State.classify
  rw [if_neg (by simp [running]), if_neg sound, if_neg (by simp [scheduled]), found]

end Tests

/-- Settles O13: the tests in their order, and the search by its lowest match. -/
theorem descriptorTestsAndSearch : Obligations.DescriptorTestsAndSearch := by
  unfold Obligations.DescriptorTestsAndSearch
  intro s d old counted agrees
  have agrees_iff (i : StreamIx) : agrees i ↔ s.entryMatches d.flowKey d.ingressPort i = true := by
    simp only [agrees, State.entryMatches_iff, Definition.matchesFlow_iff]
  refine ⟨State.classify_halted, State.classify_corrupt, State.classify_unscheduled, ?unclassified, ?search⟩
  case unclassified =>
    intro running sound scheduled unmatched
    refine State.classify_unclassified running sound scheduled ((s.findStream_none _ _).2 fun i => ?_)
    rw [← Bool.not_eq_true, ← agrees_iff]
    exact unmatched i
  case search =>
    intro i
    simp only [State.findStream_some, agrees_iff, Bool.not_eq_true]

/-! ### A descriptor that matches -/

theorem State.matched_discarded (s : State) (i : StreamIx) {d : Descriptor} (h : d.disposition = .discarded) :
    s.matched i d = (s.updPort d.ingressPort fun t => { t with discarded := t.discarded + 1 }).postGroup i
      ⟨[⟨.discardedHere, 1⟩], none⟩ := by
  unfold State.matched
  rw [h]
  rfl

theorem State.matched_forwarded (s : State) (i : StreamIx) {d : Descriptor} (h : d.disposition = .forwarded)
    {e : Definition} (defined : (s.stream i).definition = some e) :
    s.matched i d = (s.updPort d.ingressPort fun t => { t with forwarded := t.forwarded + 1 }).arrive i
      (e.pathOf d.ingressPort) d.seq d.stamp := by
  unfold State.matched
  simp only [h, defined]

/-- An arrival's taking leaves its stream's definition, by which the arrival is judged (R47, R71). -/
theorem State.arrive_defined (s : State) (i : StreamIx) (p : Path) (q : Seq) (a : Time) {e : Definition}
    (defined : (s.stream i).definition = some e) :
    s.arrive i p q a = ((s.takeAll i).endTaking i).judgeArrival i e p q a := by
  have stands : (((s.takeAll i).endTaking i).stream i).definition = some e := by
    rw [State.endTaking, State.updStream_eq, State.stream_setStream_same, ← defined]
    exact s.takeAll_definition i
  unfold State.arrive
  simp only [stands]

/-- Settles O14: a discard is a group of one post after its port's count, a frame an arrival. -/
theorem matchedDescriptors : Obligations.MatchedDescriptors := by
  unfold Obligations.MatchedDescriptors
  intro s d i e running scheduled found defined old
  have matched (sound : d.disposition ≠ .corrupt) : s.classify d = s.matched i d :=
    State.classify_matched running sound scheduled found
  refine ⟨fun discarded => ?discarded, fun forwarded => ?forwarded⟩
  case discarded =>
    let counted := s.updPort d.ingressPort fun t => { t with discarded := t.discarded + 1 }
    let group : Group := ⟨[⟨.discardedHere, 1⟩], none⟩
    have posted : s.classify d = counted.postGroup i group := by
      rw [matched (by simp [discarded]), s.matched_discarded i discarded]
    have work : worksOn i counted (counted.postGroup i group) := counted.postGroup_worksOn i group
    have tallies : (counted.postGroup i group).portTallies = counted.portTallies := work.accounts.portTallies
    rw [posted]
    exact ⟨tallies, counted.postGroup_stream i group, work.stream, tallies ▸ work.accounts, rfl⟩
  case forwarded =>
    rw [matched (by simp [forwarded]), s.matched_forwarded i forwarded defined]
    exact State.arrive_defined _ i _ _ _ defined

end Sys2Proof.Machine
end

section
/-! STAGE_DEFINE and STAGE_REMOVE: the first field that fails R22, the checks in their order, and the place of an
entry on the list. -/

namespace Sys2Proof.Machine

/-! ### The first field that fails -/

/-- r is the lowest number from n on with property P, none where there is none. -/
def leastFrom (P : Nat → Prop) (n : Nat) (r : Option Nat) : Prop :=
  (r = none ↔ ∀ f, n ≤ f → ¬P f) ∧ ∀ f, r = some f ↔ n ≤ f ∧ P f ∧ ∀ g, n ≤ g → g < f → ¬P g

theorem leastFrom.absent {P : Nat → Prop} {n : Nat} (h : ∀ f, n ≤ f → ¬P f) : leastFrom P n none :=
  ⟨⟨fun _ => h, fun _ => rfl⟩, fun f => ⟨fun k => (by cases k), fun ⟨le, has, _⟩ => absurd has (h f le)⟩⟩

/-- A number that is known not to have the property is passed over. -/
theorem leastFrom.skip {P : Nat → Prop} {n : Nat} {r : Option Nat} (h : ¬P n) (k : leastFrom P (n + 1) r) :
    leastFrom P n r := by
  have next (f : Nat) : n ≤ f ↔ f = n ∨ n + 1 ≤ f := by omega
  refine ⟨?_, fun f => ?_⟩
  · rw [k.1]
    simp only [next, or_imp, forall_and, forall_eq, h, not_false_eq_true, true_and]
  · rw [k.2]
    constructor
    · rintro ⟨le, has, before⟩
      refine ⟨by omega, has, fun g hg lt => ?_⟩
      rcases (next g).1 hg with rfl | hg
      · exact h
      · exact before g hg lt
    · rintro ⟨le, has, before⟩
      have ne : f ≠ n := fun e => h (e ▸ has)
      exact ⟨by omega, has, fun g hg => before g (by omega)⟩

/-- A check of number n, before the checks of the numbers after it. -/
theorem leastFrom.check {P : Nat → Prop} {n : Nat} {r : Option Nat} {c : Prop} [Decidable c] (h : c ↔ P n)
    (k : ¬P n → leastFrom P (n + 1) r) : leastFrom P n (if c then some n else r) := by
  by_cases fails : c
  · have has := h.1 fails
    rw [if_pos fails]
    refine ⟨⟨fun e => (by cases e), fun e => absurd has (e n (Nat.le_refl n))⟩, fun f => ⟨fun e => ?_, ?_⟩⟩
    · cases e
      exact ⟨Nat.le_refl n, has, fun g _ _ => by omega⟩
    · rintro ⟨le, _, before⟩
      have same : n = f := by
        by_contra ne
        exact before n (Nat.le_refl n) (by omega) has
      rw [same]
  · rw [if_neg fails]
    have hasNot : ¬P n := fun has => fails (h.2 has)
    exact .skip hasNot (k hasNot)

/-- Field f of a definition fails its check in R22. -/
def DefinitionArg.fieldFails (d : DefinitionArg) : Nat → Prop
  | 3 => 23 < d.pathA
  | 4 => ∃ b, d.pathB = some b ∧ (23 < b ∨ b = d.pathA)
  | 5 => d.period < 1250 ∨ 125000000 < d.period
  | 6 => (d.period : Int) - 1 < d.phase
  | 7 => (d.period : Int) - 1 < d.tolerance
  | 8 => d.hold = 0 ∨ 16 < d.hold
  | 9 => d.jump = 0 ∨ 32 < d.jump
  | 10 => 7 < d.profile
  | 11 => d.keepTallies ≠ 0 ∧ d.keepTallies ≠ 1
  | 12 => 16 < d.label.length ∨ ∃ c ∈ d.label, c.toNat < 0x20 ∨ 0x7E < c.toNat
  | _ => False

theorem labelChar_iff (c : Byte) : labelChar c = true ↔ 0x20 ≤ c.toNat ∧ c.toNat ≤ 0x7E := by
  simp [labelChar]

theorem DefinitionArg.pathB_fails (d : DefinitionArg) :
    (d.pathB.any fun b => decide (23 < b) || b == d.pathA) = true ↔ d.fieldFails 4 := by
  simp [DefinitionArg.fieldFails, Option.any_eq_true]

theorem DefinitionArg.label_fails (d : DefinitionArg) :
    (16 < d.label.length ∨ (d.label.any fun c => !labelChar c) = true) ↔ d.fieldFails 12 := by
  have bad (c : Byte) : (!labelChar c) = true ↔ c.toNat < 0x20 ∨ 0x7E < c.toNat := by
    rw [Bool.not_eq_true', ← Bool.not_eq_true, labelChar_iff]
    omega
  simp only [DefinitionArg.fieldFails, List.any_eq_true, bad]

/-- A definition's check names the lowest field that fails. Fields 6 and 7 are compared with P − 1, which field 5
keeps from wrapping at 0 (R22). -/
theorem DefinitionArg.firstBad_least (d : DefinitionArg) : leastFrom d.fieldFails 0 d.firstBad := by
  refine .skip id (.skip id (.skip id ?_))
  refine .check Iff.rfl fun _ => .check d.pathB_fails fun _ => .check Iff.rfl fun period => ?_
  have positive : 1250 ≤ d.period := by
    simp only [DefinitionArg.fieldFails] at period
    omega
  refine .check ?phase fun _ => .check ?tolerance fun _ => .check Iff.rfl fun _ => .check Iff.rfl fun _ =>
    .check Iff.rfl fun _ => .check ?keep fun _ => .check d.label_fails fun _ => .absent ?beyond
  case phase => simp only [DefinitionArg.fieldFails]; omega
  case tolerance => simp only [DefinitionArg.fieldFails]; omega
  case keep => simp only [DefinitionArg.fieldFails]; omega
  case beyond =>
    intro f beyond fails
    unfold DefinitionArg.fieldFails at fails
    split at fails <;> omega

theorem DefinitionArg.firstBad_none (d : DefinitionArg) : d.firstBad = none ↔ ∀ f, ¬d.fieldFails f := by
  simpa using d.firstBad_least.1

theorem DefinitionArg.firstBad_some (d : DefinitionArg) (f : Nat) :
    d.firstBad = some f ↔ d.fieldFails f ∧ ∀ g, g < f → ¬d.fieldFails g := by
  simpa using d.firstBad_least.2 f

/-! ### Positions on the list -/

theorem stagePosition_eq_none {entries : List StageEntry} {i : StreamIx} (h : ∀ e ∈ entries, e.index ≠ i) :
    stagePosition entries i = none := by
  unfold stagePosition
  rw [List.findIdx?_eq_none_iff]
  simpa using h

/-- On a list with one entry for each stream at most, the position of a stream's entry is the one it stands at
(R154). -/
theorem stagePosition_eq_some {entries : List StageEntry} {k : Nat} {e : StageEntry}
    (at_k : entries[k]? = some e) (distinct : (entries.map StageEntry.index).Nodup) :
    stagePosition entries e.index = some k := by
  obtain ⟨hk, rfl⟩ := List.getElem?_eq_some_iff.1 at_k
  unfold stagePosition
  rw [List.findIdx?_eq_some_iff_getElem]
  refine ⟨hk, by simp, fun j below same => ?_⟩
  have equal : (entries.map StageEntry.index)[j]'(by simp; omega)
      = (entries.map StageEntry.index)[k]'(by simpa) := by simpa using same
  have := distinct.getElem_inj_iff.1 equal
  omega

theorem streamOf_val (i : StreamIx) : streamOf i.val = some i := by simp [streamOf]

theorem streamOf_beyond {n : Nat} (h : 255 < n) : streamOf n = none := by
  unfold streamOf
  rw [dif_neg (by omega)]

theorem streamOf_within {n : Nat} (h : n ≤ 255) : ∃ i, streamOf n = some i :=
  ⟨_, streamOf_val ⟨n, by omega⟩⟩

/-! ### The checks -/

/-- The abandonment timer of an OPEN list restarted (R167). -/
def State.restartedIfOpen (s : State) : State :=
  if s.staging.state = .opened then { s with staging := { s.staging with timer := some 0 } } else s

/-- Port p may stage: the list is EMPTY, or OPEN and held by p (R156). -/
def State.mayStage (s : State) (p : Port) : Prop :=
  s.staging.state = .empty ∨ s.staging.state = .opened ∧ s.staging.holder = some p

theorem State.holds_iff (s : State) (p : Port) : s.holds p = true ↔ s.staging.holder = some p := by
  simp [State.holds]

/-- The list opened by port p with these entries, its timer from 0 (R156, R157). -/
def State.opened (s : State) (p : Port) (entries : List StageEntry) : State :=
  { s with staging := { s.staging with state := .opened, entries := entries, holder := some p, timer := some 0 } }

theorem State.touch_unopened {s : State} (p : Port) (h : s.staging.state ≠ .opened) : s.touch p = s :=
  if_neg fun k => h k.1

theorem State.touch_unheld {s : State} {p : Port} (h : s.staging.holder ≠ some p) : s.touch p = s :=
  if_neg fun k => h ((s.holds_iff p).1 k.2)

theorem State.touch_mayStage {s : State} {p : Port} (h : s.mayStage p) : s.touch p = s.restartedIfOpen := by
  unfold State.restartedIfOpen
  rcases h with empty | ⟨opened, held⟩
  · rw [State.touch_unopened p (by simp [empty]), if_neg (by simp [empty])]
  · rw [if_pos opened]
    exact if_pos ⟨opened, (s.holds_iff p).2 held⟩

@[simp] theorem State.restartedIfOpen_entries (s : State) :
    s.restartedIfOpen.staging.entries = s.staging.entries := by
  unfold State.restartedIfOpen
  split <;> rfl

theorem State.placeEntry_restartedIfOpen (s : State) (p : Port) (e : StageEntry) :
    s.restartedIfOpen.placeEntry p e = s.opened p (stagePlaced s.staging.entries e) := by
  unfold State.restartedIfOpen
  split <;> rfl

section Stage
variable {s : State} {p : Port} (tag : Byte) (n : Nat) (bad : Option Nat) (mk : StreamIx → StageEntry)

theorem State.stage_armed (h : s.staging.state = .armed) :
    s.stage p tag n bad mk = s.reply p tag .armed [] := by
  unfold State.stage
  rw [State.touch_unopened p (by simp [h])]
  exact if_pos h

theorem State.stage_unheld (opened : s.staging.state = .opened) (unheld : s.staging.holder ≠ some p) :
    s.stage p tag n bad mk = s.reply p tag .stageHeld [] := by
  have not : s.holds p = false := by rw [← Bool.not_eq_true, s.holds_iff]; exact unheld
  unfold State.stage
  rw [State.touch_unheld unheld]
  simp only [opened, not, reduceCtorEq, if_false, and_self, if_true]

/-- A port that may stage has its index checked, then its definition (R156). -/
theorem State.stage_mayStage (may : s.mayStage p) : s.stage p tag n bad mk =
    match streamOf n, bad with
    | none, _ => s.restartedIfOpen.reply p tag .badArgument []
    | some _, some field => s.restartedIfOpen.reply p tag .badDefinition [BitVec.ofNat 8 field]
    | some i, none => s.restartedIfOpen.stageChecked p tag (mk i) := by
  have notArmed : s.staging.state ≠ .armed := by
    rcases may with empty | ⟨opened, _⟩ <;> simp [*]
  have notOther : ¬(s.staging.state = .opened ∧ s.holds p = false) := by
    rintro ⟨opened, other⟩
    rcases may with empty | ⟨_, held⟩
    · simp [empty] at opened
    · simp [(s.holds_iff p).2 held] at other
  unfold State.stage
  simp only [if_neg notArmed, if_neg notOther, State.touch_mayStage may, bytesBE_one]
  cases streamOf n <;> cases bad <;> rfl

/-- An entry for a stream the list does not name finds no place (R156). -/
theorem State.stageChecked_full (e : StageEntry) (new : ∀ x ∈ s.staging.entries, x.index ≠ e.index)
    (full : 32 ≤ s.staging.entries.length) :
    s.restartedIfOpen.stageChecked p tag e = s.restartedIfOpen.reply p tag .stageFull [] := by
  unfold State.stageChecked
  rw [State.restartedIfOpen_entries]
  exact if_pos ⟨stagePosition_eq_none new, full⟩

/-- An entry for a stream the list does not name becomes the newest (R157). -/
theorem State.stageChecked_new (e : StageEntry) (new : ∀ x ∈ s.staging.entries, x.index ≠ e.index)
    (free : s.staging.entries.length < 32) : s.restartedIfOpen.stageChecked p tag e =
      (s.opened p (s.staging.entries ++ [e])).reply p tag .ok
        [BitVec.ofNat 8 s.staging.entries.length, BitVec.ofNat 8 (s.staging.entries.length + 1), 0] := by
  have position := stagePosition_eq_none new
  have placed : stagePlaced s.staging.entries e = s.staging.entries ++ [e] := by
    unfold stagePlaced
    rw [position]
  unfold State.stageChecked
  rw [State.restartedIfOpen_entries, if_neg fun h => absurd h.2 (Nat.not_le_of_lt free),
    State.placeEntry_restartedIfOpen, placed, position]
  simp [State.opened, flagByte]

/-- An entry for a stream the list names takes that entry's place (R157). -/
theorem State.stageChecked_again (e : StageEntry) {k : Nat} {old : StageEntry}
    (at_k : s.staging.entries[k]? = some old) (same : old.index = e.index)
    (distinct : (s.staging.entries.map StageEntry.index).Nodup) : s.restartedIfOpen.stageChecked p tag e =
      (s.opened p (s.staging.entries.set k e)).reply p tag .ok
        [BitVec.ofNat 8 k, BitVec.ofNat 8 s.staging.entries.length, 1] := by
  have position := stagePosition_eq_some at_k distinct
  rw [same] at position
  have placed : stagePlaced s.staging.entries e = s.staging.entries.set k e := by
    unfold stagePlaced
    rw [position]
  unfold State.stageChecked
  rw [State.restartedIfOpen_entries, if_neg fun h => by simp [position] at h,
    State.placeEntry_restartedIfOpen, placed, position]
  simp [State.opened, flagByte]

end Stage

theorem exec_stageDefine {s : State} {p : Port} {tag : Byte} {n : Nat} {d : DefinitionArg}
    (h : s.runs p tag (.stageDefine n d)) : exec (.stageDefine p) s =
      .next (s.stage p tag n d.firstBad fun i => .define i d.toDefinition) := by
  obtain ⟨high, started⟩ := h
  show live s _ = _
  rw [live_of_high high, started]

theorem exec_stageRemove {s : State} {p : Port} {tag : Byte} {n : Nat} (h : s.runs p tag (.stageRemove n)) :
    exec (.stageRemove p) s = .next (s.stage p tag n none StageEntry.remove) := by
  obtain ⟨high, started⟩ := h
  show live s _ = _
  rw [live_of_high high, started]

/-- Settles O43: the first field that fails as the least number, then the checks of both commands as one. -/
theorem stageDefineAndRemove : Obligations.StageDefineAndRemove := by
  refine ⟨fun _ _ => ⟨rfl, rfl⟩, fun d => ⟨d.firstBad_none, d.firstBad_some⟩, ?_⟩
  intro s p tag c n bad entry command touched
  obtain ⟨row, index⟩ : exec c s = .next (s.stage p tag n bad entry) ∧ ∀ i, (entry i).index = i := by
    rcases command with ⟨rfl, runs, rfl, rfl⟩ | ⟨d, rfl, runs, rfl, rfl⟩
    · exact ⟨exec_stageRemove runs, fun _ => rfl⟩
    · exact ⟨exec_stageDefine runs, fun _ => rfl⟩
  rw [row]
  refine ⟨fun armed => ?armed, fun opened unheld => ?unheld, fun may => ⟨fun beyond => ?beyond,
    fun f within failed => ?failed, fun i value sound => ⟨fun new full => ?full, fun new free => ?free,
      fun k e at_k same distinct => ?again⟩⟩⟩
  case armed => rw [State.stage_armed tag n bad entry armed]
  case unheld => rw [State.stage_unheld tag n bad entry opened unheld]
  all_goals rw [State.stage_mayStage tag n bad entry may]
  case beyond => rw [streamOf_beyond beyond]; rfl
  case failed =>
    obtain ⟨i, stream⟩ := streamOf_within within
    rw [stream, failed]
    rfl
  all_goals rw [← value, streamOf_val, sound]
  case full => exact congrArg _ (State.stageChecked_full tag (entry i) (by rwa [index]) full)
  case free => exact congrArg _ (State.stageChecked_new tag (entry i) (by rwa [index]) free)
  case again => exact congrArg _ (State.stageChecked_again tag (entry i) at_k (by rw [same, index]) distinct)

end Sys2Proof.Machine
end

section
/-! The bodies of STAGE_DEFINE and SET_PROFILE read back: a definition and a profile from their bytes. -/

namespace Sys2Proof.Machine

/-! ### Single bytes -/

theorem ofNat_byte_toNat {n : Nat} (h : n < 256) : (BitVec.ofNat 8 n).toNat = n := by
  rw [BitVec.toNat_ofNat]
  omega

theorem natBE_bytesBE_of_lt {k v : Nat} (h : v < 256 ^ k) : natBE (bytesBE k v) = v := by
  rw [natBE_bytesBE, Nat.mod_eq_of_lt h]

theorem flagByte_toNat (b : Bool) : (flagByte b).toNat = b.toNat := by cases b <;> rfl

/-- A routing is read back from its byte (R184). -/
theorem parseRoute_byte (r : Route) : parseRoute r.byte = r := by
  obtain ⟨lamp, irq, lineFlag⟩ := r
  cases lamp <;> cases irq <;> cases lineFlag <;> rfl

/-! ### Definitions -/

/-- The byte of path_b, 0xFF where it is absent (R184). -/
def pathByte : Option PortNo → Byte
  | some b => BitVec.ofNat 8 b
  | none => absentCode

theorem pathByte_toNat (b : Option PortNo) :
    (if (pathByte b).toNat = 0xFF then none else some (pathByte b).toNat) = b.map Fin.val := by
  cases b with
  | none => rfl
  | some b =>
    have byte : (pathByte (some b)).toNat = b := ofNat_byte_toNat (by omega)
    rw [byte, if_neg (by omega)]
    rfl

/-- The argument that carries a definition (R184). -/
def Definition.arg (d : Definition) : DefinitionArg where
  key := d.key
  mask := d.mask
  pathA := d.pathA
  pathB := d.pathB.map Fin.val
  period := d.period
  phase := d.phase
  tolerance := d.tolerance
  hold := d.hold
  jump := d.jump
  profile := d.profile
  keepTallies := d.keepTallies.toNat
  label := d.label.getD []

theorem Definition.bytes_eq (d : Definition) : d.bytes =
    bytesBE 4 d.key.toNat ++ bytesBE 4 d.mask.toNat ++ [BitVec.ofNat 8 d.pathA, pathByte d.pathB]
      ++ bytesBE 4 d.period ++ bytesBE 4 d.phase ++ bytesBE 4 d.tolerance
      ++ [BitVec.ofNat 8 d.hold, BitVec.ofNat 8 d.jump, BitVec.ofNat 8 d.profile, flagByte d.keepTallies,
        BitVec.ofNat 8 (d.label.getD []).length] ++ d.label.getD [] := by
  unfold Definition.bytes
  cases d.pathB <;> simp [pathByte]

/-- The 27 bytes of a definition and its label, read field by field (R184). -/
theorem parseDefinition_fields (key mask period phase tolerance label : List Byte)
    (a b hold jump profile keep length : Byte) (hk : key.length = 4) (hm : mask.length = 4)
    (hp : period.length = 4) (hf : phase.length = 4) (ht : tolerance.length = 4)
    (hl : length.toNat = label.length) :
    parseDefinition (key ++ mask ++ [a, b] ++ period ++ phase ++ tolerance
      ++ [hold, jump, profile, keep, length] ++ label) = some
        { key := BitVec.ofNat 32 (natBE key)
          mask := BitVec.ofNat 32 (natBE mask)
          pathA := a.toNat
          pathB := if b.toNat = 0xFF then none else some b.toNat
          period := natBE period
          phase := natBE phase
          tolerance := natBE tolerance
          hold := hold.toNat
          jump := jump.toNat
          profile := profile.toNat
          keepTallies := keep.toNat
          label := label } := by
  match key, mask, period, phase, tolerance with
  | [_, _, _, _], [_, _, _, _], [_, _, _, _], [_, _, _, _], [_, _, _, _] =>
    have whole (fixed : List Byte) (h : fixed.length = 27) : 27 ≤ (fixed ++ label).length
        ∧ (fixed ++ label).length = 27 + natBE [length] := by
      rw [List.length_append, h, natBE_one, hl]
      omega
    simp only [← natBE_one]
    exact if_pos (whole _ rfl)

/-- A label of a valid definition has at most 16 characters (R22). -/
theorem Definition.valid.label_length {d : Definition} (h : d.valid) : (d.label.getD []).length ≤ 16 := by
  obtain ⟨_, _, _, _, _, _, _, _, _, labels⟩ := h
  cases label : d.label with
  | none => simp
  | some l => exact (labels l label).2.1

/-- A valid definition's bytes carry it (R184). -/
theorem parseDefinition_bytes {d : Definition} (h : d.valid) : parseDefinition d.bytes = some d.arg := by
  have length := h.label_length
  obtain ⟨_, _, period, phase, tolerance, _, hold, _, jump, _⟩ := h
  rw [d.bytes_eq, parseDefinition_fields _ _ _ _ _ _ _ _ _ _ _ _ _ (bytesBE_length _ _) (bytesBE_length _ _)
    (bytesBE_length _ _) (bytesBE_length _ _) (bytesBE_length _ _) (ofNat_byte_toNat (by omega)),
    ofNat_natBE_bytesBE 4 d.key rfl, ofNat_natBE_bytesBE 4 d.mask rfl, pathByte_toNat, flagByte_toNat,
    natBE_bytesBE_of_lt (k := 4) (v := d.period) (by omega),
    natBE_bytesBE_of_lt (k := 4) (v := d.phase) (by omega),
    natBE_bytesBE_of_lt (k := 4) (v := d.tolerance) (by omega),
    ofNat_byte_toNat (n := d.pathA) (by omega), ofNat_byte_toNat (n := d.hold) (by omega),
    ofNat_byte_toNat (n := d.jump) (by omega), ofNat_byte_toNat (n := d.profile) (by omega)]
  rfl

/-- The argument of a valid definition fails no check (R22). -/
theorem Definition.arg_firstBad {d : Definition} (h : d.valid) : d.arg.firstBad = none := by
  rw [DefinitionArg.firstBad_none]
  have length := h.label_length
  obtain ⟨paths, periodLow, periodHigh, phase, tolerance, holdLow, holdHigh, jumpLow, jumpHigh, labels⟩ := h
  intro f fails
  unfold DefinitionArg.fieldFails Definition.arg at fails
  split at fails
  case h_2 =>
    dsimp only at fails
    obtain ⟨b, is, bad⟩ := fails
    obtain ⟨port, pathB, rfl⟩ := Option.map_eq_some_iff.1 is
    have same : port = d.pathA := Fin.ext (by omega)
    exact paths (by rw [pathB, same])
  case h_9 => cases keep : d.keepTallies <;> simp [keep] at fails
  case h_10 =>
    dsimp only at fails
    obtain long | ⟨c, within, bad⟩ := fails
    · omega
    · cases label : d.label with
      | none => simp [label] at within
      | some l =>
        have good := (labelChar_iff c).1 ((labels l label).2.2 c (by simpa [label] using within))
        omega
  case h_11 => exact fails
  all_goals
    dsimp only at fails
    omega

/-- The argument of a valid definition stands for it (R23). -/
theorem Definition.arg_toDefinition {d : Definition} (h : d.valid) : d.arg.toDefinition = d := by
  obtain ⟨_, _, _, _, _, _, _, _, _, labels⟩ := h
  have port (p : PortNo) : portOf p = p := by simp [portOf]
  have pathB : (d.pathB.map Fin.val).map portOf = d.pathB := by
    cases d.pathB <;> simp [port]
  have profile : Fin.ofNat 8 d.profile = d.profile := by simp
  have keep : (d.keepTallies.toNat == 1) = d.keepTallies := by cases d.keepTallies <;> rfl
  have label : (if d.label.getD [] = [] then none else some (d.label.getD [])) = d.label := by
    cases is : d.label with
    | none => rfl
    | some l =>
      have positive := (labels l is).1
      have notEmpty : l ≠ [] := List.length_pos_iff.1 positive
      simp [notEmpty]
  unfold DefinitionArg.toDefinition Definition.arg
  simp only [port, pathB, profile, keep, label]

/-! ### Profiles -/

/-- The argument that carries a profile (R184). -/
def Profile.arg (p : Profile) : ProfileArg where
  dropThreshold := p.dropThreshold
  lateThreshold := p.lateThreshold
  reorderThreshold := p.reorderThreshold
  pathThreshold := p.pathThreshold
  silentDeclare := BitVec.ofNat 8 p.silentDeclare
  silentClear := BitVec.ofNat 8 p.silentClear
  edgeMode := p.edgeMode.code.toNat
  routeDrop := p.routeDrop
  routeLate := p.routeLate
  routeReorder := p.routeReorder
  routePath := p.routePath
  routeSilent := p.routeSilent

/-- The 16 bytes of a profile, read field by field (R184). -/
theorem parseProfile_fields (drop late reorder path : List Byte) (a b mode rd rl rr rp rs : Byte)
    (hd : drop.length = 2) (hl : late.length = 2) (hr : reorder.length = 2) (hp : path.length = 2) :
    parseProfile (drop ++ late ++ reorder ++ path ++ [a] ++ [b] ++ [mode, rd, rl, rr, rp, rs]) = some
      ⟨natBE drop, natBE late, natBE reorder, natBE path, a, b, mode.toNat, parseRoute rd, parseRoute rl,
        parseRoute rr, parseRoute rp, parseRoute rs⟩ := by
  match drop, late, reorder, path with
  | [_, _], [_, _], [_, _], [_, _] => rfl

section Profile
variable {p : Profile}

/-- A profile's bytes carry it, where its thresholds fit 16 bits (R184). -/
theorem parseProfile_bytes (drop : p.dropThreshold < 65536) (late : p.lateThreshold < 65536)
    (reorder : p.reorderThreshold < 65536) (path : p.pathThreshold < 65536) :
    parseProfile p.bytes = some p.arg := by
  unfold Profile.bytes
  rw [bytesBE_one, bytesBE_one, parseProfile_fields _ _ _ _ _ _ _ _ _ _ _ _ (bytesBE_length _ _)
    (bytesBE_length _ _) (bytesBE_length _ _) (bytesBE_length _ _), natBE_bytesBE_of_lt drop,
    natBE_bytesBE_of_lt late, natBE_bytesBE_of_lt reorder, natBE_bytesBE_of_lt path]
  simp only [parseRoute_byte]
  rfl

variable (h : p.valid)
include h

/-- The argument of a valid profile is accepted (R133). -/
theorem Profile.arg_bad : p.arg.bad = false := by
  obtain ⟨declareLow, declareHigh, clearLow, clearHigh⟩ := h
  have nonzero {n : Nat} (low : 1 ≤ n) (high : n ≤ 255) : (BitVec.ofNat 8 n == 0) = false := by
    have byte := ofNat_byte_toNat (n := n) (by omega)
    rw [beq_eq_false_iff_ne]
    intro zero
    rw [zero] at byte
    simp at byte
    omega
  have mode : decide (1 < p.edgeMode.code.toNat) = false := by cases p.edgeMode <;> rfl
  unfold ProfileArg.bad Profile.arg
  simp only [nonzero declareLow declareHigh, nonzero clearLow clearHigh, mode, Bool.or_self]

/-- The argument of a valid profile stands for it (R132). -/
theorem Profile.arg_toProfile : p.arg.toProfile = p := by
  obtain ⟨_, declareHigh, _, clearHigh⟩ := h
  have mode : (if p.edgeMode.code.toNat = 0 then EdgeMode.assertOnly else .both) = p.edgeMode := by
    cases p.edgeMode <;> rfl
  unfold ProfileArg.toProfile Profile.arg
  simp only [ofNat_byte_toNat (n := p.silentDeclare) (by omega), ofNat_byte_toNat (n := p.silentClear) (by omega),
    mode]

end Profile

/-! ### The bodies -/

theorem parseArguments_stageDefine (i : StreamIx) {bs : List Byte} {arg : DefinitionArg}
    (h : parseDefinition bs = some arg) :
    parseArguments 0x30 (bytesBE 2 i.val ++ bs) = some (.stageDefine i.val arg) := by
  have index : natBE (bytesBE 2 i.val) = i.val := natBE_bytesBE_of_lt (by omega)
  show (parseDefinition bs).map (Command.stageDefine (natBE (bytesBE 2 i.val))) = _
  rw [h, index]
  rfl

theorem parseArguments_setProfile (k : ProfileIx) {bs : List Byte} {arg : ProfileArg}
    (h : parseProfile bs = some arg) :
    parseArguments 0x37 (bytesBE 1 k.val ++ bs) = some (.setProfile k.val arg) := by
  have index : (BitVec.ofNat 8 k.val).toNat = k.val := ofNat_byte_toNat (by omega)
  rw [bytesBE_one]
  show (parseProfile bs).map (Command.setProfile (BitVec.ofNat 8 k.val).toNat) = _
  rw [h, index]
  rfl

/-- Settles O53: each body parses to the argument that carries what was written. -/
theorem definitionAndProfileBodiesReadBack : Obligations.DefinitionAndProfileBodiesReadBack :=
  ⟨labelChar_iff,
    fun i d valid => ⟨d.arg, parseArguments_stageDefine i (parseDefinition_bytes valid), d.arg_firstBad valid,
      d.arg_toDefinition valid⟩,
    fun k p valid drop late reorder path => ⟨p.arg,
      parseArguments_setProfile k (parseProfile_bytes drop late reorder path), p.arg_bad valid,
      p.arg_toProfile valid⟩⟩

end Sys2Proof.Machine
end

section
/-! An arrival judged: its case by the distance from E and the slot at its position, what a verdict arrival and any
other make of its stream, and the anchor due. -/

namespace Sys2Proof.Machine

/-! ### Words moved by a number -/

theorem timeShift_natCast (t : Time) (n : Nat) : timeShift t n = t + BitVec.ofNat 48 n := by
  unfold timeShift; rw [BitVec.ofInt_natCast]

theorem timeShift_periods (t : Time) (n p : Nat) : timeShift t (n * p) = t + BitVec.ofNat 48 (n * p) := by
  rw [← timeShift_natCast, Int.natCast_mul]

/-- The slot that leaves at a step of E is 33 below the new E, 32 below the number passed (R40). -/
theorem leaving_seq (e : Seq) : e + 1 - 33 = e - 32 := by bv_omega

/-- The anchor due of R80 is on the cursor's grid, with its lateness in τ − P < L ≤ τ. -/
theorem anchorDue_anchoredOn (d : Definition) (hd : d.valid) (c a : Time) : anchoredOn d c a (anchorDue d c a) := by
  obtain ⟨-, period_ge, period_le, -, tolerance, -⟩ := hd
  have rounded := ceilDiv_roundedUp (a - c - BitVec.ofNat 48 d.tolerance).toInt d.period (by omega)
  unfold anchorDue
  generalize ceilDiv (a - c - BitVec.ofNat 48 d.tolerance).toInt d.period = k at rounded ⊢
  obtain ⟨low, high⟩ := rounded
  have late : (a - timeShift c (k * d.period)).toInt
      = (a - c - BitVec.ofNat 48 d.tolerance).toInt - (k * d.period - d.tolerance) := by
    have regroup : a - timeShift c (k * d.period)
        = a - c - BitVec.ofNat 48 d.tolerance - BitVec.ofInt 48 (k * d.period - d.tolerance) := by
      have moved : BitVec.ofInt 48 (k * d.period)
          = BitVec.ofInt 48 (k * d.period - d.tolerance) + BitVec.ofNat 48 d.tolerance := by
        rw [← BitVec.ofInt_natCast, ← BitVec.ofInt_add, Int.sub_add_cancel]
      unfold timeShift; rw [moved]; ring
    rw [Int.sub_mul] at low
    rw [regroup]
    exact toInt_sub_ofInt (by omega) (by omega)
  refine ⟨⟨k, ⟨low, high⟩, rfl⟩, ?_, ?_⟩ <;>
  · rw [Int.sub_mul] at low
    omega

/-! ### Posts and slot states in the words of the statements -/

theorem exitPosts_eq (b : Bool) : exitPosts b =
    fun w => if w.isOutstanding then [⟨.dropped, 1⟩, ⟨.droppedForced, 1⟩] else missedPath b w := by
  funext ⟨q, st⟩
  cases st with
  | outstanding due cause => rfl
  | received ps => cases b <;> cases ps <;> rfl
  | dropped => cases b <;> rfl

theorem clearPosts_eq (b : Bool) : clearPosts b =
    fun w => if w.isOutstanding then [⟨.dropped, 1⟩] else missedPath b w := by
  funext ⟨q, st⟩
  cases st with
  | outstanding due cause => rfl
  | received ps => cases b <;> cases ps <;> rfl
  | dropped => cases b <;> rfl

theorem Stream.slotTaken_eq (x : Stream) (p : Path) :
    (if x.testLoss then .dropped else .received p.single) = x.slotTaken p := by
  unfold Stream.slotTaken; cases p <;> rfl

theorem Stream.slotTaken_settled (x : Stream) (p : Path) (q : Seq) :
    Slot.isOutstanding ⟨q, x.slotTaken p⟩ = false := by
  unfold Stream.slotTaken; split <;> rfl

theorem Stream.placedBy_eq (x : Stream) (d : Definition) (c : ArrivalCase) (p : Path) (q : Seq) (due : Time) :
    x.placedBy d c p q due = placeArrival d { x with testLoss := false } c q due (x.slotTaken p) := by
  unfold Stream.placedBy; rw [Stream.slotTaken_eq]

theorem Stream.verdictGroup_eq (x : Stream) (d : Definition) (c : ArrivalCase) (p : Path) (q : Seq)
    (a due : Time) : x.verdictGroup d c p q a due =
      x.verdictPosts (x.placedBy d c p q due).2 (verdictField d c (a - due).toInt) (a - due).toInt := rfl

/-- The count of a verdict arrival as one record (R97, R100). -/
theorem Stream.countVerdict_afterVerdict {x : Stream} (live : x.health ≠ .off) (clear : Nat) :
    x.countVerdict clear = x.afterVerdict clear := by
  unfold Stream.countVerdict Stream.afterVerdict
  cases h : x.health with
  | off => exact absurd h live
  | unanchored => simp
  | tracking => simp
  | silent => by_cases k : clear ≤ 1 <;> simp [k, Nat.not_lt.2, Nat.lt_of_not_le]
  | recovering => by_cases k : clear ≤ x.recovery + 1 <;> simp [k, Nat.not_lt.2, Nat.lt_of_not_le]

/-! ### A verdict arrival and any other -/

/-- State t is s with stream i placed and given this group, then counted as a verdict arrival, d being its
definition (R56, R97). -/
def State.tookVerdict (s t : State) (i : StreamIx) (d : Definition) (placed : Stream) (own : Group) : Prop :=
  Stream.sameButAlarms
      (Stream.afterVerdict s.acp.profiles[d.profile].silentClear (placed.addGroup s.tst.totalModes own)) (t.stream i)
    ∧ t = State.countVerdict ((s.setStream i placed).postGroup i own) i

section Judged
variable {s : State} {i : StreamIx} {d : Definition} {p : Path} {q : Seq} {a : Time} {c : ArrivalCase}

/-- An arrival in a case that has a due instant is placed, posted and counted (R56, R57, R97). -/
theorem State.judgeArrival_verdict (defined : (s.stream i).definition = some d) (live : (s.stream i).health ≠ .off)
    (found : arrivalCase d.jump (s.stream i) p q = c) {due : Time} (hdue : caseDue d (s.stream i) a c = some due)
    {placed : Stream} {before : List Post} (place : placeArrival d { s.stream i with testLoss := false } c q due
      ((s.stream i).slotTaken p) = (placed, before)) :
    s.tookVerdict (s.judgeArrival i d p q a) i d placed
      ((s.stream i).verdictPosts before (verdictField d c (a - due).toInt) (a - due).toInt) := by
  have judged : s.judgeArrival i d p q a = s.takeVerdict i d c p q a due := by
    unfold State.judgeArrival; simp only [found, hdue]
  rw [← Stream.placedBy_eq] at place
  have stream := s.takeVerdict_stream i d d c p q a due defined
  have health : (((s.stream i).placedBy d c p q due).1.addGroup s.tst.totalModes
      ((s.stream i).verdictGroup d c p q a due)).health ≠ .off := by
    rw [Stream.addGroup_health, Stream.placedBy_fst]; exact live
  rw [Stream.countVerdict_afterVerdict health, Stream.verdictGroup_eq, place] at stream
  rw [judged]
  refine ⟨stream, ?_⟩
  rw [State.takeVerdict_eq, Stream.verdictGroup_eq, place]

/-- An arrival in a case that has none changes its stream and posts its field (R52, R53, R54, R57). -/
theorem State.judgeArrival_anomaly (found : arrivalCase d.jump (s.stream i) p q = c)
    (hdue : caseDue d (s.stream i) a c = none) : s.judgeArrival i d p q a =
      (s.setStream i (placeAnomaly (s.stream i) c q)).postGroup i ⟨anomalyPosts c, none⟩ := by
  unfold State.judgeArrival; simp only [found, hdue]

theorem State.judgeArrival_frame (defined : (s.stream i).definition = some d) :
    onlyAccounts s (s.judgeArrival i d p q a) ∧ onlyStream i s (s.judgeArrival i d p q a) :=
  have work := s.judgeArrival_keepsOn i d p q a defined
  ⟨work.accounts, work.stream⟩

end Judged

/-! ### Slots of a window -/

theorem slotAt_eq_none {w : List Slot} {q : Seq} : slotAt w q = none ↔ ∀ v ∈ w, v.seq ≠ q := by
  simp [slotAt, List.find?_eq_none]

theorem slotAt_some {w : List Slot} {q : Seq} {v : Slot} (h : slotAt w q = some v) : v ∈ w ∧ v.seq = q :=
  ⟨List.mem_of_find?_eq_some h, by simpa using List.find?_some h⟩

/-- The slots of a window are at distinct numbers (R36). -/
theorem windowKept.distinct {e : Seq} {w : List Slot} (h : windowKept e w) {u v : Slot} (hu : u ∈ w) (hv : v ∈ w)
    (same : u.seq = v.seq) : u = v := by
  have nodup : (w.map Slot.seq).Nodup :=
    List.pairwise_map.2 (h.2.1.imp fun {a b} lower eq => absurd lower (by rw [eq]; exact Nat.lt_irrefl _))
  exact List.inj_on_of_nodup_map nodup hu hv same

theorem slotAt_of_mem {e : Seq} {w : List Slot} (h : windowKept e w) {v : Slot} (hv : v ∈ w) :
    slotAt w v.seq = some v := by
  cases found : slotAt w v.seq with
  | none => exact absurd rfl (slotAt_eq_none.1 found v hv)
  | some u =>
    obtain ⟨hu, same⟩ := slotAt_some found
    rw [h.distinct hu hv same]

/-- A slot of a window lies 1 to 32 before E (R36). -/
theorem windowKept.seqDist {e : Seq} {w : List Slot} (h : windowKept e w) {v : Slot} (hv : v ∈ w) :
    -32 ≤ (v.seq - e).toInt ∧ (v.seq - e).toInt < 0 := by
  obtain ⟨low, high⟩ := h.1 v hv
  unfold below windowSpan at *
  rw [BitVec.toInt_eq_toNat_cond]
  constructor <;> split <;> bv_omega

/-! ### The case of an arrival -/

section Case
variable {j : Nat} {x : Stream} {p : Path} {q : Seq}

theorem arrivalCase_unheld (h : x.health = .unanchored ∨ x.health = .silent) : arrivalCase j x p q = .anchor := by
  unfold arrivalCase; rw [if_pos h]

variable (held : ¬(x.health = .unanchored ∨ x.health = .silent))
include held

theorem arrivalCase_next (h : x.expected = q) : arrivalCase j x p q = .inOrder := by
  have here : seqDist q x.expected = 0 := by simp [seqDist, h]
  unfold arrivalCase
  simp only [if_neg held, here, if_true]

theorem arrivalCase_ahead (h1 : 0 < (q - x.expected).toInt) (h2 : (q - x.expected).toInt ≤ j) :
    arrivalCase j x p q = .jump (q - x.expected).toInt.toNat := by
  unfold arrivalCase seqDist
  simp only [if_neg held]
  rw [if_neg (by omega), if_pos ⟨h1, h2⟩]

theorem arrivalCase_beyond (h : (j : Int) < (q - x.expected).toInt) : arrivalCase j x p q = .resync := by
  unfold arrivalCase seqDist
  simp only [if_neg held]
  rw [if_neg (by omega), if_neg (by omega), if_pos h]

theorem arrivalCase_window (h1 : -32 ≤ (q - x.expected).toInt) (h2 : (q - x.expected).toInt < 0) :
    arrivalCase j x p q = slotCase x p (slotAt x.window q) := by
  unfold arrivalCase seqDist
  simp only [if_neg held]
  rw [if_neg (by omega), if_neg (by omega), if_neg (by omega), if_pos (by simpa using h1)]

/-- An arrival more than 32 before E, or within for which the window has no slot, is stale (R54). -/
theorem arrivalCase_absent (h : (q - x.expected).toInt < -32
      ∨ (-32 ≤ (q - x.expected).toInt ∧ (q - x.expected).toInt < 0 ∧ ∀ v ∈ x.window, v.seq ≠ q)) :
    arrivalCase j x p q = staleCase x := by
  rcases h with far | ⟨low, high, absent⟩
  · unfold arrivalCase seqDist
    simp only [if_neg held]
    rw [if_neg (by omega), if_neg (by omega), if_neg (by omega), if_neg (by simp only [windowSpan]; omega)]
  · rw [arrivalCase_window held low high, slotAt_eq_none.2 absent]; rfl

theorem arrivalCase_slot (window : windowKept x.expected x.window) {v : Slot} (hv : v ∈ x.window) :
    arrivalCase j x p v.seq = slotCase x p (some v) := by
  obtain ⟨low, high⟩ := window.seqDist hv
  rw [arrivalCase_window held low high, slotAt_of_mem window hv]

end Case

theorem Health.held {h : Health} (k : h = .tracking ∨ h = .recovering) : ¬(h = .unanchored ∨ h = .silent) := by
  rcases k with rfl | rfl <;> simp

theorem Health.live {h : Health} (k : h = .tracking ∨ h = .recovering) : h ≠ .off := by
  rcases k with rfl | rfl <;> simp

/-! ### What each case places -/

/-- A step of E whose slot does not enter as a ninth OUTSTANDING one (R39, R40). -/
theorem stepE_uncapped (x : Stream) {st : SlotState} (room : Slot.isOutstanding ⟨x.expected, st⟩ = false
      ∨ outstandingCount (x.window.filter fun w => w.seq != x.expected - 32) < 8) : stepE x st =
    ({ x with
        expected := x.expected + 1
        window := x.window.filter (fun w => w.seq != x.expected - 32) ++ [⟨x.expected, st⟩] },
      (x.window.filter fun w => w.seq == x.expected - 32).flatMap (exitPosts x.paired)) := by
  have uncapped : (Slot.isOutstanding ⟨x.expected, st⟩
      && decide (8 ≤ outstandingCount (x.window.filter fun w => w.seq != x.expected - 32))) = false := by
    rcases room with h | h
    · rw [h, Bool.false_and]
    · rw [decide_eq_false (by omega), Bool.and_false]
  unfold stepE enterSlot
  simp only [leaving_seq, uncapped, Bool.false_eq_true, if_false, List.append_nil]

section Placed
variable (d : Definition) (x : Stream) (q : Seq) (due : Time) {st : SlotState}
  (settled : Slot.isOutstanding ⟨q, st⟩ = false)
include settled

theorem placeArrival_inOrder (at_q : x.expected = q) : placeArrival d x .inOrder q due st =
    ({ x with
        expected := q + 1
        window := x.window.filter (fun w => w.seq != q - 32) ++ [⟨q, st⟩]
        cursor := x.cursor + BitVec.ofNat 48 d.period
        staleCount := 0 },
      (x.window.filter fun w => w.seq == q - 32).flatMap (exitPosts x.paired)) := by
  subst at_q
  unfold placeArrival
  simp only [stepE_uncapped x (.inl settled), timeShift_natCast]

/-- The anchor of an arrival on an empty window (R46, R80). -/
theorem anchorAt_empty (empty : x.window = []) : anchorAt d x q due st =
    ({ x with
        expected := q + 1, window := [⟨q, st⟩], cursor := due + BitVec.ofNat 48 d.period, staleCount := 0 },
      []) := by
  unfold anchorAt
  rw [stepE_uncapped { x with expected := q } (.inl settled)]
  simp only [empty, timeShift_natCast]
  rfl

theorem placeArrival_resync : placeArrival d x .resync q due st =
    ({ x with
        expected := q + 1, window := [⟨q, st⟩], cursor := due + BitVec.ofNat 48 d.period, staleCount := 0 },
      ⟨.seqBreak, 1⟩ :: x.window.flatMap (clearPosts x.paired)) := by
  unfold placeArrival finalizingClear
  simp only [anchorAt_empty d { x with window := [], staleCount := 0 } q due settled rfl, List.append_nil, one]

end Placed

/-! ### In order, anchoring, stale, and for a slot of the window -/

/-- Settles O15: the slot of the frame takes one step of E, not awaited. -/
theorem inOrderArrival : Obligations.InOrderArrival := by
  unfold Obligations.InOrderArrival
  intro s i d p q a x defined anchored next late t placed exits own
  have taken := State.judgeArrival_verdict (a := a) defined (Health.live anchored)
    (arrivalCase_next (j := d.jump) (p := p) (Health.held anchored) next) rfl
    (placeArrival_inOrder d { x with testLoss := false } q x.cursor (x.slotTaken_settled p q) next)
  rw [exitPosts_eq] at taken
  exact ⟨taken.1, taken.2, State.judgeArrival_frame defined⟩

/-- Settles O17: the window of a stream that is UNANCHORED or SILENT is empty, and its anchor due is on the grid. -/
theorem anchoringArrival : Obligations.AnchoringArrival := by
  unfold Obligations.AnchoringArrival
  intro s i d p q a x defined context unheld t
  have empty : x.window = [] := context.unheld (.inr unheld)
  have taken := State.judgeArrival_verdict (a := a) defined (context.live defined)
    (arrivalCase_unheld (j := d.jump) (p := p) (q := q) unheld) rfl
    (anchorAt_empty d { x with testLoss := false } q (anchorDue d x.cursor a) (x.slotTaken_settled p q) empty)
  exact ⟨_, anchorDue_anchoredOn d (context.valid d defined) x.cursor a, taken, State.judgeArrival_frame defined⟩

/-- Settles O18: stale arrivals by the count before them, and the two ways into a resync. -/
theorem staleArrivalsAndResync : Obligations.StaleArrivalsAndResync := by
  unfold Obligations.StaleArrivalsAndResync
  intro s i d p q a x defined context anchored dist stale cleared t
  have held := Health.held anchored
  have absent (h : stale) : arrivalCase d.jump x p q = staleCase x := arrivalCase_absent held h
  refine ⟨fun h few => ?counted, fun h => ?resync, State.judgeArrival_frame defined⟩
  case counted =>
    intro counted
    have found : arrivalCase d.jump x p q = .stale := by rw [absent h, staleCase, if_pos few]
    have judged : t = (s.setStream i counted).postGroup i ⟨[⟨.stale, 1⟩], none⟩ :=
      State.judgeArrival_anomaly (c := .stale) found rfl
    exact ⟨by rw [judged]; exact setPost_stream s i counted _, judged⟩
  case resync =>
    have found : arrivalCase d.jump x p q = .resync := by
      rcases h with ⟨h, third⟩ | far
      · rw [absent h, staleCase, if_neg (by simp [third])]
      · exact arrivalCase_beyond held far
    have taken := State.judgeArrival_verdict (a := a) defined (Health.live anchored) found rfl
      (placeArrival_resync d { x with testLoss := false } q (anchorDue d x.cursor a) (x.slotTaken_settled p q))
    rw [clearPosts_eq] at taken
    exact ⟨_, anchorDue_anchoredOn d (context.valid d defined) x.cursor a, taken⟩

/-- Settles O19: by the state of the slot that the window holds for the arrival. -/
theorem arrivalsForWindowSlots : Obligations.ArrivalsForWindowSlots := by
  unfold Obligations.ArrivalsForWindowSlots
  intro s i d p w a x defined context anchored member t placed seen became
  have found : arrivalCase d.jump x p w.seq = slotCase x p (some w) :=
    arrivalCase_slot (Health.held anchored) context.window member
  have anomaly {c : ArrivalCase} (h : slotCase x p (some w) = c) (none : caseDue d x a c = none) :
      became (placeAnomaly x c w.seq) ⟨anomalyPosts c, .none⟩ := by
    have judged := State.judgeArrival_anomaly (found.trans h) none
    exact ⟨by rw [show t = _ from judged]; exact setPost_stream s i _ _, judged⟩
  have has (ps : Paths) : ps.has p = true ↔ seen ps := by cases ps <;> cases p <;> simp [Paths.has, seen]
  refine ⟨fun due cause awaited => ?awaited, fun ps received again => ?duplicate,
    fun ps received other => ?redundant, fun dropped => ?tooLate, State.judgeArrival_frame defined⟩
  case awaited =>
    intro late verdict y own
    have field : verdictField d (.awaited due cause) late = verdict := by cases cause <;> rfl
    have h : slotCase x p (some w) = .awaited due cause := by simp only [slotCase, awaited]
    have taken := State.judgeArrival_verdict (a := a) defined (Health.live anchored) (found.trans h) rfl
      (placed := y) (before := []) rfl
    rw [field] at taken
    exact taken
  case duplicate => exact anomaly (c := .duplicate) (by simp only [slotCase, received, (has ps).2 again, if_true]) rfl
  case redundant => exact anomaly (c := .redundant) (by simp only [slotCase, received, mt (has ps).1 other]; rfl) rfl
  case tooLate => exact anomaly (c := .tooLate) (by simp only [slotCase, dropped]) rfl

end Sys2Proof.Machine
end

section
/-! An accepted jump: the gap slots it leaves in the window, and its group. -/

namespace Sys2Proof.Machine

theorem seqDist_add (e : Seq) {n : Nat} (h : n ≤ 32) : (e + BitVec.ofNat 16 n - e).toInt = n := by
  have moved : e + BitVec.ofNat 16 n - e = BitVec.ofNat 16 n := by ring
  rw [moved, BitVec.toInt_eq_toNat_of_lt] <;> simp only [BitVec.toNat_ofNat] <;> omega

/-! ### The gap slots in the window -/

/-- The numbers below n that are not more than 31 before it, parted at one of them. -/
theorem range_inside_split {n k : Nat} (before : k < n) (inside : n ≤ k + 31) : ∃ front back : List Nat,
    (List.range n).filter (fun k => decide (n ≤ k + 31)) = front ++ k :: back ∧ back.length = n - (k + 1) := by
  have parted : List.range n = List.range k ++ k :: List.range' (k + 1) (n - (k + 1)) := by
    obtain ⟨m, rfl⟩ := Nat.exists_eq_add_of_lt before
    have back : k + m + 1 - (k + 1) = m := by omega
    have joined := List.range'_append_1 (s := 0) (m := k) (n := m + 1)
    rw [Nat.zero_add] at joined
    rw [back, ← List.range'_succ, List.range_eq_range', List.range_eq_range', joined, Nat.add_assoc]
  refine ⟨(List.range k).filter fun k => decide (n ≤ k + 31), List.range' (k + 1) (n - (k + 1)), ?_,
    List.length_range'⟩
  have all : (List.range' (k + 1) (n - (k + 1))).filter (fun k => decide (n ≤ k + 31))
      = List.range' (k + 1) (n - (k + 1)) := by
    rw [List.filter_eq_self]
    intro m hm
    have := List.mem_range'_1.1 hm
    simp only [decide_eq_true_eq]
    omega
  rw [parted, List.filter_append, List.filter_cons_of_pos (by simpa using inside), all]

/-- The gap slot of number k of a jump, with its due (R49). -/
def Stream.gapSlot (x : Stream) (d : Definition) (k : Nat) : Slot :=
  ⟨x.expected + BitVec.ofNat 16 k, .outstanding (x.cursor + BitVec.ofNat 48 (k * d.period)) .gap⟩

/-- What a jump of n leaves in the window before its cap and its frame: the slots that stay of the window before
it, and the gap slots (R40, R49). -/
def Stream.jumpInside (x : Stream) (d : Definition) (n : Nat) : List Slot :=
  x.window.filter (fun v => decide (below x.expected v.seq + n ≤ 31))
    ++ ((List.range n).filter fun k => decide (n ≤ k + 31)).map (x.gapSlot d)

theorem outstandingCount_map_gapSlot (x : Stream) (d : Definition) (l : List Nat) :
    outstandingCount (l.map (x.gapSlot d)) = l.length := by
  unfold outstandingCount
  rw [List.filter_eq_self.2 (by simp [Stream.gapSlot, Slot.isOutstanding]), List.length_map]

/-- A gap slot stands after the cap of a jump OUTSTANDING, or DROPPED where eight more follow it (R41). -/
theorem Stream.gapSlot_mem_lastEight (x : Stream) (d : Definition) {n k : Nat} (before : k < n)
    (inside : n ≤ k + 31) : (if 8 ≤ n - (k + 1) then ⟨(x.gapSlot d k).seq, .dropped⟩ else x.gapSlot d k)
      ∈ lastEight (x.jumpInside d n) := by
  obtain ⟨front, back, parted, length⟩ := range_inside_split before inside
  have awaited : (x.gapSlot d k).isOutstanding = true := rfl
  have stands := lastEight_mem (x.window.filter (fun v => decide (below x.expected v.seq + n ≤ 31))
    ++ front.map (x.gapSlot d)) (back.map (x.gapSlot d)) (x.gapSlot d k)
  simp only [awaited, true_and, outstandingCount_map_gapSlot, length] at stands
  unfold Stream.jumpInside
  rwa [parted, List.map_append, List.map_cons, ← List.append_assoc]

/-! ### The whole jump -/

/-- What an accepted jump places, with its posts in some order (R40, R41, R49, R58). -/
theorem placeArrival_jump (d : Definition) (x : Stream) (window : windowKept x.expected x.window) {n : Nat}
    (few : n ≤ 32) (due : Time) {st : SlotState}
    (settled : Slot.isOutstanding ⟨x.expected + BitVec.ofNat 16 n, st⟩ = false) : ∃ posts : List Post,
    placeArrival d x (.jump n) (x.expected + BitVec.ofNat 16 n) due st =
      ({ x with
          expected := x.expected + BitVec.ofNat 16 n + 1
          window := lastEight (x.jumpInside d n) ++ [⟨x.expected + BitVec.ofNat 16 n, st⟩]
          cursor := x.cursor + BitVec.ofNat 48 ((n + 1) * d.period)
          staleCount := 0 }, posts)
      ∧ posts.Perm (forcedDrops
          (outstandingCount x.window + n - outstandingCount (lastEight (x.jumpInside d n)))
        ++ (x.window.filter fun v => decide (31 < below x.expected v.seq + n)).flatMap (missedPath x.paired)) := by
  have gaps : (fun k : Nat => (⟨x.expected + BitVec.ofNat 16 k,
      .outstanding (timeShift x.cursor ((k : Int) * d.period)) .gap⟩ : Slot)) = x.gapSlot d :=
    funext fun k => by rw [timeShift_periods]; rfl
  obtain ⟨steps, posts⟩ := jumpSteps x window x.cursor d.period n few st settled
  rw [gaps] at steps posts
  refine ⟨_, ?_, posts⟩
  have moved : timeShift x.cursor (((n : Int) + 1) * d.period) = x.cursor + BitVec.ofNat 48 ((n + 1) * d.period) :=
    timeShift_periods _ (n + 1) _
  unfold placeArrival
  simp only [steps, moved]
  rfl

/-- Settles O16: the gap steps and the step of the frame by `jumpSteps`, the gap slots by their place in the window. -/
theorem acceptedJump : Obligations.AcceptedJump := by
  unfold Obligations.AcceptedJump
  intro s i d p a n x defined context anchored some within q t late gap inside awaited placed own
  obtain ⟨-, -, -, -, -, -, -, -, limit, -⟩ := context.valid d defined
  have few : n ≤ 32 := within.trans limit
  have dist : (q - x.expected).toInt = n := seqDist_add x.expected few
  have found : arrivalCase d.jump x p q = .jump n := by
    rw [arrivalCase_ahead (Health.held anchored) (by omega) (by omega), dist]; rfl
  have due : caseDue d x a (.jump n) = .some (x.cursor + BitVec.ofNat 48 (n * d.period)) :=
    congrArg Option.some (timeShift_periods x.cursor n d.period)
  obtain ⟨posts, place, perm⟩ := placeArrival_jump d { x with testLoss := false } context.window few
    (x.cursor + BitVec.ofNat 48 (n * d.period)) (x.slotTaken_settled p q)
  have taken := State.judgeArrival_verdict defined (Health.live anchored) found due place
  refine ⟨⟨posts, perm, taken⟩, fun k h1 h2 => ?_, fun k h1 h2 => ?_, State.judgeArrival_frame defined⟩
  · have stands := x.gapSlot_mem_lastEight d h1 (by omega)
    rwa [if_neg (by omega)] at stands
  · have stands := x.gapSlot_mem_lastEight d (k := k) (n := n) (by omega) (by omega)
    rwa [if_pos (by omega)] at stands

end Sys2Proof.Machine
end

section
/-! A pending test loss: a verdict arrival with its slot DROPPED beside the same arrival without the loss. -/

namespace Sys2Proof.Machine

/-! ### Slots given a state -/

/-- A slot's new state in the words of the statements. -/
theorem setSlot_eq_map (w : List Slot) (q : Seq) (st : SlotState) :
    setSlot w q st = w.map fun v => if v.seq = q then ⟨q, st⟩ else v :=
  List.map_congr_left fun v _ => by
    by_cases here : v.seq = q
    · rw [if_pos here, if_pos here, here]
    · rw [if_neg here, if_neg here]

theorem setSlot_absent {w : List Slot} {q : Seq} (h : ∀ v ∈ w, v.seq ≠ q) (st : SlotState) : setSlot w q st = w :=
  (List.map_congr_left fun v hv => if_neg (h v hv)).trans (List.map_id w)

theorem setSlot_setSlot (w : List Slot) (q : Seq) (st st' : SlotState) :
    setSlot (setSlot w q st) q st' = setSlot w q st' := by
  unfold setSlot
  rw [List.map_map]
  refine List.map_congr_left fun v _ => ?_
  by_cases here : v.seq = q <;> simp [here]

theorem windowKept.seq_ne_next {e : Seq} {w : List Slot} (h : windowKept e w) {v : Slot} (hv : v ∈ w) :
    v.seq ≠ e := by
  intro next
  have low := (h.1 v hv).1
  rw [next] at low
  simp [below] at low

/-! ### The same arrival with its slot DROPPED -/

/-- A step of E with its slot DROPPED is the step with any slot not awaited, that slot then DROPPED (R39). -/
theorem stepE_dropped (x : Stream) (window : windowKept x.expected x.window) {st : SlotState}
    (settled : Slot.isOutstanding ⟨x.expected, st⟩ = false) : stepE x .dropped =
      ({ (stepE x st).1 with window := setSlot (stepE x st).1.window x.expected .dropped }, (stepE x st).2) := by
  have stands := setSlot_absent (w := x.window.filter fun w => w.seq != x.expected - 32)
    (fun v hv => window.seq_ne_next (List.mem_of_mem_filter hv)) .dropped
  have entered : setSlot (x.window.filter (fun w => w.seq != x.expected - 32) ++ [⟨x.expected, st⟩])
        x.expected .dropped
      = x.window.filter (fun w => w.seq != x.expected - 32) ++ [⟨x.expected, .dropped⟩] := by
    unfold setSlot at stands ⊢
    rw [List.map_append, stands]
    simp
  rw [stepE_uncapped x (.inl settled), stepE_uncapped x (st := .dropped) (.inl rfl)]
  simp only [entered]

/-- A case of an arrival that gets a verdict, with what it says of its stream and its number (R46 to R51, R54). -/
def ArrivalCase.verdictFor (x : Stream) (q : Seq) : ArrivalCase → Prop
  | .anchor => x.window = []
  | .inOrder => x.expected = q
  | .jump n => x.expected + BitVec.ofNat 16 n = q
  | .resync => True
  | .awaited _ _ => True
  | _ => False

theorem ArrivalCase.verdictFor.due {c : ArrivalCase} {x : Stream} {q : Seq} (h : c.verdictFor x q) (d : Definition)
    (a : Time) : ∃ due, caseDue d x a c = some due := by
  cases c with
  | duplicate | redundant | tooLate | stale => exact h.elim
  | _ => exact ⟨_, rfl⟩

/-- What a verdict arrival places with its slot DROPPED is what it places with any slot not awaited, that slot then
DROPPED: E, the cursor, the other slots and the posts before its own are the same (R56, R104). -/
theorem placeArrival_dropped (d : Definition) (x : Stream) (window : windowKept x.expected x.window)
    {c : ArrivalCase} {q : Seq} (fits : c.verdictFor x q) (due : Time) {st : SlotState}
    (settled : ∀ e, Slot.isOutstanding ⟨e, st⟩ = false) : placeArrival d x c q due .dropped =
      ({ (placeArrival d x c q due st).1 with window := setSlot (placeArrival d x c q due st).1.window q .dropped },
        (placeArrival d x c q due st).2) := by
  cases c with
  | anchor =>
    have step := stepE_dropped { x with expected := q } (by rw [show x.window = [] from fits]; exact .nil _)
      (settled q)
    unfold placeArrival anchorAt
    rw [step]
  | inOrder =>
    subst fits
    unfold placeArrival
    rw [stepE_dropped x window (settled _)]
  | jump n =>
    have here : (gapSteps x x.cursor d.period n).1.expected = q := (gapSteps_expected ..).trans fits
    have step := stepE_dropped _ (gapSteps_window x x.cursor d.period n window) (settled _)
    rw [here] at step
    unfold placeArrival
    simp only [step]
  | resync =>
    have step := stepE_dropped { (finalizingClear x).1 with expected := q } (.nil _) (settled q)
    unfold placeArrival anchorAt
    simp only [step]
  | awaited due' cause =>
    unfold placeArrival
    simp only [setSlot_setSlot]
  | duplicate | redundant | tooLate | stale => exact fits.elim

theorem verdictField_cases (d : Definition) (c : ArrivalCase) (l : Int) :
    verdictField d c l = .onTime ∨ verdictField d c l = .late ∨ verdictField d c l = .reordered := by
  unfold verdictField
  split
  · exact .inl rfl
  · exact .inl rfl
  · split
    · exact .inr (.inr rfl)
    · exact .inr (.inl rfl)
  · split
    · exact .inl rfl
    · exact .inr (.inl rfl)

/-! ### Which arrivals get a verdict -/

theorem seqDist_forward {e q : Seq} (h : 0 ≤ (q - e).toInt) : e + BitVec.ofNat 16 (q - e).toInt.toNat = q := by
  rw [← BitVec.ofInt_natCast, Int.toNat_of_nonneg h, BitVec.ofInt_toInt]
  ring

theorem Slot.isOutstanding_iff (w : Slot) :
    w.isOutstanding = true ↔ ∃ due cause, w.state = .outstanding due cause := by
  obtain ⟨q, st⟩ := w
  cases st <;> simp [Slot.isOutstanding]

section Which
variable {j : Nat} {x : Stream} {p : Path} {q : Seq}

/-- An arrival at E or ahead of it is in order, a jump or a resync (R48, R49, R50). -/
theorem arrivalCase_forward (held : ¬(x.health = .unanchored ∨ x.health = .silent))
    (h : 0 ≤ (q - x.expected).toInt) : (arrivalCase j x p q).verdictFor x q := by
  have moved := seqDist_forward h
  by_cases far : (j : Int) < (q - x.expected).toInt
  · rw [arrivalCase_beyond held far]; trivial
  · by_cases ahead : 0 < (q - x.expected).toInt
    · rw [arrivalCase_ahead held ahead (by omega)]; exact moved
    · have here : x.expected = q := by
        rw [show (q - x.expected).toInt = 0 by omega] at moved
        simpa using moved
      rw [arrivalCase_next held here]; exact here

theorem slotCase_settled (x : Stream) (p : Path) {v : Slot} (h : ¬v.isOutstanding = true) (d : Definition) (a : Time) :
    caseDue d x a (slotCase x p (some v)) = none := by
  obtain ⟨q, st⟩ := v
  cases st with
  | outstanding due cause => exact absurd rfl h
  | received ps =>
    unfold slotCase
    simp only
    split <;> rfl
  | dropped => rfl

variable (context : x.contextKept)
include context

/-- The arrivals that get a verdict: an anchor, one at E or ahead, the fourth stale one, an awaited slot's (R46 to
R51, R54). -/
theorem arrivalCase_verdictFor (verdict : x.health = .unanchored ∨ x.health = .silent ∨ 0 ≤ (q - x.expected).toInt
      ∨ (((q - x.expected).toInt < -32 ∨ ((-32 ≤ (q - x.expected).toInt ∧ (q - x.expected).toInt < 0)
        ∧ ∀ w ∈ x.window, w.seq ≠ q)) ∧ x.staleCount = 3)
      ∨ ((-32 ≤ (q - x.expected).toInt ∧ (q - x.expected).toInt < 0)
        ∧ ∃ w ∈ x.window, w.seq = q ∧ w.isOutstanding = true)) :
    (arrivalCase j x p q).verdictFor x q := by
  by_cases held : x.health = .unanchored ∨ x.health = .silent
  · rw [arrivalCase_unheld held]
    exact context.unheld (.inr held)
  · obtain h | h | forward | ⟨stale, third⟩ | ⟨-, v, member, rfl, awaited⟩ := verdict
    · exact absurd (.inl h) held
    · exact absurd (.inr h) held
    · exact arrivalCase_forward held forward
    · rw [arrivalCase_absent held (by simpa only [and_assoc] using stale), staleCase, if_neg (by simp [third])]
      trivial
    · obtain ⟨due, cause, state⟩ := v.isOutstanding_iff.1 awaited
      rw [arrivalCase_slot held context.window member]
      simp only [slotCase, state]
      trivial

/-- An arrival behind E that is neither the fourth stale one nor for an awaited slot gets no verdict (R52, R53,
R54). -/
theorem arrivalCase_noVerdict (held : ¬(x.health = .unanchored ∨ x.health = .silent))
    (behind : (q - x.expected).toInt < 0)
    (few : ¬(((q - x.expected).toInt < -32 ∨ ((-32 ≤ (q - x.expected).toInt ∧ (q - x.expected).toInt < 0)
      ∧ ∀ w ∈ x.window, w.seq ≠ q)) ∧ x.staleCount = 3))
    (settled : ¬((-32 ≤ (q - x.expected).toInt ∧ (q - x.expected).toInt < 0)
      ∧ ∃ w ∈ x.window, w.seq = q ∧ w.isOutstanding = true)) (d : Definition) (a : Time) :
    caseDue d x a (arrivalCase j x p q) = none := by
  by_cases stale : (q - x.expected).toInt < -32
      ∨ (-32 ≤ (q - x.expected).toInt ∧ (q - x.expected).toInt < 0 ∧ ∀ v ∈ x.window, v.seq ≠ q)
  · have notThird : x.staleCount ≠ 3 := fun third => few ⟨by simpa only [and_assoc] using stale, third⟩
    have bound : x.staleCount ≤ 3 := context.stale
    rw [arrivalCase_absent held stale, staleCase, if_pos (show x.staleCount < 3 by omega)]
    rfl
  · have inside : -32 ≤ (q - x.expected).toInt := by
      by_contra far
      exact stale (.inl (by omega))
    have present : ∃ v ∈ x.window, v.seq = q := by
      by_contra absent
      push Not at absent
      exact stale (.inr ⟨inside, behind, absent⟩)
    obtain ⟨v, member, rfl⟩ := present
    rw [arrivalCase_slot held context.window member]
    exact slotCase_settled x p (fun awaited => settled ⟨⟨inside, behind⟩, v, member, rfl, awaited⟩) d a

end Which

/-! ### The stream with the loss and without -/

theorem Stream.sameButAlarms.expected {x y : Stream} (h : x.sameButAlarms y) : y.expected = x.expected := by rw [h]
theorem Stream.sameButAlarms.staleCount {x y : Stream} (h : x.sameButAlarms y) : y.staleCount = x.staleCount := by
  rw [h]
theorem Stream.sameButAlarms.testLoss {x y : Stream} (h : x.sameButAlarms y) : y.testLoss = x.testLoss := by rw [h]

theorem Stream.addGroup_lateness (modes : Vector TotalMode 16) (x : Stream) (posts : List Post) :
    (x.addGroup modes ⟨posts, none⟩).lateness = x.lateness := by
  show (posts.foldl (Stream.addPost modes) x).lateness = _
  rw [addPosts_eq]

theorem placeArrival_keeps (d : Definition) (x : Stream) (c : ArrivalCase) (q : Seq) (due : Time) (st : SlotState) :
    (placeArrival d x c q due st).1.health = x.health ∧ (placeArrival d x c q due st).1.misses = x.misses
      ∧ (placeArrival d x c q due st).1.recovery = x.recovery
      ∧ (placeArrival d x c q due st).1.testLoss = x.testLoss
      ∧ sameTallies x (placeArrival d x c q due st).1 := by
  rw [placeArrival_fst]
  exact ⟨rfl, rfl, rfl, rfl, rfl, rfl, rfl, rfl⟩

theorem Stream.slotTaken_loss {x : Stream} (h : x.testLoss = true) (p : Path) : x.slotTaken p = .dropped := by
  unfold Stream.slotTaken; rw [if_pos h]

theorem Stream.verdictPosts_loss {x : Stream} (h : x.testLoss = true) (before : List Post) (f : Field) (l : Int) :
    x.verdictPosts before f l = ⟨before ++ [⟨.dropped, 1⟩, ⟨.droppedInjected, 1⟩], none⟩ := by
  unfold Stream.verdictPosts; rw [if_pos h]

/-- The count of a verdict arrival of a TRACKING stream clears its misses alone (R97). -/
theorem Stream.afterVerdict_tracking {x : Stream} (h : x.health = .tracking) (clear : Nat) :
    x.afterVerdict clear = { x with misses := 0 } := by
  unfold Stream.afterVerdict; simp [h]

theorem sameTallies.trans {x y z : Stream} (h : sameTallies x y) (k : sameTallies y z) : sameTallies x z :=
  ⟨k.1.trans h.1, k.2.1.trans h.2.1, k.2.2.1.trans h.2.2.1, k.2.2.2.trans h.2.2.2⟩

theorem Stream.addGroup_withMisses (modes : Vector TotalMode 16) (x : Stream) (n : Nat) (g : Group) :
    Stream.addGroup modes { x with misses := n } g = { x.addGroup modes g with misses := n } := by
  rw [Stream.addGroup_of_sameTallies (x := x) (y := { x with misses := n }) modes g ⟨rfl, rfl, rfl, rfl⟩,
    Stream.addGroup_eq modes x]

/-- A verdict arrival under a pending test loss, beside the same arrival without the loss: placed alike, but for the
slot's state, and posted alike, but for the verdict's own posts (R56, R104). -/
theorem State.judgeArrival_loss {s : State} {i : StreamIx} {d : Definition} {p : Path} {q : Seq} {a : Time}
    (defined : (s.stream i).definition = some d) (context : (s.stream i).contextKept)
    (loss : (s.stream i).testLoss = true)
    (fits : (arrivalCase d.jump (s.stream i) p q).verdictFor (s.stream i) q) :
    ∃ (placed : Stream) (before : List Post) (f : Field) (l : Int), (f = .onTime ∨ f = .late ∨ f = .reordered)
      ∧ placed.testLoss = false ∧ sameTallies (s.stream i) placed
      ∧ Stream.sameButAlarms (Stream.afterVerdict s.acp.profiles[d.profile].silentClear
          (Stream.addGroup s.tst.totalModes { placed with window := setSlot placed.window q .dropped }
            ⟨before ++ [⟨.dropped, 1⟩, ⟨.droppedInjected, 1⟩], none⟩)) ((s.judgeArrival i d p q a).stream i)
      ∧ Stream.sameButAlarms (Stream.afterVerdict s.acp.profiles[d.profile].silentClear
          (placed.addGroup s.tst.totalModes ⟨before ++ [⟨f, 1⟩], some l⟩))
        ((State.judgeArrival (s.setStream i { s.stream i with testLoss := false }) i d p q a).stream i) := by
  let lossless : Stream := { s.stream i with testLoss := false }
  obtain ⟨due, hdue⟩ := fits.due d a
  have stands : (s.setStream i lossless).stream i = lossless := State.stream_setStream_same ..
  obtain ⟨-, -, -, clean, tallies⟩ :=
    placeArrival_keeps d lossless (arrivalCase d.jump (s.stream i) p q) q due (lossless.slotTaken p)
  cases place : placeArrival d lossless (arrivalCase d.jump (s.stream i) p q) q due (lossless.slotTaken p) with
  | mk placed before =>
  rw [place] at clean tallies
  have dropped : placeArrival d lossless (arrivalCase d.jump (s.stream i) p q) q due ((s.stream i).slotTaken p)
      = ({ placed with window := setSlot placed.window q .dropped }, before) := by
    rw [Stream.slotTaken_loss loss, placeArrival_dropped d lossless context.window fits due
      (lossless.slotTaken_settled p), place]
  have converted := (State.judgeArrival_verdict defined (context.live defined) rfl hdue dropped).1
  rw [Stream.verdictPosts_loss loss] at converted
  have ordinary := (State.judgeArrival_verdict (s := s.setStream i lossless) (i := i) (d := d) (p := p) (q := q)
    (c := arrivalCase d.jump (s.stream i) p q) (due := due) (placed := placed) (before := before) (a := a)
    (by rw [stands]; exact defined) (by rw [stands]; exact context.live defined) (by rw [stands]; rfl)
    (by rw [stands]; exact hdue) (by rw [stands]; exact place)).1
  rw [stands] at ordinary
  exact ⟨placed, before, _, _, verdictField_cases .., clean, tallies, converted, ordinary⟩

section Beside
variable {x placed y z : Stream} {clear : Nat} {modes : Vector TotalMode 16} {q : Seq} {own lossless : Group}

/-- A converted arrival beside the same one without the loss: the slot DROPPED, all else but the tally record as it
is without (R56, R104). -/
theorem converted_beside
    (hy : Stream.sameButAlarms (Stream.afterVerdict clear (Stream.addGroup modes
      { placed with window := setSlot placed.window q .dropped } own)) y)
    (hz : Stream.sameButAlarms (Stream.afterVerdict clear (placed.addGroup modes lossless)) z) :
    y.window = z.window.map (fun w => if w.seq = q then ⟨q, .dropped⟩ else w)
      ∧ y.expected = z.expected ∧ y.cursor = z.cursor ∧ y.staleCount = z.staleCount
      ∧ y.health = z.health ∧ y.misses = z.misses ∧ y.recovery = z.recovery := by
  have window : z.window = placed.window := hz.window.trans (Stream.addGroup_window ..)
  refine ⟨?_, ?_, ?_, ?_, ?_, hy.misses.trans hz.misses.symm, ?_⟩
  · rw [← setSlot_eq_map, window]
    exact hy.window.trans (Stream.addGroup_window ..)
  · rw [hy.expected, hz.expected]
    simp [Stream.afterVerdict]
  · rw [hy.cursor, hz.cursor]
    simp [Stream.afterVerdict]
  · rw [hy.staleCount, hz.staleCount]
    simp [Stream.afterVerdict]
  · rw [hy.health, hz.health]
    simp [Stream.afterVerdict]
  · rw [hy.recovery, hz.recovery]
    simp [Stream.afterVerdict]

/-- The tally record a verdict arrival leaves is the one before it with its group (R57). -/
theorem tallies_after (tallies : sameTallies x placed)
    (hy : Stream.sameButAlarms (Stream.afterVerdict clear (placed.addGroup modes own)) y) :
    sameTallies (x.addGroup modes own) y :=
  (Stream.addGroup_sameTallies modes own tallies).trans hy.sameTallies

end Beside

/-- Settles O20: the converted arrival and the one without the loss are placed alike but for the slot's state. -/
theorem testLossConvertsOneArrival : Obligations.TestLossConvertsOneArrival := by
  unfold Obligations.TestLossConvertsOneArrival
  intro s i d p q a x defined context loss dist inside stale verdict t y z
  have slot : (s.stream i).slotTaken p = .dropped := Stream.slotTaken_loss loss p
  have group := Stream.verdictPosts_loss (x := s.stream i) loss
  refine ⟨fun h => ?verdict, fun ⟨notUnanchored, notSilent, behind, few, settled⟩ => ?other,
    fun tracking next => ?inOrder, fun unheld => ?anchor, State.judgeArrival_frame defined⟩
  case verdict =>
    obtain ⟨placed, before, f, l, verdict, clean, tallies, converted, ordinary⟩ :=
      State.judgeArrival_loss (a := a) defined context loss (arrivalCase_verdictFor context h)
    obtain ⟨window, expected, cursor, stale, health, misses, recovery⟩ := converted_beside converted ordinary
    obtain ⟨interval, totals, terminal, lateness⟩ := tallies_after tallies ordinary
    have lost := tallies_after (placed := { placed with window := setSlot placed.window q .dropped }) tallies converted
    refine ⟨converted.testLoss.trans ((Stream.addGroup_testLoss ..).trans clean),
      lost.2.2.2.trans (Stream.addGroup_lateness ..), window, expected, cursor, stale, health, misses, recovery,
      before, f, l, verdict, ⟨interval, totals, terminal, lateness⟩, lost.1, lost.2.1, lost.2.2.1⟩
  case other =>
    have none := arrivalCase_noVerdict (j := d.jump) (p := p) context (by tauto) behind few settled d a
    have judged : t = _ := State.judgeArrival_anomaly rfl none
    show (t.stream i).testLoss = true
    rw [judged, (setPost_stream ..).testLoss, Stream.addGroup_testLoss]
    unfold placeAnomaly
    split <;> exact loss
  case inOrder =>
    have taken := (inOrderArrival s i d p q a defined (.inl tracking) next).1
    simp only [slot, group] at taken
    rw [Stream.afterVerdict_tracking (by simpa using tracking), ← Stream.addGroup_withMisses] at taken
    exact taken
  case anchor =>
    obtain ⟨due, onGrid, taken, -⟩ := anchoringArrival s i d p q a defined context unheld
    have taken := taken.1
    simp only [slot, group] at taken
    exact ⟨due, onGrid, taken⟩

end Sys2Proof.Machine
end

section
/-! Steps of E, slot misses and hold expiries, by the rows that take them. -/

namespace Sys2Proof.Machine

/-! ### A step of E -/

theorem Stream.paired_iff (x : Stream) : x.paired = true ↔ ∃ d, x.definition = some d ∧ d.pathB ≠ none := by
  unfold Stream.paired
  cases x.definition with
  | none => simp
  | some d => simp [Option.isSome_iff_ne_none]

/-- The lowest OUTSTANDING slot of a window dropped (R41). -/
theorem dropLowest_at {lower higher : List Slot} {v : Slot} (settled : ∀ u ∈ lower, u.isOutstanding = false)
    (awaited : v.isOutstanding = true) :
    dropLowest (lower ++ v :: higher) = lower ++ ⟨v.seq, .dropped⟩ :: higher := by
  induction lower with
  | nil => simp [dropLowest, awaited]
  | cons u lower ih =>
    have first : u.isOutstanding = false := settled u List.mem_cons_self
    simp [dropLowest, first, ih fun w hw => settled w (List.mem_cons_of_mem _ hw)]

/-- A step of E whose slot enters as a ninth OUTSTANDING one drops the lowest (R41). -/
theorem stepE_capped_at (x : Stream) {st : SlotState} (entered : Slot.isOutstanding ⟨x.expected, st⟩ = true)
    (full : 8 ≤ outstandingCount (x.window.filter fun v => v.seq != x.expected - 32)) {lower higher : List Slot}
    {v : Slot} (parted : (x.window.filter fun v => v.seq != x.expected - 32) = lower ++ v :: higher)
    (settled : ∀ u ∈ lower, u.isOutstanding = false) (awaited : v.isOutstanding = true) : stepE x st =
    ({ x with
        expected := x.expected + 1, window := lower ++ ⟨v.seq, .dropped⟩ :: higher ++ [⟨x.expected, st⟩] },
      (x.window.filter fun v => v.seq == x.expected - 32).flatMap (exitPosts x.paired) ++ forcedDrop) := by
  have capped : (Slot.isOutstanding ⟨x.expected, st⟩
      && decide (8 ≤ outstandingCount (x.window.filter fun v => v.seq != x.expected - 32))) = true := by
    rw [entered, decide_eq_true full]; rfl
  unfold stepE enterSlot
  simp only [leaving_seq, capped, if_true]
  rw [parted, dropLowest_at settled awaited]

/-! ### An expiry's row -/

section Row
variable {s : State} {i : StreamIx} {e : Expiry} (high : s.resetLow = false) (up : s.link.state = .up)
  (loaded : s.link.timeLoaded = true) (taking : (s.stream i).taking = true) (next : s.nextExpiry i = some e)
include high up loaded taking next

/-- The row of the expiry its stream takes next takes it, within a taking while line time runs (R71, R73). -/
theorem State.live_takeIfNext {here : Bool} (h : here = true) :
    live s (s.takeIfNext i e here) = .next (s.takeExpiry i e) := by
  have runs : s.timeRuns = true := by simp [State.timeRuns, up, loaded]
  rw [live_of_high high]
  unfold State.takeIfNext
  rw [if_pos ⟨runs, taking, h, next⟩]

end Row

section Taken
variable {s : State} {i : StreamIx} {d : Definition} (defined : (s.stream i).definition = some d)
include defined

theorem State.takeExpiry_hold (q : Seq) :
    s.takeExpiry i (.hold q) = s.holdExpiry i q := by
  unfold State.takeExpiry State.profileOf
  simp only [defined, Option.map_some]

theorem State.takeExpiry_slotMiss (running : s.engine = .running)
    (anchored : (s.stream i).health = .tracking ∨ (s.stream i).health = .recovering) :
    s.takeExpiry i .miss = s.slotMiss i d s.acp.profiles[d.profile] := by
  unfold State.takeExpiry State.profileOf
  rcases anchored with h | h <;> simp only [defined, Option.map_some, running, reduceCtorEq, if_false, h]

theorem State.takeExpiry_unanchoredMiss (running : s.engine = .running)
    (unanchored : (s.stream i).health = .unanchored) :
    s.takeExpiry i .miss = s.unanchoredMiss i d s.acp.profiles[d.profile] := by
  unfold State.takeExpiry State.profileOf
  simp only [defined, Option.map_some, running, reduceCtorEq, if_false, unanchored]

end Taken

/-! ### Slot misses -/

/-- What a step of E with its miss counted makes of a stream, before it may become SILENT (R59, R74, R99). -/
def Stream.stepMissed (x : Stream) (d : Definition) : Stream :=
  { (stepE x (.outstanding x.cursor .miss)).1 with
    cursor := x.cursor + BitVec.ofNat 48 d.period
    misses := x.misses + 1
    recovery := if x.health = .recovering then 0 else x.recovery }

theorem missStep_countMiss (d : Definition) (x : Stream) : (missStep d x).1.countMiss = x.stepMissed d := by
  unfold missStep Stream.stepMissed
  rw [timeShift_natCast]
  rfl

theorem Stream.missed_below {x : Stream} {d : Definition} {p : Profile} (h : x.misses + 1 < p.silentDeclare) :
    x.missed d p = x.stepMissed d ∧ x.missPosts d p = (stepE x (.outstanding x.cursor .miss)).2 := by
  have few : ¬p.silentDeclare ≤ (x.stepMissed d).misses := Nat.not_le.2 h
  unfold Stream.missed Stream.missPosts
  simp only [missStep_countMiss, if_neg few]
  exact ⟨trivial, rfl⟩

theorem Stream.missed_declared {x : Stream} {d : Definition} {p : Profile} (h : p.silentDeclare ≤ x.misses + 1) :
    x.missed d p =
        { x.stepMissed d with window := [], staleCount := 0, health := .silent, recovery := 0 }
      ∧ x.missPosts d p = (stepE x (.outstanding x.cursor .miss)).2
        ++ (stepE x (.outstanding x.cursor .miss)).1.window.flatMap (clearPosts x.paired) := by
  have many : p.silentDeclare ≤ (x.stepMissed d).misses := h
  unfold Stream.missed Stream.missPosts
  simp only [missStep_countMiss, if_pos many]
  exact ⟨rfl, rfl⟩

/-- Settles O24: a step of E by whether its slot is a ninth OUTSTANDING one, then the miss of each health. -/
theorem slotMissesByHealth : Obligations.SlotMissesByHealth := by
  unfold Obligations.SlotMissesByHealth
  refine ⟨Slot.isOutstanding_iff, Stream.paired_iff, fun x st => ?step, fun s i d high running up loaded => ?miss⟩
  case step =>
    intro m forced entered staying exits
    refine ⟨⟨_, stepE_fst x st⟩, fun room => ?_, fun lower v higher parted settled awaited ninth full => ?_⟩
    · have step : m = _ := stepE_uncapped x room
      rw [step, exitPosts_eq]
      exact ⟨rfl, rfl⟩
    · have step : m = _ := stepE_capped_at x ninth full parted settled awaited
      rw [step, exitPosts_eq]
      exact ⟨rfl, rfl⟩
  case miss =>
    intro x defined taking next cleared m counted declare
    refine ⟨fun anchored => ?anchored, fun unanchored => ?unanchored⟩
    case anchored =>
      have row := State.live_takeIfNext high up loaded taking next
        (here := s.engine == .running && ((s.stream i).health == .tracking || (s.stream i).health == .recovering))
        (by rcases anchored with h | h <;> simp [running, show (s.stream i).health = _ from h])
      rw [State.takeExpiry_slotMiss defined running anchored] at row
      have stream := s.slotMiss_stream i d s.acp.profiles[d.profile]
      refine ⟨_, row, fun few => ?_, fun many => ?_⟩
      · obtain ⟨missed, posts⟩ := Stream.missed_below (d := d) few
        rw [missed, posts] at stream
        exact stream
      · obtain ⟨missed, posts⟩ := Stream.missed_declared (d := d) many
        rw [missed, posts, clearPosts_eq] at stream
        exact stream
    case unanchored =>
      have row := State.live_takeIfNext high up loaded taking next
        (here := s.engine == .running && (s.stream i).health == .unanchored)
        (by simp [running, show (s.stream i).health = _ from unanchored])
      rw [State.takeExpiry_unanchoredMiss defined running unanchored] at row
      have stream := s.unanchoredMiss_stream i d s.acp.profiles[d.profile]
      unfold Stream.unanchoredMissed at stream
      rw [timeShift_natCast, show (s.stream i).health = _ from unanchored] at stream
      exact ⟨_, row, stream⟩

/-! ### Hold expiries -/

theorem earliestDue_mem {l : List (Expiry × Int)} {e : Expiry × Int} (h : earliestDue l = some e) : e ∈ l := by
  induction l with
  | nil => cases h
  | cons f rest ih =>
    unfold earliestDue at h
    split at h
    · split at h
      · cases h; exact List.mem_cons_self
      · cases h
    · rename_i g found
      split at h
      · cases h; exact List.mem_cons_self
      · cases h; exact List.mem_cons_of_mem _ (ih found)

/-- A hold expiry that is taken next is that of an OUTSTANDING slot of its stream's window (R72, R73). -/
theorem State.nextExpiry_hold {s : State} {i : StreamIx} {q : Seq} (next : s.nextExpiry i = some (.hold q)) :
    (∃ d, (s.stream i).definition = some d)
      ∧ ∃ w ∈ (s.stream i).window, w.seq = q ∧ w.isOutstanding = true := by
  unfold State.nextExpiry at next
  simp only at next
  split at next
  · cases next
  · split at next
    · rename_i d defined
      obtain ⟨e, found, hold⟩ := Option.map_eq_some_iff.1 next
      have member := earliestDue_mem found
      obtain ⟨f, past⟩ := e
      subst hold
      simp only [pendingExpiries, holdExpiries, List.mem_append, List.mem_filterMap, List.mem_singleton, Prod.mk.injEq,
        reduceCtorEq, false_and, or_false] at member
      obtain ⟨⟨at_q, st⟩, inWindow, expiry⟩ := member
      cases st with
      | outstanding due cause =>
        simp only [Option.some.injEq, Prod.mk.injEq, Expiry.hold.injEq] at expiry
        exact ⟨⟨d, defined⟩, _, inWindow, expiry.1, rfl⟩
      | received ps => cases expiry
      | dropped => cases expiry
    · cases next

/-- Settles O26: the slot stands OUTSTANDING in the window, where it is the only one at its number. -/
theorem holdExpiryDropsItsSlot : Obligations.HoldExpiryDropsItsSlot := by
  unfold Obligations.HoldExpiryDropsItsSlot
  intro s i q high up loaded taking next context
  obtain ⟨⟨d, defined⟩, w, member, rfl, awaited⟩ := State.nextExpiry_hold next
  have row := State.live_takeIfNext high up loaded taking next (here := true) rfl
  rw [State.takeExpiry_hold defined] at row
  refine ⟨_, row, ?_⟩
  unfold State.holdExpiry
  rw [slotAt_of_mem context.window member]
  simp only [awaited, if_true, State.updStream_eq]
  rw [← setSlot_eq_map]
  exact setPost_stream ..

end Sys2Proof.Machine
end

section
/-! HALT and RUN, and the restart of every stream in ascending index. -/

namespace Sys2Proof.Machine

/-- The turn of stream i in a flush of all: a flush and its posts, then the change to UNANCHORED, evaluated where it
changes the health (R43, R64, R95, R102). -/
theorem State.restart_eq (t : State) (i : StreamIx) : (t.flush i).makeUnanchored i =
    let x := t.stream i
    let v := (t.setStream i { x with window := [], staleCount := 0 }).postGroup i
      ⟨flushedPosts (x.window.filter Slot.isOutstanding).length, none⟩
    let w := v.setStream i { v.stream i with health := .unanchored, misses := 0, recovery := 0 }
    if x.health = .unanchored then w else w.evaluateAll i := by
  have health : ((t.flush i).stream i).health = (t.stream i).health := by
    rw [(t.flush_stream i).health, Stream.addGroup_health]; rfl
  unfold State.makeUnanchored
  simp only [health]
  rfl

theorem State.flushAll_eq (s : State) : s.flushAll = (List.finRange 256).foldl (fun t i =>
    let x := t.stream i
    let v := (t.setStream i { x with window := [], staleCount := 0 }).postGroup i
      ⟨flushedPosts (x.window.filter Slot.isOutstanding).length, none⟩
    let w := v.setStream i { v.stream i with health := .unanchored, misses := 0, recovery := 0 }
    if x.health = .off then t else if x.health = .unanchored then w else w.evaluateAll i) s := by
  unfold State.flushAll State.eachLive State.eachStream
  simp only [State.restart_eq]
  rfl

theorem exec_halt {s : State} {p : Port} {tag : Byte} (h : s.runs p tag .halt) :
    exec (.halt p) s = .next ((s.haltEngine.post .engine).reply p tag .ok [s.engine.code]) := by
  obtain ⟨high, started⟩ := h
  show live s _ = _
  rw [live_of_high high, started]

theorem exec_run {s : State} {p : Port} {tag : Byte} (h : s.runs p tag .run) :
    exec (.run p) s = .next
      (State.reply (State.post { s with engine := .running } .engine) p tag .ok [s.engine.code]) := by
  obtain ⟨high, started⟩ := h
  show live s _ = _
  rw [live_of_high high, started]

theorem State.haltEngine_running {s : State} (h : s.engine = .running) :
    s.haltEngine = State.flushAll { s with engine := .halted } := by
  unfold State.haltEngine; rw [h]

theorem State.haltEngine_halted {s : State} (h : s.engine = .halted) : s.haltEngine = s := by
  unfold State.haltEngine; rw [h]

/-- The engine is halted, and nothing else than accounts changed (R64). -/
theorem State.haltEngine_accounts (s : State) : onlyAccounts { s with engine := .halted } s.haltEngine := by
  cases h : s.engine with
  | running => rw [State.haltEngine_running h]; exact State.flushAll_accounts _
  | halted =>
    have stands : ({ s with engine := .halted } : State) = s := by rw [← h]
    rw [State.haltEngine_halted h, stands]
    exact .refl s

theorem State.haltEngine_grows (s : State) : noticesGrow s s.haltEngine := by
  cases h : s.engine with
  | running => rw [State.haltEngine_running h]; exact State.flushAll_grows { s with engine := .halted }
  | halted => rw [State.haltEngine_halted h]; exact .refl s

/-- Settles O40: the turns of the restart, then HALT by the run state it found, and RUN. -/
theorem haltAndRun : Obligations.HaltAndRun := by
  unfold Obligations.HaltAndRun
  intro s p tag before
  have code : s.engine.code = before := by cases h : s.engine <;> simp [before, h, RunState.code]
  refine ⟨s.flushAll_eq, fun halt => ⟨s.haltEngine.post .engine, ?_, ?_, ?_, ?_, ?_, fun i => ?_⟩,
    fun run => ?_⟩
  · rw [exec_halt halt, code]
  · cases h : s.engine with
    | running => rw [State.haltEngine_running h]; rfl
    | halted => rw [State.haltEngine_halted h]; rfl
  · exact s.haltEngine_accounts.engine
  · exact s.haltEngine_accounts.trans (State.post_worksOn _ .engine 0).accounts
  · exact s.haltEngine_grows.posted (State.post_postedToAll _ .engine)
  · cases h : s.engine with
    | running =>
      obtain ⟨off, restarted⟩ := State.flushAll_stream { s with engine := .halted } i
      rw [State.stream_post, State.haltEngine_running h]
      exact ⟨fun k => off (k.resolve_left (by simp)), fun _ k => restarted k⟩
    | halted =>
      rw [State.haltEngine_halted h]
      exact ⟨fun _ => rfl, fun k => absurd k (by simp)⟩
  · rw [exec_run run, code]

end Sys2Proof.Machine
end

section
/-! The step of one entry of an apply: the stream it leaves, its alarms and shares, and the events of a REMOVE. -/

namespace Sys2Proof.Machine

/-! ### Evaluations -/

theorem newStates_all (gov : Option Profile) (x : Stream) : newStates gov x AlarmClass.inOrder =
    ⟨conditionFound gov x .drop, conditionFound gov x .late, conditionFound gov x .reorder,
      conditionFound gov x .path, conditionFound gov x .silent⟩ := rfl

/-- After an evaluation of all classes the alarms of a stream that is not OFF are their conditions (R135, R137). -/
theorem Stream.evaluated_alarmsFollow {x : Stream} (live : x.health ≠ .off) (p : Profile) :
    (x.evaluated AlarmClass.inOrder (some p)).alarmsFollow p := by
  have notOff : (x.health != .off) = true := bne_iff_ne.2 live
  have alarms : (x.evaluated AlarmClass.inOrder (some p)).alarms = _ := newStates_all (some p) x
  constructor <;> rw [alarms] <;> simp only [conditionFound, notOff, alarmCondition, Bool.true_and]
  case silent => simp [Stream.evaluated]
  all_goals
    simp only [Bool.and_eq_true, bne_iff_ne, decide_eq_true_eq]
    exact Iff.rfl

/-- An OFF stream's shares are none after an evaluation of all classes (R148, R150). -/
theorem Stream.evaluated_off {x : Stream} (off : x.health = .off) (gov : Option Profile) :
    (x.evaluated AlarmClass.inOrder gov).alarms = ⟨false, false, false, false, false⟩
      ∧ (x.evaluated AlarmClass.inOrder gov).lampShare = 0
      ∧ (x.evaluated AlarmClass.inOrder gov).lineShare = 0 := by
  unfold Stream.evaluated
  rw [newStates_off_all gov x off]
  cases gov <;> exact ⟨rfl, rfl, rfl⟩

theorem outputsSettled.of_same {i : StreamIx} {s t u : State} (h : sameOutputs s t)
    (lamp : (t.stream i).lampShare = (s.stream i).lampShare) (line : (t.stream i).lineShare = (s.stream i).lineShare)
    (k : outputsSettled i t u) : outputsSettled i s u := by
  unfold outputsSettled at *
  rw [← h.1, ← h.2.1, ← h.2.2, ← lamp, ← line]
  exact k

/-! ### A flush without its evaluation -/

theorem State.takePosts_outputs (s : State) (i : StreamIx) (g : Group) : sameOutputs s (s.takePosts i g) := by
  unfold State.takePosts
  simp only
  split <;> exact ⟨rfl, rfl, rfl⟩

theorem State.flushQuiet_outputs (s : State) (i : StreamIx) : sameOutputs s (s.flushQuiet i) :=
  (s.updStream i Stream.emptied).takePosts_outputs i _

theorem State.flushQuiet_emptied (s : State) (i : StreamIx) : (s.flushQuiet i).stream i =
    (s.stream i).emptied.addGroup s.tst.totalModes ⟨flushPosts (s.stream i), none⟩ := by
  unfold State.flushQuiet
  rw [State.takePosts_stream, State.updStream_eq, State.stream_setStream_same]
  rfl

/-- A stream written, then flushed without its evaluation (R170, R171). -/
theorem State.setStream_flushQuiet (s : State) (i : StreamIx) (x : Stream) : (s.setStream i x).flushQuiet i =
    (s.setStream i { x with window := [], staleCount := 0 }).takePosts i
      ⟨flushedPosts (x.window.filter Slot.isOutstanding).length, none⟩ := by
  unfold State.flushQuiet
  rw [State.updStream_eq, State.stream_setStream_same, State.setStream_setStream]
  rfl

/-! ### A DEFINE entry -/

theorem Stream.afterDefine_eq (modes : Vector TotalMode 16) (d : Definition) (t : Time) (x : Stream) :
    x.afterDefine modes d t =
      let grid : Stream := { x.addGroup modes ⟨flushedPosts (x.window.filter Slot.isOutstanding).length, none⟩ with
        definition := some d, window := [], staleCount := 0, health := .unanchored, misses := 0
        recovery := 0, testLoss := false, cursor := t + BitVec.ofNat 48 d.phase }
      if d.keepTallies then grid else { grid with
        totals := Vector.replicate 16 0, terminal := Vector.replicate 16 false
        interval := Vector.replicate 16 0, lateness := none, lastInterval := none
        clearGen := x.clearGen + 1 } := by
  unfold Stream.afterDefine Stream.clearTallies Stream.clearTotals
  simp only [timeShift_natCast, flushPosts_eq, Stream.addGroup_clearGen]

/-- The step of a DEFINE entry: the flush, then the stream as the entry leaves it, evaluated (R170). -/
theorem State.applyDefine_eq (s : State) (i : StreamIx) (d : Definition) (t : Time) : s.applyDefine i d t =
    ((((s.setStream i { s.stream i with definition := some d }).flushQuiet i).setStream i
      ((s.stream i).afterDefine s.tst.totalModes d t)).evaluateAll i) := by
  have flushed := State.flushQuiet_stream s i { s.stream i with definition := some d } ⟨rfl, rfl, rfl, rfl⟩ rfl
  have defined : Stream.defined d t (((s.setStream i { s.stream i with definition := some d }).flushQuiet i).stream i)
      = { (s.stream i).addGroup s.tst.totalModes ⟨flushPosts (s.stream i), none⟩ with
        definition := some d, window := [], staleCount := 0, health := .unanchored, misses := 0, recovery := 0
        testLoss := false, cursor := timeShift t d.phase } := by
    rw [flushed, Stream.addGroup_eq s.tst.totalModes (s.stream i)]
    rfl
  unfold State.applyDefine Stream.afterDefine
  simp only [State.updStream_eq, defined, State.stream_setStream_same, State.setStream_setStream]
  split <;> rfl

theorem Stream.afterDefine_fields (modes : Vector TotalMode 16) (d : Definition) (t : Time) (x : Stream) :
    (x.afterDefine modes d t).definition = some d ∧ (x.afterDefine modes d t).health = .unanchored
      ∧ (x.afterDefine modes d t).lampShare = x.lampShare ∧ (x.afterDefine modes d t).lineShare = x.lineShare := by
  have lamp := Stream.addGroup_lampShare modes x ⟨flushPosts x, none⟩
  have line := Stream.addGroup_lineShare modes x ⟨flushPosts x, none⟩
  unfold Stream.afterDefine
  simp only
  split <;> exact ⟨rfl, rfl, lamp, line⟩

/-- A DEFINE entry evaluates its stream under the profile its new definition names, and the outputs follow (R150,
R170). -/
theorem State.applyDefine_evaluated (s : State) (i : StreamIx) (d : Definition) (t : Time) :
    (s.applyDefine i d t).stream i = ((s.stream i).afterDefine s.tst.totalModes d t).evaluated AlarmClass.inOrder
        (some s.acp.profiles[d.profile])
      ∧ outputsSettled i s (s.applyDefine i d t) := by
  obtain ⟨defined, -, lamp, line⟩ := Stream.afterDefine_fields s.tst.totalModes d t (s.stream i)
  have flush := State.flushQuiet_worksOn (s.setStream i { s.stream i with definition := some d }) i
  have outputs := State.flushQuiet_outputs (s.setStream i { s.stream i with definition := some d }) i
  rw [State.applyDefine_eq]
  generalize (s.setStream i { s.stream i with definition := some d }).flushQuiet i = w at flush outputs ⊢
  generalize (s.stream i).afterDefine s.tst.totalModes d t = y at defined lamp line ⊢
  have profile : (w.setStream i y).profileOf y = some s.acp.profiles[d.profile] := by
    unfold State.profileOf
    rw [defined, State.setStream_acp, flush.accounts.profiles]
    rfl
  constructor
  · rw [State.evaluateAll_stream, State.stream_setStream_same, profile]
  · exact outputsSettled.of_same (t := w.setStream i y) outputs (by rw [State.stream_setStream_same, lamp])
      (by rw [State.stream_setStream_same, line]) (State.evaluate_settled _ i _ _)

/-! ### A REMOVE entry -/

theorem State.applyRemove_empty {s : State} {i : StreamIx} (h : (s.stream i).definition = none) :
    s.applyRemove i = s := by
  unfold State.applyRemove; rw [h]

theorem State.applyRemove_eq {s : State} {i : StreamIx} {d : Definition} (h : (s.stream i).definition = some d) :
    s.applyRemove i = ((s.setStream i (s.stream i).removed).flushQuiet i).evaluate i AlarmClass.inOrder
      (some s.acp.profiles[d.profile]) := by
  unfold State.applyRemove State.profileOf
  simp only [h, Option.map_some]
  rfl

/-- A REMOVE entry leaves its stream no active alarm and no share, and the outputs follow (R138, R150, R171). -/
theorem State.applyRemove_evaluated {s : State} {i : StreamIx} {d : Definition}
    (defined : (s.stream i).definition = some d) :
    ((s.applyRemove i).stream i).alarms = ⟨false, false, false, false, false⟩
      ∧ ((s.applyRemove i).stream i).lampShare = 0 ∧ ((s.applyRemove i).stream i).lineShare = 0
      ∧ outputsSettled i s (s.applyRemove i) := by
  have there : (s.setStream i (s.stream i).removed).stream i = (s.stream i).removed := State.stream_setStream_same ..
  have stream := (s.setStream i (s.stream i).removed).flushQuiet_emptied i
  have outputs := (s.setStream i (s.stream i).removed).flushQuiet_outputs i
  rw [there] at stream
  rw [State.applyRemove_eq defined]
  generalize (s.setStream i (s.stream i).removed).flushQuiet i = w at stream outputs ⊢
  have off : (w.stream i).health = .off := by rw [stream, Stream.addGroup_health]; rfl
  obtain ⟨alarms, lamp, line⟩ := Stream.evaluated_off off (some s.acp.profiles[d.profile])
  rw [← State.evaluate_stream w i] at alarms lamp line
  refine ⟨alarms, lamp, line, outputsSettled.of_same (t := w) outputs ?_ ?_ (State.evaluate_settled w i _ _)⟩
  · rw [stream, Stream.addGroup_lampShare]; rfl
  · rw [stream, Stream.addGroup_lineShare]; rfl

/-! ### The events of a REMOVE entry -/

/-- State t has the event queues of v, and every notice that stands in v (R142, R145). -/
def eventsOf (v t : State) : Prop := t.acp.queues = v.acp.queues ∧ noticesGrow v t

theorem eventsOf.postTo {v t : State} (h : eventsOf v t) (n : Notice) (p : Port) :
    eventsOf (v.postTo n p) (t.postTo n p) := by
  refine ⟨h.1, fun port m k => ?_⟩
  rw [State.summaries_postTo] at k ⊢
  split at k
  · rename_i here
    rw [if_pos here, noticeSet_or]
    rw [noticeSet_or, Bool.or_eq_true] at k
    exact Bool.or_eq_true _ _ ▸ k.imp_left (h.2 p m)
  · rename_i other
    rw [if_neg other]
    exact h.2 port m k

theorem eventsOf.pushEvent {v t : State} (h : eventsOf v t) (e : Event) (p : Port) :
    eventsOf (v.pushEvent e p) (t.pushEvent e p) := by
  have pushed : eventsOf { v with acp := { v.acp with queues := v.acp.queues.set p ((v.acp.queues.get p).push e) } }
      { t with acp := { t.acp with queues := t.acp.queues.set p ((t.acp.queues.get p).push e) } } :=
    ⟨by rw [h.1], h.2⟩
  unfold State.pushEvent
  simp only [h.1] at pushed ⊢
  split
  · exact pushed
  · exact pushed.postTo _ _

theorem eventsOf.emit {v t : State} (h : eventsOf v t) (e : Event) (irq : Bool) :
    eventsOf (v.emit e irq) (t.emit e irq) := by
  have sent := ((((h.pushEvent e .board).pushEvent e .line).pushEvent e .service).postTo .alarm .line).postTo
    .alarm .service
  unfold State.emit
  cases irq
  · exact sent
  · exact sent.postTo .alarm .board

theorem eventsOf.trans {u v t : State} (h : eventsOf u v) (k : eventsOf v t) : eventsOf u t :=
  ⟨k.1.trans h.1, h.2.trans k.2⟩

theorem State.takePosts_events (s : State) (i : StreamIx) (g : Group) : eventsOf s (s.takePosts i g) := by
  refine ⟨?_, (s.takePosts_worksOn i g).grows⟩
  unfold State.takePosts
  simp only
  split <;> rfl

theorem State.flushQuiet_events (s : State) (i : StreamIx) : eventsOf s (s.flushQuiet i) :=
  (s.updStream i Stream.emptied).takePosts_events i _

/-- Events made one after another, each routed by its class's routing under profile p (R140). -/
def State.emitAll (s : State) (p : Profile) (es : List Event) : State :=
  es.foldl (fun v e => v.emit e (p.route e.cls).irq) s

theorem eventsOf.emitAll {v t : State} (h : eventsOf v t) (p : Profile) (es : List Event) :
    eventsOf (v.emitAll p es) (t.emitAll p es) := by
  induction es generalizing v t with
  | nil => exact h
  | cons e es ih => exact ih (h.emit e _)

/-- The deassert events of a run of classes of stream i, which stands as x at line time a (R139). -/
def Stream.deasserts (x : Stream) (i : StreamIx) (a : Time) (cs : List AlarmClass) : List Event :=
  cs.map fun c => ⟨i, c, .deassert, a, x.alarmValue c⟩

theorem AlarmStates.get_clear (c : AlarmClass) : AlarmStates.clear.get c = false := by cases c <;> rfl

/-- The edge of a class that is inactive (R137, R140). -/
theorem State.takeEdge_deassert {s : State} {i : StreamIx} (inactive : (s.stream i).alarms = AlarmStates.clear)
    (p : Profile) (c : AlarmClass) : s.takeEdge i (some p) c = if p.edgeMode = .both
      then s.emit ⟨i, c, .deassert, s.link.lineTime, (s.stream i).alarmValue c⟩ (p.route c).irq else s := by
  simp [State.takeEdge, inactive, AlarmStates.get_clear, edgeMakesEvent]

/-- The edges of classes that are inactive deassert, with an event each if the edge mode is BOTH (R137, R140). -/
theorem State.takeEdges_deassert (s : State) (i : StreamIx) (p : Profile)
    (inactive : (s.stream i).alarms = AlarmStates.clear) (cs : List AlarmClass) :
    cs.foldl (fun t c => t.takeEdge i (some p) c) s = s.emitAll p
      (if p.edgeMode = .both then (s.stream i).deasserts i s.link.lineTime cs else []) := by
  by_cases both : p.edgeMode = .both
  · simp only [if_pos both]
    induction cs generalizing s with
    | nil => rfl
    | cons c cs ih =>
      rw [List.foldl_cons, State.takeEdge_deassert inactive, if_pos both]
      have work := s.emit_worksOn ⟨i, c, .deassert, s.link.lineTime, (s.stream i).alarmValue c⟩ (p.route c).irq i
      have stands : (s.emit ⟨i, c, .deassert, s.link.lineTime, (s.stream i).alarmValue c⟩ (p.route c).irq).stream i
          = s.stream i := by unfold State.stream; rw [State.streams_emit]
      rw [ih _ (by rw [stands]; exact inactive), stands, work.accounts.link]
      rfl
  · simp only [if_neg both]
    induction cs with
    | nil => rfl
    | cons c cs ih => rw [List.foldl_cons, State.takeEdge_deassert inactive, if_neg both, ih]

/-- An evaluation of an OFF stream deasserts each alarm that is active, in class order (R137, R138). -/
theorem State.evaluate_off_events (s : State) (i : StreamIx) (p : Profile) (off : (s.stream i).health = .off) :
    eventsOf (s.emitAll p (if p.edgeMode = .both
        then (s.stream i).deasserts i s.link.lineTime (AlarmClass.inOrder.filter (s.stream i).alarms.get) else []))
      (s.evaluate i AlarmClass.inOrder (some p)) := by
  have changed : changedClasses (some p) (s.stream i) AlarmClass.inOrder
      = AlarmClass.inOrder.filter (s.stream i).alarms.get :=
    List.filter_congr fun c _ => by simp [conditionFound, off]
  have cleared := newStates_off_all (some p) (s.stream i) off
  have edges := State.takeEdges_deassert (s.setStream i { s.stream i with alarms := AlarmStates.clear }) i p
    (by rw [State.stream_setStream_same]) (AlarmClass.inOrder.filter (s.stream i).alarms.get)
  unfold State.evaluate
  simp only [changed, cleared, edges, State.stream_setStream_same]
  exact eventsOf.emitAll (v := s) (t := s.setStream i { s.stream i with alarms := AlarmStates.clear })
    ⟨rfl, .refl s⟩ p _

/-- A flush changes no tally that an alarm compares (R43, R135). -/
theorem Stream.alarmValue_flushed (modes : Vector TotalMode 16) (x : Stream) (n : Nat) (c : AlarmClass) :
    (x.addGroup modes ⟨flushedPosts n, none⟩).alarmValue c = x.alarmValue c := by
  have stands (f : Field) (h : f ≠ .flushed) : (x.addGroup modes ⟨flushedPosts n, none⟩).tally f = x.tally f := by
    unfold flushedPosts
    split
    · rfl
    · exact (addPost_tally modes x ⟨.flushed, n⟩ f).trans (if_neg h)
  cases c with
  | drop => exact stands .dropped (by decide)
  | late => exact stands .late (by decide)
  | reorder => exact stands .reordered (by decide)
  | path => exact congrArg₂ (· + ·) (stands .pathAMiss (by decide)) (stands .pathBMiss (by decide))
  | silent => exact Stream.addGroup_misses ..

/-- The events of a REMOVE entry: each active alarm deasserts under the removed definition's profile (R138). -/
theorem State.applyRemove_events {s : State} {i : StreamIx} {d : Definition}
    (defined : (s.stream i).definition = some d) :
    eventsOf (s.emitAll s.acp.profiles[d.profile] (if s.acp.profiles[d.profile].edgeMode = .both
        then (s.stream i).removed.deasserts i s.link.lineTime (AlarmClass.inOrder.filter (s.stream i).alarms.get)
        else []))
      (s.applyRemove i) := by
  let removed := s.setStream i (s.stream i).removed
  have there : removed.stream i = (s.stream i).removed := State.stream_setStream_same ..
  have moved : eventsOf s (removed.flushQuiet i) := removed.flushQuiet_events i
  have link : (removed.flushQuiet i).link = s.link := (removed.flushQuiet_worksOn i).accounts.link
  have stream := removed.flushQuiet_emptied i
  rw [there] at stream
  rw [State.applyRemove_eq defined]
  change eventsOf _ ((removed.flushQuiet i).evaluate i _ _)
  generalize removed.flushQuiet i = w at moved link stream ⊢
  have alarms : (w.stream i).alarms = (s.stream i).alarms := by rw [stream, Stream.addGroup_alarms]; rfl
  have events (a : Time) (cs : List AlarmClass) :
      (w.stream i).deasserts i a cs = (s.stream i).removed.deasserts i a cs :=
    List.map_congr_left fun c _ => by rw [stream, flushPosts_eq, Stream.alarmValue_flushed]; rfl
  have evaluated := w.evaluate_off_events i s.acp.profiles[d.profile] (by rw [stream, Stream.addGroup_health]; rfl)
  rw [alarms, events, link] at evaluated
  exact (moved.emitAll _ _).trans evaluated

/-- Settles O47: each entry as one write of its stream with the flush before it, then its evaluation. -/
theorem applyEntrySteps : Obligations.ApplyEntrySteps := by
  unfold Obligations.ApplyEntrySteps
  intro s i t x flushed posted
  refine ⟨fun d => ?define, State.applyRemove_empty, fun defined => ?remove, fun d defined => ?events⟩
  case define =>
    intro u grid new
    have written : x.afterDefine s.tst.totalModes d t = new := Stream.afterDefine_eq ..
    have step : u = ((posted { x with definition := some d }).setStream i new).evaluateAll i := by
      rw [← written]
      exact (s.applyDefine_eq i d t).trans (by rw [State.setStream_flushQuiet])
    obtain ⟨evaluated, outputs⟩ := s.applyDefine_evaluated i d t
    obtain ⟨-, unanchored, -, -⟩ := Stream.afterDefine_fields s.tst.totalModes d t x
    have work := s.applyDefine_worksOn i d t
    have alarms : (u.stream i).alarmsFollow s.acp.profiles[d.profile] := by
      rw [show u.stream i = _ from evaluated]
      exact Stream.evaluated_alarmsFollow (by rw [unanchored]; simp) _
    have shares : (u.stream i).sharesFollow s.acp.profiles[d.profile] := by
      rw [show u.stream i = _ from evaluated]
      exact Stream.evaluated_shares ..
    exact ⟨written ▸ s.applyDefine_stream i d t, step, alarms, shares, outputs, work.accounts, work.stream⟩
  case remove =>
    intro u
    obtain ⟨d, named⟩ := Option.ne_none_iff_exists'.1 defined
    obtain ⟨alarms, lamp, line, outputs⟩ := State.applyRemove_evaluated named
    have work := s.applyRemove_worksOn i
    exact ⟨(s.applyRemove_stream i defined).1, alarms, lamp, line, outputs, work.accounts, work.stream⟩
  case events =>
    intro u p off active routeOf value events made
    have step : u = (posted off).evaluate i AlarmClass.inOrder (some p) :=
      (State.applyRemove_eq defined).trans (by rw [State.setStream_flushQuiet]; rfl)
    have actives : active = x.alarms.get := funext fun c => by cases c <;> rfl
    have values : value = x.removed.alarmValue := funext fun c => by cases c <;> rfl
    have routes : routeOf = p.route := funext fun c => by cases c <;> rfl
    have raised : made = s.emitAll p (if p.edgeMode = .both
        then x.removed.deasserts i s.link.lineTime (AlarmClass.inOrder.filter x.alarms.get) else []) := by
      rw [← actives]
      unfold Stream.deasserts
      rw [← values]
      unfold State.emitAll
      rw [← routes]
      rfl
    obtain ⟨queues, grows⟩ := State.applyRemove_events defined
    rw [raised]
    exact ⟨step, queues, grows⟩

end Sys2Proof.Machine
end

section
/-! The order in which the due expiries of a stream are taken. -/

namespace Sys2Proof.Machine

/-! ### The earliest due expiry -/

theorem earliestDue_none {l : List (Expiry × Int)} : earliestDue l = none ↔ ∀ e ∈ l, e.2 ≤ 0 := by
  induction l with
  | nil => simp [earliestDue]
  | cons e rest ih =>
    rw [earliestDue, List.forall_mem_cons, ← ih]
    cases earliestDue rest with
    | none => simp
    | some f => simp only [reduceCtorEq, and_false, iff_false]; split <;> simp

/-- The expiry e at place k of a list is due, none of the list has an earlier instant, and none before it shares its
instant (R73). -/
structure firstDueAt (l : List (Expiry × Int)) (k : Nat) (e : Expiry × Int) : Prop where
  place : l[k]? = some e
  due : 0 < e.2
  earliest : ∀ f ∈ l, f.2 ≤ e.2
  first : ∀ (j : Nat) (f : Expiry × Int), j < k → l[j]? = some f → f.2 < e.2

theorem firstDueAt.unique {l : List (Expiry × Int)} {j k : Nat} {e f : Expiry × Int} (h : firstDueAt l k e)
    (g : firstDueAt l j f) : e = f := by
  rcases Nat.lt_trichotomy j k with before | here | after
  · have := h.first j f before g.place
    have := g.earliest e (List.mem_of_getElem? h.place)
    omega
  · have same := h.place
    rw [← here, g.place] at same
    exact (Option.some.inj same).symm
  · have := g.first k e after h.place
    have := h.earliest f (List.mem_of_getElem? g.place)
    omega

theorem firstDueAt.head {e : Expiry × Int} {rest : List (Expiry × Int)} (due : 0 < e.2)
    (later : ∀ f ∈ rest, f.2 ≤ e.2) : firstDueAt (e :: rest) 0 e :=
  ⟨rfl, due, List.forall_mem_cons.2 ⟨le_refl _, later⟩, fun _ _ before => absurd before (Nat.not_lt_zero _)⟩

theorem firstDueAt.cons {e f : Expiry × Int} {rest : List (Expiry × Int)} {k : Nat} (h : firstDueAt rest k f)
    (earlier : e.2 < f.2) : firstDueAt (e :: rest) (k + 1) f := by
  refine ⟨h.place, h.due, List.forall_mem_cons.2 ⟨earlier.le, h.earliest⟩, fun j g before found => ?_⟩
  cases j with
  | zero => cases found; exact earlier
  | succ j => exact h.first j g (Nat.lt_of_succ_lt_succ before) found

theorem earliestDue_firstDue {l : List (Expiry × Int)} {e : Expiry × Int} (h : earliestDue l = some e) :
    ∃ k, firstDueAt l k e := by
  induction l generalizing e with
  | nil => cases h
  | cons f rest ih =>
    unfold earliestDue at h
    split at h
    · rename_i none_due
      split at h
      · rename_i due
        cases h
        exact ⟨0, .head due fun g member => (earliestDue_none.1 none_due g member).trans due.le⟩
      · cases h
    · rename_i g found
      obtain ⟨k, of_rest⟩ := ih found
      split at h
      · rename_i taken
        cases h
        exact ⟨0, .head taken.1 fun u member => (of_rest.earliest u member).trans taken.2⟩
      · rename_i passed
        cases h
        have := of_rest.due
        exact ⟨k + 1, of_rest.cons (by omega)⟩

/-- The expiry taken next is the due one of the earliest instant, the first listed where instants are shared (R73). -/
theorem earliestDue_iff {l : List (Expiry × Int)} {e : Expiry × Int} :
    earliestDue l = some e ↔ ∃ k, firstDueAt l k e := by
  refine ⟨earliestDue_firstDue, fun ⟨k, h⟩ => ?_⟩
  cases found : earliestDue l with
  | none =>
    have := earliestDue_none.1 found e (List.mem_of_getElem? h.place)
    have := h.due
    omega
  | some f =>
    obtain ⟨j, g⟩ := earliestDue_firstDue found
    rw [g.unique h]

/-! ### The hold expiries of a window -/

theorem holdExpiries_slots (d : Definition) (t : Time) (w : List Slot) :
    (holdExpiries d t w).map (fun e => e.1) = (w.filter Slot.isOutstanding).map fun v => .hold v.seq := by
  induction w with
  | nil => rfl
  | cons v w ih =>
    obtain ⟨q, st⟩ := v
    cases st with
    | outstanding due cause => exact congrArg (Expiry.hold q :: ·) ih
    | received ps => exact ih
    | dropped => exact ih

theorem mem_holdExpiries {d : Definition} {t : Time} {w : List Slot} {e : Expiry × Int} :
    e ∈ holdExpiries d t w ↔ ∃ v ∈ w, ∃ due cause, v.state = .outstanding due cause
      ∧ e = (.hold v.seq, pastHold d due t) := by
  unfold holdExpiries
  rw [List.mem_filterMap]
  refine exists_congr fun v => and_congr_right fun _ => ?_
  cases v.state <;> simp [eq_comm]

/-! ### The expiry taken next -/

theorem State.nextExpiry_off {s : State} {i : StreamIx} (off : (s.stream i).health = .off) :
    s.nextExpiry i = none := by
  unfold State.nextExpiry; exact if_pos off

theorem State.nextExpiry_undefined {s : State} {i : StreamIx} (undefined : (s.stream i).definition = none) :
    s.nextExpiry i = none := by
  unfold State.nextExpiry
  simp only [undefined, ite_self]

theorem State.nextExpiry_live {s : State} {i : StreamIx} {d : Definition}
    (defined : (s.stream i).definition = some d) (on : (s.stream i).health ≠ .off) : s.nextExpiry i =
      (earliestDue (pendingExpiries d s.link.lineTime (s.stream i))).map fun e => e.1 := by
  unfold State.nextExpiry
  simp only [defined, if_neg on]

/-- A stream that takes an expiry is not OFF (R90). -/
theorem State.nextExpiry_on {s : State} {i : StreamIx} {e : Expiry} (next : s.nextExpiry i = some e) :
    (s.stream i).health ≠ .off := fun off => by
  rw [State.nextExpiry_off off] at next; cases next

/-- A slot miss that is taken next is due: line time lies past the tolerance of the cursor (R72). -/
theorem State.nextExpiry_miss {s : State} {i : StreamIx} {d : Definition}
    (defined : (s.stream i).definition = some d) (next : s.nextExpiry i = some .miss) :
    0 < pastMiss d (s.stream i).cursor s.link.lineTime := by
  rw [State.nextExpiry_live defined (State.nextExpiry_on next)] at next
  obtain ⟨⟨e, past⟩, found, miss⟩ := Option.map_eq_some_iff.1 next
  subst miss
  obtain ⟨k, first⟩ := earliestDue_firstDue found
  have due := first.due
  rcases List.mem_append.1 (List.mem_of_getElem? first.place) with hold | last
  · obtain ⟨v, -, due, cause, -, same⟩ := mem_holdExpiries.1 hold
    cases same
  · cases List.mem_singleton.1 last
    exact due

/-- Settles O23: the expiry taken next as the first due one of the pending list, and the list by the window. -/
theorem earliestExpiryIsTakenFirst : Obligations.EarliestExpiryIsTakenFirst := by
  unfold Obligations.EarliestExpiryIsTakenFirst
  intro s i d x defined on pending
  have next : s.nextExpiry i = (earliestDue pending).map fun e => e.1 := State.nextExpiry_live defined on
  refine ⟨?none, fun e => ?some, holdExpiries d s.link.lineTime x.window, rfl, holdExpiries_slots .., fun e =>
    mem_holdExpiries⟩
  case none => rw [next, Option.map_eq_none_iff, earliestDue_none]
  case some =>
    rw [next, Option.map_eq_some_iff]
    constructor
    · rintro ⟨⟨f, past⟩, found, rfl⟩
      obtain ⟨k, place, due, earliest, first⟩ := earliestDue_firstDue found
      exact ⟨k, past, place, due, earliest, first⟩
    · rintro ⟨k, past, place, due, earliest, first⟩
      exact ⟨(e, past), earliestDue_iff.2 ⟨k, place, due, earliest, first⟩, rfl⟩

end Sys2Proof.Machine
end

section
/-! Catch-ups, and the rows of the expiries as work on one stream. -/

namespace Sys2Proof.Machine

/-! ### The slot instants a catch-up passes -/

/-- A cursor moved on brings line time as much less far past its tolerance (R72). -/
theorem pastMiss_timeShift {d : Definition} {c t : Time} {m : Int}
    (low : -140737488355328 ≤ pastMiss d c t - m) (high : pastMiss d c t - m < 140737488355328) :
    pastMiss d (timeShift c m) t = pastMiss d c t - m := by
  have regroup : t - timeShift c m - BitVec.ofNat 48 d.tolerance
      = t - c - BitVec.ofNat 48 d.tolerance - BitVec.ofInt 48 m := by
    unfold timeShift; ring
  unfold pastMiss at low high ⊢
  rw [regroup]
  exact toInt_sub_ofInt low high

section CatchUp
variable {d : Definition} {c t : Time} (valid : d.valid) (due : 0 < pastMiss d c t)
include valid due

/-- The count of a catch-up is floor((T − C − τ − 1) / P) + 1 (R77, R88). -/
theorem catchUpCount_floor : 1 ≤ catchUpCount d c t
    ∧ ((catchUpCount d c t : Int) - 1) * d.period ≤ pastMiss d c t - 1
    ∧ pastMiss d c t - 1 < catchUpCount d c t * d.period := by
  obtain ⟨-, period_ge, -⟩ := valid
  have period : (0 : Int) < d.period := by omega
  have quotient := Int.ediv_nonneg (a := pastMiss d c t - 1) (by omega) period.le
  have count : (catchUpCount d c t : Int) = (pastMiss d c t - 1) / d.period + 1 := by
    unfold catchUpCount; omega
  refine ⟨by omega, ?_, ?_⟩
  · rw [count, Int.add_sub_cancel]
    exact Int.ediv_mul_le _ period.ne'
  · rw [count]
    exact Int.lt_ediv_add_one_mul_self _ period

/-- The cursor after a catch-up is the first instant of its grid whose tolerance line time has not passed (R77,
R88). -/
theorem catchUpCursor_pastMiss : pastMiss d (catchUpCursor d c t) t ≤ 0
    ∧ -(d.period : Int) < pastMiss d (catchUpCursor d c t) t := by
  obtain ⟨-, below, above⟩ := catchUpCount_floor valid due
  obtain ⟨-, period_ge, period_le, -⟩ := valid
  rw [Int.sub_mul] at below
  unfold catchUpCursor
  rw [pastMiss_timeShift (by omega) (by omega)]
  omega

end CatchUp

theorem catchUpCursor_eq (d : Definition) (c t : Time) :
    catchUpCursor d c t = c + BitVec.ofNat 48 (catchUpCount d c t * d.period) := timeShift_periods ..

section Taken
variable {s : State} {i : StreamIx} {d : Definition} (defined : (s.stream i).definition = some d)
include defined

theorem State.takeExpiry_halted (halted : s.engine = .halted) : s.takeExpiry i .miss =
    s.setStream i { s.stream i with cursor := catchUpCursor d (s.stream i).cursor s.link.lineTime } := by
  have taken : s.takeExpiry i .miss = s.haltedCatchUp i d := by
    unfold State.takeExpiry State.profileOf
    simp only [defined, Option.map_some, halted, if_true]
  exact taken

theorem State.takeExpiry_silent (running : s.engine = .running) (silent : (s.stream i).health = .silent) :
    s.takeExpiry i .miss =
      (s.setStream i { s.stream i with
        cursor := catchUpCursor d (s.stream i).cursor s.link.lineTime }).postGroup i
          ⟨[⟨.silentSlots, catchUpCount d (s.stream i).cursor s.link.lineTime⟩], none⟩ := by
  have taken : s.takeExpiry i .miss = s.silentCatchUp i d := by
    unfold State.takeExpiry State.profileOf
    simp only [defined, Option.map_some, running, reduceCtorEq, if_false, silent]
  exact taken

end Taken

/-- Settles O25: the count by the quotient of R77, and the two catch-ups by their rows. -/
theorem catchUpPassesEverySlot : Obligations.CatchUpPassesEverySlot := by
  unfold Obligations.CatchUpPassesEverySlot
  intro s i d high up loaded x defined valid taking next past
  have due : 0 < pastMiss d x.cursor s.link.lineTime := State.nextExpiry_miss defined next
  obtain ⟨some_passed, below, above⟩ := catchUpCount_floor valid due
  obtain ⟨reached, first⟩ := catchUpCursor_pastMiss valid due
  refine ⟨catchUpCount d x.cursor s.link.lineTime, catchUpCursor d x.cursor s.link.lineTime, some_passed, below, above,
    catchUpCursor_eq .., reached, first, fun running silent => ?silent, fun halted => ?halted⟩
  case silent =>
    have row := State.live_takeIfNext high up loaded taking next
      (here := s.engine == .running && (s.stream i).health == .silent)
      (by simp [running, show (s.stream i).health = _ from silent])
    rw [State.takeExpiry_silent defined running silent] at row
    exact ⟨_, row, setPost_stream ..⟩
  case halted =>
    have row := State.live_takeIfNext high up loaded taking next (here := s.engine == .halted) (by simp [halted])
    rwa [State.takeExpiry_halted defined halted] at row

/-! ### The five rows -/

/-- The row of an expiry whose stream does not take it next, or that falls outside the takings of line time, has no
effect (R71, R73, R86). -/
theorem State.takeIfNext_stands {s : State} {i : StreamIx} {e : Expiry} (here : Bool)
    (h : s.nextExpiry i ≠ some e ∨ s.link.state ≠ .up ∨ s.link.timeLoaded = false ∨ (s.stream i).taking = false) :
    s.takeIfNext i e here = s := by
  unfold State.takeIfNext
  refine if_neg ?_
  rintro ⟨runs, taking, -, next⟩
  obtain ⟨up, loaded⟩ : s.link.state = .up ∧ s.link.timeLoaded = true := by simpa [State.timeRuns] using runs
  rcases h with other | down | unloaded | ended
  · exact other next
  · exact down up
  · simp [loaded] at unloaded
  · simp [taking] at ended

theorem State.takeIfNext_definition (s : State) (i : StreamIx) (e : Expiry) (here : Bool) :
    ((s.takeIfNext i e here).stream i).definition = (s.stream i).definition := by
  unfold State.takeIfNext
  split
  · exact s.takeExpiry_definition i e
  · rfl

/-- The row of an expiry is work on its stream, and none where the expiry is not one its stream takes (R71, R73). -/
theorem State.live_takeIfNext_reach (s : State) (i : StreamIx) (e : Expiry) (here : Bool) :
    ∃ t, live s (s.takeIfNext i e here) = .next t ∧ keepsOn i s t
      ∧ (t.stream i).definition = (s.stream i).definition
      ∧ (s.nextExpiry i ≠ some e ∨ s.link.state ≠ .up ∨ s.link.timeLoaded = false ∨ (s.stream i).taking = false →
        t = s) := by
  unfold live
  split
  · exact ⟨s, rfl, .refl i s, rfl, fun _ => rfl⟩
  · exact ⟨_, rfl, s.takeIfNext_keepsOn i e here, s.takeIfNext_definition i e here, State.takeIfNext_stands here⟩

/-- Each of the five rows is the taking of its own expiry under a condition on the engine and the health. -/
theorem exec_expiryRow (s : State) {i : StreamIx} {q : Seq} {c : Instr} (row : c = .slotMiss i
      ∨ c = .unanchoredSlotMiss i ∨ c = .silentCatchUp i ∨ c = .haltedCatchUp i ∨ c = .holdExpiry i q) :
    ∃ here, exec c s = live s (s.takeIfNext i (if c = .holdExpiry i q then .hold q else .miss) here) := by
  rcases row with rfl | rfl | rfl | rfl | rfl
  · exact ⟨_, rfl⟩
  · exact ⟨_, rfl⟩
  · exact ⟨_, rfl⟩
  · exact ⟨_, rfl⟩
  · exact ⟨true, by rw [if_pos rfl]; rfl⟩

/-- Settles O27: each row takes its own expiry, as work on its stream alone. -/
theorem expiryRowsReachOneStream : Obligations.ExpiryRowsReachOneStream := by
  unfold Obligations.ExpiryRowsReachOneStream
  intro s i q c isRow
  obtain ⟨here, row⟩ := exec_expiryRow s isRow
  obtain ⟨t, taken, work, definition, stands⟩ :=
    s.live_takeIfNext_reach i (if c = .holdExpiry i q then .hold q else .miss) here
  refine ⟨t, row.trans taken, work.accounts, work.stream, definition, fun hold other => ?_, fun miss other => ?_,
    fun outside => stands (.inr outside)⟩
  · exact stands (.inl (by rwa [if_pos hold]))
  · exact stands (.inl (by rwa [if_neg miss]))

end Sys2Proof.Machine
end

section
/-! Takings: the effect of each expiry, and why a taking ends. -/

namespace Sys2Proof.Machine

/-! ### One expiry -/

theorem State.takeOne_some {s : State} {i : StreamIx} {e : Expiry} (next : s.nextExpiry i = some e) :
    s.takeOne i = s.takeExpiry i e := by
  unfold State.takeOne; rw [next]

theorem State.takeOne_none {s : State} {i : StreamIx} (next : s.nextExpiry i = none) : s.takeOne i = s := by
  unfold State.takeOne; rw [next]

/-- A hold expiry that is taken next drops its slot, where the window holds it (R61, R78). -/
theorem State.takeExpiry_holdNext {s : State} {i : StreamIx} {q : Seq} (context : (s.stream i).contextKept)
    (next : s.nextExpiry i = some (.hold q)) : s.takeExpiry i (.hold q) =
      (s.setStream i { s.stream i with window := setSlot (s.stream i).window q .dropped }).postGroup i
        ⟨[⟨.dropped, 1⟩], none⟩ := by
  obtain ⟨⟨d, defined⟩, w, member, rfl, awaited⟩ := State.nextExpiry_hold next
  rw [State.takeExpiry_hold defined]
  unfold State.holdExpiry
  rw [slotAt_of_mem context.window member]
  exact if_pos awaited

/-! ### What a taking has left to take -/

/-- A bound on the expiries that a taking up to line time t still holds: two for each miss before SILENT, that miss
and the hold expiry of its slot, one for each OUTSTANDING slot, and one for a miss that is due (R76). -/
def Stream.expiriesLeft (x : Stream) (d : Definition) (t : Time) : Nat :=
  (if x.health = .silent then 0 else 2 * (255 - x.misses)) + outstandingCount x.window
    + (if 0 < pastMiss d x.cursor t then 1 else 0)

theorem Stream.expiriesLeft_le (x : Stream) (d : Definition) (t : Time) : x.expiriesLeft d t ≤ expiryBound x := by
  have slots : outstandingCount x.window ≤ x.window.length := List.length_filter_le ..
  unfold Stream.expiriesLeft expiryBound
  split <;> split <;> omega

theorem Stream.sameButAlarms.expiriesLeft {x y : Stream} (h : x.sameButAlarms y) (d : Definition) (t : Time) :
    y.expiriesLeft d t = x.expiriesLeft d t := by
  unfold Stream.expiriesLeft
  rw [h.health, h.misses, h.window, h.cursor]

@[simp] theorem Stream.addGroup_expiriesLeft (modes : Vector TotalMode 16) (x : Stream) (g : Group) (d : Definition)
    (t : Time) : (x.addGroup modes g).expiriesLeft d t = x.expiriesLeft d t := by
  simp [Stream.expiriesLeft]

/-- A stream written and posted to has left what the stream written has. -/
theorem setPost_expiriesLeft (s : State) (i : StreamIx) (x : Stream) (g : Group) (d : Definition) (t : Time) :
    (((s.setStream i x).postGroup i g).stream i).expiriesLeft d t = x.expiriesLeft d t := by
  rw [(setPost_stream s i x g).expiriesLeft, Stream.addGroup_expiriesLeft]

/-! ### Each expiry leaves less -/

/-- An OUTSTANDING slot dropped is one OUTSTANDING slot less (R61). -/
theorem setSlot_dropped_lt {w : List Slot} {v : Slot} (member : v ∈ w) (awaited : v.isOutstanding = true) :
    outstandingCount (setSlot w v.seq .dropped) < outstandingCount w := by
  obtain ⟨lower, higher, rfl⟩ := List.append_of_mem member
  have parts : setSlot (lower ++ v :: higher) v.seq .dropped
      = setSlot lower v.seq .dropped ++ ⟨v.seq, .dropped⟩ :: setSlot higher v.seq .dropped := by simp [setSlot]
  have below := setSlot_outstanding lower v.seq .dropped (by simp)
  have above := setSlot_outstanding higher v.seq .dropped (by simp)
  have settled : Slot.isOutstanding ⟨v.seq, .dropped⟩ = false := rfl
  rw [parts, outstandingCount_append, outstandingCount_append]
  simp only [outstandingCount, List.filter_cons, settled, awaited, if_true, Bool.false_eq_true, if_false,
    List.length_cons] at below above ⊢
  omega

/-- A step of E makes at most one slot more OUTSTANDING (R39, R41). -/
theorem stepE_outstanding (x : Stream) (st : SlotState) :
    outstandingCount (stepE x st).1.window ≤ outstandingCount x.window + 1 := by
  have staying := outstandingCount_filter (fun v => v.seq != x.expected + 1 - 33) x.window
  have entered : outstandingCount [(⟨x.expected, st⟩ : Slot)] ≤ 1 := List.length_filter_le ..
  rw [stepE_fst]
  unfold enterSlot
  split <;> simp only [outstandingCount_append, outstandingCount_dropLowest] <;> omega

section Due
variable {x : Stream} {d : Definition} {t : Time} (due : 0 < pastMiss d x.cursor t)
include due

theorem Stream.expiriesLeft_awake (awake : x.health ≠ .silent) :
    x.expiriesLeft d t = 2 * (255 - x.misses) + outstandingCount x.window + 1 := by
  simp [Stream.expiriesLeft, awake, due]

/-- A slot miss of a stream that is not SILENT leaves less: two fewer for its miss, one more for its slot (R74). -/
theorem Stream.missed_expiriesLeft (awake : x.health ≠ .silent) (few : x.misses ≤ 254) (p : Profile) :
    (x.missed d p).expiriesLeft d t < x.expiriesLeft d t := by
  have slots := stepE_outstanding x (.outstanding x.cursor .miss)
  rw [Stream.expiriesLeft_awake due awake]
  by_cases declared : p.silentDeclare ≤ x.misses + 1
  · rw [(Stream.missed_declared declared).1]
    simp only [Stream.expiriesLeft, if_true, outstandingCount, List.filter_nil, List.length_nil]
    split <;> omega
  · rw [(Stream.missed_below (Nat.lt_of_not_le declared)).1]
    have health : (x.stepMissed d).health ≠ .silent := awake
    have window : outstandingCount (x.stepMissed d).window ≤ outstandingCount x.window + 1 := slots
    have misses : (x.stepMissed d).misses = x.misses + 1 := rfl
    unfold Stream.expiriesLeft
    rw [if_neg health, misses]
    split <;> omega

/-- The miss of an UNANCHORED stream leaves less (R75). -/
theorem Stream.unanchoredMissed_expiriesLeft (awake : x.health ≠ .silent) (few : x.misses ≤ 254) (p : Profile) :
    (x.unanchoredMissed d p).expiriesLeft d t < x.expiriesLeft d t := by
  have window : (x.unanchoredMissed d p).window = x.window := rfl
  have misses : (x.unanchoredMissed d p).misses = x.misses + 1 := rfl
  rw [Stream.expiriesLeft_awake due awake]
  unfold Stream.expiriesLeft
  rw [window, misses]
  by_cases declared : p.silentDeclare ≤ x.misses + 1
  · rw [if_pos (show (x.unanchoredMissed d p).health = .silent from if_pos declared)]
    split <;> omega
  · have health : (x.unanchoredMissed d p).health = x.health := if_neg declared
    rw [health, if_neg awake]
    split <;> omega

/-- A catch-up leaves no miss due (R77, R88). -/
theorem Stream.caughtUp_expiriesLeft (valid : d.valid) :
    Stream.expiriesLeft { x with cursor := catchUpCursor d x.cursor t } d t < x.expiriesLeft d t := by
  have reached := (catchUpCursor_pastMiss valid due).1
  simp only [Stream.expiriesLeft, if_pos due, if_neg (Int.not_lt.2 reached)]
  omega

end Due

/-! ### A taking -/

/-- Stream i stands under definition d and the bounds by which its takings up to line time t end. -/
structure State.takesUnder (s : State) (i : StreamIx) (d : Definition) (t : Time) : Prop where
  defined : (s.stream i).definition = some d
  time : s.link.lineTime = t
  counts : countsKept s
  context : (s.stream i).contextKept

theorem State.takesUnder.taken {s : State} {i : StreamIx} {d : Definition} {t : Time} (h : s.takesUnder i d t)
    (e : Expiry) : (s.takeExpiry i e).takesUnder i d t := by
  have work := s.takeExpiry_keepsOn i e
  exact ⟨(s.takeExpiry_definition i e).trans h.defined, by rw [work.accounts.link]; exact h.time,
    work.bounds.counts h.counts, work.context h.context⟩

/-- Each expiry taken leaves less to take (R76). -/
theorem State.takeExpiry_expiriesLeft {s : State} {i : StreamIx} {d : Definition} {t : Time} {e : Expiry}
    (h : s.takesUnder i d t) (next : s.nextExpiry i = some e) :
    ((s.takeExpiry i e).stream i).expiriesLeft d t < (s.stream i).expiriesLeft d t := by
  obtain ⟨defined, rfl, counts, context⟩ := h
  cases e with
  | hold q =>
    obtain ⟨-, v, member, rfl, awaited⟩ := State.nextExpiry_hold next
    have fewer := setSlot_dropped_lt member awaited
    rw [State.takeExpiry_holdNext context next, setPost_expiriesLeft]
    simp only [Stream.expiriesLeft]
    omega
  | miss =>
    have due := State.nextExpiry_miss defined next
    have few := (counts.2 i).2.1
    cases engine : s.engine with
    | halted =>
      rw [State.takeExpiry_halted defined engine, State.stream_setStream_same]
      exact Stream.caughtUp_expiriesLeft due (context.valid d defined)
    | running =>
      have anchored (awake : (s.stream i).health = .tracking ∨ (s.stream i).health = .recovering) :
          ((s.takeExpiry i .miss).stream i).expiriesLeft d s.link.lineTime
            < (s.stream i).expiriesLeft d s.link.lineTime := by
        have notSilent : (s.stream i).health ≠ .silent := by rcases awake with k | k <;> simp [k]
        rw [State.takeExpiry_slotMiss defined engine awake, (s.slotMiss_stream i d _).expiriesLeft,
          Stream.addGroup_expiriesLeft]
        exact Stream.missed_expiriesLeft due notSilent (few notSilent) _
      cases health : (s.stream i).health with
      | off => exact absurd health (State.nextExpiry_on next)
      | unanchored =>
        have notSilent : (s.stream i).health ≠ .silent := by simp [health]
        rw [State.takeExpiry_unanchoredMiss defined engine health, (s.unanchoredMiss_stream i d _).expiriesLeft]
        exact Stream.unanchoredMissed_expiriesLeft due notSilent (few notSilent) _
      | tracking => exact anchored (.inl health)
      | recovering => exact anchored (.inr health)
      | silent =>
        rw [State.takeExpiry_silent defined engine health, setPost_expiriesLeft]
        exact Stream.caughtUp_expiriesLeft due (context.valid d defined)

theorem State.takeUpTo_none {s : State} {i : StreamIx} (next : s.nextExpiry i = none) (n : Nat) :
    s.takeUpTo i n = s := by
  cases n with
  | zero => rfl
  | succ n => unfold State.takeUpTo; rw [next]

theorem State.takeUpTo_succ {s : State} {i : StreamIx} {e : Expiry} (next : s.nextExpiry i = some e) (n : Nat) :
    s.takeUpTo i (n + 1) = (s.takeExpiry i e).takeUpTo i n := by
  rw [State.takeUpTo, next]

theorem State.takeAll_none {s : State} {i : StreamIx} (next : s.nextExpiry i = none) : s.takeAll i = s :=
  State.takeUpTo_none next _

section Takes
variable {i : StreamIx} {d : Definition} {t : Time}

theorem State.nextExpiry_exhausted {s : State} (h : s.takesUnder i d t)
    (exhausted : (s.stream i).expiriesLeft d t ≤ 0) : s.nextExpiry i = none := by
  cases next : s.nextExpiry i with
  | none => rfl
  | some e => exact absurd (State.takeExpiry_expiriesLeft h next) (by omega)

/-- A taking of as many expiries as are left ends with none due (R73, R76). -/
theorem State.takeUpTo_ends {s : State} (h : s.takesUnder i d t) {n : Nat}
    (enough : (s.stream i).expiriesLeft d t ≤ n) : (s.takeUpTo i n).nextExpiry i = none := by
  induction n generalizing s with
  | zero => exact State.nextExpiry_exhausted h enough
  | succ n ih =>
    cases next : s.nextExpiry i with
    | none => rwa [State.takeUpTo_none next]
    | some e =>
      have less := State.takeExpiry_expiriesLeft h next
      rw [State.takeUpTo_succ next]
      exact ih (h.taken e) (by omega)

/-- Beyond the expiries left the length of a taking is no matter. -/
theorem State.takeUpTo_enough {s : State} (h : s.takesUnder i d t) {n m : Nat}
    (n_enough : (s.stream i).expiriesLeft d t ≤ n) (m_enough : (s.stream i).expiriesLeft d t ≤ m) :
    s.takeUpTo i n = s.takeUpTo i m := by
  induction n generalizing s m with
  | zero =>
    have next := State.nextExpiry_exhausted h n_enough
    rw [State.takeUpTo_none next, State.takeUpTo_none next]
  | succ n ih =>
    cases next : s.nextExpiry i with
    | none => rw [State.takeUpTo_none next, State.takeUpTo_none next]
    | some e =>
      have less := State.takeExpiry_expiriesLeft h next
      obtain ⟨k, rfl⟩ : ∃ k, m = k + 1 := ⟨m - 1, by omega⟩
      rw [State.takeUpTo_succ next, State.takeUpTo_succ next]
      exact ih (h.taken e) (by omega) (by omega)

end Takes

/-- A stream with an expiry to take has a definition (R24, R90). -/
theorem State.takesUnder_of_next {s : State} {i : StreamIx} {e : Expiry} (counts : countsKept s)
    (context : (s.stream i).contextKept) (next : s.nextExpiry i = some e) :
    ∃ d, s.takesUnder i d s.link.lineTime := by
  cases defined : (s.stream i).definition with
  | none => rw [State.nextExpiry_undefined defined] at next; cases next
  | some d => exact ⟨d, defined, rfl, counts, context⟩

/-- A taking ends with nothing due: the standing condition of R68 (R73, R76). -/
theorem State.takeAll_ends {s : State} {i : StreamIx} (counts : countsKept s)
    (context : (s.stream i).contextKept) : (s.takeAll i).nextExpiry i = none := by
  cases next : s.nextExpiry i with
  | none => rwa [State.takeAll_none next]
  | some e =>
    obtain ⟨d, h⟩ := State.takesUnder_of_next counts context next
    exact State.takeUpTo_ends h (Stream.expiriesLeft_le ..)

/-- A taking takes one expiry after another (R73). -/
theorem State.takeAll_takeOne {s : State} {i : StreamIx} {e : Expiry} (counts : countsKept s)
    (context : (s.stream i).contextKept) (next : s.nextExpiry i = some e) :
    s.takeAll i = (s.takeOne i).takeAll i := by
  obtain ⟨d, h⟩ := State.takesUnder_of_next counts context next
  have less := State.takeExpiry_expiriesLeft h next
  have bound := (s.stream i).expiriesLeft_le d s.link.lineTime
  obtain ⟨n, length⟩ : ∃ n, expiryBound (s.stream i) = n + 1 := ⟨_, rfl⟩
  rw [State.takeOne_some next]
  unfold State.takeAll
  rw [length, State.takeUpTo_succ next]
  exact State.takeUpTo_enough (h.taken e) (by omega) (Stream.expiriesLeft_le ..)

/-! ### The takings left at a stamp or a link loss -/

/-- The expiry taken next is read from line time and the stream's own context, the mark of its taking apart. -/
theorem State.nextExpiry_marked {s t : State} {i : StreamIx} {b : Bool} (link : t.link = s.link)
    (stream : t.stream i = { s.stream i with taking := b }) : t.nextExpiry i = s.nextExpiry i := by
  unfold State.nextExpiry
  rw [link, stream]
  rfl

/-- The takings left are those of the streams not OFF whose taking is under way, in ascending index (log 27). -/
theorem State.takeRest_foldl {s : State} (runs : s.timeRuns = true) : s.takeRest =
    (List.finRange 256).foldl (fun t i =>
      if (t.stream i).health ≠ .off ∧ (t.stream i).taking = true then
        (t.takeAll i).setStream i { (t.takeAll i).stream i with taking := false }
      else t) s := by
  unfold State.takeRest
  rw [if_pos runs]
  unfold State.eachLive State.eachStream allStreams
  congr 1
  funext t i
  unfold State.finishTaking
  by_cases off : (t.stream i).health = .off
  · simp only [off, if_true, ne_eq, not_true, false_and, if_false]
  · by_cases taking : (t.stream i).taking = true
    · simp only [off, taking, if_true, if_false, ne_eq, not_false_eq_true, true_and]
      rfl
    · simp only [off, taking, if_false, Bool.false_eq_true, and_false]

section Rest
variable {s : State} {i : StreamIx} (runs : s.timeRuns = true) (on : (s.stream i).health ≠ .off)
  (taking : (s.stream i).taking = true)
include runs on taking

/-- The takings left end with nothing due on the streams they are taken of (R68, R73). -/
theorem State.takeRest_ends (counts : countsKept s) (context : (s.stream i).contextKept) :
    s.takeRest.nextExpiry i = none := by
  obtain ⟨u, accounts, kept, same, result⟩ := (s.takeRest_stream runs i).2 on taking
  have link : s.takeRest.link = (u.takeAll i).link :=
    s.takeRest_accounts.link.trans (accounts.link.symm.trans (u.takeAll_keepsOn i).accounts.link.symm)
  rw [State.nextExpiry_marked link result]
  exact State.takeAll_ends (kept counts) (by rwa [same])

/-- A taking with nothing due is ended, and its stream otherwise as it was (R71). -/
theorem State.takeRest_ended (next : s.nextExpiry i = none) :
    s.takeRest.stream i = { s.stream i with taking := false } := by
  obtain ⟨u, accounts, -, same, result⟩ := (s.takeRest_stream runs i).2 on taking
  have stands : u.nextExpiry i = none :=
    (State.nextExpiry_marked (b := (s.stream i).taking) accounts.link same).trans next
  rw [result, State.takeAll_none stands, same]

end Rest

/-! ### One miss, by the engine and the health -/

section Miss
variable {s : State} {i : StreamIx} {d : Definition} (defined : (s.stream i).definition = some d)
  (next : s.nextExpiry i = some .miss)
include defined next

/-- The miss of an UNANCHORED stream, with the evaluation that its change to SILENT makes (R75, R98, R102). -/
theorem State.takeOne_unanchored (running : s.engine = .running) (health : (s.stream i).health = .unanchored) :
    s.takeOne i =
      if s.acp.profiles[d.profile].silentDeclare ≤ (s.stream i).misses + 1 then
        (s.setStream i { s.stream i with
          cursor := (s.stream i).cursor + BitVec.ofNat 48 d.period
          misses := (s.stream i).misses + 1
          health := .silent }).evaluateAll i
      else s.setStream i { s.stream i with
        cursor := (s.stream i).cursor + BitVec.ofNat 48 d.period, misses := (s.stream i).misses + 1 } := by
  rw [State.takeOne_some next, State.takeExpiry_unanchoredMiss defined running health, State.unanchoredMiss_eq]
  unfold Stream.unanchoredMissed
  simp only [timeShift_natCast]
  split <;> rfl

/-- The miss of a TRACKING or RECOVERING stream, with its posts and the evaluation that its change to SILENT makes
(R74, R99, R102). -/
theorem State.takeOne_anchored (running : s.engine = .running)
    (health : (s.stream i).health = .tracking ∨ (s.stream i).health = .recovering) :
    let m := stepE (s.stream i) (.outstanding (s.stream i).cursor .miss)
    s.takeOne i =
      if s.acp.profiles[d.profile].silentDeclare ≤ (s.stream i).misses + 1 then
        ((s.setStream i { (s.stream i).stepMissed d with
          window := [], staleCount := 0, health := .silent, recovery := 0 }).postGroup i
            ⟨m.2 ++ m.1.window.flatMap (clearPosts (s.stream i).paired), none⟩).evaluateAll i
      else (s.setStream i ((s.stream i).stepMissed d)).postGroup i ⟨m.2, none⟩ := by
  intro m
  rw [State.takeOne_some next, State.takeExpiry_slotMiss defined running health, State.slotMiss_eq]
  split
  · rename_i declared
    obtain ⟨missed, posts⟩ := Stream.missed_declared (d := d) declared
    rw [missed, posts]
  · rename_i undeclared
    obtain ⟨missed, posts⟩ := Stream.missed_below (d := d) (Nat.lt_of_not_le undeclared)
    rw [missed, posts]

end Miss

/-- Settles O28: each expiry by its own effect, a taking by the expiries it has left, and the takings left stream by
stream. -/
theorem takingEndsWithNothingDue : Obligations.TakingEndsWithNothingDue := by
  unfold Obligations.TakingEndsWithNothingDue
  refine ⟨fun s i next => ⟨State.takeOne_none next, State.takeAll_none next⟩, fun s i d => ?effect,
    fun s i c high up loaded taking isRow => ?row, fun s i counts context => ?taking, fun s => ?rest⟩
  case effect =>
    intro x defined context declare past after cleared
    have one_period : after 1 = x.cursor + BitVec.ofNat 48 d.period := by simp [after]
    refine ⟨fun q next => ?hold, fun next => ⟨?catchUp, fun running health => ?unanchored,
      fun running health => ?anchored⟩⟩
    case hold =>
      rw [State.takeOne_some next, State.takeExpiry_holdNext context next, setSlot_eq_map]
    case catchUp =>
      obtain ⟨some_passed, below, above⟩ :=
        catchUpCount_floor (context.valid d defined) (State.nextExpiry_miss defined next)
      refine ⟨_, some_passed, below, above, fun halted => ?_, fun running silent => ?_⟩
      · rw [State.takeOne_some next, State.takeExpiry_halted defined halted, catchUpCursor_eq]
      · rw [State.takeOne_some next, State.takeExpiry_silent defined running silent, catchUpCursor_eq]
    case unanchored =>
      rw [one_period]
      exact State.takeOne_unanchored defined next running health
    case anchored =>
      have taken := State.takeOne_anchored defined next running health
      rw [clearPosts_eq] at taken
      rw [one_period]
      exact taken
  case row =>
    rcases isRow with ⟨q, next, rfl⟩ | ⟨next, which⟩
    · rw [State.takeOne_some next]
      exact State.live_takeIfNext high up loaded taking next (here := true) rfl
    · rw [State.takeOne_some next]
      rcases which with ⟨halted, rfl⟩ | ⟨running, ⟨health, rfl⟩ | ⟨health, rfl⟩ | ⟨health, rfl⟩ | ⟨health, rfl⟩⟩
      · exact State.live_takeIfNext high up loaded taking next (by simp [halted])
      all_goals exact State.live_takeIfNext high up loaded taking next (by simp [running, health])
  case taking =>
    have work := s.takeAll_keepsOn i
    exact ⟨fun e next => State.takeAll_takeOne counts context next, State.takeAll_ends counts context,
      work.accounts, work.stream⟩
  case rest =>
    have runs (up : s.link.state = .up) (loaded : s.link.timeLoaded = true) : s.timeRuns = true := by
      simp [State.timeRuns, up, loaded]
    refine ⟨fun frozen => ?frozen, fun up loaded => State.takeRest_foldl (runs up loaded), s.takeRest_accounts,
      fun up loaded i => ?stream, s.takeRest_none⟩
    case frozen =>
      refine s.takeRest_frozen ?_
      rcases frozen with down | unloaded
      · simp [State.timeRuns, down]
      · simp [State.timeRuns, unloaded]
    case stream =>
      obtain ⟨untouched, taken⟩ := s.takeRest_stream (runs up loaded) i
      refine ⟨untouched, fun on taking => ⟨?_, State.takeRest_ends (runs up loaded) on taking,
        State.takeRest_ended (runs up loaded) on taking⟩⟩
      obtain ⟨u, accounts, -, same, result⟩ := taken on taking
      exact ⟨u, accounts, same, result⟩

end Sys2Proof.Machine
end

section
/-! The count of a verdict arrival, ACK_LAMP and INJECT. -/

namespace Sys2Proof.Machine

/-! ### The count of a verdict arrival -/

section Counted
variable {x : Stream} {clear : Nat}

theorem Stream.countVerdict_misses (x : Stream) (clear : Nat) : (x.countVerdict clear).misses = 0 := by
  rw [Stream.countVerdict_eq]

theorem Stream.countVerdict_unanchored (h : x.health = .unanchored) :
    x.countVerdict clear = { x with misses := 0, health := .tracking } := by
  unfold Stream.countVerdict; rw [h]

theorem Stream.countVerdict_tracking (h : x.health = .tracking) :
    x.countVerdict clear = { x with misses := 0 } := by
  unfold Stream.countVerdict; rw [h]

theorem Stream.countVerdict_silent_cleared (h : x.health = .silent) (reached : clear ≤ 1) :
    x.countVerdict clear = { x with misses := 0, health := .tracking } := by
  unfold Stream.countVerdict; simp only [h]; rw [if_pos reached]

theorem Stream.countVerdict_silent_heard (h : x.health = .silent) (short : 1 < clear) :
    x.countVerdict clear = { x with misses := 0, health := .recovering, recovery := 1 } := by
  unfold Stream.countVerdict; simp only [h]; rw [if_neg (Nat.not_le.2 short)]

theorem Stream.countVerdict_recovering_cleared (h : x.health = .recovering) (reached : clear ≤ x.recovery + 1) :
    x.countVerdict clear = { x with misses := 0, health := .tracking, recovery := 0 } := by
  unfold Stream.countVerdict; simp only [h]; rw [if_pos reached]

theorem Stream.countVerdict_recovering_heard (h : x.health = .recovering) (short : x.recovery + 1 < clear) :
    x.countVerdict clear = { x with misses := 0, recovery := x.recovery + 1 } := by
  unfold Stream.countVerdict; simp only [h]; rw [if_neg (Nat.not_le.2 short)]

end Counted

section Evaluated
variable {s : State} {i : StreamIx} {d : Definition}

theorem State.profileOf_defined {x : Stream} (defined : x.definition = some d) :
    s.profileOf x = some s.acp.profiles[d.profile] := by
  unfold State.profileOf; rw [defined]; rfl

/-- The count is written first, and the stream evaluated if its health changed (R97, R102). -/
theorem State.countVerdict_written (defined : (s.stream i).definition = some d) :
    s.countVerdict i =
      let z := (s.stream i).countVerdict s.acp.profiles[d.profile].silentClear
      if z.health = (s.stream i).health then s.setStream i z else (s.setStream i z).evaluateAll i := by
  unfold State.countVerdict
  rw [State.profileOf_defined defined]
  simp only [State.updStream_eq, State.stream_setStream_same]

end Evaluated

/-- Settles O21: the count by the health it finds, its stream read through the evaluation, which moves alarms alone. -/
theorem verdictArrivalMovesHealth : Obligations.VerdictArrivalMovesHealth := by
  unfold Obligations.VerdictArrivalMovesHealth
  intro s i d x defined clear y
  have work := s.countVerdict_worksOn i
  have counted : (x.countVerdict clear).sameButAlarms y :=
    s.countVerdict_stream i _ (State.profileOf_defined defined)
  have health : y.health = (x.countVerdict clear).health := counted.health
  have recovery : y.recovery = (x.countVerdict clear).recovery := counted.recovery
  have misses : y.misses = (x.countVerdict clear).misses := counted.misses
  rw [health, recovery, misses]
  refine ⟨Stream.countVerdict_misses x clear, fun h => ?unanchored, fun h => ?tracking,
    fun h reached => ?silentCleared, fun h short => ?silentHeard, fun h reached => ?recoveringCleared,
    fun h short => ?recoveringHeard, work.accounts, work.stream, fun live => ?evaluated⟩
  case unanchored => rw [Stream.countVerdict_unanchored h]; exact ⟨rfl, rfl⟩
  case tracking => rw [Stream.countVerdict_tracking h]; exact ⟨h, rfl⟩
  case silentCleared => rw [Stream.countVerdict_silent_cleared h reached]; exact ⟨rfl, rfl⟩
  case silentHeard => rw [Stream.countVerdict_silent_heard h short]; exact ⟨rfl, rfl⟩
  case recoveringCleared => rw [Stream.countVerdict_recovering_cleared h reached]; exact ⟨rfl, rfl⟩
  case recoveringHeard => rw [Stream.countVerdict_recovering_heard h short]; exact ⟨h, rfl⟩
  case evaluated =>
    rw [← Stream.countVerdict_afterVerdict live clear]
    exact State.countVerdict_written defined

/-! ### ACK_LAMP and INJECT -/

section Taken
variable {s : State} {p : Port} {tag : Byte}

theorem exec_ackLamp (h : s.runs p tag .ackLamp) : exec (.ackLamp p) s = .next
    (if s.acp.lampCount = 0 then
      State.reply { s with acp := { s.acp with lampLatch := false } } p tag .ok [flagByte s.acp.lampLatch]
    else s.reply p tag .alarmActive (bytesBE 2 s.acp.lampCount)) := by
  obtain ⟨high, started⟩ := h
  show live s _ = _
  rw [live_of_high high, started]

theorem exec_inject_beyond {n : Nat} (h : s.runs p tag (.inject n)) (beyond : 255 < n) :
    exec (.inject p) s = .next (s.reply p tag .badArgument []) := by
  obtain ⟨high, started⟩ := h
  show live s _ = _
  rw [live_of_high high, started]
  simp only [streamOf_beyond beyond]

theorem exec_inject {i : StreamIx} (h : s.runs p tag (.inject i.val)) : exec (.inject p) s = .next
    (if (s.stream i).health = .off then s.reply p tag .badArgument []
    else (s.setStream i { s.stream i with testLoss := true }).reply p tag .ok
      [flagByte (s.stream i).testLoss]) := by
  obtain ⟨high, started⟩ := h
  show live s _ = _
  rw [live_of_high high, started]
  simp only [streamOf_val, State.updStream_eq]

end Taken

/-- Settles O36: ACK_LAMP by the count of the alarms routed to LAMP, INJECT by the index and the health it names. -/
theorem ackLampAndInject : Obligations.AckLampAndInject := by
  unfold Obligations.AckLampAndInject
  intro s p tag
  refine ⟨fun ack => ⟨fun unlit => ?clears, fun active => ?refused⟩,
    fun n inject => ⟨exec_inject_beyond inject, fun i index => ?named⟩⟩
  case clears => rw [exec_ackLamp ack, if_pos unlit]; rfl
  case refused => rw [exec_ackLamp ack, if_neg active]
  case named =>
    subst index
    rw [exec_inject inject]
    exact ⟨fun off => by rw [if_pos off], fun live => by rw [if_neg live]; rfl⟩

end Sys2Proof.Machine
end

section
/-! The tally records among the bounds that every row keeps, the state after reset within every bound, and the
REFCLK periods on the running timers. -/

namespace Sys2Proof.Machine

/-- Settles O56: the tally records are among the bounds that every row keeps. -/
theorem stepKeepsTallies : Obligations.StepKeepsTallies := fun _ _ tallies h =>
  (step_keepsAll h).bounds.tallies tallies

/-- Settles O60: the bounds by their values, then the state after reset, bound by bound. -/
theorem resetStateIsKept : Obligations.ResetStateIsKept :=
  ⟨⟨rfl, rfl, rfl, rfl, rfl, rfl, rfl, rfl, rfl, rfl, rfl, rfl, rfl, fun _ => rfl, fun _ => rfl⟩,
    State.reset_contextsKept, State.reset_silentsKept, State.reset_talliesKept, State.reset_stagingKept,
    State.reset_outputsKept, State.reset_noticesKept, State.reset_countsKept, State.reset_portsKept⟩

/-! ### REFCLK periods -/

/-- The interval timer after n periods, by the report mode: in MANUAL its limit is 0 (R118). -/
theorem TallyStore.intervalTimer_after (u : TallyStore) (n : Nat) :
    timerAfter u.timerLimit n u.intervalTimer = u.intervalTimer.map fun k =>
      match u.reportMode with
      | .auto sec => min (k + n) (sec * 25000000)
      | .manual => 0 := by
  unfold timerAfter TallyStore.timerLimit
  cases u.reportMode with
  | auto sec => rfl
  | manual => simp only [Nat.min_zero]

/-- The time the pin has held the other level, after n periods more (R165). -/
theorem State.held_after (s : State) (n : Nat) :
    (if s.filterRunning then min (s.staging.held + n) filterLimit else s.staging.held) =
      if s.changeoverPin = s.staging.accepted then s.staging.held else min (s.staging.held + n) 25 := by
  unfold State.filterRunning
  by_cases level : s.changeoverPin = s.staging.accepted <;> simp [level]

/-- The gap of a partial service frame after n periods more (R178). -/
theorem ServiceRx.after_eq (n : Nat) (rx : ServiceRx) : rx.after n =
    match rx with
    | .hunting => .hunting
    | .partialFrame bs gap => .partialFrame bs (min (gap + n) 250000) := by
  cases rx <;> rfl

/-- A step on an empty queue is one REFCLK period, unless RESET_N is low (log 2). -/
theorem step_empty {s : State} (empty : s.pending = []) :
    step s = .next (if s.resetLow then s else s.elapse 1) := by
  unfold step; rw [empty]; rfl

/-- Settles O2: timer by timer; the interval timer and the filter count by the mode and by the level. -/
theorem emptyQueueLetsOnePeriodPass : Obligations.EmptyQueueLetsOnePeriodPass := by
  unfold Obligations.EmptyQueueLetsOnePeriodPass
  intro counted
  have elapsed : ∀ (s : State) (n : Nat), s.elapse n = counted n s := fun s n => by
    unfold State.elapse
    rw [TallyStore.intervalTimer_after, State.held_after, ServiceRx.after_eq]
    rfl
  exact ⟨elapsed, fun s empty => by rw [step_empty empty, elapsed]⟩

end Sys2Proof.Machine
end

section
/-! Posts, groups and lateness statistics, and what the taking of a group posts and has evaluated. -/

namespace Sys2Proof.Machine

/-! ### One post -/

section OnePost
variable (modes : Vector TotalMode 16) (x : Stream) (f g : Field) (n : Nat)

/-- The total of the field posted goes by its mode, the others stand (R112). -/
theorem addPost_total (p : Post) : (x.addPost modes p).total f =
    if f = p.field then totalAfter modes[f.pos] (x.total f + p.count) else x.total f := by
  unfold Stream.total Stream.addPost
  simp only
  rw [vector_getElem_set]
  by_cases same : f = p.field
  · subst same; simp
  · have apart : f.pos ≠ p.field.pos := fun e => same (Field.pos_injective e)
    simp [same, apart]

theorem addPost_flag_same :
    (x.addPost modes ⟨f, n⟩).flag f = true ↔ x.flag f = true ∨ totalTop ≤ x.total f + n := by
  unfold Stream.flag Stream.total
  rw [addPost_flag]
  simp [or_comm]

variable {f g} in
/-- The other fields stand (R110). -/
theorem addPost_other (other : g ≠ f) : (x.addPost modes ⟨f, n⟩).tally g = x.tally g
    ∧ (x.addPost modes ⟨f, n⟩).total g = x.total g ∧ (x.addPost modes ⟨f, n⟩).flag g = x.flag g := by
  refine ⟨?_, ?_, ?_⟩
  · rw [addPost_tally, if_neg other]
  · rw [addPost_total, if_neg other]
  · have apart : g.pos ≠ f.pos := fun e => other (Field.pos_injective e)
    unfold Stream.flag
    rw [addPost_flag, if_neg fun c => apart c.2]

end OnePost

/-! ### A group and its lateness -/

/-- Posts leave the lateness statistics (R110, R115). -/
theorem addPosts_lateness (modes : Vector TotalMode 16) (ps : List Post) (x : Stream) :
    (ps.foldl (Stream.addPost modes) x).lateness = x.lateness := by rw [addPosts_eq]

/-- A lateness clamped, by the side of the signed 32-bit range it falls on (R115). -/
theorem clampLateness_eq (l : Int) : clampLateness l =
    if l < -2147483648 then -2147483648 else if 2147483647 < l then 2147483647 else l := by
  unfold clampLateness
  split
  · omega
  · split <;> omega

/-- The statistics moved by one more lateness: the least, the greatest and the last (R115). -/
theorem latenessAfter_some (st : Lateness) (l : Int) : latenessAfter (some st) l =
    ⟨if clampLateness l < st.latMin then clampLateness l else st.latMin,
      if st.latMax < clampLateness l then clampLateness l else st.latMax, clampLateness l⟩ := by
  have least : min st.latMin (clampLateness l) =
      if clampLateness l < st.latMin then clampLateness l else st.latMin := by split <;> omega
  have greatest : max st.latMax (clampLateness l) =
      if st.latMax < clampLateness l then clampLateness l else st.latMax := by split <;> omega
  rw [← least, ← greatest]
  rfl

section Grouped
variable (modes : Vector TotalMode 16) (x : Stream) {g : Group}

theorem Stream.addGroup_without (without : g.lateness = none) :
    x.addGroup modes g = g.posts.foldl (Stream.addPost modes) x := by
  unfold Stream.addGroup; rw [without]

/-- The lateness of a group is taken after its posts, into the statistics as they stood before (R110, R115). -/
theorem Stream.addGroup_late {l : Int} (late : g.lateness = some l) : x.addGroup modes g =
    { g.posts.foldl (Stream.addPost modes) x with lateness := some (latenessAfter x.lateness l) } := by
  unfold Stream.addGroup
  simp only [late, addPosts_lateness]

end Grouped

/-! ### A group taken -/

theorem Notice.word_terminal : Notice.terminal.word = 1024#16 := by decide

section Taken
variable (s : State) (i : StreamIx) (g : Group)

/-- A group whose posts set a terminal flag posts TERMINAL, any other posts no notice (R112). -/
theorem State.takePosts_eq : s.takePosts i g =
    let y := (s.stream i).addGroup s.tst.totalModes g
    let t := s.setStream i y
    if y.terminal ≠ (s.stream i).terminal then
      { t with acp := { t.acp with summaries := ⟨s.acp.summaries.board ||| 1024#16,
        s.acp.summaries.line ||| 1024#16, s.acp.summaries.service ||| 1024#16⟩ } }
    else t := by
  unfold State.takePosts State.post
  simp only [Notice.word_terminal, ne_eq, ite_not]
  rfl

/-- A group that changed an interval tally has the stream evaluated (R110, R136). -/
theorem State.postGroup_eq : s.postGroup i g =
    if ((s.stream i).addGroup s.tst.totalModes g).interval = (s.stream i).interval then s.takePosts i g
    else (s.takePosts i g).evaluateAll i := by
  unfold State.postGroup
  simp only [State.takePosts_stream]

end Taken

/-- Settles O22: the positions, one post field by field, a group by its lateness, its taking, and the statistics. -/
theorem postAndLatenessArithmetic : Obligations.PostAndLatenessArithmetic := by
  unfold Obligations.PostAndLatenessArithmetic
  intro pos
  refine ⟨?positions, fun s i x => ⟨rfl, rfl⟩, ?post, ?group, ?taken, ?statistics⟩
  case positions => intro x f; cases f <;> exact ⟨rfl, rfl, rfl, rfl⟩
  case post =>
    intro modes x f n y
    have tally : y.tally f = min (x.tally f + n) 65535 := (addPost_tally modes x ⟨f, n⟩ f).trans (if_pos rfl)
    have total : y.total f = totalAfter modes[f.pos] (x.total f + n) :=
      (addPost_total modes x f ⟨f, n⟩).trans (if_pos rfl)
    exact ⟨tally, fun hold => by rw [total, hold]; rfl, fun wrap => by rw [total, wrap]; rfl,
      addPost_flag_same modes x f n, fun g other => addPost_other modes x n other, rfl⟩
  case group =>
    intro modes x g y
    exact ⟨Stream.addGroup_without modes x, fun l late => Stream.addGroup_late modes x late⟩
  case taken =>
    intro s i g x y t u
    have taken : s.takePosts i g = u := s.takePosts_eq i g
    exact ⟨taken, by rw [State.postGroup_eq, taken]⟩
  case statistics =>
    intro old l v value
    rw [← clampLateness_eq] at value
    subst value
    exact ⟨fun absent => by rw [absent]; rfl, fun st present => by rw [present, latenessAfter_some]⟩

end Sys2Proof.Machine
end

section
/-! Intervals: a close request, the report mode, and the visit of a sweep. -/

namespace Sys2Proof.Machine

/-! ### Intervals -/

/-- A sweep begun: the timer is restarted in AUTO and stands in MANUAL (R121). -/
theorem State.beginSweep_eq (s : State) : s.beginSweep = { s with tst := { s.tst with
    intervalNumber := s.tst.intervalNumber + 1
    intervalTimer := if s.tst.reportMode = .manual then s.tst.intervalTimer else some 0
    sweep := some 0 } } := by
  unfold State.beginSweep
  cases s.tst.reportMode <;> rfl

theorem State.closeRequest_idle {s : State} (idle : s.tst.sweep = none) : s.closeRequest = s.beginSweep := by
  unfold State.closeRequest; rw [idle]

theorem reportModeOf_auto {period : Nat} (least : 1 ≤ period) (most : period ≤ 3600) :
    reportModeOf 0 period = some (.auto period) := if_pos ⟨least, most⟩

theorem reportModeOf_manual (period : Nat) : reportModeOf 1 period = some .manual := rfl

theorem reportModeOf_refused {mode period : Nat}
    (bad : 1 < mode ∨ mode = 0 ∧ (period = 0 ∨ 3600 < period)) : reportModeOf mode period = none := by
  match mode with
  | 0 => exact if_neg (by omega)
  | 1 => omega
  | _ + 2 => rfl

section Taken
variable {s : State} {p : Port} {tag : Byte}

theorem exec_closeInterval_busy (h : s.runs p tag .closeInterval) (busy : s.tst.sweep ≠ none) :
    exec (.closeInterval p) s = .next (s.reply p tag .busy []) := by
  obtain ⟨high, started⟩ := h
  obtain ⟨i, underWay⟩ := Option.ne_none_iff_exists'.1 busy
  show live s _ = _
  rw [live_of_high high, started]
  simp only [underWay]

theorem exec_closeInterval_idle (h : s.runs p tag .closeInterval) (idle : s.tst.sweep = none) :
    exec (.closeInterval p) s = .next
      (s.beginSweep.reply p tag .ok (bytesBE 4 (s.tst.intervalNumber + 1).toNat)) := by
  obtain ⟨high, started⟩ := h
  show live s _ = _
  rw [live_of_high high, started]
  simp only [idle]
  rfl

theorem exec_intervalTimerExpiry {k : Nat} (high : s.resetLow = false) (running : s.tst.intervalTimer = some k) :
    exec .intervalTimerExpiry s = .next ((s.elapse (s.tst.timerLimit - k)).closeRequest) := by
  show live s _ = _
  rw [live_of_high high, running]

theorem exec_setReportMode_refused {mode period : Nat} (h : s.runs p tag (.setReportMode mode period))
    (bad : reportModeOf mode period = none) :
    exec (.setReportMode p) s = .next (s.reply p tag .badArgument []) := by
  obtain ⟨high, started⟩ := h
  show live s _ = _
  rw [live_of_high high, started]
  simp only [bad]

theorem exec_setReportMode {mode period : Nat} {m : ReportMode} (h : s.runs p tag (.setReportMode mode period))
    (good : reportModeOf mode period = some m) :
    exec (.setReportMode p) s = .next ((s.setReportMode m).reply p tag .ok
      (s.tst.reportMode.code :: bytesBE 2 s.tst.reportMode.period)) := by
  obtain ⟨high, started⟩ := h
  show live s _ = _
  rw [live_of_high high, started]
  simp only [good]

end Taken

/-- Settles O37: CLOSE_INTERVAL and the timer by the sweep they find, SET_REPORT_MODE by its arguments. -/
theorem intervalsBegin : Obligations.IntervalsBegin := by
  unfold Obligations.IntervalsBegin
  intro s begun
  refine ⟨fun p tag close => ⟨exec_closeInterval_busy close, fun idle => ?closed⟩,
    fun k sec high auto running idle => ?expired, fun p tag mode period set => ?set⟩
  case closed => rw [exec_closeInterval_idle close idle, State.beginSweep_eq]
  case expired =>
    have limit : s.tst.timerLimit = sec * 25000000 := by unfold TallyStore.timerLimit; rw [auto]
    have stillIdle : (s.elapse (sec * 25000000 - k)).tst.sweep = none := idle
    rw [exec_intervalTimerExpiry high running, limit, State.closeRequest_idle stillIdle, State.beginSweep_eq]
  case set =>
    intro was
    have found : s.tst.reportMode.code :: bytesBE 2 s.tst.reportMode.period = was := by
      cases mode : s.tst.reportMode <;> simp only [was, mode] <;> rfl
    refine ⟨fun auto least most => ?_, fun manual => ?_,
      fun bad => exec_setReportMode_refused set (reportModeOf_refused bad)⟩
    · subst auto; rw [exec_setReportMode set (reportModeOf_auto least most), found]; rfl
    · subst manual; rw [exec_setReportMode set (reportModeOf_manual period), found]; rfl

/-! ### The visit of a sweep -/

theorem exec_sweepVisit {s : State} {i : StreamIx} (high : s.resetLow = false) (underWay : s.tst.sweep = some i) :
    exec .sweepVisit s = .next (s.visit i) := by
  show live s _ = _
  rw [live_of_high high, underWay]

/-- A stream after its visit, its statistics read into the record if there are any (R122, R123). -/
theorem Stream.closeInterval_eq (x : Stream) (number : Tally) (t : Time) : x.closeInterval number t = { x with
    lastInterval := some
      { intervalNumber := number, closeTime := t
        values := x.interval
        lat := match x.lateness with
          | some l => some (l.latMin, l.latMax)
          | none => none
        health := x.health }
    interval := Vector.replicate 16 0
    lateness := none } := by
  unfold Stream.closeInterval Stream.closingRecord
  cases x.lateness <;> rfl

/-- The index after one below another does not wrap. -/
theorem streamIx_succ {i j : StreamIx} (h : i < j) : (i + 1).val = i.val + 1 :=
  Fin.val_add_one_of_lt (lt_of_lt_of_le h (Fin.le_last j))

section Moved
variable (s : State) {i : StreamIx}

theorem State.moveSweep_on (more : i.val < 255) :
    s.moveSweep i = { s with tst := { s.tst with sweep := some (i + 1) } } := by
  have next : (⟨i.val + 1, by omega⟩ : StreamIx) = i + 1 :=
    Fin.ext (streamIx_succ (j := Fin.last 255) more).symm
  unfold State.moveSweep
  rw [dif_pos (by omega), next]

theorem State.moveSweep_end (last : i.val = 255) :
    s.moveSweep i = State.post { s with tst := { s.tst with sweep := none } } .interval := by
  unfold State.moveSweep
  rw [dif_neg (by omega)]
  rfl

@[simp] theorem State.moveSweep_stream (i j : StreamIx) : (s.moveSweep i).stream j = s.stream j := by
  unfold State.moveSweep; split <;> rfl

theorem State.moveSweep_outputs (i : StreamIx) : sameOutputs s (s.moveSweep i) := by
  unfold State.moveSweep; split <;> exact ⟨rfl, rfl, rfl⟩

theorem State.moveSweep_accounts (i : StreamIx) :
    onlyAccounts { s with tst := (s.moveSweep i).tst } (s.moveSweep i) := by
  unfold State.moveSweep; split <;> rfl

end Moved

/-- No threshold condition holds of interval tallies that are 0 (R135). -/
theorem conditionFound_empty {x : Stream} (empty : x.interval = Vector.replicate 16 0) (gov : Option Profile)
    {c : AlarmClass} (threshold : c ≠ .silent) : conditionFound gov x c = false := by
  have zero : ∀ f, x.tally f = 0 := fun f => by unfold Stream.tally; rw [empty]; simp
  cases gov with
  | none => rfl
  | some p =>
    cases c with
    | silent => exact absurd rfl threshold
    | _ => simp [conditionFound, alarmCondition, Stream.alarmValue, zero]

/-- An evaluation of the thresholds on empty interval tallies leaves the SILENT alarm alone (R122, R125). -/
theorem newStates_thresholds_empty {x : Stream} (empty : x.interval = Vector.replicate 16 0)
    (gov : Option Profile) :
    newStates gov x AlarmClass.thresholds = ⟨false, false, false, false, x.alarms.silent⟩ := by
  have inactive : ∀ c, c ≠ .silent → conditionFound gov x c = false := fun c =>
    conditionFound_empty empty gov
  simp [newStates, AlarmClass.thresholds, AlarmStates.set, inactive]

theorem outputsSettled.trans_same {i : StreamIx} {s t u : State} (h : outputsSettled i s t) (k : sameOutputs t u)
    (stream : u.stream i = t.stream i) : outputsSettled i s u := by
  obtain ⟨lamp, line, latch⟩ := k
  unfold outputsSettled at *
  rw [lamp, line, latch, stream]
  exact h

/-- Accounts changed, with the same Tally Store items put into both states. -/
theorem onlyAccounts.withTst {s t : State} (h : onlyAccounts s t) (u : TallyStore) :
    onlyAccounts { s with tst := u } { t with tst := u } := by
  have written := congrArg (fun v : State => ({ v with tst := u } : State)) h
  exact written

/-- Settles O38: the stream closed, the evaluation of its thresholds, and the sweep moved on or ended. -/
theorem sweepVisitClosesOneStream : Obligations.SweepVisitClosesOneStream := by
  unfold Obligations.SweepVisitClosesOneStream
  intro s i high underWay x closed evaluated
  have visited : s.visit i = evaluated.moveSweep i := by
    have written : (s.stream i).closeInterval s.tst.intervalNumber s.link.lineTime = closed :=
      Stream.closeInterval_eq _ _ _
    unfold State.visit
    simp only [State.updStream_eq, State.stream_setStream_same, written]
    rfl
  have stream : (evaluated.moveSweep i).stream i =
      closed.evaluated AlarmClass.thresholds (s.profileOf x) := by
    rw [State.moveSweep_stream, State.evaluate_stream, State.stream_setStream_same]
    rfl
  have work : worksOn i s evaluated :=
    (setStream_worksOn s i closed rfl rfl).trans (State.evaluate_worksOn _ i _ _)
  have settled : outputsSettled i s evaluated :=
    outputsSettled.of_same (t := s.setStream i closed) ⟨rfl, rfl, rfl⟩
      (by rw [State.stream_setStream_same]) (by rw [State.stream_setStream_same]) (State.evaluate_settled _ i _ _)
  refine ⟨evaluated.moveSweep i, (exec_sweepVisit high underWay).trans (by rw [visited]), ?same, ?on, ?ended,
    ?alarms, ?shares, ?outputs, ?others, ?accounts, ?moved, ?posted⟩
  case same => rw [stream]; exact Stream.evaluated_same _ _ _
  case on => intro more; rw [State.moveSweep_on _ more, work.accounts.tst]
  case ended => intro last; rw [State.moveSweep_end _ last, work.accounts.tst]
  case alarms => rw [stream]; exact newStates_thresholds_empty rfl _
  case shares =>
    intro d defined
    rw [stream, State.profileOf_defined defined]
    exact closed.evaluated_shares _ _
  case outputs => exact settled.trans_same (State.moveSweep_outputs _ i) (State.moveSweep_stream _ i i)
  case others => intro j other; rw [State.moveSweep_stream]; exact work.stream j other
  case accounts =>
    have begun : onlyAccounts { s with tst := (evaluated.moveSweep i).tst }
        { evaluated with tst := (evaluated.moveSweep i).tst } := work.accounts.withTst _
    exact begun.trans (State.moveSweep_accounts _ i)
  case moved => intro more; rw [State.moveSweep_on _ more, work.accounts.tst]
  case posted =>
    intro last
    rw [State.moveSweep_end _ last, ← work.accounts.tst]
    exact ⟨rfl, work.grows.posted (t := { evaluated with tst := { evaluated.tst with sweep := none } })
      (State.post_postedToAll _ .interval)⟩

end Sys2Proof.Machine
end

section
/-! Totals: CLEAR_TOTALS and SET_TOTAL_MODE. -/

namespace Sys2Proof.Machine

/-! ### CLEAR_TOTALS -/

section Taken
variable {s : State} {p : Port} {tag : Byte}

theorem exec_clearTotals_refused {first last : Nat} (h : s.runs p tag (.clearTotals first last))
    (bad : 255 < first ∨ last < first) :
    exec (.clearTotals p) s = .next (s.reply p tag .badArgument []) := by
  obtain ⟨high, started⟩ := h
  show live s _ = _
  rw [live_of_high high, started]
  by_cases beyond : 255 < first
  · simp only [streamOf_beyond beyond]
  · obtain ⟨i, within⟩ := streamOf_within (Nat.not_lt.1 beyond)
    have empty : min last 255 < first := by omega
    simp only [within, if_pos empty]

theorem exec_clearTotals {last : Nat} {i j : StreamIx} (h : s.runs p tag (.clearTotals i.val last))
    (clamped : j.val = min last 255) (range : i.val ≤ last) :
    exec (.clearTotals p) s = .next (s.setRunning p ⟨tag, .clearing i i j⟩) := by
  obtain ⟨high, started⟩ := h
  have nonempty : ¬ j.val < i.val := by omega
  show live s _ = _
  rw [live_of_high high, started]
  simp only [streamOf_val, ← clamped, if_neg nonempty, Fin.ofNat_val_eq_self]

theorem exec_clearTotalsStreamStep {first next last : StreamIx} (high : s.resetLow = false)
    (running : s.runningOf p = some ⟨tag, .clearing first next last⟩) :
    exec (.clearTotalsStreamStep p) s = .next
      (let t := s.setStream next (s.stream next).clearTotals
      if next < last then t.setRunning p ⟨tag, .clearing first (next + 1) last⟩
      else t.reply p tag .ok (bytesBE 2 first ++ bytesBE 2 last)) := by
  show live s _ = _
  rw [live_of_high high, running]
  rfl

end Taken

/-! ### SET_TOTAL_MODE -/

theorem totalModeOf_refused {mode : Nat} (bad : 1 < mode) : totalModeOf mode = none := by
  match mode with
  | 0 | 1 => omega
  | _ + 2 => rfl

theorem totalModeOf_good {mode : Nat} (good : mode ≤ 1) :
    totalModeOf mode = some (if mode = 0 then .hold else .wrap) := by
  match mode with
  | 0 | 1 => rfl
  | _ + 2 => omega

/-- The modes set are those of the positions named, the others stand (R114). -/
theorem modesAfter_get (m : TotalMode) (positions : List Nat) (modes : Vector TotalMode 16) (f : Fin 16) :
    (modesAfter modes m positions)[f] = if f.val ∈ positions then m else modes[f] := by
  induction positions generalizing modes with
  | nil => simp [modesAfter]
  | cons k ks ih =>
    have first : (modes.setIfInBounds k m)[f] = if f.val = k then m else modes[f] := by
      simp [Vector.getElem_setIfInBounds, eq_comm]
    show (modesAfter (modes.setIfInBounds k m) m ks)[f] = _
    rw [ih, first]
    by_cases here : f.val = k <;> by_cases later : f.val ∈ ks <;> simp [here, later]

section SetTotalMode
variable {s : State} {p : Port} {tag : Byte} {mode : Nat} {positions : List Nat}
  (h : s.runs p tag (.setTotalMode mode positions))
include h

theorem exec_setTotalMode_running (running : s.engine = .running) :
    exec (.setTotalMode p) s = .next (s.reply p tag .notHalted []) := by
  obtain ⟨high, started⟩ := h
  show live s _ = _
  rw [live_of_high high, started]
  simp only [if_pos running]

theorem exec_setTotalMode_refused (halted : s.engine = .halted) (bad : 1 < mode ∨ ∃ k ∈ positions, 15 < k) :
    exec (.setTotalMode p) s = .next (s.reply p tag .badArgument []) := by
  obtain ⟨high, started⟩ := h
  have notRunning : s.engine ≠ .running := by rw [halted]; simp
  show live s _ = _
  rw [live_of_high high, started]
  simp only [if_neg notRunning, List.any_eq_true, decide_eq_true_eq]
  rcases bad with unknown | beyond
  · rw [totalModeOf_refused unknown]; exact congrArg _ (ite_self _)
  · rw [if_pos beyond]

theorem exec_setTotalMode (halted : s.engine = .halted) {m : TotalMode} (known : totalModeOf mode = some m)
    (within : ∀ k ∈ positions, k ≤ 15) :
    exec (.setTotalMode p) s = .next
      (State.reply { s with tst := { s.tst with totalModes := modesAfter s.tst.totalModes m positions } } p tag .ok
        ((modesAfter s.tst.totalModes m positions).toList.map TotalMode.code)) := by
  obtain ⟨high, started⟩ := h
  have notRunning : s.engine ≠ .running := by rw [halted]; simp
  have noneBeyond : ¬ ∃ k ∈ positions, 15 < k := fun ⟨k, named, beyond⟩ => absurd (within k named) (by omega)
  show live s _ = _
  rw [live_of_high high, started]
  simp only [if_neg notRunning, List.any_eq_true, decide_eq_true_eq, if_neg noneBeyond, known]

end SetTotalMode

/-- Settles O39: CLEAR_TOTALS by its range, then step by step, and SET_TOTAL_MODE by the engine and its arguments. -/
theorem totalsCommands : Obligations.TotalsCommands := by
  unfold Obligations.TotalsCommands
  intro s p tag
  refine ⟨fun first last clear => ⟨exec_clearTotals_refused clear, fun i j start clamped range => ?begun⟩,
    fun first next last high running => ?step, fun mode positions set => ⟨exec_setTotalMode_running set,
      exec_setTotalMode_refused set, fun halted good within => ?set⟩⟩
  case begun => subst start; exact exec_clearTotals clear clamped range
  case step =>
    intro cleared
    rw [exec_clearTotalsStreamStep high running]
    refine ⟨fun more => ⟨next + 1, streamIx_succ more, ?_⟩, fun done => ?_⟩
    · simp only [if_pos more]; rfl
    · simp only [if_neg (not_lt.2 done)]; rfl
  case set => exact ⟨_, exec_setTotalMode set halted (totalModeOf_good good) within, modesAfter_get _ positions _⟩

end Sys2Proof.Machine
end

section
/-! The output counts among the bounds that every row keeps, and an evaluation of all classes. -/

namespace Sys2Proof.Machine

/-- Settles O58: the output counts are among the bounds that every row keeps. -/
theorem stepKeepsOutputs : Obligations.StepKeepsOutputs := fun _ _ outputs h =>
  (step_keepsAll h).bounds.outputs outputs

/-- Settles O29: the alarms and the shares by the evaluated stream, the outputs by the counts that follow them. -/
theorem evaluationFollowsTheConditions : Obligations.EvaluationFollowsTheConditions := by
  unfold Obligations.EvaluationFollowsTheConditions
  intro s i d x defined p y
  have governed : s.profileOf x = some p := State.profileOf_defined defined
  have stream : y = x.evaluated AlarmClass.inOrder (some p) := by
    rw [← governed]; exact s.evaluateAll_stream i
  have work := s.evaluateAll_worksOn i
  rw [stream]
  exact ⟨fun live => Stream.evaluated_alarmsFollow live p, fun off => (Stream.evaluated_off off _).1,
    x.evaluated_shares _ p, State.evaluate_settled s i _ _, x.evaluated_same _ _, work.accounts, work.stream,
    by rw [← governed]; rfl⟩

end Sys2Proof.Machine
end

section
/-! SET_PROFILE: the streams that name a profile, its replacement, and the re-evaluations one by one. -/

namespace Sys2Proof.Machine

/-! ### The streams that name a profile -/

theorem State.namesProfile_iff (s : State) (k : ProfileIx) (i : StreamIx) : s.namesProfile k i = true ↔
    (s.stream i).health ≠ .off ∧ ∃ d, (s.stream i).definition = some d ∧ d.profile = k := by
  unfold State.namesProfile
  rw [Bool.and_eq_true, bne_iff_ne, Option.any_eq_true]
  simp only [beq_iff_eq]

/-- An evaluation changes no health and no definition, and so not which streams name a profile (R134). -/
theorem State.namesProfile_evaluateAll (s : State) (i : StreamIx) (k : ProfileIx) (j : StreamIx) :
    (s.evaluateAll i).namesProfile k j = s.namesProfile k j := by
  unfold State.namesProfile
  by_cases same : j = i
  · subst same
    rw [State.evaluateAll_stream]
    rfl
  · rw [(s.evaluateAll_worksOn i).stream j same]

section Next
variable {s : State} {k : ProfileIx} {low : Nat}

/-- The next stream that names a profile is the lowest from `low` on (R134). -/
theorem State.nextNaming_some {i : StreamIx} : s.nextNaming k low = some i ↔
    (low ≤ i.val ∧ s.namesProfile k i = true)
      ∧ ∀ j : StreamIx, low ≤ j.val → j < i → s.namesProfile k j = false := by
  unfold State.nextNaming allStreams
  rw [← Fin.find?_eq_find?_finRange, Fin.find?_eq_some_iff]
  simp only [Bool.and_eq_true, decide_eq_true_eq, Bool.and_eq_false_imp]
  exact and_congr_right fun _ => forall_congr' fun _ => forall_comm

theorem State.nextNaming_none : s.nextNaming k low = none ↔
    ∀ i : StreamIx, low ≤ i.val → s.namesProfile k i = false := by
  unfold State.nextNaming allStreams
  rw [← Fin.find?_eq_find?_finRange, Fin.find?_eq_none_iff]
  simp only [Bool.and_eq_false_imp, decide_eq_true_eq]

variable (p : Port) (tag : Byte) (before : Profile)

/-- A SET_PROFILE goes on while a stream from `low` on names its profile (R134). -/
theorem State.goOnReevaluating_more {i : StreamIx} (from_low : low ≤ i.val) (named : s.namesProfile k i = true) :
    s.goOnReevaluating p tag k low before = s.setRunning p ⟨tag, .reevaluating k low before⟩ := by
  unfold State.goOnReevaluating
  cases next : s.nextNaming k low with
  | none => rw [State.nextNaming_none.1 next i from_low] at named; cases named
  | some _ => rfl

/-- A SET_PROFILE with no stream left replies with the record as it stood before (R133, R134). -/
theorem State.goOnReevaluating_done
    (unnamed : ∀ i : StreamIx, low ≤ i.val → s.namesProfile k i = false) :
    s.goOnReevaluating p tag k low before = s.reply p tag .ok before.bytes := by
  unfold State.goOnReevaluating
  rw [State.nextNaming_none.2 unnamed]

end Next

/-! ### The rows -/

theorem ProfileArg.bad_iff (arg : ProfileArg) : arg.bad = true ↔
    arg.silentDeclare = 0 ∨ arg.silentClear = 0 ∨ 1 < arg.edgeMode := by
  unfold ProfileArg.bad
  rw [Bool.or_eq_true, Bool.or_eq_true, beq_iff_eq, beq_iff_eq, decide_eq_true_eq, or_assoc]

section Taken
variable {s : State} {p : Port} {tag : Byte}

theorem exec_setProfile_refused {n : Nat} {arg : ProfileArg} (h : s.runs p tag (.setProfile n arg))
    (bad : 7 < n ∨ arg.bad = true) : exec (.setProfile p) s = .next (s.reply p tag .badArgument []) := by
  obtain ⟨high, started⟩ := h
  show live s _ = _
  rw [live_of_high high, started]
  by_cases within : n < 8
  · have refused : arg.bad = true := bad.resolve_left (by omega)
    simp only [dif_pos within, if_pos refused]
  · simp only [dif_neg within]

theorem exec_setProfile {k : ProfileIx} {arg : ProfileArg} (h : s.runs p tag (.setProfile k.val arg))
    (good : ¬ arg.bad = true) : exec (.setProfile p) s = .next
      (State.goOnReevaluating { s with acp := { s.acp with profiles := s.acp.profiles.set k arg.toProfile } }
        p tag k 0 s.acp.profiles[k]) := by
  obtain ⟨high, started⟩ := h
  show live s _ = _
  rw [live_of_high high, started]
  simp only [dif_pos k.isLt, if_neg good]

theorem exec_profileReevaluation {k : ProfileIx} {low : Nat} {before : Profile} {i : StreamIx}
    (high : s.resetLow = false) (running : s.runningOf p = some ⟨tag, .reevaluating k low before⟩)
    (next : s.nextNaming k low = some i) : exec (.profileReevaluation p) s = .next
      ((s.evaluateAll i).goOnReevaluating p tag k (i.val + 1) before) := by
  show live s _ = _
  rw [live_of_high high, running]
  simp only [next]

end Taken

/-- Settles O41: the checks, then the replacement and each re-evaluation by the streams that are left to name the
profile. -/
theorem setProfileReplacesThenReevaluates : Obligations.SetProfileReplacesThenReevaluates := by
  unfold Obligations.SetProfileReplacesThenReevaluates
  intro s p tag names
  have names_iff (k : ProfileIx) (i : StreamIx) : s.namesProfile k i = true ↔ names k i := s.namesProfile_iff k i
  have unnamed {k : ProfileIx} {i : StreamIx} (h : ¬ names k i) : s.namesProfile k i = false :=
    Bool.eq_false_iff.2 fun named => h ((names_iff k i).1 named)
  refine ⟨fun n arg set => ⟨fun bad => exec_setProfile_refused set (bad.imp_right arg.bad_iff.2),
    fun k index declare clear mode => ?replaced⟩, fun k low before high running i from_low named lowest => ?step⟩
  case replaced =>
    intro u
    subst index
    have good : ¬ arg.bad = true := fun bad => by
      obtain noDeclare | noClear | unknown := arg.bad_iff.1 bad
      · exact declare noDeclare
      · exact clear noClear
      · exact absurd mode (Nat.not_le.2 unknown)
    rw [exec_setProfile set good]
    exact ⟨fun ⟨i, named⟩ => congrArg _ (State.goOnReevaluating_more (s := u) p tag _ i.val.zero_le
        ((names_iff k i).2 named)),
      fun nobody => congrArg _ (State.goOnReevaluating_done (s := u) p tag _ fun i _ => unnamed (nobody i))⟩
  case step =>
    intro u
    have next : s.nextNaming k low = some i := State.nextNaming_some.2
      ⟨⟨from_low, (names_iff k i).2 named⟩, fun j above below => unnamed (lowest j above below)⟩
    rw [exec_profileReevaluation high running next]
    refine ⟨fun ⟨j, above, named⟩ => congrArg _ (State.goOnReevaluating_more p tag before above ?_),
      fun nobody => congrArg _ (State.goOnReevaluating_done p tag before fun j above => ?_)⟩
    · rw [State.namesProfile_evaluateAll]; exact (names_iff k j).2 named
    · rw [State.namesProfile_evaluateAll]; exact unnamed (nobody j above)

end Sys2Proof.Machine
end

section
/-! Events popped and notices cleared or enabled: the bits of the notices, BOARD_IRQ_N, and the commands. -/

namespace Sys2Proof.Machine

/-! ### Notices and BOARD_IRQ_N -/

/-- Two words have a bit in common when they are not disjoint (R151). -/
theorem and_ne_zero_iff {w : Nat} (a b : BitVec w) :
    a &&& b ≠ 0 ↔ ∃ k, k < w ∧ a.getLsbD k = true ∧ b.getLsbD k = true := by
  constructor
  · intro common
    by_contra none
    refine common (BitVec.eq_of_getLsbD_eq fun k hk => ?_)
    rw [BitVec.getLsbD_and, BitVec.ofNat_eq_ofNat, BitVec.getLsbD_zero, Bool.eq_false_iff, ne_eq, Bool.and_eq_true]
    exact fun both => none ⟨k, hk, both⟩
  · rintro ⟨k, -, left, right⟩ zero
    have bit := congrArg (fun v => v.getLsbD k) zero
    simp [left, right] at bit

theorem State.boardIrqAsserted_iff (s : State) : s.boardIrqAsserted = true ↔ ∃ b : Nat, b < 16
    ∧ s.acp.summaries.board.getLsbD b = true ∧ s.acp.boardEnable.getLsbD b = true := by
  unfold State.boardIrqAsserted
  rw [bne_iff_ne, and_ne_zero_iff]

/-! ### Records popped -/

theorem popCount_eq (n : Nat) : popCount n = if n = 0 then 1 else if 8 < n then 8 else n := by
  show max 1 (min n 8) = _
  split
  · omega
  · split <;> omega

section Taken
variable {s : State} {p : Port} {tag : Byte}

/-- POP_EVENTS takes as many of the oldest records as there are, at most those it asks for (R143). -/
theorem exec_popEvents {n : Nat} (h : s.runs p tag (.popEvents n)) : exec (.popEvents p) s = .next
    (let q := s.acp.queues.get p
    let k := min (popCount n) q.records.length
    State.reply { s with acp := { s.acp with queues := s.acp.queues.set p ⟨q.records.drop k, 0⟩ } } p tag .ok
      ([BitVec.ofNat 8 k, BitVec.ofNat 8 (q.records.length - k), BitVec.ofNat 8 q.lost]
        ++ (q.records.take k).flatMap Event.bytes)) := by
  obtain ⟨high, started⟩ := h
  have taken (records : List Event) :
      records.take (popCount n) = records.take (min (popCount n) records.length) := List.take_eq_take_min
  have left (records : List Event) :
      records.drop (popCount n) = records.drop (min (popCount n) records.length) := List.drop_eq_drop_min
  show live s _ = _
  rw [live_of_high high, started]
  simp only [taken, left, List.length_take, List.length_drop, min_assoc, min_self, bytesBE_one,
    List.cons_append, List.nil_append]

/-! ### CLEAR_NOTICES and SET_NOTICE_ENABLE -/

theorem reservedNotices_eq : reservedNotices = 0xF000#16 := rfl

theorem exec_clearNotices {mask : BitVec 16} (h : s.runs p tag (.clearNotices mask)) :
    exec (.clearNotices p) s = .next
      (if mask &&& reservedNotices = 0 then
        State.reply { s with acp := { s.acp with
          summaries := s.acp.summaries.set p (s.acp.summaries.get p &&& ~~~mask) } } p tag .ok
          (wordBytes (s.acp.summaries.get p &&& ~~~mask))
      else s.reply p tag .badArgument []) := by
  obtain ⟨high, started⟩ := h
  show live s _ = _
  rw [live_of_high high, started]

theorem exec_setNoticeEnable {mask : BitVec 16} (h : s.runs p tag (.setNoticeEnable mask)) :
    exec (.setNoticeEnable p) s = .next
      (if p ≠ .board then s.reply p tag .badCommand []
      else if mask &&& reservedNotices = 0 then
        State.reply { s with acp := { s.acp with boardEnable := mask } } p tag .ok (wordBytes s.acp.boardEnable)
      else s.reply p tag .badArgument []) := by
  obtain ⟨high, started⟩ := h
  show live s _ = _
  rw [live_of_high high, started]

end Taken

/-- Settles O35: the notices by their bits, BOARD_IRQ_N by a bit in common, and each command by its checks. -/
theorem eventAndNoticeCommands : Obligations.EventAndNoticeCommands := by
  unfold Obligations.EventAndNoticeCommands
  refine ⟨?notices, fun e => ?bytes, State.boardIrqAsserted_iff, fun s p tag => ⟨fun n pop => ?popped,
    fun mask clear => ⟨fun reserved => ?keepsSummary, fun unreserved => ?cleared⟩,
    fun mask enable => ⟨fun other => ?notBoard, fun board reserved => ?keepsEnable,
      fun board unreserved => ?enabled⟩⟩⟩
  case notices =>
    intro bit n
    have here : bit n = n.bit := by cases n <;> rfl
    rw [here]
    exact ⟨fun _ => rfl, fun _ => rfl⟩
  case bytes => obtain ⟨stream, cls, edge, time, value⟩ := e; cases cls <;> cases edge <;> rfl
  case popped => rw [exec_popEvents pop, popCount_eq]
  case keepsSummary => rw [exec_clearNotices clear, reservedNotices_eq, if_neg reserved]
  case cleared => rw [exec_clearNotices clear, reservedNotices_eq, if_pos unreserved]; rfl
  case notBoard => rw [exec_setNoticeEnable enable, if_pos other]
  case keepsEnable => rw [exec_setNoticeEnable enable, if_neg (not_not.2 board), reservedNotices_eq, if_neg reserved]
  case enabled =>
    rw [exec_setNoticeEnable enable, if_neg (not_not.2 board), reservedNotices_eq, if_pos unreserved]
    rfl

end Sys2Proof.Machine
end

section
/-! The reads of one item: the byte forms of what they send, and the commands. -/

namespace Sys2Proof.Machine

/-! ### Byte forms -/

theorem bytesBE_zero (n : Nat) : bytesBE n 0 = List.replicate n 0 := by
  induction n with
  | zero => rfl
  | succ n ih => rw [bytesBE, ih, Nat.zero_div]; rfl

/-- The flags of a list as a number are the sum of their powers of two (R183). -/
theorem flagsWord_eq (fs : List Bool) : flagsWord fs = ∑ k : Fin fs.length, (fs[k]).toNat * 2 ^ k.val := by
  induction fs with
  | nil => rfl
  | cons b fs ih =>
    have doubled (k : Fin fs.length) : 2 * ((fs[k]).toNat * 2 ^ k.val) = (fs[k]).toNat * 2 ^ (k.val + 1) := by ring
    calc flagsWord (b :: fs)
        = b.toNat + 2 * ∑ k : Fin fs.length, (fs[k]).toNat * 2 ^ k.val := by rw [← ih]; rfl
      _ = b.toNat + ∑ k : Fin fs.length, (fs[k]).toNat * 2 ^ (k.val + 1) := by
        rw [Finset.mul_sum, Finset.sum_congr rfl fun k _ => doubled k]
      _ = b.toNat * 2 ^ 0 + ∑ k : Fin fs.length, (fs[k]).toNat * 2 ^ (k.val + 1) := by
        rw [pow_zero, Nat.mul_one]
      _ = _ := (Fin.sum_univ_succ fun k : Fin (b :: fs).length => ((b :: fs)[k]).toNat * 2 ^ k.val).symm

theorem flagsWord_toList {n : Nat} (v : Vector Bool n) :
    flagsWord v.toList = ∑ f : Fin n, (v[f]).toNat * 2 ^ f.val := by
  obtain ⟨⟨fs⟩, rfl⟩ := v
  exact flagsWord_eq fs

theorem latenessBytes_none : latenessBytes none = 0 :: List.replicate 12 0 :=
  congrArg _ (bytesBE_zero 12)

theorem latPairBytes_none : latPairBytes none = 0 :: List.replicate 8 0 :=
  congrArg _ (bytesBE_zero 8)

theorem recordBytes_none : recordBytes none = 0 :: List.replicate 52 0 :=
  congrArg _ (bytesBE_zero 52)

/-! ### The commands -/

section Taken
variable {s : State} {p : Port} {tag : Byte}

theorem exec_getStream_beyond {n : Nat} (h : s.runs p tag (.getStream n)) (beyond : 255 < n) :
    exec (.getStream p) s = .next (s.reply p tag .badArgument []) := by
  obtain ⟨high, started⟩ := h
  show live s _ = _
  rw [live_of_high high, started]
  simp only [streamOf_beyond beyond]

theorem exec_getStream {i : StreamIx} (h : s.runs p tag (.getStream i.val)) :
    exec (.getStream p) s = .next (s.reply p tag .ok (s.streamBytes i)) := by
  obtain ⟨high, started⟩ := h
  show live s _ = _
  rw [live_of_high high, started]
  simp only [streamOf_val]

theorem exec_getPortTallies {n : Nat} (h : s.runs p tag (.getPortTallies n)) :
    exec (.getPortTallies p) s = .next
      (if h : n < 24 then s.reply p tag .ok (bytesBE 1 n ++ (s.portTallies[n]).bytes)
      else s.reply p tag .badArgument []) := by
  obtain ⟨high, started⟩ := h
  show live s _ = _
  rw [live_of_high high, started]

theorem exec_getLink (h : s.runs p tag .getLink) :
    exec (.getLink p) s = .next (s.reply p tag .ok s.link.bytes) := by
  obtain ⟨high, started⟩ := h
  show live s _ = _
  rw [live_of_high high, started]

theorem exec_getProfile {n : Nat} (h : s.runs p tag (.getProfile n)) :
    exec (.getProfile p) s = .next
      (if h : n < 8 then s.reply p tag .ok (bytesBE 1 n ++ (s.acp.profiles[n]).bytes)
      else s.reply p tag .badArgument []) := by
  obtain ⟨high, started⟩ := h
  show live s _ = _
  rw [live_of_high high, started]

theorem exec_stageRead {first : Nat} (h : s.runs p tag (.stageRead first)) :
    exec (.stageRead p) s = .next
      (if 31 < first then s.reply p tag .badArgument [] else s.reply p tag .ok (s.staging.bytes first)) := by
  obtain ⟨high, started⟩ := h
  show live s _ = _
  rw [live_of_high high, started]
  by_cases beyond : 31 < first
  · have outside : ¬ first < stagePlaces := Nat.not_lt.2 beyond
    simp only [if_neg outside, if_pos beyond]
  · have within : first < stagePlaces := Nat.not_le.1 beyond
    simp only [if_pos within, if_neg beyond]

theorem exec_getLatched_empty {slot : Nat} (h : s.runs p tag (.getLatched slot))
    (empty : (s.banks.get p)[slot]? = none) :
    exec (.getLatched p) s = .next (s.reply p tag .emptySlot []) := by
  obtain ⟨high, started⟩ := h
  show live s _ = _
  rw [live_of_high high, started]
  simp only [empty]

theorem exec_getLatched {slot : Nat} {c : StreamCopy} (h : s.runs p tag (.getLatched slot))
    (latched : (s.banks.get p)[slot]? = some c) :
    exec (.getLatched p) s = .next (s.reply p tag .ok c.bytes) := by
  obtain ⟨high, started⟩ := h
  show live s _ = _
  rw [live_of_high high, started]
  simp only [latched]

theorem exec_getNotices (h : s.runs p tag .getNotices) :
    exec (.getNotices p) s = .next (s.reply p tag .ok (wordBytes (s.acp.summaries.get p)
      ++ bytesBE 1 (s.acp.queues.get p).records.length ++ bytesBE 1 (s.acp.queues.get p).lost
      ++ wordBytes s.acp.boardEnable)) := by
  obtain ⟨high, started⟩ := h
  show live s _ = _
  rw [live_of_high high, started]

end Taken

/-- Settles O33: the byte forms field by field, then each command's reply by the byte form of its item. -/
theorem readCommandsReply : Obligations.ReadCommandsReply := by
  unfold Obligations.ReadCommandsReply
  intro healthCode routing
  have health : healthCode = Health.code := funext fun h => by cases h <;> rfl
  refine ⟨fun d => ?definition, fun q => ?profile, fun e => ?entry, fun c => ?copy, fun s p tag =>
    ⟨fun n get => ?stream, fun n get => ?portTallies, fun get => ?link, fun n get => ?getProfile,
      fun first get => ?stageRead, fun slot get => ?latched, fun get => ?notices⟩⟩
  case definition =>
    rw [d.bytes_eq]
    cases d.pathB <;> cases d.label <;> simp [pathByte, flagByte, absentCode]
  case profile =>
    unfold Profile.bytes
    cases q.edgeMode <;> simp [routing, Route.byte, EdgeMode.code]
  case entry => cases e <;> rfl
  case copy =>
    rw [health]
    unfold StreamCopy.bytes
    refine congrArg₂ (· ++ ·) (congrArg₂ (· ++ ·) (congrArg₂ (· ++ ·) ?tallies ?lateness) ?record) ?defined
    case tallies => rw [bytesBE_one, flagsWord_toList]; rfl
    case lateness =>
      cases c.lateness with
      | none => exact latenessBytes_none
      | some l => simp [latenessBytes, lateBytes, flagByte]
    case record =>
      cases c.lastInterval with
      | none => exact recordBytes_none
      | some r =>
        cases lat : r.lat with
        | none => simp [recordBytes, lat, latPairBytes_none, tallyBytes, timeBytes, flagByte]
        | some v => simp [recordBytes, lat, latPairBytes, lateBytes, tallyBytes, timeBytes, flagByte]
    case defined => cases c.definition <;> rfl
  case stream =>
    split
    case isTrue within =>
      rw [health]
      exact (exec_getStream (i := ⟨n, within⟩) get).trans rfl
    case isFalse beyond => exact exec_getStream_beyond get (by omega)
  case portTallies =>
    rw [exec_getPortTallies get, bytesBE_one]
    simp [PortTallies.bytes, tallyBytes]
  case link =>
    rw [exec_getLink get]
    rfl
  case getProfile => rw [exec_getProfile get, bytesBE_one]; rfl
  case stageRead =>
    rw [exec_stageRead get]
    unfold Staging.bytes
    rw [bytesBE_one]
    refine congrArg (fun bytes => Host.Outcome.next (if 31 < first then _ else s.reply p tag .ok bytes))
      (congrArg₂ (· ++ ·) (congrArg₂ (· ++ ·) (congrArg₂ (· ++ ·) (congrArg₂ (· :: ·) rfl
        (congrArg₂ (· :: ·) ?holder (congrArg (· :: []) ?source))) ?armTime) rfl) rfl)
    case holder => cases s.staging.holder with
      | none => rfl
      | some holder => cases holder <;> rfl
    case source => cases s.staging.source with
      | none => rfl
      | some source => cases source <;> rfl
    case armTime => cases s.staging.armTime <;> rfl
  case latched =>
    split
    next empty => exact exec_getLatched_empty get empty
    next c latched => exact exec_getLatched get latched
  case notices => rw [exec_getNotices get]; simp [wordBytes]

end Sys2Proof.Machine
end

section
/-! Alarm events: the pushes and notices of one, and those an evaluation makes. -/

namespace Sys2Proof.Machine

/-! ### Pushes -/

@[simp] theorem PerPort.set_get {α : Type} (x : PerPort α) (p : Port) : x.set p (x.get p) = x := by
  cases p <;> rfl

/-- What a push adds to the summary of its port: QUEUE_LOST where the queue is full (R142). -/
def EventQueue.lossWord (q : EventQueue) : BitVec 16 := if 32 ≤ q.records.length then 2#16 else 0#16

theorem EventQueue.push_eq (q : EventQueue) (e : Event) : q.push e =
    if q.records.length < 32 then ⟨q.records ++ [e], q.lost⟩ else ⟨q.records, min (q.lost + 1) 255⟩ := rfl

theorem Notice.word_queueLost : Notice.queueLost.word = 2#16 := by decide

theorem Notice.word_alarm : Notice.alarm.word = 1#16 := by decide

/-- A push writes its queue and its port's summary (R142). -/
theorem State.pushEvent_eq (s : State) (e : Event) (p : Port) : s.pushEvent e p =
    { s with acp := { s.acp with
      queues := s.acp.queues.set p ((s.acp.queues.get p).push e)
      summaries := s.acp.summaries.set p (s.acp.summaries.get p ||| (s.acp.queues.get p).lossWord) } } := by
  unfold State.pushEvent EventQueue.lossWord
  by_cases room : (s.acp.queues.get p).records.length < 32
  · simp [room, Nat.not_le.2 room]
  · simp [room, Nat.not_lt.1 room, State.postTo, Notice.word_queueLost]

/-- An alarm event writes the three queues and the three summaries (R140). -/
theorem State.emit_eq (s : State) (e : Event) (irq : Bool) : s.emit e irq =
    { s with acp := { s.acp with
      queues := ⟨s.acp.queues.board.push e, s.acp.queues.line.push e, s.acp.queues.service.push e⟩
      summaries :=
        ⟨s.acp.summaries.board ||| s.acp.queues.board.lossWord ||| (if irq then 1#16 else 0#16),
          s.acp.summaries.line ||| s.acp.queues.line.lossWord ||| 1#16,
          s.acp.summaries.service ||| s.acp.queues.service.lossWord ||| 1#16⟩ } } := by
  unfold State.emit
  simp only [State.pushEvent_eq, State.postTo, Notice.word_alarm]
  cases irq
  · simp only [Bool.false_eq_true, if_false, BitVec.or_zero]
    rfl
  · rfl

/-! ### The edges of an evaluation -/

/-- The event queues and the notice summaries are the same in t as in s. -/
def sameEvents (s t : State) : Prop := t.acp.queues = s.acp.queues ∧ t.acp.summaries = s.acp.summaries

theorem sameEvents.emit {s t : State} (h : sameEvents s t) (e : Event) (irq : Bool) :
    sameEvents (s.emit e irq) (t.emit e irq) := by
  obtain ⟨queues, summaries⟩ := h
  unfold sameEvents
  simp only [State.emit_eq, queues, summaries, and_self]

theorem sameEvents.emitAll {s t : State} (h : sameEvents s t) (p : Profile) (es : List Event) :
    sameEvents (s.emitAll p es) (t.emitAll p es) := by
  induction es generalizing s t with
  | nil => exact h
  | cons e es ih => exact ih (h.emit e _)

/-- The event of an edge of class c of stream i, which stands as y at line time a, if the edge mode makes one (R139,
R140). -/
def Stream.edgeEvent (y : Stream) (i : StreamIx) (p : Profile) (a : Time) (c : AlarmClass) : Option Event :=
  if y.alarms.get c then some ⟨i, c, .assert, a, y.alarmValue c⟩
  else if p.edgeMode = .both then some ⟨i, c, .deassert, a, y.alarmValue c⟩ else none

theorem State.takeEdge_emits (s : State) (i : StreamIx) (p : Profile) (c : AlarmClass) :
    s.takeEdge i (some p) c = s.emitAll p ((s.stream i).edgeEvent i p s.link.lineTime c).toList := by
  unfold State.takeEdge Stream.edgeEvent
  by_cases asserts : (s.stream i).alarms.get c
  · simp [asserts, edgeMakesEvent, State.emitAll]
  · by_cases both : p.edgeMode = .both <;> simp [asserts, both, edgeMakesEvent, State.emitAll]

theorem State.takeEdges_emit (cs : List AlarmClass) (s : State) (i : StreamIx) (p : Profile) :
    cs.foldl (fun t c => t.takeEdge i (some p) c) s =
      s.emitAll p (cs.filterMap ((s.stream i).edgeEvent i p s.link.lineTime)) := by
  induction cs generalizing s with
  | nil => rfl
  | cons c cs ih =>
    have streams : (s.takeEdge i (some p) c).stream i = s.stream i := by
      unfold State.stream; rw [State.streams_takeEdge]
    have link := (s.takeEdge_worksOn i (some p) c).accounts.link
    rw [List.foldl_cons, ih, streams, link, State.takeEdge_emits, List.filterMap_cons]
    cases (s.stream i).edgeEvent i p s.link.lineTime c <;> rfl

theorem AlarmStates.get_set (a : AlarmStates) (c d : AlarmClass) (v : Bool) :
    (a.set c v).get d = if d = c then v else a.get d := by
  cases c <;> cases d <;> rfl

/-- The classes of a request take their conditions, the others stand (R137). -/
theorem newStates_get (gov : Option Profile) (x : Stream) (classes : List AlarmClass) (c : AlarmClass) :
    (newStates gov x classes).get c = if c ∈ classes then conditionFound gov x c else x.alarms.get c := by
  unfold newStates
  generalize x.alarms = a
  induction classes generalizing a with
  | nil => simp
  | cons d ds ih =>
    rw [List.foldl_cons, ih, AlarmStates.get_set]
    by_cases first : c = d <;> by_cases later : c ∈ ds <;> simp [first, later]

/-- An evaluation of stream i makes the events of the classes whose condition differs, in class order (R137, R139,
R140). -/
theorem State.evaluate_events (s : State) (i : StreamIx) (classes : List AlarmClass) (p : Profile) :
    sameEvents (s.emitAll p ((changedClasses (some p) (s.stream i) classes).filterMap
        (Stream.edgeEvent { s.stream i with alarms := newStates (some p) (s.stream i) classes } i p s.link.lineTime)))
      (s.evaluate i classes (some p)) := by
  unfold State.evaluate
  simp only [State.takeEdges_emit, State.stream_setStream_same]
  exact sameEvents.emitAll (s := s) (t := s.setStream i _) ⟨rfl, rfl⟩ p _

/-- An evaluation with no governing profile makes no event (R137, R140). -/
theorem State.evaluate_ungoverned (s : State) (i : StreamIx) (classes : List AlarmClass) :
    sameEvents s (s.evaluate i classes none) := by
  have noneMade (cs : List AlarmClass) (t : State) : cs.foldl (fun t c => t.takeEdge i none c) t = t := by
    induction cs with
    | nil => rfl
    | cons c cs ih => exact ih
  unfold State.evaluate
  simp only [noneMade]
  exact ⟨rfl, rfl⟩

/-- Settles O30: a push and an event as one write of the queues and summaries, then the events of an evaluation
class by class. -/
theorem eventsReachTheQueues : Obligations.EventsReachTheQueues := by
  unfold Obligations.EventsReachTheQueues
  intro active routeOf
  have actives : active = AlarmStates.get := funext fun a => funext fun c => by cases c <;> rfl
  have routes : routeOf = Profile.route := funext fun p => funext fun c => by cases c <;> rfl
  refine ⟨fun α x v => ⟨rfl, rfl, rfl, rfl, rfl, rfl⟩, fun s e p => ⟨fun room => ?joined, fun full => ?lost⟩,
    fun s e irq => ?emitted, State.evaluate_ungoverned, fun s i classes p _ => ?evaluated⟩
  case joined =>
    rw [State.pushEvent_eq, EventQueue.push_eq, if_pos room, EventQueue.lossWord, if_neg (Nat.not_le.2 room),
      BitVec.or_zero, PerPort.set_get]
  case lost =>
    rw [State.pushEvent_eq, EventQueue.push_eq, if_neg (Nat.not_lt.2 full), EventQueue.lossWord, if_pos full]
  case emitted =>
    intro t loss
    have written : t = _ := s.emit_eq e irq
    rw [written]
    exact ⟨fun p => by cases p <;> rfl, rfl, rfl, rfl, rfl⟩
  case evaluated =>
    intro x t value event made
    have states (c : AlarmClass) : (t.stream i).alarms.get c =
        if c ∈ classes then conditionFound (some p) x c else x.alarms.get c := by
      rw [State.evaluate_stream]
      exact newStates_get (some p) x classes c
    have values : value = x.alarmValue := funext fun c => by cases c <;> rfl
    have events : (changedClasses (some p) x classes).filterMap
        (Stream.edgeEvent { x with alarms := newStates (some p) x classes } i p s.link.lineTime) =
          classes.filterMap event := by
      unfold changedClasses
      rw [List.filterMap_filter]
      refine List.filterMap_congr fun c within => ?_
      have condition : (newStates (some p) x classes).get c = conditionFound (some p) x c :=
        (newStates_get (some p) x classes c).trans (if_pos within)
      have same : Stream.alarmValue { x with alarms := newStates (some p) x classes } c = x.alarmValue c := by
        cases c <;> rfl
      simp only [Stream.edgeEvent, event, actives, values, states, if_pos within, condition, same]
      cases x.alarms.get c <;> cases conditionFound (some p) x c <;> simp
    have raised : made = s.emitAll p (classes.filterMap event) := by
      unfold State.emitAll
      rw [← routes]
    obtain ⟨queues, summaries⟩ := s.evaluate_events i classes p
    rw [events, ← raised] at queues summaries
    exact ⟨queues, summaries, fun c other => by rw [actives, states, if_neg other]⟩

end Sys2Proof.Machine
end

section
/-! The staging commands of the holder: what takes entries off the list, and what arms and disarms it. -/

namespace Sys2Proof.Machine

/-- Settles O57: the Staging Unit is among the bounds that every row keeps. -/
theorem stepKeepsStaging : Obligations.StepKeepsStaging := fun _ _ kept h => (step_keepsAll h).staging kept

/-! ### The checks of the holder's commands -/

/-- The first two checks of the commands that act on a list: it is not EMPTY, and port p holds it; then t
(R158 to R161). -/
def State.fromHolder (s : State) (p : Port) (tag : Byte) (t : State) : State :=
  if s.staging.state = .empty then s.reply p tag .empty []
  else if s.holds p = false then s.reply p tag .stageHeld []
  else t

section Holder
variable {s : State} {p : Port} {tag : Byte}

theorem State.holds_false (unheld : s.staging.holder ≠ some p) : s.holds p = false := by
  rw [← Bool.not_eq_true, s.holds_iff]
  exact unheld

theorem State.fromHolder_empty (empty : s.staging.state = .empty) (t : State) :
    s.fromHolder p tag t = s.reply p tag .empty [] := if_pos empty

theorem State.fromHolder_unheld (filled : s.staging.state ≠ .empty) (unheld : s.staging.holder ≠ some p)
    (t : State) : s.fromHolder p tag t = s.reply p tag .stageHeld [] := by
  unfold State.fromHolder
  rw [if_neg filled, if_pos (State.holds_false unheld)]

theorem State.fromHolder_held (filled : s.staging.state ≠ .empty) (held : s.staging.holder = some p)
    (t : State) : s.fromHolder p tag t = t := by
  unfold State.fromHolder
  rw [if_neg filled, if_neg (by rw [(s.holds_iff p).2 held]; decide)]

/-- A refusal by these checks restarts no timer, for the list is EMPTY or another port's (R167). -/
theorem State.touch_fromHolder (t : State) :
    (if s.staging.state = .empty then (s.touch p).reply p tag .empty []
    else if s.holds p = false then (s.touch p).reply p tag .stageHeld []
    else t) = s.fromHolder p tag t := by
  unfold State.fromHolder
  by_cases empty : s.staging.state = .empty
  · rw [if_pos empty, if_pos empty, State.touch_unopened p (by simp [empty])]
  rw [if_neg empty, if_neg empty]
  by_cases held : s.staging.holder = some p
  · simp only [(s.holds_iff p).2 held, Bool.true_eq_false, if_false]
  · rw [State.touch_unheld held]

/-- The holder of an OPEN list restarts its timer (R167). -/
theorem State.touch_held (opened : s.staging.state = .opened) (held : s.staging.holder = some p) :
    s.touch p = { s with staging := { s.staging with timer := some 0 } } :=
  if_pos ⟨opened, (s.holds_iff p).2 held⟩

theorem StagingState.opened_filled {u : StagingState} (h : u = .opened) : u ≠ .empty := by simp [h]

theorem StagingState.armed_filled {u : StagingState} (h : u = .armed) : u ≠ .empty := by simp [h]

end Holder

/-! ### STAGE_DROP and STAGE_DISCARD -/

theorem Staging.lookup_absent {u : Staging} {n : Nat} (absent : ∀ e ∈ u.entries, e.index.val ≠ n) :
    u.lookup n = none := by
  unfold Staging.lookup
  by_cases beyond : 255 < n
  · rw [streamOf_beyond beyond]
  · have stream : streamOf n = some ⟨n, by omega⟩ := streamOf_val ⟨n, by omega⟩
    have position : stagePosition u.entries ⟨n, by omega⟩ = none :=
      stagePosition_eq_none fun e member same => absent e member (congrArg Fin.val same)
    simp only [stream, position]

theorem Staging.lookup_present {u : Staging} {k : Nat} {e : StageEntry} (at_k : u.entries[k]? = some e)
    (distinct : (u.entries.map StageEntry.index).Nodup) : u.lookup e.index.val = some (k, e) := by
  unfold Staging.lookup
  simp only [streamOf_val, stagePosition_eq_some at_k distinct, at_k, Option.map_some]

section Drop
variable {s : State} {p : Port} {k : Nat} (opened : s.staging.state = .opened) (held : s.staging.holder = some p)
include opened held

/-- The holder's last entry taken off an OPEN list (R158). -/
theorem State.dropEntry_touch_last (last : s.staging.entries.eraseIdx k = []) :
    (s.touch p).dropEntry k = { s with staging := s.staging.emptied } := by
  rw [State.touch_held opened held]
  exact if_pos last

/-- An entry of the holder's taken off an OPEN list that has others (R158, R167). -/
theorem State.dropEntry_touch_more (more : s.staging.entries.eraseIdx k ≠ []) : (s.touch p).dropEntry k =
    { s with staging := { s.staging with entries := s.staging.entries.eraseIdx k, timer := some 0 } } := by
  rw [State.touch_held opened held]
  exact if_neg more

end Drop

section Rows
variable {s : State} {p : Port} {tag : Byte}

theorem exec_stageDrop {n : Nat} (h : s.runs p tag (.stageDrop n)) : exec (.stageDrop p) s = .next
    (s.fromHolder p tag (if s.staging.state = .armed then (s.touch p).reply p tag .armed []
      else match s.staging.lookup n with
        | none => (s.touch p).reply p tag .badArgument []
        | some (k, e) => ((s.touch p).dropEntry k).reply p tag .ok
          (e.code :: bytesBE 1 ((s.touch p).dropEntry k).staging.entries.length))) := by
  obtain ⟨high, started⟩ := h
  rw [← State.touch_fromHolder]
  show live s _ = _
  rw [live_of_high high, started] <;> rfl

theorem exec_stageDiscard (h : s.runs p tag .stageDiscard) : exec (.stageDiscard p) s = .next
    (s.fromHolder p tag (s.emptyStaging.reply p tag .ok (bytesBE 1 s.staging.entries.length))) := by
  obtain ⟨high, started⟩ := h
  show live s _ = _
  rw [live_of_high high, started]
  rfl

theorem exec_stageDrop_armed {n : Nat} (h : s.runs p tag (.stageDrop n)) (armed : s.staging.state = .armed)
    (held : s.staging.holder = some p) : exec (.stageDrop p) s = .next (s.reply p tag .armed []) := by
  rw [exec_stageDrop h, State.fromHolder_held (StagingState.armed_filled armed) held, if_pos armed,
    State.touch_unopened p (by simp [armed])]

/-- The holder's STAGE_DROP of an OPEN list, by what the list has for the index (R158). -/
theorem exec_stageDrop_opened {n : Nat} (h : s.runs p tag (.stageDrop n)) (opened : s.staging.state = .opened)
    (held : s.staging.holder = some p) : exec (.stageDrop p) s = .next (match s.staging.lookup n with
      | none => (s.touch p).reply p tag .badArgument []
      | some (k, e) => ((s.touch p).dropEntry k).reply p tag .ok
        [e.code, BitVec.ofNat 8 ((s.touch p).dropEntry k).staging.entries.length]) := by
  rw [exec_stageDrop h, State.fromHolder_held (StagingState.opened_filled opened) held,
    if_neg (by simp [opened])]
  simp only [bytesBE_one]

end Rows

/-- Settles O44: the checks of the holder's commands, then STAGE_DROP by what the list has for its index, with
another entry left or none. -/
theorem stageDropAndDiscard : Obligations.StageDropAndDiscard := by
  unfold Obligations.StageDropAndDiscard
  intro s p tag touched emptied kind
  have kinds : kind = StageEntry.code := funext fun e => by cases e <;> rfl
  refine ⟨fun n drop => ⟨fun empty => ?dropEmpty, fun filled unheld => ?dropUnheld, exec_stageDrop_armed drop,
      fun opened held => ⟨fun absent => ?absent, fun k e at_k index distinct => ?present⟩⟩,
    fun discard => ⟨fun empty => ?discardEmpty, fun filled unheld => ?discardUnheld,
      fun filled held => ?discarded⟩⟩
  case dropEmpty => rw [exec_stageDrop drop, State.fromHolder_empty empty]
  case dropUnheld => rw [exec_stageDrop drop, State.fromHolder_unheld filled unheld]
  case absent =>
    rw [exec_stageDrop_opened drop opened held, Staging.lookup_absent absent, State.touch_held opened held]
  case present =>
    subst index
    rw [exec_stageDrop_opened drop opened held, Staging.lookup_present at_k distinct, kinds]
    refine ⟨fun more => ?_, fun last => ?_⟩
    · simp only [State.dropEntry_touch_more opened held more]
    · simp only [State.dropEntry_touch_last opened held last]
      rfl
  case discardEmpty => rw [exec_stageDiscard discard, State.fromHolder_empty empty]
  case discardUnheld => rw [exec_stageDiscard discard, State.fromHolder_unheld filled unheld]
  case discarded =>
    rw [exec_stageDiscard discard, State.fromHolder_held filled held, bytesBE_one]
    rfl

/-! ### STAGE_ARM and STAGE_DISARM -/

theorem triggerOf_refused {code : Nat} (beyond : 2 < code) : triggerOf code = none := by
  unfold triggerOf
  split
  · omega
  · omega
  · omega
  · rfl

theorem optTimeBytes_some (a : Time) : optTimeBytes (some a) = bytesBE 6 a.toNat := rfl

theorem optTimeBytes_none : optTimeBytes none = bytesBE 6 0 := rfl

section Rows
variable {s : State} {p : Port} {tag : Byte}

theorem exec_stageArm {code : Nat} {time : Time} (h : s.runs p tag (.stageArm code time)) :
    exec (.stageArm p) s = .next
      (s.fromHolder p tag (if s.staging.state = .armed then (s.touch p).reply p tag .armed []
        else match triggerOf code with
          | none => (s.touch p).reply p tag .badArgument []
          | some source => ((s.touch p).arm source time).reply p tag .ok (source.code
            :: optTimeBytes ((s.touch p).arm source time).staging.armTime ++ timeBytes s.link.lineTime))) := by
  obtain ⟨high, started⟩ := h
  rw [← State.touch_fromHolder]
  show live s _ = _
  rw [live_of_high high, started] <;> rfl

theorem exec_stageDisarm (h : s.runs p tag .stageDisarm) : exec (.stageDisarm p) s = .next
    (s.fromHolder p tag (if s.staging.state = .opened then (s.touch p).reply p tag .notArmed []
      else (s.touch p).disarm.reply p tag .ok
        (optCode TriggerSource.code s.staging.source :: optTimeBytes s.staging.armTime))) := by
  obtain ⟨high, started⟩ := h
  rw [← State.touch_fromHolder]
  show live s _ = _
  rw [live_of_high high, started]

theorem exec_stageArm_armed {code : Nat} {time : Time} (h : s.runs p tag (.stageArm code time))
    (armed : s.staging.state = .armed) (held : s.staging.holder = some p) :
    exec (.stageArm p) s = .next (s.reply p tag .armed []) := by
  rw [exec_stageArm h, State.fromHolder_held (StagingState.armed_filled armed) held, if_pos armed,
    State.touch_unopened p (by simp [armed])]

/-- The holder's STAGE_ARM of an OPEN list, by its source (R160). -/
theorem exec_stageArm_opened {code : Nat} {time : Time} (h : s.runs p tag (.stageArm code time))
    (opened : s.staging.state = .opened) (held : s.staging.holder = some p) :
    let touched : State := { s with staging := { s.staging with timer := some 0 } }
    exec (.stageArm p) s = .next (match triggerOf code with
      | none => touched.reply p tag .badArgument []
      | some source => (s.arm source time).reply p tag .ok (source.code
        :: optTimeBytes (s.arm source time).staging.armTime ++ timeBytes s.link.lineTime)) := by
  intro touched
  rw [exec_stageArm h, State.fromHolder_held (StagingState.opened_filled opened) held,
    if_neg (by simp [opened]), State.touch_held opened held]
  rfl

theorem exec_stageDisarm_opened (h : s.runs p tag .stageDisarm) (opened : s.staging.state = .opened)
    (held : s.staging.holder = some p) : exec (.stageDisarm p) s = .next
      (State.reply { s with staging := { s.staging with timer := some 0 } } p tag .notArmed []) := by
  rw [exec_stageDisarm h, State.fromHolder_held (StagingState.opened_filled opened) held, if_pos opened,
    State.touch_held opened held]

theorem exec_stageDisarm_armed (h : s.runs p tag .stageDisarm) (armed : s.staging.state = .armed)
    (held : s.staging.holder = some p) : exec (.stageDisarm p) s = .next (s.disarm.reply p tag .ok
      (optCode TriggerSource.code s.staging.source :: optTimeBytes s.staging.armTime)) := by
  rw [exec_stageDisarm h, State.fromHolder_held (StagingState.armed_filled armed) held,
    if_neg (by simp [armed]), State.touch_unopened p (by simp [armed])]

end Rows

/-- Settles O45: the checks of the holder's commands for both, then each by the state of the list and its
source. -/
theorem stageArmAndDisarm : Obligations.StageArmAndDisarm := by
  unfold Obligations.StageArmAndDisarm
  intro s p tag c command number touched
  have codes (source : TriggerSource) : source.code = BitVec.ofNat 8 (number source) := by cases source <;> rfl
  obtain ⟨t, row⟩ : ∃ t, exec c s = .next (s.fromHolder p tag t) := by
    rcases command with ⟨code, time, rfl, arm⟩ | ⟨rfl, disarm⟩
    · exact ⟨_, exec_stageArm arm⟩
    · exact ⟨_, exec_stageDisarm disarm⟩
  refine ⟨fun empty => ?empty, fun filled unheld => ?unheld, fun held code time arm isArm => ?arm,
    fun held isDisarm => ?disarm⟩
  case empty => rw [row, State.fromHolder_empty empty]
  case unheld => rw [row, State.fromHolder_unheld filled unheld]
  case arm =>
    subst isArm
    refine ⟨fun armed => exec_stageArm_armed arm armed held, fun opened beyond => ?_, fun source is opened => ?_⟩
    · rw [exec_stageArm_opened arm opened held, triggerOf_refused beyond]
    · have known : triggerOf code = some source := by rw [← is]; cases source <;> rfl
      rw [exec_stageArm_opened arm opened held, known]
      simp only [codes]
      cases source <;> rfl
  case disarm =>
    subst isDisarm
    have disarm : s.runs p tag .stageDisarm := by
      rcases command with ⟨_, _, isArm, _⟩ | ⟨_, disarm⟩
      · cases isArm
      · exact disarm
    refine ⟨fun opened => exec_stageDisarm_opened disarm opened held, fun source armed is => ?_⟩
    rw [exec_stageDisarm_armed disarm armed held, is, ← codes]
    cases s.staging.armTime <;> rfl

end Sys2Proof.Machine
end

section
/-! The apply of a list, and what sets it off or discards the list: APPLY, CHANGEOVER and abandonment. -/

namespace Sys2Proof.Machine

/-! ### The apply -/

theorem Notice.word_applied : Notice.applied.word = 8#16 := by decide

/-- The work on the entries leaves the Staging Unit as it was, so an apply empties the list it found (R169,
R172). -/
theorem State.applyList_eq (s : State) (t : Time) :
    let u := s.staging.entries.foldl (State.applyEntry t) s
    s.applyList t = State.post { u with scheduleValid := true, staging := s.staging.emptied } .applied := by
  intro u
  have kept : u.staging = s.staging := (applyEntries_accounts t s.staging.entries s).staging
  rw [← kept]
  rfl

section Rows
variable {s : State} {p : Port} {tag : Byte}

theorem exec_apply_empty (h : s.runs p tag .apply) (empty : s.staging.state = .empty) :
    exec (.apply p) s = .next ((s.post .triggerEmpty).reply p tag .empty []) := by
  obtain ⟨high, started⟩ := h
  show live s _ = _
  rw [live_of_high high, started]
  exact congrArg _ (if_pos empty)

/-- APPLY of a list not armed with COMMAND (R162). -/
theorem exec_apply_notArmed (h : s.runs p tag .apply) (filled : s.staging.state ≠ .empty)
    (other : s.staging.state = .opened ∨ s.staging.source ≠ some .command) :
    exec (.apply p) s = .next ((s.touch p).reply p tag .notArmed []) := by
  obtain ⟨high, started⟩ := h
  show live s _ = _
  rw [live_of_high high, started]
  simp only [if_neg filled, if_pos other]

/-- APPLY of a list armed with COMMAND, by its holder (R162). -/
theorem exec_apply_armed (h : s.runs p tag .apply) (armed : s.staging.state = .armed)
    (source : s.staging.source = some .command) : exec (.apply p) s = .next
      (if s.holds p = false then s.reply p tag .stageHeld []
      else (s.applyList s.link.lineTime).reply p tag .ok
        (bytesBE 6 s.link.lineTime.toNat ++ [BitVec.ofNat 8 s.staging.entries.length])) := by
  obtain ⟨high, started⟩ := h
  show live s _ = _
  rw [live_of_high high, started, State.touch_unopened p (by simp [armed])]
  simp only [armed, source, reduceCtorEq, ne_eq, not_true_eq_false, or_self, if_false, bytesBE_one]
  rfl

end Rows

/-- Settles O46: an apply as one write after the work on its entries, then APPLY by the state of the list, its
source and its holder. -/
theorem applyTakesTheArmedList : Obligations.ApplyTakesTheArmedList := by
  unfold Obligations.ApplyTakesTheArmedList
  refine ⟨fun s t => ⟨applyEntries_accounts t s.staging.entries s, ?applied⟩, fun s p tag apply =>
    ⟨exec_apply_empty apply, fun opened => ?opened, fun armed other => ?other, fun armed source unheld => ?unheld,
      fun armed source held => ?whole⟩⟩
  case applied =>
    rw [State.applyList_eq]
    unfold State.post
    rw [Notice.word_applied]
    rfl
  case opened =>
    rw [exec_apply_notArmed apply (StagingState.opened_filled opened) (.inl opened)]
    by_cases held : s.staging.holder = some p
    · rw [if_pos held, State.touch_held opened held]
    · rw [if_neg held, State.touch_unheld held]
  case other =>
    rw [exec_apply_notArmed apply (StagingState.armed_filled armed) (.inr other),
      State.touch_unopened p (by simp [armed])]
  case unheld => rw [exec_apply_armed apply armed source, if_pos (State.holds_false unheld)]
  case whole =>
    rw [exec_apply_armed apply armed source, if_neg (by rw [(s.holds_iff p).2 held]; decide)]

/-! ### CHANGEOVER and abandonment -/

section Rows
variable {s : State}

theorem exec_changeoverPinChange {level : Bool} (high : s.resetLow = false) (moved : level ≠ s.changeoverPin) :
    exec (.changeoverPinChange level) s = .next
      { s with changeoverPin := level, staging := { s.staging with held := 0 } } := by
  show Host.Outcome.next _ = _
  rw [if_neg moved, if_neg (by simp [high])]

/-- The rest of the filter's run has passed and the level on the pin is the accepted one (R165, log 3). -/
def State.filterPassed (s : State) : State :=
  let u := s.elapse (25 - s.staging.held)
  { u with staging := { u.staging with accepted := s.changeoverPin, held := 0 } }

/-- The filter's expiry is an edge where the accepted level rises (R165, R166). -/
theorem exec_changeoverFilterExpiry (high : s.resetLow = false) (differs : s.changeoverPin ≠ s.staging.accepted) :
    exec .changeoverFilterExpiry s = .next
      (if s.changeoverPin then s.filterPassed.changeoverEdge else s.filterPassed) := by
  have runs : s.filterRunning = true := bne_iff_ne.2 differs
  show live s _ = _
  rw [live_of_high high, if_pos runs]
  rfl

theorem State.changeoverEdge_strobe (armed : s.staging.state = .armed) (strobe : s.staging.source = some .strobe) :
    s.changeoverEdge = s.applyList s.link.lineTime := by
  unfold State.changeoverEdge
  rw [armed, strobe]

theorem State.changeoverEdge_empty (empty : s.staging.state = .empty) :
    s.changeoverEdge = s.post .triggerEmpty := by
  unfold State.changeoverEdge
  rw [empty]

theorem State.changeoverEdge_unused
    (other : s.staging.state = .opened ∨ s.staging.state = .armed ∧ s.staging.source ≠ some .strobe) :
    s.changeoverEdge = s.post .strobeUnused := by
  unfold State.changeoverEdge
  split
  · simp [*] at other
  · simp [*] at other
  · rfl

theorem exec_abandonmentTimerExpiry {k : Nat} (high : s.resetLow = false) (running : s.staging.timer = some k) :
    exec .abandonmentTimerExpiry s = .next
      ((s.elapse (abandonmentLimit - k)).emptyStaging.post .abandoned) := by
  show live s _ = _
  rw [live_of_high high, running]

end Rows

/-- Settles O48: the filter's expiry by the level accepted and the list that the edge finds. -/
theorem strobeAndAbandonment : Obligations.StrobeAndAbandonment := by
  unfold Obligations.StrobeAndAbandonment
  intro s high
  refine ⟨fun level moved => exec_changeoverPinChange high moved, fun differs => ?filter,
    fun k running => exec_abandonmentTimerExpiry high running⟩
  case filter =>
    have expiry := exec_changeoverFilterExpiry high differs
    refine ⟨fun falls => ?falls, fun rises armed strobe => ?applies, fun rises empty => ?empty,
      fun rises other => ?unused⟩
    case falls => rw [expiry, if_neg (by simp [falls])]; rfl
    all_goals rw [expiry, if_pos rises]
    case applies => exact congrArg _ (State.changeoverEdge_strobe (s := s.filterPassed) armed strobe)
    case empty => exact congrArg _ (State.changeoverEdge_empty (s := s.filterPassed) empty)
    case unused => exact congrArg _ (State.changeoverEdge_unused (s := s.filterPassed) other)

end Sys2Proof.Machine
end

section
/-! The ports: what each answers on its own reply side, the taking of a RESET_DEVICE, the rows of the SPI frames, and
the service receiver. -/

namespace Sys2Proof.Machine

/-! ### Taking a command on the board port -/

/-- What a body taken by the board port leaves: its command running or its refusal in the slot, and with a
RESET_DEVICE reset pending and no held command (R174, R176, R181, R196). -/
theorem State.takeBoard_eq (s : State) (body : List Byte) : s.takeBoard body = { s with
    resetPending := s.resetPending || takesReset s.plan .board body
    board := { s.board with
      held := if takesReset s.plan .board body then none else s.board.held
      slot := match parseBody s.plan .board body with
        | .command tag c => .pending ⟨tag, .start c⟩
        | .refusal r => .ready r false } } := by
  unfold State.takeBoard takesReset
  cases parseBody s.plan .board body with
  | refusal r => simp
  | command tag c =>
    by_cases reset : c = .resetDevice
    · subst reset
      simp [State.startCommand_eq, State.setRunning, State.beginReset]
    · simp [State.startCommand_eq, State.setRunning, reset]

/-! ### Replies by port -/

/-- The service port once a reply of its command has joined the waiting frames, before the transmitter goes on. -/
def ServicePort.joined (v : ServicePort) (reply : List Byte) (isReset : Bool) : ServicePort :=
  { v with
    cmd := .replying
    txQueue := v.txQueue ++ [⟨reply, if isReset then .reset else .command⟩] }

section AnswerService
variable {s : State} (reply : List Byte) (isReset : Bool)

theorem State.answerService_eq :
    s.answerService reply isReset = { s with service := (s.service.joined reply isReset).kick } := rfl

/-- A service reply waits while the transmitter sends another frame (R179). -/
theorem State.answerService_sending (sending : s.service.sending ≠ none) :
    s.answerService reply isReset = { s with service := s.service.joined reply isReset } := by
  rw [State.answerService_eq, ServicePort.kick_sending (v := s.service.joined reply isReset) sending]

/-- An idle transmitter begins the oldest waiting frame once a reply has joined them (R179, log 9). -/
theorem State.answerService_silent (silent : s.service.sending = none) :
    let v := s.service.joined reply isReset
    s.answerService reply isReset =
      { s with service := { v with sending := v.txQueue.head?, txQueue := v.txQueue.tail } } := by
  rw [State.answerService_eq, ServicePort.kick_silent (v := s.service.joined reply isReset) silent]

end AnswerService

section Reply
variable {s : State} (tag : Byte) (st : Status) (bytes : List Byte)

theorem State.reply_board (free : s.board.held = none) : s.reply .board tag st bytes =
    { s with board := { s.board with slot := .ready (replyBody tag st bytes) false } } := by
  show s.answerBoard _ false = _
  unfold State.answerBoard
  rw [free]
  rfl

/-- A held command displaces the board port's reply and is taken (R176). -/
theorem State.reply_board_held {body : List Byte} (held : s.board.held = some body) :
    s.reply .board tag st bytes = State.takeBoard { s with board := { s.board with held := none } } body := by
  show s.answerBoard _ false = _
  unfold State.answerBoard
  rw [held]

/-- The held command taken from the board port, no other being held then (R176). -/
theorem State.takeBoard_unheld (body : List Byte) :
    State.takeBoard { s with board := { s.board with held := none } } body = { s with
      resetPending := s.resetPending || takesReset s.plan .board body
      board := { s.board with
        held := none
        slot := match parseBody s.plan .board body with
          | .command tag c => .pending ⟨tag, .start c⟩
          | .refusal r => .ready r false } } := by
  rw [State.takeBoard_eq]
  simp only [ite_self]

theorem State.reply_line (unmarked : s.linePort.discardMark = false) : s.reply .line tag st bytes = { s with
    linePort := { s.linePort with cmd := .replying }
    link := { s.link with txQueue := s.link.txQueue ++ [⟨replyBody tag st bytes, .command⟩] } } := by
  show s.answerLine _ false = _
  unfold State.answerLine
  rw [if_neg (by simp [unmarked])]
  rfl

theorem State.reply_line_discarded (marked : s.linePort.discardMark = true) :
    s.reply .line tag st bytes = { s with linePort := ⟨.idle, false⟩ } := by
  show s.answerLine _ false = _
  unfold State.answerLine
  rw [if_pos marked]
  rfl

theorem State.reply_service :
    s.reply .service tag st bytes = s.answerService (replyBody tag st bytes) false := rfl

end Reply

/-- A port has taken a command it has not begun (R174, R181). -/
theorem State.started_iff (s : State) (p : Port) (tag : Byte) (c : Command) :
    s.started p = some (tag, c) ↔ s.runningOf p = some ⟨tag, .start c⟩ := by
  unfold State.started
  constructor
  · intro started
    split at started
    · next tag' c' running =>
      obtain ⟨rfl, rfl⟩ := Prod.mk.inj (Option.some.inj started)
      exact running
    · cases started
  · intro running
    rw [running]

/-- Settles O31: what a port runs port by port, then the reply by its port and by what stands in its way. -/
theorem repliesGoToTheirPort : Obligations.RepliesGoToTheirPort := by
  unfold Obligations.RepliesGoToTheirPort
  refine ⟨fun s p => ⟨?running, s.started_iff p, fun r => ?setRunning⟩, fun s tag st bytes => ?reply⟩
  case running => cases p <;> rfl
  case setRunning => cases p <;> rfl
  case reply =>
    intro code body
    have whole : body = replyBody tag st bytes := rfl
    rw [whole]
    refine ⟨s.reply_board tag st bytes, fun c held => ?held, s.reply_line tag st bytes,
      s.reply_line_discarded tag st bytes, fun sending => ?waits, fun silent empty => ?begun,
      fun p => s.reply_onlyPort p tag st bytes⟩
    case held => exact (s.reply_board_held tag st bytes held).trans (s.takeBoard_unheld c)
    case waits =>
      rw [State.reply_service, State.answerService_sending _ _ sending]
      rfl
    case begun =>
      rw [State.reply_service, State.answerService_silent _ _ silent]
      simp [ServicePort.joined, empty]

/-! ### The taking of a RESET_DEVICE -/

/-- Port p has taken a RESET_DEVICE: a reset is pending and no board command is held (R174, R196). -/
structure State.waitsForReset (s : State) (p : Port) (tag : Byte) : Prop where
  pending : s.resetPending = true
  held : s.board.held = none
  runs : s.runs p tag .resetDevice

theorem State.startCommand_waits {s : State} (high : s.resetLow = false) (p : Port) (tag : Byte) :
    (s.startCommand p tag .resetDevice).waitsForReset p tag := by
  cases p <;> exact ⟨rfl, rfl, high, rfl⟩

section Parsed
variable {s : State} {body : List Byte} {tag : Byte} {c : Command}

theorem State.takeBoard_command (parsed : parseBody s.plan .board body = .command tag c) :
    s.takeBoard body = s.startCommand .board tag c := by
  unfold State.takeBoard
  rw [parsed]

theorem State.takeLine_command (parsed : parseBody s.plan .line body = .command tag c) :
    s.takeLine body = s.startCommand .line tag c := by
  unfold State.takeLine
  rw [parsed]

theorem State.takeService_command (parsed : parseBody s.plan .service body = .command tag c) :
    s.takeService body = s.startCommand .service tag c := by
  unfold State.takeService
  rw [parsed]

end Parsed

/-! ### SPI frames -/

/-- The state after an SPI frame but for what its bytes do: what it returned stands in `lastSdo` (log 13). -/
def State.sent (s : State) (frame : List Byte) (late : Bool) : State :=
  { s with board := { s.board with lastSdo := s.sdoOf frame late } }

section Frames
variable {s : State} (high : s.resetLow = false) {frame : List Byte} (late : Bool)
include high

theorem exec_boardCommandFrame {body : List Byte} (h : spiFrame frame = .command body) :
    exec (.boardCommandFrame frame late) s = .next ((s.sent frame late).boardBody body) := by
  show live s (s.boardFrame frame late) = _
  rw [live_of_high high]
  unfold State.boardFrame
  rw [h]
  rfl

theorem exec_boardFetchFrame (h : spiFrame frame = .fetch) :
    exec (.boardFetchFrame frame late) s = .next ((s.sent frame late).boardFetch frame.length) := by
  show live s (s.boardFrame frame late) = _
  rw [live_of_high high]
  unfold State.boardFrame
  rw [h]
  rfl

theorem exec_boardFrameDiscarded (h : spiFrame frame = .discarded) :
    exec (.boardFrameDiscarded frame late) s = .next (s.sent frame late) := by
  show live s (s.boardFrame frame late) = _
  rw [live_of_high high]
  unfold State.boardFrame
  rw [h]
  rfl

end Frames

section Body
variable {s : State} {body : List Byte}

theorem State.boardBody_pending (pending : s.resetPending = true) : s.boardBody body = s := by
  unfold State.boardBody
  rw [if_pos pending]

/-- A complete COMMAND frame is taken while no command runs (R176). -/
theorem State.boardBody_taken (pending : s.resetPending = false) (notRunning : ∀ r, s.board.slot ≠ .pending r) :
    s.boardBody body = s.takeBoard body := by
  unfold State.boardBody
  rw [if_neg (by simp [pending])]
  cases slot : s.board.slot with
  | none => rfl
  | ready reply isReset => rfl
  | pending r => exact absurd slot (notRunning r)

/-- A complete COMMAND frame is held while a command runs (R176). -/
theorem State.boardBody_held (pending : s.resetPending = false) {r : Running} (running : s.board.slot = .pending r) :
    s.boardBody body = { s with board := { s.board with held := some body } } := by
  unfold State.boardBody
  rw [if_neg (by simp [pending]), running]

theorem State.lineBody_pending (pending : s.resetPending = true) : s.lineBody body = s := by
  unfold State.lineBody
  rw [if_pos pending]

theorem State.serviceBody_pending (pending : s.resetPending = true) : s.serviceBody body = s := by
  unfold State.serviceBody
  rw [if_pos pending]

end Body

/-! ### The service receiver -/

section Receiver
variable {s : State} (high : s.resetLow = false)
include high

theorem exec_serviceCharacter_hunting (hunting : s.service.rx = .hunting) (c : Byte) (error : Bool) :
    exec (.serviceCharacter c error) s =
      .next (if c = 0xA5 ∧ error = false then s.setRx (.partialFrame [c] 0) else s) := by
  show live s _ = _
  rw [live_of_high high, hunting]

theorem exec_serviceCharacter_error {bytes : List Byte} {gap : Nat} (partly : s.service.rx = .partialFrame bytes gap)
    (c : Byte) : exec (.serviceCharacter c true) s = .next (s.setRx .hunting) := by
  show live s _ = _
  rw [live_of_high high, partly]
  rfl

theorem exec_serviceCharacter {bytes : List Byte} {gap : Nat} (partly : s.service.rx = .partialFrame bytes gap)
    (c : Byte) : exec (.serviceCharacter c false) s = .next (s.serviceNext bytes c) := by
  show live s _ = _
  rw [live_of_high high, partly]
  rfl

theorem exec_serviceCharacterTimeout {bytes : List Byte} {gap : Nat}
    (partly : s.service.rx = .partialFrame bytes gap) :
    exec .serviceCharacterTimeout s = .next ((s.elapse (characterGapLimit - gap)).setRx .hunting) := by
  show live s _ = _
  rw [live_of_high high, partly]

end Receiver

section Next
variable (s : State)

/-- The length byte of a frame is one that R178 gives, or discards the frame. -/
theorem State.serviceNext_length (start n : Byte) : s.serviceNext [start] n =
    s.setRx (if 1 ≤ n.toNat ∧ n.toNat ≤ 250 then .partialFrame [start, n] 0 else .hunting) := by
  show (if n = 0 ∨ bodyMax < n.toNat then s.setRx .hunting else s.setRx (.partialFrame [start, n] 0)) = _
  have bad : (n = 0 ∨ bodyMax < n.toNat) ↔ ¬ (1 ≤ n.toNat ∧ n.toNat ≤ 250) := by
    rw [BitVec.toNat_eq]
    show n.toNat = 0 ∨ 250 < n.toNat ↔ _
    omega
  by_cases good : 1 ≤ n.toNat ∧ n.toNat ≤ 250
  · rw [if_neg (by rw [bad]; exact not_not.2 good), if_pos good]
  · rw [if_pos (bad.2 good), if_neg good]

/-- A character after the length byte: one more byte, or the last, whose check decides (R178). -/
theorem State.serviceNext_later (start n c : Byte) (rest : List Byte) :
    let all := start :: n :: rest ++ [c]
    s.serviceNext (start :: n :: rest) c =
      if all.length < n.toNat + 4 then s.setRx (.partialFrame all 0)
      else if checkGood all then (s.setRx .hunting).serviceBody ((all.drop 2).take n.toNat)
      else s.setRx .hunting := by
  cases rest <;> rfl

theorem State.serviceNext_within (start n c : Byte) {rest : List Byte} (within : rest.length + 1 < n.toNat + 2) :
    s.serviceNext (start :: n :: rest) c = s.setRx (.partialFrame (start :: n :: rest ++ [c]) 0) := by
  have short : (start :: n :: rest ++ [c]).length < n.toNat + 4 := by simp; omega
  rw [State.serviceNext_later, if_pos short]

/-- The last check byte completes the frame or discards it (R178). -/
theorem State.serviceNext_last (start n c : Byte) {rest : List Byte} (last : rest.length + 1 = n.toNat + 2) :
    s.serviceNext (start :: n :: rest) c =
      if checkGood (start :: n :: rest ++ [c]) then (s.setRx .hunting).serviceBody (rest.take n.toNat)
      else s.setRx .hunting := by
  have whole : ¬ (start :: n :: rest ++ [c]).length < n.toNat + 4 := by simp; omega
  have body : ((start :: n :: rest ++ [c]).drop 2).take n.toNat = rest.take n.toNat :=
    List.take_append_of_le_length (by omega)
  rw [State.serviceNext_later, if_neg whole, body]

end Next

/-- The end of a service frame that is not that of a RESET_DEVICE: the command's reply alone makes the port IDLE,
and the oldest waiting frame begins (R179). -/
theorem exec_serviceReplySent {s : State} (high : s.resetLow = false) {body : List Byte} {origin : ReplyOrigin}
    (sending : s.service.sending = some ⟨body, origin⟩) (other : origin ≠ .reset) :
    exec .serviceReplySent s = .next { s with service := { s.service with
      lastFrame := withCheck (0xA5 :: BitVec.ofNat 8 body.length :: body)
      cmd := if origin = .command then .idle else s.service.cmd
      sending := s.service.txQueue.head?
      txQueue := s.service.txQueue.tail } } := by
  have frame : serviceFrame body = withCheck (0xA5 :: BitVec.ofNat 8 body.length :: body) := by
    simp [serviceFrame]
  have ended (cmd : CmdState) :
      ServicePort.kick { s.service with cmd := cmd, sending := none, lastFrame := serviceFrame body } =
        { s.service with
          cmd := cmd, lastFrame := serviceFrame body, sending := s.service.txQueue.head?
          txQueue := s.service.txQueue.tail } := ServicePort.kick_silent rfl
  show live s _ = _
  rw [live_of_high high, sending, ← frame]
  refine congrArg Host.Outcome.next ?_
  unfold State.serviceSent
  cases origin with
  | command => simp only [ended]; rfl
  | reset => contradiction
  | busy => simp only [ended s.service.cmd]; rfl
  | leftover => simp only [ended s.service.cmd]; rfl

/-- Settles O50: the receiver by its state and the place of the character, then the end of a frame. -/
theorem serviceRows : Obligations.ServiceRows := by
  unfold Obligations.ServiceRows
  intro s high received
  refine ⟨fun hunting c error => ?hunting, fun bytes gap partly =>
    ⟨exec_serviceCharacter_error high partly, exec_serviceCharacterTimeout high partly, fun c one => ?length,
      fun c n rest is => ⟨fun within => ?within, fun last => ⟨fun bad => ?bad, fun good => ?good⟩⟩⟩,
    live_of_high high _, fun body origin sending other => exec_serviceReplySent high sending other⟩
  case hunting =>
    rw [exec_serviceCharacter_hunting high hunting]
    split
    · next start => rw [start.1]; rfl
    · rfl
  case length =>
    obtain ⟨start, rfl⟩ := List.length_eq_one_iff.1 one
    rw [exec_serviceCharacter high partly, State.serviceNext_length]
    rfl
  all_goals
    subst is
    rw [exec_serviceCharacter high partly]
  case within => rw [State.serviceNext_within s _ _ _ within]; rfl
  case bad => rw [State.serviceNext_last s _ _ _ last, if_neg (by simpa using bad)]; rfl
  case good => rw [State.serviceNext_last s _ _ _ last, if_pos good]; rfl

end Sys2Proof.Machine
end

section
/-! SPI frames by their bytes, and the reset of a RESET_DEVICE: pending from its taking on, and made by each way its
reply is handed over. -/

namespace Sys2Proof.Machine

/-! ### The kinds of SPI frame -/

theorem spiFrame_command_iff (frame body : List Byte) : spiFrame frame = .command body ↔
    ∃ n rest, frame = 0x01 :: n :: rest
      ∧ 1 ≤ n.toNat ∧ n.toNat ≤ 250 ∧ n.toNat ≤ rest.length ∧ body = rest.take n.toNat := by
  constructor
  · intro is
    unfold spiFrame at is
    split at is
    · next n rest =>
      split at is
      · next whole =>
        obtain ⟨low, high, complete⟩ := whole
        exact ⟨n, rest, rfl, low, high, complete, (SpiFrame.command.inj is).symm⟩
      · cases is
    · cases is
    · cases is
  · rintro ⟨n, rest, rfl, low, high, complete, rfl⟩
    exact if_pos ⟨low, high, complete⟩

theorem spiFrame_fetch_iff (frame : List Byte) : spiFrame frame = .fetch ↔ frame.head? = some 0x02 := by
  constructor
  · intro is
    unfold spiFrame at is
    split at is
    · split at is <;> cases is
    · rfl
    · cases is
  · intro head
    obtain ⟨rest, rfl⟩ := List.head?_eq_some_iff.1 head
    rfl

/-- A frame that is neither is discarded (R175). -/
theorem spiFrame_discarded {frame : List Byte} (other : frame.head? ≠ some 0x02)
    (incomplete : ∀ n rest, frame = 0x01 :: n :: rest → n.toNat = 0 ∨ 250 < n.toNat ∨ rest.length < n.toNat) :
    spiFrame frame = .discarded := by
  cases is : spiFrame frame with
  | discarded => rfl
  | fetch => exact absurd ((spiFrame_fetch_iff frame).1 is) other
  | command body =>
    obtain ⟨n, rest, bytes, low, high, complete, -⟩ := (spiFrame_command_iff frame body).1 is
    have short := incomplete n rest bytes
    omega

/-! ### What a frame returns -/

section Returned
variable {s : State} {frame : List Byte} (late : Bool)

theorem State.sdoOf_fetch (h : spiFrame frame = .fetch) :
    s.sdoOf frame late = sdoBytes frame.length (s.board.slot.codeAtFall late :: s.board.slot.fetched) := by
  unfold State.sdoOf
  rw [h]

/-- A frame that is no FETCH returns the slot's code alone (R175, R177). -/
theorem State.sdoOf_other (h : spiFrame frame ≠ .fetch) :
    s.sdoOf frame late = sdoBytes frame.length [s.board.slot.codeAtFall late] := by
  unfold State.sdoOf
  split
  · contradiction
  · rfl

/-- The code in byte 0, a reply that came during it not yet to be seen (R177, log 12). -/
theorem ReplySlot.codeAtFall_eq (slot : ReplySlot) : slot.codeAtFall late = match slot with
    | .none => 0x40
    | .pending _ => 0x0E
    | .ready _ _ => if late then 0x0E else 0x80 := by
  cases slot <;> cases late <;> rfl

/-- A slot that is not READY has its own code at the fall of SPI_CS_N and after (R177). -/
theorem ReplySlot.fetched_unready {slot : ReplySlot} (h : ∀ body r, slot ≠ .ready body r) :
    slot.fetched = [slot.codeAtFall late] := by
  cases slot with
  | none => cases late <;> rfl
  | pending r => cases late <;> rfl
  | ready body r => exact absurd rfl (h body r)

theorem ReplySlot.fetched_ready (body : List Byte) (isReset : Bool) :
    (ReplySlot.ready body isReset).fetched = 0x80 :: BitVec.ofNat 8 body.length :: body := by
  simp [ReplySlot.fetched, ReplySlot.code]

end Returned

/-! ### A FETCH frame -/

section Fetch
variable {s : State} {n : Nat}

theorem State.boardFetch_unready (h : ∀ body r, s.board.slot ≠ .ready body r) : s.boardFetch n = s := by
  unfold State.boardFetch
  split
  · next body r slot => exact absurd slot (h body r)
  · rfl

variable {body : List Byte} {isReset : Bool} (ready : s.board.slot = .ready body isReset)
include ready

theorem State.boardFetch_partial (short : n < body.length + 3) : s.boardFetch n = s := by
  unfold State.boardFetch
  rw [ready]
  exact if_neg (by omega)

/-- A reply read whole leaves the slot, and that of a RESET_DEVICE makes the reset (R177, R196). -/
theorem State.boardFetch_whole (whole : body.length + 3 ≤ n) : s.boardFetch n =
    (let t : State := { s with board := { s.board with slot := .none, fetchWait := none } }
    if isReset then t.deviceReset else t) := by
  unfold State.boardFetch
  rw [ready]
  exact if_pos whole

end Fetch

/-- Settles O49: the kinds of frame by their bytes, then each kind by the board slot. -/
theorem spiFrames : Obligations.SpiFrames := by
  unfold Obligations.SpiFrames
  refine ⟨fun frame => ⟨fun body => spiFrame_command_iff frame body, spiFrame_fetch_iff frame⟩,
    fun s late high => ?rows⟩
  intro returned atFall
  have code : atFall = s.board.slot.codeAtFall late := (s.board.slot.codeAtFall_eq late).symm
  refine ⟨fun n rest low top complete pending => ?command, fun rest => ?fetch,
    fun frame other incomplete => ?discarded⟩
  case command =>
    intro frame sdo
    have kind : spiFrame frame = .command (rest.take n.toNat) := if_pos ⟨low, top, complete⟩
    have sent : sdo = s.sdoOf frame late := by
      rw [State.sdoOf_other late (by rw [kind]; simp), ← code]
      rfl
    rw [exec_boardCommandFrame high late kind, sent]
    refine ⟨fun free => congrArg Host.Outcome.next ?taken, fun ⟨r, running⟩ => congrArg Host.Outcome.next ?held⟩
    case taken =>
      refine (State.boardBody_taken (s := s.sent frame late) pending free).trans ((State.takeBoard_eq _ _).trans ?_)
      rw [show (s.sent frame late).resetPending = false from pending, Bool.false_or]
      rfl
    case held => exact State.boardBody_held (s := s.sent frame late) pending running
  case fetch =>
    intro frame
    have row := exec_boardFetchFrame (frame := frame) high late rfl
    have sent := State.sdoOf_fetch (s := s) (frame := frame) late rfl
    rw [row, code]
    refine ⟨fun unready => ?unready, fun body ready => ?ready⟩
    case unready =>
      rw [State.boardFetch_unready (s := s.sent frame late) unready]
      unfold State.sent
      rw [sent, ReplySlot.fetched_unready late unready]
      rfl
    case ready =>
      intro sdo
      have returned : sdo = s.sdoOf frame late := by
        rw [sent, ready, ReplySlot.fetched_ready]
        exact congrArg (fun slot : ReplySlot => sdoBytes frame.length (slot.codeAtFall late :: _)) ready
      rw [returned]
      refine ⟨fun short => ?_, fun whole => ?_⟩
      · rw [State.boardFetch_partial (s := s.sent frame late) ready short]
        rfl
      · rw [State.boardFetch_whole (s := s.sent frame late) ready whole]
        rfl
  case discarded =>
    have kind := spiFrame_discarded other incomplete
    rw [exec_boardFrameDiscarded high late kind, code]
    unfold State.sent
    rw [State.sdoOf_other late (by rw [kind]; simp)]
    rfl

/-! ### A RESET_DEVICE taken and run -/

theorem exec_resetDevice {s : State} {p : Port} {tag : Byte} (h : s.runs p tag .resetDevice) :
    exec (.resetDevice p) s = .next (s.beginReset.answer p [tag, 0x00] true) := by
  obtain ⟨high, started⟩ := h
  show live s _ = _
  rw [live_of_high high, started]
  rfl

theorem State.answerBoard_unheld {s : State} (free : s.board.held = none) (reply : List Byte) :
    s.answerBoard reply true =
      { s with board := { s.board with slot := .ready reply true, fetchWait := some 0 } } := by
  unfold State.answerBoard
  rw [free]
  rfl

theorem State.answerLine_unmarked {s : State} (unmarked : s.linePort.discardMark = false) (reply : List Byte) :
    s.answerLine reply true = { s with
      linePort := { s.linePort with cmd := .replying }
      link := { s.link with txQueue := s.link.txQueue ++ [⟨reply, .reset⟩] } } := by
  unfold State.answerLine
  rw [if_neg (by simp [unmarked])]
  rfl

/-- A RESET_DEVICE reply that the discard mark drops makes the reset (R180, R196). -/
theorem State.answerLine_marked {s : State} (marked : s.linePort.discardMark = true) (reply : List Byte) :
    s.answerLine reply true = State.deviceReset { s with linePort := ⟨.idle, false⟩ } := by
  unfold State.answerLine
  rw [if_pos marked]
  rfl

/-- States s and u agree in what the reset of a RESET_DEVICE leaves, the transmitters aside (R185, R196). -/
structure State.sameThroughReset (s u : State) : Prop where
  low : u.resetLow = s.resetLow
  pin : u.changeoverPin = s.changeoverPin
  plan : u.plan = s.plan
  queue : u.pending = s.pending

theorem State.sameThroughReset.trans {s t u : State} (h : s.sameThroughReset t) (k : t.sameThroughReset u) :
    s.sameThroughReset u :=
  ⟨k.low.trans h.low, k.pin.trans h.pin, k.plan.trans h.plan, k.queue.trans h.queue⟩

theorem onlyAccounts.sameThroughReset {s t : State} (h : onlyAccounts s t) : s.sameThroughReset t :=
  ⟨h.resetLow, h.changeoverPin, h.plan, h.pending⟩

theorem State.elapse_sameThroughReset (s : State) (n : Nat) : s.sameThroughReset (s.elapse n) :=
  ⟨rfl, rfl, rfl, rfl⟩

/-- The reset from a state that differs from s in what a reset clears is the reset of s (R185, R196). -/
theorem State.sameThroughReset.deviceReset {s u : State} (h : s.sameThroughReset u) :
    s.deviceResetTo u.deviceReset := by
  unfold State.deviceResetTo State.deviceReset
  rw [h.low, h.pin, h.plan, h.queue]
  rfl

/-- The row of a RESET_DEVICE under the discard mark makes the reset (R180, R196). -/
theorem exec_resetDevice_marked {s : State} {tag : Byte} (h : s.runs .line tag .resetDevice)
    (marked : s.linePort.discardMark = true) : exec (.resetDevice .line) s =
      .next (State.deviceReset { s.beginReset with linePort := ⟨.idle, false⟩ }) :=
  (exec_resetDevice h).trans (congrArg _ (State.answerLine_marked (s := s.beginReset) marked _))

/-- Settles O42: the takings of a RESET_DEVICE, its own row by its port, and what reset pending shuts out. -/
theorem resetDeviceWaits : Obligations.ResetDeviceWaits := by
  unfold Obligations.ResetDeviceWaits
  refine ⟨fun s tag body high pending => ?takings, fun s tag runs => ?board, fun s tag runs unmarked => ?line,
    fun s tag runs marked => ?marked, fun s tag runs sending => ?sending, fun s tag runs silent => ?silent,
    fun s high pending => ?shutOut⟩
  case takings =>
    intro waits
    have started (p : Port) {t u : State} (low : u.resetLow = false) (is : t = u.startCommand p tag .resetDevice) :
        waits p t := by
      obtain ⟨pending, held, runs⟩ := State.startCommand_waits low p tag
      rw [is]
      exact ⟨pending, held, runs⟩
    refine ⟨fun frame late kind free parsed => ⟨_, exec_boardCommandFrame high late kind, ?_⟩,
      fun held parsed old st bytes => ?_,
      fun low top up idle parsed => ⟨_, exec_queryRecord_up high up ⟨low, top⟩, ?_⟩, fun idle parsed => ?_⟩
    · refine started .board (u := s.sent frame late) high ?_
      rw [State.boardBody_taken (s := s.sent frame late) pending free]
      exact State.takeBoard_command (s := s.sent frame late) parsed
    · rw [State.reply_board_held old st bytes held]
      exact started .board high (State.takeBoard_command
        (s := { s with board := { s.board with held := none } }) parsed)
    · refine started .line (u := s.goodRecord) high ?_
      rw [State.lineBody_idle (s := s.goodRecord) pending idle]
      exact State.takeLine_command (s := s.goodRecord) parsed
    · refine started .service high ?_
      rw [State.serviceBody_idle pending idle, State.takeService_command parsed]
  case board =>
    exact (exec_resetDevice runs).trans (congrArg _ (State.answerBoard_unheld (s := s.beginReset) rfl _))
  case line =>
    exact (exec_resetDevice runs).trans (congrArg _ (State.answerLine_unmarked (s := s.beginReset) unmarked _))
  case marked =>
    exact ⟨_, exec_resetDevice_marked runs marked, State.sameThroughReset.deviceReset ⟨rfl, rfl, rfl, rfl⟩⟩
  case sending =>
    exact (exec_resetDevice runs).trans
      (congrArg _ (State.answerService_sending (s := s.beginReset) _ true sending))
  case silent =>
    exact (exec_resetDevice runs).trans (congrArg _ (State.answerService_silent (s := s.beginReset) _ true silent))
  case shutOut =>
    refine ⟨fun frame late body kind => ⟨s.sdoOf frame late, ?_⟩, fun body low top up => ?_,
      fun c n rest gap partly last => ?_⟩
    · rw [exec_boardCommandFrame high late kind, State.boardBody_pending (s := s.sent frame late) pending]
      rfl
    · rw [exec_queryRecord_up high up ⟨low, top⟩, State.lineBody_pending (s := s.goodRecord) pending,
        exec_syncRecord high (by rw [up]; simp), State.goodTaken_up _ up]
      rfl
    · rw [exec_serviceCharacter high partly, State.serviceNext_last s _ _ _ last,
        State.serviceBody_pending (s := s.setRx .hunting) pending, ite_self]
      rfl

/-! ### The handed-over reply -/

/-- A row that makes the reset from such a state makes it of s, and what the transmitters send in that state goes on
as a leftover (R196, log 21). -/
theorem exec_deviceReset {s u : State} {sending : TapSending} {frame : Option TxReply} {c : Instr}
    (row : exec c s = .next u.deviceReset) (same : s.sameThroughReset u) (tap : u.link.sending = sending)
    (service : u.service.sending = frame) : ∃ t, exec c s = .next t ∧ s.deviceResetTo t
      ∧ t.link.sending = sending.leftover ∧ t.service.sending = frame.map TxReply.leftover := by
  subst tap service
  exact ⟨_, row, same.deviceReset, rfl, rfl⟩

theorem exec_boardFetchFrame_reset {s : State} (high : s.resetLow = false) {frame body : List Byte} (late : Bool)
    (ready : s.board.slot = .ready body true) (kind : spiFrame frame = .fetch)
    (whole : body.length + 3 ≤ frame.length) : exec (.boardFetchFrame frame late) s = .next
      (State.deviceReset { s.sent frame late with
        board := { (s.sent frame late).board with slot := .none, fetchWait := none } }) := by
  rw [exec_boardFetchFrame high late kind, State.boardFetch_whole (s := s.sent frame late) ready whole]
  rfl

theorem exec_resetFetchTimeout {s : State} (high : s.resetLow = false) {k : Nat}
    (waiting : s.board.fetchWait = some k) :
    exec .resetFetchTimeout s = .next (s.elapse (fetchWaitLimit - k)).deviceReset := by
  show live s _ = _
  rw [live_of_high high, waiting]

theorem exec_replyRecordSent_reset {s : State} (high : s.resetLow = false) {body : List Byte}
    (sending : s.link.sending = .reply ⟨body, .reset⟩) : exec .replyRecordSent s = .next
      (State.deviceReset { s with
        lastTapRecord := replyRecord body, link := { s.link with sending := .idle } }) := by
  show live s _ = _
  rw [live_of_high high, sending]
  rfl

theorem exec_serviceReplySent_reset {s : State} (high : s.resetLow = false) {body : List Byte}
    (sending : s.service.sending = some ⟨body, .reset⟩) : exec .serviceReplySent s = .next
      (State.deviceReset { s with
        service := { s.service with sending := none, lastFrame := serviceFrame body } }) := by
  show live s _ = _
  rw [live_of_high high, sending]
  rfl

/-- The reply of a RESET_DEVICE discarded at the entry to DOWN makes the reset (R11, R196). -/
theorem State.lineLinkLost_reset {s : State} (waiting : ∃ r ∈ s.link.txQueue, r.origin = .reset) :
    s.lineLinkLost = State.deviceReset { s with link := { s.link with txQueue := [] } } := by
  unfold State.lineLinkLost
  exact if_pos (by simpa using waiting)

theorem State.leaveUp_txQueue (s : State) : s.leaveUp.link.txQueue = s.link.txQueue := rfl

theorem State.leaveUp_sending (s : State) : s.leaveUp.link.sending = s.link.sending := rfl

theorem State.leaveUp_sameThroughReset (s : State) : s.sameThroughReset s.leaveUp := ⟨rfl, rfl, rfl, rfl⟩

/-- A link loss with the reply of a RESET_DEVICE waiting makes the reset, the transmitters as they were (R11,
R196). -/
theorem State.linkDown_reset {s : State} (waiting : ∃ r ∈ s.link.txQueue, r.origin = .reset) :
    ∃ u, s.linkDown = u.deviceReset ∧ s.sameThroughReset u ∧ u.link.sending = s.link.sending
      ∧ u.service.sending = s.service.sending := by
  have taken := s.takeRest_accounts
  have flushed := s.takeRest.leaveUp.flushAll_accounts
  have queue : s.takeRest.leaveUp.flushAll.link.txQueue = s.link.txQueue := by
    rw [flushed.link, State.leaveUp_txQueue, taken.link]
  have tap : s.takeRest.leaveUp.flushAll.link.sending = s.link.sending := by
    rw [flushed.link, State.leaveUp_sending, taken.link]
  have same : s.sameThroughReset s.takeRest.leaveUp.flushAll :=
    (taken.sameThroughReset.trans s.takeRest.leaveUp_sameThroughReset).trans flushed.sameThroughReset
  have service : s.takeRest.leaveUp.flushAll.service = s.service := flushed.service.trans taken.service
  show ∃ u : State, s.takeRest.leaveUp.flushAll.lineLinkLost = u.deviceReset ∧ _
  generalize s.takeRest.leaveUp.flushAll = w at queue tap same service
  exact ⟨_, State.lineLinkLost_reset (by rw [queue]; exact waiting), ⟨same.low, same.pin, same.plan, same.queue⟩, tap,
    congrArg ServicePort.sending service⟩

/-- Settles O6: the state from which each way makes the reset, and what the transmitters send there. -/
theorem handedOverResetReplyResets : Obligations.HandedOverResetReplyResets := by
  unfold Obligations.HandedOverResetReplyResets
  intro s high begun record
  have leftover : record = s.link.sending.leftover := by
    show (match s.link.sending with | .reply r => TapSending.reply (begun r) | other => other) = _
    cases s.link.sending <;> rfl
  rw [leftover]
  refine ⟨fun reply frame late ready kind whole => ?fetched, fun k waiting => ?timeout, fun body sending => ?record,
    fun body sending => ?frame, fun c row up waiting => ?lost, fun tag runs marked => ?marked⟩
  case fetched =>
    exact exec_deviceReset (exec_boardFetchFrame_reset high late ready kind whole) ⟨rfl, rfl, rfl, rfl⟩ rfl rfl
  case timeout => exact exec_deviceReset (exec_resetFetchTimeout high waiting) (s.elapse_sameThroughReset _) rfl rfl
  case record =>
    exact exec_deviceReset (sending := .idle) (exec_replyRecordSent_reset high sending) ⟨rfl, rfl, rfl, rfl⟩ rfl rfl
  case frame =>
    exact exec_deviceReset (frame := none) (exec_serviceReplySent_reset high sending) ⟨rfl, rfl, rfl, rfl⟩ rfl rfl
  case lost =>
    rcases row with ⟨rfl, fourth⟩ | ⟨rfl, k, running⟩
    · obtain ⟨u, down, same, tap, service⟩ := State.linkDown_reset (s := { s with link := { s.link with
        badCheck := s.link.badCheck + 1, badCount := s.link.badCount + 1, rxBytes := [] } }) waiting
      refine exec_deviceReset (u := u) ?_ ⟨same.low, same.pin, same.plan, same.queue⟩ tap service
      rw [exec_badRecord high, State.badTaken_up up, ← down]
      exact congrArg Host.Outcome.next (if_pos fourth)
    · obtain ⟨u, down, same, tap, service⟩ := State.linkDown_reset (s := s.elapse (watchdogLimit - k)) waiting
      have still : (s.elapse (watchdogLimit - k)).link.state = .up := up
      refine exec_deviceReset (u := u) ?_ ((s.elapse_sameThroughReset _).trans same) tap service
      show live s _ = _
      rw [live_of_high high, running, ← down]
      simp only [still]
  case marked => exact exec_deviceReset (exec_resetDevice_marked runs marked) ⟨rfl, rfl, rfl, rfl⟩ rfl rfl

end Sys2Proof.Machine
end

section
/-! The RESET_N pin, GET_STATUS and LATCH. -/

namespace Sys2Proof.Machine

/-! ### RESET_N -/

theorem live_of_low {s : State} (low : s.resetLow = true) (t : State) : live s t = .next s := by simp [live, low]

/-- Every row but those of the RESET_N and CHANGEOVER pins is taken only while RESET_N is high (R197, log 11). -/
theorem exec_live {c : Instr} (s : State) (notAssert : c ≠ .resetNAssert)
    (notRelease : ∀ perm1 perm0, c ≠ .resetNRelease perm1 perm0)
    (notChangeover : ∀ level, c ≠ .changeoverPinChange level) : ∃ t, exec c s = live s t := by
  cases c with
  | resetNAssert => exact absurd rfl notAssert
  | resetNRelease perm1 perm0 => exact absurd rfl (notRelease perm1 perm0)
  | changeoverPinChange level => exact absurd rfl (notChangeover level)
  | _ => exact ⟨_, rfl⟩

theorem planOf_val (perm1 perm0 : Bool) : (planOf perm1 perm0).val = perm1.toNat * 2 + perm0.toNat := by
  cases perm1 <;> cases perm0 <;> rfl

theorem exec_resetNRelease {s : State} (low : s.resetLow = true) (perm1 perm0 : Bool) :
    exec (.resetNRelease perm1 perm0) s = .next { s with
      resetLow := false, plan := planOf perm1 perm0, link := { s.link with sending := .idle } } :=
  congrArg Host.Outcome.next (if_pos low)

/-- Settles O4: the assertion, the release, and each other row while RESET_N is low. -/
theorem resetPinRows : Obligations.ResetPinRows := by
  unfold Obligations.ResetPinRows
  refine ⟨fun sending => rfl, fun s => rfl,
    fun s perm1 perm0 low => ⟨_, planOf_val perm1 perm0, exec_resetNRelease low perm1 perm0⟩,
    fun s c low notAssert notRelease notChangeover => ?_⟩
  obtain ⟨t, row⟩ := exec_live s notAssert notRelease notChangeover
  rw [row, live_of_low low]

/-! ### GET_STATUS -/

theorem exec_getStatus {s : State} {p : Port} {tag : Byte} (h : s.runs p tag .getStatus) :
    exec (.getStatus p) s = .next (s.reply p tag .ok (s.statusBytes p)) := by
  obtain ⟨high, started⟩ := h
  show live s _ = _
  rw [live_of_high high, started]

theorem State.statusBytes_length (s : State) (p : Port) : (s.statusBytes p).length = 32 := by
  simp [State.statusBytes, timeBytes, tallyBytes, optTimeBytes, wordBytes]

/-- The report mode and its period in three bytes, the period 0 in MANUAL (R119, R183). -/
theorem ReportMode.bytes_eq (m : ReportMode) : m.code :: bytesBE 2 m.period = match m with
    | .auto sec => 0 :: bytesBE 2 sec
    | .manual => [1, 0, 0] := by
  cases m <;> rfl

theorem flagByte_isSome {α : Type} [DecidableEq α] (o : Option α) :
    flagByte o.isSome = if o = none then 0 else 1 := by
  cases o <;> rfl

theorem flagByte_decide (q : Prop) [Decidable q] : flagByte (decide q) = if q then 1 else 0 := by
  by_cases h : q <;> simp [flagByte, h]

/-- The results of GET_STATUS with the report mode's three bytes together (R187). -/
theorem State.statusBytes_eq (s : State) (p : Port) : s.statusBytes p =
    [s.engine.code, flagByte s.scheduleValid, s.link.state.code, flagByte s.link.timeLoaded]
      ++ timeBytes s.link.lineTime ++ tallyBytes s.tst.intervalNumber
      ++ [flagByte s.tst.sweep.isSome, s.staging.state.code, optCode Port.code s.staging.holder,
        optCode TriggerSource.code s.staging.source]
      ++ optTimeBytes s.staging.armTime ++ (s.tst.reportMode.code :: bytesBE 2 s.tst.reportMode.period)
      ++ [flagByte s.acp.lampLatch, flagByte s.lineFlag, BitVec.ofNat 8 s.plan]
      ++ wordBytes (s.acp.summaries.get p) := by
  simp [State.statusBytes]

/-- Settles O32: the bytes of a number, then the results field by field. -/
theorem getStatusResults : Obligations.GetStatusResults := by
  unfold Obligations.GetStatusResults
  refine ⟨fun n v => ⟨bytesBE_length n v, bytesBE_getElem? n v⟩, fun s p tag get => ?_⟩
  intro flag bytes
  have whole : s.statusBytes p = bytes := by
    rw [s.statusBytes_eq]
    refine congrArg₂ (· ++ ·) (congrArg₂ (· ++ ·) (congrArg₂ (· ++ ·) (congrArg₂ (· ++ ·) (congrArg₂ (· ++ ·) rfl
      (congrArg₂ (· :: ·) ?sweep (congrArg₂ (· :: ·) rfl (congrArg₂ (· :: ·) ?holder (congrArg (· :: []) ?source)))))
      ?armTime) ?mode) (congrArg₂ (· :: ·) rfl (congrArg (· :: _) ?lineFlag))) rfl
    case sweep => exact flagByte_isSome s.tst.sweep
    case holder => cases s.staging.holder with
      | none => rfl
      | some holder => cases holder <;> rfl
    case source => cases s.staging.source with
      | none => rfl
      | some source => cases source <;> rfl
    case armTime => cases s.staging.armTime <;> rfl
    case mode => exact s.tst.reportMode.bytes_eq
    case lineFlag => exact flagByte_decide (0 < s.acp.lineCount)
  rw [← whole]
  exact ⟨exec_getStatus get, s.statusBytes_length p⟩

/-! ### LATCH -/

/-- The numbers of the streams of a range are the numbers of the range (R193). -/
theorem streamRange_val (first last : Nat) (within : last < 256) :
    (streamRange first last).map Fin.val = List.range' first (last + 1 - first) := by
  have ascending : ((streamRange first last).map Fin.val).Pairwise (· < ·) :=
    (List.sortedLT_finRange 256).pairwise.filter _ |>.map Fin.val fun _ _ less => less
  refine ascending.eq_of_mem_iff List.pairwise_lt_range' fun k => ?_
  rw [List.mem_range'_1, List.mem_map]
  constructor
  · rintro ⟨i, member, rfl⟩
    have range := of_decide_eq_true (List.mem_filter.1 member).2
    omega
  · intro range
    have inside : first ≤ k ∧ k ≤ last := by omega
    exact ⟨⟨k, by omega⟩, List.mem_filter.2 ⟨List.mem_finRange _, decide_eq_true inside⟩, rfl⟩

theorem streamRange_length_eq {first last : Nat} (within : last < 256) :
    (streamRange first last).length = last + 1 - first := by
  rw [← List.length_map Fin.val, streamRange_val first last within, List.length_range']

theorem streamRange_getElem? {first last k : Nat} (h : first + k < 256) (within : last < 256)
    (inside : first + k ≤ last) : (streamRange first last)[k]? = some ⟨first + k, h⟩ := by
  have value : ((streamRange first last).map Fin.val)[k]? = some (first + k) := by
    rw [streamRange_val first last within, List.getElem?_range' (by omega), Nat.one_mul]
  rw [List.getElem?_map, Option.map_eq_some_iff] at value
  obtain ⟨i, member, is⟩ := value
  rw [member]
  exact congrArg some (Fin.ext is)

section Taken
variable {s : State} {p : Port} {tag : Byte} {first last : Nat} (h : s.runs p tag (.latch first last))
include h

theorem exec_latch_refused (bad : 255 < first ∨ latchLast first last < first) :
    exec (.latch p) s = .next (s.reply p tag .badArgument []) := by
  obtain ⟨high, started⟩ := h
  show live s _ = _
  rw [live_of_high high, started]
  exact congrArg Host.Outcome.next (if_pos bad)

/-- A LATCH fills the caller's bank with the copies of its range (R193). -/
theorem exec_latch (good : ¬ (255 < first ∨ latchLast first last < first)) :
    exec (.latch p) s = .next (State.reply
      { s with banks := s.banks.set p ((streamRange first (latchLast first last)).map s.copyOf) } p tag .ok
      (bytesBE 2 first ++ bytesBE 2 (latchLast first last)
        ++ [BitVec.ofNat 8 (latchLast first last - first + 1)])) := by
  obtain ⟨high, started⟩ := h
  show live s _ = _
  rw [live_of_high high, started, ← bytesBE_one]
  exact congrArg Host.Outcome.next (if_neg good)

end Taken

/-- Settles O34: a refused LATCH, and the bank of copies that an accepted one leaves. -/
theorem latchCopiesTheRange : Obligations.LatchCopiesTheRange := by
  unfold Obligations.LatchCopiesTheRange
  intro s p tag first last runs top
  have clamped : top = latchLast first last := rfl
  have below : latchLast first last < 256 := by unfold latchLast; omega
  rw [clamped]
  refine ⟨exec_latch_refused runs, fun low ordered =>
    ⟨_, exec_latch runs (by omega), ?length, fun k h inside => ?copy⟩⟩
  case length =>
    rw [List.length_map, streamRange_length_eq below]
    omega
  case copy =>
    rw [List.getElem?_map, streamRange_getElem? h below inside]
    rfl

end Sys2Proof.Machine
end

section
/-! Command bodies: the checks in their order, the permissions, and the layout of each command's arguments. -/

namespace Sys2Proof.Machine

/-! ### The checks -/

section Checks
variable {plan : Fin 4} {p : Port} {number : Byte} (tag : Byte) (args : List Byte)

theorem parseBody_unknown (h : permissionOf number.toNat = none) :
    parseBody plan p (number :: tag :: args) = .refusal [tag, 0x02] := by
  unfold parseBody
  simp only [h]
  rfl

theorem parseBody_denied {r : Permission} (h : permissionOf number.toNat = some r)
    (lacks : allowed plan p r = false) : parseBody plan p (number :: tag :: args) = .refusal [tag, 0x01] := by
  unfold parseBody
  simp only [h, lacks]
  rfl

theorem parseBody_allowed {r : Permission} (h : permissionOf number.toNat = some r) (may : allowed plan p r = true) :
    parseBody plan p (number :: tag :: args) = match parseArguments number.toNat args with
      | some c => .command tag c
      | none => .refusal [tag, 0x02] := by
  unfold parseBody
  simp only [h, may, if_true]
  cases parseArguments number.toNat args <;> rfl

end Checks

/-- The permissions of the catalogue's numbers, number by number (R186). -/
theorem permissionOf_eq (n : Nat) : permissionOf n =
    if n ∈ [1, 2, 3, 4, 5, 6, 7, 8, 9, 10, 11, 12] then some .read
    else if n = 16 then some .ack
    else if n = 24 then some .test
    else if n ∈ [32, 33, 34] then some .report
    else if n ∈ [48, 49, 50, 51, 52, 53, 54, 55] then some .schedule
    else if n ∈ [64, 65, 66, 79] then some .control
    else none := by
  have reads : n ∈ [1, 2, 3, 4, 5, 6, 7, 8, 9, 10, 11, 12] ↔ 1 ≤ n ∧ n ≤ 12 := by simp; omega
  have reports : n ∈ [32, 33, 34] ↔ 32 ≤ n ∧ n ≤ 34 := by simp; omega
  have schedules : n ∈ [48, 49, 50, 51, 52, 53, 54, 55] ↔ 48 ≤ n ∧ n ≤ 55 := by simp; omega
  have controls : n ∈ [64, 65, 66, 79] ↔ n = 64 ∨ n = 65 ∨ n = 66 ∨ n = 79 := by simp
  simp only [reads, reports, schedules, controls]
  rfl

/-- A number outside the catalogue has no layout of arguments (R186). -/
theorem parseArguments_unknown {n : Nat} (h : permissionOf n = none) (args : List Byte) :
    parseArguments n args = none := by
  unfold parseArguments
  split
  case h_30 => rfl
  all_goals exact absurd h (by decide)

/-! ### Layouts by length -/

section Layouts
variable {args : List Byte}

theorem parseNone_length (c : Command) (h : args.length ≠ 0) : parseNone c args = none := by
  match args, h with
  | _ :: _, _ => rfl

theorem parseByte_length (c : Nat → Command) (h : args.length ≠ 1) : parseByte c args = none := by
  unfold parseByte
  split
  · exact absurd rfl h
  · rfl

theorem parseIndex_length (c : Nat → Command) (h : args.length ≠ 2) : parseIndex c args = none := by
  unfold parseIndex
  split
  · exact absurd rfl h
  · rfl

theorem parseMask_length (c : BitVec 16 → Command) (h : args.length ≠ 2) : parseMask c args = none := by
  unfold parseMask
  split
  · exact absurd rfl h
  · rfl

theorem parseRange_length (c : Nat → Nat → Command) (h : args.length ≠ 4) : parseRange c args = none := by
  unfold parseRange
  split
  · exact absurd rfl h
  · rfl

theorem parseReportMode_length (h : args.length ≠ 3) : parseReportMode args = none := by
  unfold parseReportMode
  split
  · exact absurd rfl h
  · rfl

theorem parseStageArm_length (h : args.length ≠ 7) : parseStageArm args = none := by
  unfold parseStageArm
  split
  · exact absurd rfl h
  · rfl

theorem parseTotalMode_length (h : args.length = 0 ∨ 33 < args.length) : parseTotalMode args = none := by
  match args, h with
  | [], _ => rfl
  | _ :: positions, h => exact if_neg (by simp at h; omega)

theorem parseProfile_length (h : args.length ≠ 16) : parseProfile args = none := by
  unfold parseProfile
  split
  · exact absurd rfl h
  · rfl

theorem parseSetProfile_length (h : args.length ≠ 17) : parseSetProfile args = none := by
  match args, h with
  | [], _ => rfl
  | i :: bytes, h =>
    show (parseProfile bytes).map _ = none
    rw [parseProfile_length (by simpa using h)]
    rfl

/-- A definition has 27 bytes and the label whose length the last of them gives (R184). -/
theorem parseDefinition_length (h : args.length < 27 ∨ args.length ≠ 27 + natBE ((args.drop 26).take 1)) :
    parseDefinition args = none :=
  if_neg fun ⟨long, whole⟩ => h.elim (fun short => absurd long (by omega)) fun differs => differs whole

theorem parseStageDefine_length (h : args.length < 29) : parseStageDefine args = none := by
  match args, h with
  | [], _ => rfl
  | [_], _ => rfl
  | i1 :: i0 :: bytes, h =>
    show (parseDefinition bytes).map _ = none
    rw [parseDefinition_length (.inl (by simp at h; omega))]
    rfl

end Layouts

/-! ### Layouts by byte -/

theorem append_eq_ofNat (a b : Byte) : (a ++ b : BitVec 16) = BitVec.ofNat 16 (a.toNat * 256 + b.toNat) := by
  rw [← toNat_append_byte, BitVec.ofNat_toNat, BitVec.setWidth_eq]

/-- Six bytes of a line time as a number (R183). -/
theorem timeBytes_eq_ofNat (a b c d e f : Byte) : (a ++ b ++ c ++ d ++ e ++ f : Time) =
    BitVec.ofNat 48 ((a.toNat * 256 + b.toNat) * 4294967296
      + ((c.toNat * 256 + d.toNat) * 65536 + (e.toNat * 256 + f.toNat))) := by
  have value : (a ++ b ++ c ++ d ++ e ++ f).toNat = (a.toNat * 256 + b.toNat) * 4294967296
      + ((c.toNat * 256 + d.toNat) * 65536 + (e.toNat * 256 + f.toNat)) := by
    simp only [toNat_append_byte]
    omega
  rw [← value, BitVec.ofNat_toNat, BitVec.setWidth_eq]

/-- The 27 bytes of a definition and its label (R184). -/
theorem parseDefinition_bytewise (k3 k2 k1 k0 m3 m2 m1 m0 pathA pathB p3 p2 p1 p0 f3 f2 f1 f0 t3 t2 t1 t0 hold jump
    profile keep size : Byte) (label : List Byte) :
    parseDefinition (k3 :: k2 :: k1 :: k0 :: m3 :: m2 :: m1 :: m0 :: pathA :: pathB :: p3 :: p2 :: p1 :: p0
      :: f3 :: f2 :: f1 :: f0 :: t3 :: t2 :: t1 :: t0 :: hold :: jump :: profile :: keep :: size :: label) =
    if label.length = size.toNat then some
      { key := BitVec.ofNat 32 (natBE [k3, k2, k1, k0])
        mask := BitVec.ofNat 32 (natBE [m3, m2, m1, m0])
        pathA := pathA.toNat
        pathB := if pathB.toNat = 0xFF then none else some pathB.toNat
        period := natBE [p3, p2, p1, p0]
        phase := natBE [f3, f2, f1, f0]
        tolerance := natBE [t3, t2, t1, t0]
        hold := hold.toNat
        jump := jump.toNat
        profile := profile.toNat
        keepTallies := keep.toNat
        label := label }
    else none := by
  split
  case isTrue fits =>
    exact parseDefinition_fields [k3, k2, k1, k0] [m3, m2, m1, m0] [p3, p2, p1, p0] [f3, f2, f1, f0]
      [t3, t2, t1, t0] label pathA pathB hold jump profile keep size rfl rfl rfl rfl rfl fits.symm
  case isFalse differs =>
    refine parseDefinition_length (.inr ?_)
    show label.length + 27 ≠ 27 + natBE [size]
    rw [natBE_one]
    omega

theorem byte_eq_absent_iff (b : Byte) : b.toNat = 0xFF ↔ b = 0xFF := by
  rw [BitVec.toNat_eq]
  rfl

/-! ### The catalogue, by layout -/

section Catalogue
variable {n : Nat}

theorem parseArguments_none {c : Command}
    (h : (n, c) ∈ [(0x01, Command.getStatus), (0x04, .getLink), (0x0A, .getNotices), (0x10, .ackLamp),
      (0x20, .closeInterval), (0x33, .stageDiscard), (0x35, .stageDisarm), (0x36, .apply), (0x40, .halt),
      (0x41, .run), (0x4F, .resetDevice)]) : parseArguments n = parseNone c := by
  simp only [List.mem_cons, Prod.mk.injEq, List.not_mem_nil, or_false] at h
  rcases h with ⟨rfl, rfl⟩ | ⟨rfl, rfl⟩ | ⟨rfl, rfl⟩ | ⟨rfl, rfl⟩ | ⟨rfl, rfl⟩ | ⟨rfl, rfl⟩ | ⟨rfl, rfl⟩ | ⟨rfl, rfl⟩
    | ⟨rfl, rfl⟩ | ⟨rfl, rfl⟩ | ⟨rfl, rfl⟩ <;> rfl

theorem parseArguments_byte {c : Nat → Command}
    (h : (n, c) ∈ [(0x03, Command.getPortTallies), (0x05, .getProfile), (0x06, .stageRead),
      (0x08, .getLatched), (0x09, .popEvents)]) : parseArguments n = parseByte c := by
  simp only [List.mem_cons, Prod.mk.injEq, List.not_mem_nil, or_false] at h
  rcases h with ⟨rfl, rfl⟩ | ⟨rfl, rfl⟩ | ⟨rfl, rfl⟩ | ⟨rfl, rfl⟩ | ⟨rfl, rfl⟩ <;> rfl

theorem parseArguments_index {c : Nat → Command}
    (h : (n, c) ∈ [(0x02, Command.getStream), (0x18, .inject), (0x31, .stageRemove), (0x32, .stageDrop)]) :
    parseArguments n = parseIndex c := by
  simp only [List.mem_cons, Prod.mk.injEq, List.not_mem_nil, or_false] at h
  rcases h with ⟨rfl, rfl⟩ | ⟨rfl, rfl⟩ | ⟨rfl, rfl⟩ | ⟨rfl, rfl⟩ <;> rfl

theorem parseArguments_mask {c : BitVec 16 → Command}
    (h : (n, c) ∈ [(0x0B, Command.clearNotices), (0x0C, .setNoticeEnable)]) : parseArguments n = parseMask c := by
  simp only [List.mem_cons, Prod.mk.injEq, List.not_mem_nil, or_false] at h
  rcases h with ⟨rfl, rfl⟩ | ⟨rfl, rfl⟩ <;> rfl

theorem parseArguments_range {c : Nat → Nat → Command}
    (h : (n, c) ∈ [(0x07, Command.latch), (0x22, .clearTotals)]) : parseArguments n = parseRange c := by
  simp only [List.mem_cons, Prod.mk.injEq, List.not_mem_nil, or_false] at h
  rcases h with ⟨rfl, rfl⟩ | ⟨rfl, rfl⟩ <;> rfl

end Catalogue

/-- Settles O52: the checks in their order, the permissions, and the arguments layout by layout. -/
theorem parseChecksInOrder : Obligations.ParseChecksInOrder := by
  unfold Obligations.ParseChecksInOrder
  intro two four route
  have pair (a b : Byte) : natBE [a, b] = two a b := natBE_two a b
  have quad (a b c d : Byte) : natBE [a, b, c, d] = four a b c d := natBE_four a b c d
  refine ⟨fun plan p b => rfl, fun plan p number tag args => parseBody_unknown tag args,
    fun plan p number tag args r => parseBody_denied tag args,
    fun plan p number tag args r => parseBody_allowed tag args,
    fun r => ?plans, permissionOf_eq, fun n => parseArguments_unknown, fun n c entry => ?noArguments,
    fun n c entry => ?byte, fun n c entry => ?index, fun n c entry => ?mask, fun n c entry => ?range,
    ⟨fun mode a b => ?reportMode, fun args => parseReportMode_length⟩,
    ⟨fun source a b c d e f => ?stageArm, fun args => parseStageArm_length⟩,
    ⟨fun mode positions fits => ?totalMode, fun args => parseTotalMode_length⟩,
    ⟨?stageDefine, fun args => parseStageDefine_length⟩, ?setProfile, fun args => parseSetProfile_length⟩
  case plans =>
    cases r <;> exact ⟨rfl, rfl, by decide, rfl, by decide, by decide, fun p => rfl, by decide, rfl, by decide⟩
  case noArguments =>
    rw [parseArguments_none entry]
    exact ⟨rfl, fun args => parseNone_length c⟩
  case byte =>
    rw [parseArguments_byte entry]
    exact ⟨fun a => rfl, fun args => parseByte_length c⟩
  case index =>
    rw [parseArguments_index entry]
    refine ⟨fun a b => ?_, fun args => parseIndex_length c⟩
    rw [← pair]
    rfl
  case mask =>
    rw [parseArguments_mask entry]
    refine ⟨fun a b => ?_, fun args => parseMask_length c⟩
    exact congrArg (fun mask => some (c mask)) (append_eq_ofNat a b)
  case range =>
    rw [parseArguments_range entry]
    refine ⟨fun f1 f0 l1 l0 => ?_, fun args => parseRange_length c⟩
    rw [← pair, ← pair]
    rfl
  case reportMode =>
    rw [← pair]
    rfl
  case stageArm =>
    exact congrArg (fun time => some (Command.stageArm source.toNat time)) (timeBytes_eq_ofNat a b c d e f)
  case totalMode => exact if_pos fits
  case stageDefine =>
    intro i1 i0 k3 k2 k1 k0 m3 m2 m1 m0 pathA pathB p3 p2 p1 p0 f3 f2 f1 f0 t3 t2 t1 t0 hold jump profile keep size
      label
    simp only [← pair, ← quad, ← byte_eq_absent_iff]
    refine (congrArg (Option.map _) (parseDefinition_bytewise k3 k2 k1 k0 m3 m2 m1 m0 pathA pathB p3 p2 p1 p0
      f3 f2 f1 f0 t3 t2 t1 t0 hold jump profile keep size label)).trans ?_
    split <;> rfl
  case setProfile =>
    intro i d1 d0 l1 l0 r1 r0 p1 p0 declare clear mode drop late reorder path silent
    simp only [← pair]
    rfl

end Sys2Proof.Machine
end

section
/-! The queue: a step runs the command at its front on its rest, and no operation of the part changes it, so that
every row answers a next state with the queue as it was. -/

namespace Sys2Proof.Machine

/-! ### The front of the queue -/

theorem step_of_front {s : State} {c : Instr} {rest : List Instr} (front : s.pending = c :: rest) :
    step s = exec c { s with pending := rest } := by
  unfold step; rw [front]

/-- Settles O1: with a command put in front, the rest of the queue is the queue of before. -/
theorem stepRunsTheFrontCommand : Obligations.StepRunsTheFrontCommand := by
  unfold Obligations.StepRunsTheFrontCommand
  intro c s
  exact step_of_front (s := { s with pending := c :: s.pending }) rfl

/-! ### Work on the streams -/

section Streams
variable (s : State)

@[simp] theorem State.updStream_queue (i : StreamIx) (f : Stream → Stream) :
    (s.updStream i f).pending = s.pending := rfl

@[simp] theorem State.post_queue (n : Notice) : (s.post n).pending = s.pending :=
  (s.post_worksOn n 0).accounts.pending

@[simp] theorem State.evaluate_queue (i : StreamIx) (classes : List AlarmClass) (gov : Option Profile) :
    (s.evaluate i classes gov).pending = s.pending := (s.evaluate_worksOn i classes gov).accounts.pending

@[simp] theorem State.evaluateAll_queue (i : StreamIx) : (s.evaluateAll i).pending = s.pending :=
  (s.evaluateAll_worksOn i).accounts.pending

@[simp] theorem State.postGroup_queue (i : StreamIx) (g : Group) : (s.postGroup i g).pending = s.pending :=
  (s.postGroup_worksOn i g).accounts.pending

@[simp] theorem State.flushAll_queue : s.flushAll.pending = s.pending := s.flushAll_accounts.pending

@[simp] theorem State.rebaseAll_queue : s.rebaseAll.pending = s.pending := s.rebaseAll_accounts.pending

@[simp] theorem State.takeRest_queue : s.takeRest.pending = s.pending := s.takeRest_accounts.pending

@[simp] theorem takings_queue (ks : List StreamIx) : (ks.foldl State.takeOne s).pending = s.pending :=
  (takings_accounts ks s).pending

@[simp] theorem State.takeIfNext_queue (i : StreamIx) (e : Expiry) (here : Bool) :
    (s.takeIfNext i e here).pending = s.pending := (s.takeIfNext_keepsOn i e here).accounts.pending

@[simp] theorem State.arrive_queue (i : StreamIx) (p : Path) (q : Seq) (a : Time) :
    (s.arrive i p q a).pending = s.pending := (s.arrive_keepsOn i p q a).accounts.pending

@[simp] theorem State.haltEngine_queue : s.haltEngine.pending = s.pending := s.haltEngine_accounts.pending

@[simp] theorem State.moveSweep_queue (i : StreamIx) : (s.moveSweep i).pending = s.pending :=
  (State.moveSweep_accounts s i).pending

@[simp] theorem State.visit_queue (i : StreamIx) : (s.visit i).pending = s.pending := by
  simp [State.visit]

@[simp] theorem State.closeRequest_queue : s.closeRequest.pending = s.pending := by
  unfold State.closeRequest; split <;> rfl

end Streams

/-! ### The Staging Unit -/

section Staging
variable (s : State)

@[simp] theorem State.applyList_queue (t : Time) : (s.applyList t).pending = s.pending :=
  (State.post_queue _ .applied).trans (applyEntries_accounts t _ s).pending

@[simp] theorem State.offer_queue : s.offer.pending = s.pending := by
  unfold State.offer
  split
  · split
    · exact s.applyList_queue _
    · rfl
  · rfl

@[simp] theorem State.changeoverEdge_queue : s.changeoverEdge.pending = s.pending := by
  unfold State.changeoverEdge
  split
  · exact s.post_queue _
  · exact s.applyList_queue _
  · exact s.post_queue _

@[simp] theorem State.touch_queue (p : Port) : (s.touch p).pending = s.pending := by
  unfold State.touch; split <;> rfl

@[simp] theorem State.dropEntry_queue (k : Nat) : (s.dropEntry k).pending = s.pending := by
  unfold State.dropEntry; simp only; split <;> rfl

end Staging

/-! ### The ports -/

theorem onlyPorts.pending {s t : State} (h : onlyPorts s t) : t.pending = s.pending := by rw [h]

section Ports
variable (s : State)

@[simp] theorem State.setRunning_queue (p : Port) (r : Running) : (s.setRunning p r).pending = s.pending :=
  (s.setRunning_onlyPort p r).ports.pending

@[simp] theorem State.boardBody_queue (body : List Byte) : (s.boardBody body).pending = s.pending :=
  (s.boardBody_onlyPort body).ports.pending

@[simp] theorem State.lineBody_queue (body : List Byte) : (s.lineBody body).pending = s.pending :=
  (s.lineBody_onlyPorts body).pending

@[simp] theorem State.serviceBody_queue (body : List Byte) : (s.serviceBody body).pending = s.pending :=
  (s.serviceBody_onlyPorts body).pending

/-- A reply leaves the queue, the reset of a discarded RESET_DEVICE reply included (R180, R196). -/
theorem State.answer_queue (p : Port) (reply : List Byte) (isReset : Bool) :
    (s.answer p reply isReset).pending = s.pending := by
  cases p with
  | board =>
    show (s.answerBoard reply isReset).pending = _
    unfold State.answerBoard
    split
    · exact (State.takeBoard_onlyPort _ _).ports.pending
    · rfl
  | line =>
    show (s.answerLine reply isReset).pending = _
    unfold State.answerLine
    split
    · cases isReset <;> rfl
    · rfl
  | service => rfl

@[simp] theorem State.reply_queue (p : Port) (tag : Byte) (st : Status) (results : List Byte) :
    (s.reply p tag st results).pending = s.pending := s.answer_queue p _ false

@[simp] theorem State.goOnReevaluating_queue (p : Port) (tag : Byte) (k : ProfileIx) (low : Nat)
    (before : Profile) : (s.goOnReevaluating p tag k low before).pending = s.pending := by
  unfold State.goOnReevaluating
  split
  · exact s.setRunning_queue p _
  · exact s.reply_queue p tag _ _

@[simp] theorem State.boardFetch_queue (n : Nat) : (s.boardFetch n).pending = s.pending := by
  unfold State.boardFetch
  split
  · rename_i isReset _
    split
    · cases isReset <;> rfl
    · rfl
  · rfl

@[simp] theorem State.boardFrame_queue (frame : List Byte) (late : Bool) :
    (s.boardFrame frame late).pending = s.pending := by
  unfold State.boardFrame
  simp only
  split
  · exact State.boardBody_queue _ _
  · exact State.boardFetch_queue _ _
  · rfl

@[simp] theorem State.setRx_queue (rx : ServiceRx) : (s.setRx rx).pending = s.pending := rfl

@[simp] theorem State.serviceNext_queue (bytes : List Byte) (c : Byte) :
    (s.serviceNext bytes c).pending = s.pending := by
  unfold State.serviceNext
  simp only
  split
  · split <;> rfl
  · split
    · rfl
    split
    · exact State.serviceBody_queue _ _
    · rfl
  · rfl

@[simp] theorem State.serviceSent_queue (r : TxReply) : (s.serviceSent r).pending = s.pending := by
  unfold State.serviceSent; simp only; split <;> rfl

@[simp] theorem State.tapReplySent_queue (r : TxReply) : (s.tapReplySent r).pending = s.pending := by
  unfold State.tapReplySent; simp only; split <;> rfl

/-- A staging command answered once it has restarted the abandonment timer (R167). -/
theorem State.touch_reply_queue (p : Port) (tag : Byte) (st : Status) (results : List Byte) :
    ((s.touch p).reply p tag st results).pending = s.pending :=
  (State.reply_queue _ p tag st results).trans (s.touch_queue p)

/-- An entry staged or refused, the command is answered (R156). -/
@[simp] theorem State.stage_queue (p : Port) (tag : Byte) (index : Nat) (firstBad : Option Nat)
    (mk : StreamIx → StageEntry) : (s.stage p tag index firstBad mk).pending = s.pending := by
  unfold State.stage
  simp only
  split
  · exact s.touch_reply_queue p _ _ _
  split
  · exact s.touch_reply_queue p _ _ _
  split
  · exact s.touch_reply_queue p _ _ _
  split
  · exact s.touch_reply_queue p _ _ _
  · unfold State.stageChecked
    simp only
    split
    · exact s.touch_reply_queue p _ _ _
    · exact (State.reply_queue _ _ _ _ _).trans (s.touch_queue p)

end Ports

/-! ### The receive side of the tap link -/

section Link
variable (s : State)

@[simp] theorem State.lineLinkLost_queue : s.lineLinkLost.pending = s.pending := by
  unfold State.lineLinkLost
  simp only
  split
  · rfl
  split
  · rfl
  · rfl
  · split <;> rfl

@[simp] theorem State.leaveUp_queue : s.leaveUp.pending = s.pending := State.post_queue _ _

@[simp] theorem State.linkDown_queue : s.linkDown.pending = s.pending := by simp [State.linkDown]

@[simp] theorem State.alignGood_queue : s.alignGood.pending = s.pending := by
  unfold State.alignGood; simp only; split <;> rfl

@[simp] theorem State.badTaken_queue : s.badTaken.pending = s.pending := by
  unfold State.badTaken
  split
  · rfl
  · rfl
  · unfold State.badInUp
    simp only
    split
    · exact State.linkDown_queue _
    · rfl

theorem State.goodTaken_queue {up : State → State} (leaves : ∀ t, (up t).pending = t.pending) :
    (s.goodTaken up).pending = s.pending := by
  unfold State.goodTaken
  split
  · rfl
  · exact s.alignGood_queue
  · exact leaves s.goodRecord

@[simp] theorem State.loadTime_queue (a : Time) : (s.loadTime a).pending = s.pending := by
  simp [State.loadTime]

@[simp] theorem State.advance_queue (a : Time) (ks : List StreamIx) : (s.advance a ks).pending = s.pending := by
  simp [State.advance, State.beginTakings, State.setTime]

@[simp] theorem State.timeStep_queue (a : Time) : (s.timeStep a).pending = s.pending := by
  simp [State.timeStep]

@[simp] theorem State.compareStamp_queue (a : Time) (ks : List StreamIx) :
    (s.compareStamp a ks).pending = s.pending := by
  unfold State.compareStamp
  simp only
  split
  · rfl
  split
  · exact s.advance_queue a ks
  split
  · rfl
  · exact s.timeStep_queue a

@[simp] theorem State.handleStamp_queue (a : Time) (ks : List StreamIx) :
    (s.handleStamp a ks).pending = s.pending := by
  unfold State.handleStamp; split <;> simp

@[simp] theorem State.matched_queue (i : StreamIx) (d : Descriptor) : (s.matched i d).pending = s.pending := by
  unfold State.matched
  split
  · exact State.postGroup_queue _ _ _
  · simp only
    split
    · exact State.arrive_queue _ _ _ _ _
    · rfl

@[simp] theorem State.classify_queue (d : Descriptor) : (s.classify d).pending = s.pending := by
  unfold State.classify
  split
  · rfl
  split
  · rfl
  split
  · rfl
  split
  · exact s.matched_queue _ d
  · rfl

end Link

/-! ### Every row -/

/-- The row's result r of s is a next state, with the queue of s. -/
def leavesQueue (s : State) (r : Result State) : Prop := ∃ t, r = .next t ∧ t.pending = s.pending

theorem leavesQueue.next {s t : State} (h : t.pending = s.pending) : leavesQueue s (.next t) := ⟨t, rfl, h⟩

/-- A row taken unless RESET_N is low leaves the queue if its effect does. -/
theorem leavesQueue.live {s t : State} (h : t.pending = s.pending) : leavesQueue s (live s t) := by
  refine .next ?_
  split
  · rfl
  · exact h

/-- The row of an expiry (R71, R74 to R78, R88). -/
theorem takeIfNext_leavesQueue (s : State) (i : StreamIx) (e : Expiry) (here : Bool) :
    leavesQueue s (live s (s.takeIfNext i e here)) := .live (s.takeIfNext_queue i e here)

section Rows
variable (s : State)

theorem execResetNRelease_leavesQueue (perm1 perm0 : Bool) : leavesQueue s (execResetNRelease perm1 perm0 s) := by
  refine .next ?_
  split <;> rfl

theorem execSyncDetected_leavesQueue : leavesQueue s (execSyncDetected s) := by
  refine .live ?_
  split <;> rfl

theorem execAlignmentRecord_leavesQueue (good : Bool) : leavesQueue s (execAlignmentRecord good s) := by
  refine .live ?_
  split
  · cases good
    · rfl
    · exact s.alignGood_queue
  · rfl

theorem execWatchdogExpiry_leavesQueue : leavesQueue s (execWatchdogExpiry s) := by
  refine .live ?_
  split
  · rfl
  · simp only
    split
    · rfl
    · rfl
    · exact State.linkDown_queue _

theorem execSyncRecord_leavesQueue : leavesQueue s (execSyncRecord s) := by
  refine .live ?_
  split
  · rfl
  · exact s.goodTaken_queue fun _ => rfl

theorem execDescRecord_leavesQueue (d : Descriptor) (ks : List StreamIx) :
    leavesQueue s (execDescRecord d ks s) :=
  .live (s.goodTaken_queue fun t => (State.classify_queue _ d).trans (t.handleStamp_queue d.stamp ks))

theorem execQueryRecord_leavesQueue (body : List Byte) : leavesQueue s (execQueryRecord body s) := by
  refine .live ?_
  split
  · exact s.goodTaken_queue fun t => t.lineBody_queue body
  · exact s.badTaken_queue

theorem execServiceCharacter_leavesQueue (c : Byte) (framingError : Bool) :
    leavesQueue s (execServiceCharacter c framingError s) := by
  refine .live ?_
  split
  · split <;> rfl
  · split
    · rfl
    · exact s.serviceNext_queue _ c

theorem execReplyRecordSent_leavesQueue : leavesQueue s (execReplyRecordSent s) := by
  refine .live ?_
  split
  · exact s.tapReplySent_queue _
  · rfl

theorem execServiceReplySent_leavesQueue : leavesQueue s (execServiceReplySent s) := by
  refine .live ?_
  split
  · exact s.serviceSent_queue _
  · rfl

theorem execIntervalTimerExpiry_leavesQueue : leavesQueue s (execIntervalTimerExpiry s) := by
  refine .live ?_
  split
  · exact State.closeRequest_queue _
  · rfl

theorem execSweepVisit_leavesQueue : leavesQueue s (execSweepVisit s) := by
  refine .live ?_
  split
  · exact s.visit_queue _
  · rfl

theorem execAbandonmentTimerExpiry_leavesQueue : leavesQueue s (execAbandonmentTimerExpiry s) := by
  refine .live ?_
  split
  · exact State.post_queue _ _
  · rfl

theorem execChangeoverPinChange_leavesQueue (level : Bool) :
    leavesQueue s (execChangeoverPinChange level s) := by
  refine .next ?_
  split
  · rfl
  split <;> rfl

theorem execChangeoverFilterExpiry_leavesQueue : leavesQueue s (execChangeoverFilterExpiry s) := by
  refine .live ?_
  split
  · simp only
    split
    · exact State.changeoverEdge_queue _
    · rfl
  · rfl

end Rows

section CommandRows
variable (s : State) (p : Port)

theorem execLatch_leavesQueue : leavesQueue s (execLatch p s) := by
  refine .live ?_
  split
  · simp only
    split <;> exact State.reply_queue _ _ _ _ _
  · rfl

theorem execSetNoticeEnable_leavesQueue : leavesQueue s (execSetNoticeEnable p s) := by
  refine .live ?_
  split
  · split
    · exact s.reply_queue p _ _ _
    split <;> exact State.reply_queue _ _ _ _ _
  · rfl

theorem execInject_leavesQueue : leavesQueue s (execInject p s) := by
  refine .live ?_
  split
  · split
    · exact s.reply_queue p _ _ _
    split <;> exact State.reply_queue _ _ _ _ _
  · rfl

theorem execClearTotals_leavesQueue : leavesQueue s (execClearTotals p s) := by
  refine .live ?_
  split
  · split
    · exact s.reply_queue p _ _ _
    split
    · exact s.reply_queue p _ _ _
    · exact s.setRunning_queue p _
  · rfl

theorem execClearTotalsStreamStep_leavesQueue : leavesQueue s (execClearTotalsStreamStep p s) := by
  refine .live ?_
  split
  · simp only
    split
    · exact State.setRunning_queue _ p _
    · exact State.reply_queue _ p _ _ _
  · rfl

theorem execSetTotalMode_leavesQueue : leavesQueue s (execSetTotalMode p s) := by
  refine .live ?_
  split
  · split
    · exact s.reply_queue p _ _ _
    split
    · exact s.reply_queue p _ _ _
    split <;> exact State.reply_queue _ _ _ _ _
  · rfl

theorem execSetProfile_leavesQueue : leavesQueue s (execSetProfile p s) := by
  refine .live ?_
  split
  · split
    · split
      · exact s.reply_queue p _ _ _
      · exact State.goOnReevaluating_queue _ p _ _ _ _
    · exact s.reply_queue p _ _ _
  · rfl

theorem execProfileReevaluation_leavesQueue : leavesQueue s (execProfileReevaluation p s) := by
  refine .live ?_
  split
  · split
    · exact (State.goOnReevaluating_queue _ p _ _ _ _).trans (s.evaluateAll_queue _)
    · exact s.reply_queue p _ _ _
  · rfl

theorem execStageDrop_leavesQueue : leavesQueue s (execStageDrop p s) := by
  refine .live ?_
  split
  · simp only
    split
    · exact s.touch_reply_queue p _ _ _
    split
    · exact s.touch_reply_queue p _ _ _
    split
    · exact s.touch_reply_queue p _ _ _
    split
    · exact s.touch_reply_queue p _ _ _
    · simp
  · rfl

theorem execStageDiscard_leavesQueue : leavesQueue s (execStageDiscard p s) := by
  refine .live ?_
  split
  · split
    · exact s.reply_queue p _ _ _
    split <;> exact State.reply_queue _ p _ _ _
  · rfl

theorem execStageArm_leavesQueue : leavesQueue s (execStageArm p s) := by
  refine .live ?_
  split
  · simp only
    split
    · exact s.touch_reply_queue p _ _ _
    split
    · exact s.touch_reply_queue p _ _ _
    split
    · exact s.touch_reply_queue p _ _ _
    split
    · exact s.touch_reply_queue p _ _ _
    · exact (State.reply_queue _ p _ _ _).trans (s.touch_queue p)
  · rfl

theorem execStageDisarm_leavesQueue : leavesQueue s (execStageDisarm p s) := by
  refine .live ?_
  split
  · simp only
    split
    · exact s.touch_reply_queue p _ _ _
    split
    · exact s.touch_reply_queue p _ _ _
    split
    · exact s.touch_reply_queue p _ _ _
    · exact (State.reply_queue _ p _ _ _).trans (s.touch_queue p)
  · rfl

theorem execApply_leavesQueue : leavesQueue s (execApply p s) := by
  refine .live ?_
  split
  · simp only
    split
    · simp
    split
    · exact s.touch_reply_queue p _ _ _
    split
    · exact s.touch_reply_queue p _ _ _
    · simp
  · rfl

end CommandRows

/-- Every row is total and leaves the queue. -/
theorem exec_leavesQueue (c : Instr) (s : State) : leavesQueue s (exec c s) := by
  cases c with
  | resetNAssert => exact .next rfl
  | resetNRelease perm1 perm0 => exact execResetNRelease_leavesQueue s perm1 perm0
  | syncDetected => exact execSyncDetected_leavesQueue s
  | alignmentRecord good => exact execAlignmentRecord_leavesQueue s good
  | watchdogExpiry => exact execWatchdogExpiry_leavesQueue s
  | badRecord => exact .live s.badTaken_queue
  | syncRecord => exact execSyncRecord_leavesQueue s
  | malformedRecord => exact .live (s.goodTaken_queue fun _ => rfl)
  | tickRecord a ks => exact .live (s.goodTaken_queue fun t => t.handleStamp_queue a ks)
  | descRecord d ks => exact execDescRecord_leavesQueue s d ks
  | queryRecord body => exact execQueryRecord_leavesQueue s body
  | replyRecordSent => exact execReplyRecordSent_leavesQueue s
  | slotMiss i | unanchoredSlotMiss i | silentCatchUp i | haltedCatchUp i =>
    exact takeIfNext_leavesQueue s i .miss _
  | holdExpiry i q => exact takeIfNext_leavesQueue s i (.hold q) true
  | boardCommandFrame frame late | boardFetchFrame frame late | boardFrameDiscarded frame late =>
    exact .live (s.boardFrame_queue frame late)
  | serviceCharacter b framingError => exact execServiceCharacter_leavesQueue s b framingError
  | serviceBreak => exact .live rfl
  | serviceReplySent => exact execServiceReplySent_leavesQueue s
  | serviceCharacterTimeout | resetFetchTimeout | idleRecordSent =>
    -- The queue is untouched in each case of the timer or the transmitter.
    refine .live ?_
    split <;> rfl
  | getStatus p | getLink p | getNotices p | popEvents p | halt p | run p =>
    -- One answer, on a state with the queue of s; no effect where the port runs another command.
    refine .live ?_
    split
    · simp
    · rfl
  | getStream p | getPortTallies p | getProfile p | stageRead p | getLatched p | clearNotices p | ackLamp p
  | closeInterval p | setReportMode p =>
    -- Refused or carried out, the command is answered.
    refine .live ?_
    split
    · split <;> exact State.reply_queue _ p _ _ _
    · rfl
  | latch p => exact execLatch_leavesQueue s p
  | setNoticeEnable p => exact execSetNoticeEnable_leavesQueue s p
  | inject p => exact execInject_leavesQueue s p
  | clearTotals p => exact execClearTotals_leavesQueue s p
  | clearTotalsStreamStep p => exact execClearTotalsStreamStep_leavesQueue s p
  | stageDefine p | stageRemove p =>
    refine .live ?_
    split
    · exact s.stage_queue p _ _ _ _
    · rfl
  | stageDrop p => exact execStageDrop_leavesQueue s p
  | stageDiscard p => exact execStageDiscard_leavesQueue s p
  | stageArm p => exact execStageArm_leavesQueue s p
  | stageDisarm p => exact execStageDisarm_leavesQueue s p
  | apply p => exact execApply_leavesQueue s p
  | setProfile p => exact execSetProfile_leavesQueue s p
  | profileReevaluation p => exact execProfileReevaluation_leavesQueue s p
  | setTotalMode p => exact execSetTotalMode_leavesQueue s p
  | resetDevice p =>
    refine .live ?_
    split
    · exact State.answer_queue _ p _ true
    · rfl
  | intervalTimerExpiry => exact execIntervalTimerExpiry_leavesQueue s
  | sweepVisit => exact execSweepVisit_leavesQueue s
  | abandonmentTimerExpiry => exact execAbandonmentTimerExpiry_leavesQueue s
  | changeoverPinChange level => exact execChangeoverPinChange_leavesQueue s level
  | changeoverFilterExpiry => exact execChangeoverFilterExpiry_leavesQueue s

/-- Settles O3: row by row, each shared operation leaving the queue. -/
theorem everyCommandCompletes : Obligations.EveryCommandCompletes := by
  unfold Obligations.EveryCommandCompletes
  exact exec_leavesQueue

end Sys2Proof.Machine
end
